-- ==== Sys2Proof/Word.lean ====
section
/-!
DEFINITION. The word types of the Z8 (R3, R4) and their plainest arithmetic.
-/

namespace Sys2Proof

/-- A byte is 8 bits (R4). -/
abbrev Byte := BitVec 8

/-- Scalar registers and system registers hold dwords of 64 bits (R4, R7). -/
abbrev Word := BitVec 64

/-- The number of a scalar or vector register, one of 32 (R7). -/
abbrev RegNo := Fin 32

/-- Bits hi : lo of a number, as the manual writes them (R3). -/
def bits (w hi lo : Nat) : Nat := w / 2 ^ lo % 2 ^ (hi + 1 - lo)

/-- One bit of a number, as a truth value. -/
def bit (w i : Nat) : Bool := w / 2 ^ i % 2 == 1

/-- A number read as two's complement in w bits. -/
def signedOf (w n : Nat) : Int :=
  if n % 2 ^ w < 2 ^ (w - 1) then (n % 2 ^ w : Nat) else ((n % 2 ^ w : Nat) : Int) - ((2 ^ w : Nat) : Int)

/-- An integer cut to w bits (R36: results wrap modulo 2^w). -/
def wrapTo (w : Nat) (x : Int) : Nat := (x % ((2 ^ w : Nat) : Int)).toNat

/-- The least multiple count: n divided by k, rounded up. -/
def ceilDiv (n k : Nat) : Nat := (n + k - 1) / k

end Sys2Proof
end

