-- ==== Sys2Proof/Syntax.lean ====
section
/-!
DEFINITION. The syntax of a step of the Z8: the instructions of the opcode map (R219) with their operand
forms (R211 to R217), and the events of the opcode table that no instruction word encodes. Each constructor of
Instr is one row of spec/opcode_table.json.
-/

namespace Sys2Proof

/-- The two sequencers of a core (R135). -/
inductive Side where
  | A
  | X
  deriving DecidableEq, Repr

/-- A core: its pane and its logical index within the pane (R9, R174). -/
structure CoreId where
  pane : Fin 8
  idx  : Fin 256
  deriving DecidableEq, Repr

/-! ## Operand forms of instruction words -/

/-- The second operand of an R-format scalar instruction: register b with its full/empty control, or the IMM32 of
the extended form (R229, R232). -/
inductive Src2 where
  | reg (b : RegNo) (fb : Bool)
  | imm (v : BitVec 32)
  deriving DecidableEq, Repr

/-- R-format scalar instruction with two sources (R229, R232). -/
structure AluF where
  d   : RegNo
  a   : RegNo
  fa  : Bool
  src : Src2
  deriving DecidableEq, Repr

/-- R-format scalar instruction with one source (clz, ctz, popc; R229). -/
structure UnF where
  d  : RegNo
  a  : RegNo
  fa : Bool
  deriving DecidableEq, Repr

/-- An I-format immediate: imm16, or the IMM32 of the extended form (R215, R230). -/
inductive Imm where
  | short (v : BitVec 16)
  | long  (v : BitVec 32)
  deriving DecidableEq, Repr

/-- I format (R230). -/
structure ImmF where
  d   : RegNo
  a   : RegNo
  imm : Imm
  deriving DecidableEq, Repr

/-- I format of the shift immediates (R231). -/
structure ShImmF where
  d : RegNo
  a : RegNo
  n : Fin 64
  deriving DecidableEq, Repr

/-- The displacement of a B-format transfer: disp22, or the IMM32 of the extended form (R211, R233). -/
inductive Disp where
  | short (v : BitVec 22)
  | long  (v : BitVec 32)
  deriving DecidableEq, Repr

/-- A source register with its full/empty control (R81, R211). -/
structure SrcR where
  r  : RegNo
  fe : Bool
  deriving DecidableEq, Repr

/-- A register source, or the IMM32 of the extended form in its place (R303, R307, R313). -/
inductive RegOrImm where
  | reg (a : SrcR)
  | imm (v : BitVec 32)
  deriving DecidableEq, Repr

/-- A scalar register of a VR-format field (always FE = 0, R212), or the IMM32 of the extended form. -/
inductive VIdx where
  | reg (b : RegNo)
  | imm (v : BitVec 32)
  deriving DecidableEq, Repr

/-- The address of a scalar access: base alone, base plus IMM32, or base plus index (R228, R236). -/
inductive AddrM where
  | base
  | off (v : BitVec 32)
  | index (b : SrcR)
  deriving DecidableEq, Repr

/-- ld (R236); sx asks for sign extension. -/
structure LdF where
  d    : RegNo
  a    : SrcR
  addr : AddrM
  sz   : Fin 4
  sx   : Bool
  deriving DecidableEq, Repr

/-- st (R236); d is the data register. -/
structure StF where
  d    : RegNo
  a    : SrcR
  addr : AddrM
  sz   : Fin 4
  deriving DecidableEq, Repr

/-- The extended fields of ldq: address offset, tag, scale form (R239). -/
structure LdqX where
  off : BitVec 32
  tg  : Fin 32
  scl : Fin 4
  deriving DecidableEq, Repr

/-- ldq (R239); tc is the tag code of the short form. -/
structure LdqF where
  q   : Fin 4
  a   : SrcR
  tc  : Fin 8
  ext : Option LdqX
  deriving DecidableEq, Repr

/-- ldqs and ldqx (R239); ext is the tag of the extended form. -/
structure LdqsF where
  q   : Fin 4
  a   : SrcR
  b   : SrcR
  tc  : Fin 8
  ext : Option (Fin 32)
  deriving DecidableEq, Repr

/-- ldab (R249); wide asks for dv16. -/
structure LdabF where
  q    : Fin 4
  a    : SrcR
  b    : SrcR
  wide : Bool
  deriving DecidableEq, Repr

/-- stq (R244): the extended form gives an offset and a tag. -/
structure StqF where
  q   : Fin 2
  a   : SrcR
  ext : Option (BitVec 32 × Fin 32)
  deriving DecidableEq, Repr

/-- stqs and stqx (R244): the extended form gives a tag. -/
structure StqsF where
  q   : Fin 2
  a   : SrcR
  b   : SrcR
  ext : Option (Fin 32)
  deriving DecidableEq, Repr

/-- stqp (R248). -/
structure StqpF where
  q : Fin 2
  a : SrcR
  b : SrcR
  deriving DecidableEq, Repr

/-- stab (R249); wide asks for dv16. -/
structure StabF where
  q    : Fin 2
  a    : SrcR
  b    : SrcR
  wide : Bool
  deriving DecidableEq, Repr

/-- Scopes of acquires, releases and fences (R92). -/
inductive Scope where
  | core
  | gang
  | pane
  | dev
  | sys
  deriving DecidableEq, Repr

/-- The operations of amo (R252). -/
inductive AmoOp where
  | add
  | and
  | or
  | xor
  | min
  | max
  | swap
  | cas
  deriving DecidableEq, Repr

/-- amo, valid only in extended form (R252). -/
structure AmoF where
  d     : RegNo
  a     : SrcR
  b     : SrcR
  scope : Scope
  off   : BitVec 32
  c     : RegNo
  tg    : Fin 32
  op    : AmoOp
  acq   : Bool
  rel   : Bool
  det   : Bool
  deriving DecidableEq, Repr

/-- amoqx, valid only in extended form (R254). -/
structure AmoqxF where
  q     : Fin 2
  a     : SrcR
  b     : SrcR
  scope : Scope
  tg    : Fin 32
  op    : AmoOp
  acq   : Bool
  rel   : Bool
  deriving DecidableEq, Repr

/-- mmp (R308): k is the register d holding K, or IMM32. -/
structure MmpF where
  t : Fin 8
  a : SrcR
  b : SrcR
  k : VIdx
  deriving DecidableEq, Repr

/-- mdrain (R313). -/
structure MdrainF where
  q    : Fin 4
  t    : Fin 8
  spec : RegOrImm
  deriving DecidableEq, Repr

/-- The predicate of a VR instruction: its mask, and whether it is inverted (R211, R222). -/
structure Pred where
  m  : Fin 16
  pn : Bool
  deriving DecidableEq, Repr

/-- A vector element source: a register, or the entry popped from a load queue (R213). -/
inductive VSrc where
  | reg (v : RegNo)
  | lq  (n : Fin 4)
  deriving DecidableEq, Repr

/-- A vector element source that may also be a scalar broadcast (SB, R264). -/
inductive VSrcB where
  | reg  (v : RegNo)
  | lq   (n : Fin 4)
  | scal (s : RegNo)
  deriving DecidableEq, Repr

/-- A vector destination: a register, or an entry pushed into a store queue (R213). -/
inductive VDst where
  | reg (v : RegNo)
  | sq  (n : Fin 2)
  deriving DecidableEq, Repr

/-- The extended fields of majors 0x1F and 0x20 but SB and c (R264). -/
structure ArithX where
  tg  : Fin 32
  ms  : Fin 16
  sat : Bool
  deriving DecidableEq, Repr

/-- Two-source element-wise instruction (R268). -/
structure V2F where
  d   : VDst
  a   : VSrc
  b   : VSrcB
  p   : Pred
  ext : Option ArithX
  deriving DecidableEq, Repr

/-- vfma (R264, R268): the third source c stands in the extended form only. -/
structure VfmaF where
  d   : VDst
  a   : VSrc
  b   : VSrcB
  p   : Pred
  ext : Option (ArithX × RegNo)
  deriving DecidableEq, Repr

/-- One-source element-wise instruction (R268). -/
structure V1F where
  d   : VDst
  a   : VSrc
  p   : Pred
  ext : Option ArithX
  deriving DecidableEq, Repr

/-- One-source instruction without extended form: vmv, special functions, vdwide, cbx (R266, R280, R298, R306). -/
structure V1P where
  d : VDst
  a : VSrc
  p : Pred
  deriving DecidableEq, Repr

/-- Two vector sources without extended form: vsel, vperm (R273, R275). -/
structure V2P where
  d : VDst
  a : VSrc
  b : VSrc
  p : Pred
  deriving DecidableEq, Repr

/-- vcvt, valid only in extended form (R271); vr is the random-bits vector of stochastic rounding. -/
structure VcvtF where
  d   : VDst
  a   : VSrc
  p   : Pred
  tg  : Fin 32
  ms  : Fin 16
  rnd : Fin 8
  vr  : Option VSrc
  deriving DecidableEq, Repr

/-- vcmp, valid only in extended form (R272). -/
structure VcmpF where
  d    : Fin 16
  a    : VSrc
  b    : VSrcB
  p    : Pred
  cond : Fin 16
  sig  : Bool
  deriving DecidableEq, Repr

/-- Slides (R275). -/
structure SlideF where
  d : VDst
  a : VSrc
  k : VIdx
  p : Pred
  deriving DecidableEq, Repr

/-- vxchg (R276); rot selects the rotation of the extended form. -/
structure VxchgF where
  d   : VDst
  a   : VSrc
  k   : VIdx
  rot : Bool
  p   : Pred
  deriving DecidableEq, Repr

/-- The extended fields common to vred and vscan (R278). -/
structure FoldX where
  op   : Fin 8
  sat  : Bool
  init : Option RegNo
  tg   : Fin 32
  ms   : Fin 16
  deriving DecidableEq, Repr

/-- vred, valid only in extended form (R278). -/
structure VredF where
  d : RegNo
  a : VSrc
  p : Pred
  x : FoldX
  deriving DecidableEq, Repr

/-- vscan, valid only in extended form (R279). -/
structure VscanF where
  d    : VDst
  a    : VSrc
  p    : Pred
  x    : FoldX
  excl : Bool
  deriving DecidableEq, Repr

/-- The target of kcfg (R287). -/
inductive KTarget where
  | vreg (v : RegNo)
  | lq   (n : Fin 4)
  deriving DecidableEq, Repr

/-- The binding that kcfg makes: anchor register and size code, bank and OFF / 16, or none (R287). -/
inductive KBind where
  | anchor (k : Fin 16) (c : Fin 7)
  | codebook (cb : Fin 8) (off : Fin 16)
  | none
  deriving DecidableEq, Repr

/-- kcfg (R287); ext says whether the extended form is used. -/
structure KcfgF where
  t   : KTarget
  k   : KBind
  ext : Bool
  deriving DecidableEq, Repr

/-- kmv (R288). -/
inductive KmvF where
  | copy (d a : Fin 16)
  | pop  (d : Fin 16) (q : Fin 4)
  | push (q : Fin 2) (a : Fin 16)
  deriving DecidableEq, Repr

/-- kput (R289): the slot of the extended form. -/
structure KputF where
  d    : Fin 16
  a    : RegNo
  b    : RegNo
  slot : Option (BitVec 32)
  deriving DecidableEq, Repr

/-- kadj (R290). -/
structure KadjF where
  d : Fin 16
  a : Fin 16
  b : RegNo
  p : Pred
  deriving DecidableEq, Repr

/-- The extended fields of the anchored instructions (R291). -/
structure AnchX where
  tg  : Fin 32
  ms  : Fin 16
  sat : Bool
  deriving DecidableEq, Repr

/-- vdadd, vdsub (R292). -/
structure VdF where
  d   : VDst
  a   : VSrc
  b   : VSrc
  p   : Pred
  ext : Option AnchX
  deriving DecidableEq, Repr

/-- vddiff (R294). -/
structure VddiffF where
  d : VDst
  a : VSrc
  k : VIdx
  p : Pred
  deriving DecidableEq, Repr

/-- vdmul (R295): no extended form, destination four registers. -/
structure VdmulF where
  d : RegNo
  a : VSrc
  b : VSrc
  p : Pred
  deriving DecidableEq, Repr

/-- vdscl and reanc (R296, R297): step change or step from a register, or IMM32 with the other extended fields.
rnd is the RND of vdscl. -/
inductive StepOp where
  | reg (b : RegNo)
  | imm (v : BitVec 32) (x : AnchX) (rnd : Bool)
  deriving DecidableEq, Repr

/-- vdscl and reanc (R296, R297). -/
structure VdsclF where
  d : RegNo
  a : VSrc
  k : StepOp
  p : Pred
  deriving DecidableEq, Repr

/-- vdfrom (R298). -/
structure VdfromF where
  d   : RegNo
  a   : VSrc
  p   : Pred
  ext : Option AnchX
  deriving DecidableEq, Repr

/-- cbld (R301). -/
structure CbldF where
  cb  : Fin 8
  a   : SrcR
  off : Option (BitVec 32)
  deriving DecidableEq, Repr

/-- cjoin (R320): the operands in registers, or id and role in IMM32. -/
inductive CjoinSrc where
  | regs (a b : SrcR)
  | imm (v : BitVec 32)
  deriving DecidableEq, Repr

/-- trap (R337). -/
inductive TrapCode where
  | short (c : Fin 1024)
  | long (v : BitVec 32)
  deriving DecidableEq, Repr

/-! ## Operands of events -/

/-- A reply of a conversation's home (R204, R209, R325). -/
inductive HomeReply where
  | accepted
  | retry
  | convRole
  | convEnd (state : Fin 64)
  | oot (state : Fin 64) (kind : Fin 16) (role : Fin 16)
  | state (st : Fin 64) (term : Bool)
  | lost
  deriving DecidableEq, Repr

/-- A party of a conversation: device, core source number and ASID (R202, R319). -/
structure Party where
  dev  : Fin 64
  src  : Nat
  asid : Nat
  deriving DecidableEq, Repr

/-- A message of a conversation, as queued and delivered (R204, R206); no numbers it in the order of acceptance. -/
structure Msg where
  no     : Nat
  kind   : Fin 16
  state  : Fin 64
  sender : Fin 16
  term   : Bool
  branch : Bool
  tag    : Fin 32
  elems  : List Word
  valid  : List Bool
  deriving DecidableEq, Repr

/-- A request to a conversation's home (R203). -/
inductive ReqKind where
  | send (role : Fin 16) (kind : Fin 16) (isChoice : Bool) (tag : Fin 32) (elems : List Word) (valid : List Bool)
  | join (role : Fin 16)
  | leave (role : Fin 16)
  | deleg (role : Fin 16) (dest : Party)
  | state
  deriving DecidableEq, Repr

/-- A home request with its conversation (local index at the home) and its party. -/
structure HomeReq where
  conv  : Nat
  party : Party
  req   : ReqKind
  deriving DecidableEq, Repr

/-- What a fabric packet that reaches a device asks for (R11, R12, R351); a float atomic carries the rounding mode that its core had when
it issued it (R39). -/
inductive PeerOp where
  | load (size : Nat)
  | store (bytes : List Byte)
  | amo (op : AmoOp) (tag : Fin 32) (operand cmp : Word) (rm : Nat)
  deriving DecidableEq, Repr

/-- One fabric access as it reaches the peer: sender, ASID, view, VA, element index and program-order number. -/
structure PeerAccess where
  sender : Fin 64
  asid   : Nat
  super  : Bool
  va     : Nat
  tag    : Nat
  op     : PeerOp
  deriving DecidableEq, Repr

/-- A peer's answer to one fabric access (R12): data, acknowledgement, or a fault (false for XLATE, true for PROT). -/
inductive PeerAns where
  | data (bytes : List Byte)
  | ack
  | fault (prot : Bool)
  deriving DecidableEq, Repr

/-- A channel of the lattice: fibre and wavelength (R345). -/
structure Channel where
  fibre : Fin 256
  lam   : Fin 8
  deriving DecidableEq, Repr

/-- An index-list packet (R351): its sender, the base address and the element width in bytes of its header flit, the number of its first
element, and the index of each element with what it asks for. -/
structure IndexList where
  sender : Fin 64
  asid   : Nat
  super  : Bool
  base   : Nat
  size   : Nat
  tag    : Nat
  elems  : List (BitVec 32 × PeerOp)
  deriving DecidableEq, Repr

/-- What a packet of the lattice carries. The framing is that of R347. A request to a home and its reply bear the number that the asking
device gave it, 0 where no reply is awaited; a resend request names a class, a first SEQ and how many flits; a drain marker names its drain
and its channel, a handshake its number. -/
inductive Cargo where
  | access (a : PeerAccess)
  | accesses (xs : List PeerAccess)
  | indexed (l : IndexList)
  | answer (tag : Nat) (a : PeerAns)
  | request (no : Nat) (r : HomeReq)
  | reply (dest : Party) (no : Nat) (r : HomeReply)
  | deliver (dest : Party) (conv : Nat) (role : Fin 16) (m : Msg)
  | unbind (dest : Party) (conv : Nat) (role : Fin 16)
  | ended (dest : Party) (conv : Nat) (role : Fin 16) (state : Fin 64)
  | rebound (dest : Party) (conv : Nat) (role : Fin 16)
  | popped (conv : Nat) (role : Fin 16) (no : Nat)
  | giveBack (conv : Nat) (role : Fin 16) (m : Msg)
  | unbound (conv : Nat) (role : Fin 16) (party : Party)
  | park (conv : Nat) (role : Fin 16) (party : Party)
  | rebind (conv : Nat) (role : Fin 16) (old new : Party)
  | resend (crit : Bool) (seq n : Nat)
  | marker (no : Nat) (ch : Channel)
  | markerAck (no : Nat) (ch : Channel)
  | probe
  | probeAck
  | handshake (no : Nat)
  | handshakeAck (no : Nat)
  | filler
  deriving DecidableEq, Repr

/-- A flit on a channel (R347): its 64 payload bytes and its framing fields, with what a header flit stands for. -/
structure Flit where
  seq   : Nat
  crit  : Bool
  hdr   : Bool
  npay  : Nat
  rsv   : Nat
  bytes : List Byte
  crc   : BitVec 32
  cargo : Cargo
  deriving DecidableEq, Repr

/-- SPDM NEGOTIATE_ALGORITHMS offers (R387). -/
structure AlgOffer where
  ecdsaP256 : Bool
  sha256    : Bool
  deriving DecidableEq, Repr

/-- What a host access through a BAR does (R378, R379): a read or a write of BAR2, or of the BAR0 of a function. -/
inductive BarOp where
  | read
  | write (v : Word)
  | read0 (fn : Fin 129)
  | write0 (fn : Fin 129) (v : Word)
  deriving DecidableEq, Repr

/-- The host's answer to an ATS translation request (R23, R24). -/
structure AtsAns where
  page : Nat
  ok   : Bool
  w    : Bool
  x    : Bool
  deriving DecidableEq, Repr

/-- The host's response to a page request (R24). -/
inductive PriAns where
  | success
  | invalid
  | failure
  deriving DecidableEq, Repr

/-- Where a detected uncorrectable error lies (R196). -/
inductive ErrPlace where
  | register (lane : Fin 8)
  | queue
  | tile
  | codebook
  | scratchpad
  | dram
  | image
  | unused
  deriving DecidableEq, Repr

/-- The firmware image offered to the flash (R386). -/
structure FwImage where
  bytes : List Byte
  deriving DecidableEq, Repr

/-- A request at the management port (R391): an image for the slot that is not running, or n dwords of ERRLOG's ring from one on. -/
inductive MgmtOp where
  | update (img : FwImage)
  | errlog (first n : Nat)
  deriving DecidableEq, Repr

/-- A write of a register that has no behaviour of its own (R339): a system register of one side of a core, or a
control-space register by its offset. -/
inductive RegTarget where
  | sys (c : CoreId) (side : Side) (n : Fin 4096)
  | ctl (off : BitVec 32)
  deriving DecidableEq, Repr

/-- Which message is forwarded: the oldest one that this device's home holds for a role, or one that a remote home
sends to a role register of this device (R206). -/
inductive ForwardF where
  | home (conv : Nat) (role : Fin 16)
  | remote (c : CoreId) (cv : Fin 4) (m : Msg)
  deriving DecidableEq, Repr

/-- Why a context is stopped (R183, R185). -/
inductive StopWhy where
  | preempt
  | overrun
  deriving DecidableEq, Repr

/-! ## One row of the opcode table -/

/-- The steps of the Z8: every row of spec/opcode_table.json is one constructor. -/
inductive Instr where
  -- major 0x01 (R229)
  | add (f : AluF)
  | sub (f : AluF)
  | mul (f : AluF)
  | mulh (f : AluF)
  | mulhn (f : AluF)
  | div (f : AluF)
  | divn (f : AluF)
  | rem (f : AluF)
  | remn (f : AluF)
  | and (f : AluF)
  | or (f : AluF)
  | xor (f : AluF)
  | shl (f : AluF)
  | shr (f : AluF)
  | sar (f : AluF)
  | min (f : AluF)
  | max (f : AluF)
  | slt (f : AluF)
  | sltn (f : AluF)
  | seq (f : AluF)
  | cmovnz (f : AluF)
  | clz (f : UnF)
  | ctz (f : UnF)
  | popc (f : UnF)
  -- majors 0x02 to 0x09 (R230, R231)
  | addi (f : ImmF)
  | andi (f : ImmF)
  | ori (f : ImmF)
  | xori (f : ImmF)
  | slti (f : ImmF)
  | li (d : RegNo) (imm : Imm)
  | lih (d : RegNo) (imm : BitVec 16)
  | shli (f : ShImmF)
  | shri (f : ShImmF)
  | sari (f : ShImmF)
  -- major 0x0A (R232)
  | bfx (f : AluF)
  | bfxs (f : AluF)
  | bfi (f : AluF)
  | fsh (f : AluF)
  -- transfers and loops (R233 to R235)
  | br (disp : Disp)
  | bz (a : RegNo) (disp : Imm)
  | bnz (a : RegNo) (disp : Imm)
  | call (disp : Disp)
  | ret
  | jr (a : SrcR)
  | loop (a : SrcR) (disp : BitVec 32)
  | lidx (d : RegNo) (depth : Fin 32)
  | lbrk
  | nop
  -- access instructions (R236 to R259)
  | ld (f : LdF)
  | st (f : StF)
  | pref (a : SrcR) (addr : AddrM)
  | ldq (f : LdqF)
  | ldqs (f : LdqsF)
  | ldqx (f : LdqsF)
  | ldab (f : LdabF)
  | ldabRetry (c : CoreId)
  | stq (f : StqF)
  | stqApp (q : Fin 2) (a : SrcR)
  | stqs (f : StqsF)
  | stqx (f : StqsF)
  | stqp (f : StqpF)
  | stab (f : StabF)
  | stqDataArrives (c : CoreId) (n : Nat)
  | stabGenRetry (c : CoreId) (n : Nat)
  | amo (f : AmoF)
  | amoqx (f : AmoqxF)
  | loadComplete (c : CoreId) (n : Nat)
  | fence (s : Fin 4)
  | fenceSys (d : RegNo)
  | fenceSysT (d : RegNo)
  | fenceComplete (c : CoreId) (side : Side)
  | arm (a b : SrcR)
  | arrive (a b : SrcR)
  | await (d : RegNo) (a b : SrcR)
  | awaitComplete (c : CoreId) (n : Nat)
  | vsetl (d : RegNo) (a : SrcR) (mask : Fin 16)
  | spcfg (a : SrcR)
  | cpy (a : RegNo)
  | xform (a : RegNo)
  -- matrix commands (R307 to R317)
  | mcfg (a : RegOrImm)
  | mcfgD (a : RegOrImm)
  | mmp (f : MmpF)
  | macroOpStart (c : CoreId)
  | macroOpKStep (c : CoreId)
  | macroOpComplete (c : CoreId)
  | mzero (a : RegOrImm)
  | mlive (a : RegOrImm)
  | mchk (a : SrcR) (off : Option (BitVec 32))
  | mdrain (f : MdrainF)
  | sampleCheckResult (pane : Fin 8)
  -- vector instructions (R265 to R284)
  | vcfg (code : Fin 4)
  | vtag (d : RegNo) (tag : Fin 32)
  | vgetl (d : RegNo)
  | vsetlx (d a : RegNo) (w : Fin 32)
  | vmv (f : V1P)
  | vmvH (d : RegNo) (q : Fin 4)
  | vpush (q : Fin 2) (a : RegNo)
  | vpushH (q : Fin 2) (a : RegNo)
  | vbc (d : VDst) (b : RegNo) (p : Pred) (ext : Option (Fin 32))
  | vid (d : VDst) (ext : Option (Fin 32))
  | vext (d : RegNo) (a : VSrc) (i : VIdx)
  | vins (d : RegNo) (a : RegNo) (i : VIdx)
  | vadd (f : V2F)
  | vsub (f : V2F)
  | vmul (f : V2F)
  | vmulh (f : V2F)
  | vfma (f : VfmaF)
  | vdiv (f : V2F)
  | vmin (f : V2F)
  | vmax (f : V2F)
  | vabs (f : V1F)
  | vneg (f : V1F)
  | vand (f : V2F)
  | vor (f : V2F)
  | vxor (f : V2F)
  | vnot (f : V1F)
  | vshl (f : V2F)
  | vshr (f : V2F)
  | vsar (f : V2F)
  | vcvt (f : VcvtF)
  | vcmp (f : VcmpF)
  | vsel (f : V2P)
  | mand (d a b : Fin 16)
  | mor (d a b : Fin 16)
  | mxor (d a b : Fin 16)
  | mnot (d a : Fin 16)
  | mpop (d : RegNo) (a : Fin 16)
  | mfirst (d : RegNo) (a : Fin 16)
  | vslup (f : SlideF)
  | vsldn (f : SlideF)
  | vperm (f : V2P)
  | vxchg (f : VxchgF)
  | vcompress (d : RegNo) (a : VSrc) (p : Pred)
  | vexpand (d : RegNo) (a : VSrc) (p : Pred)
  | vappend (q : Fin 2) (a : RegNo) (p : Pred)
  | vred (f : VredF)
  | vscan (f : VscanF)
  | vrcp (f : V1P)
  | vrsq (f : V1P)
  | vsqrt (f : V1P)
  | vex2 (f : V1P)
  | vlg2 (f : V1P)
  | vtanh (f : V1P)
  | vrng (d : RegNo) (a : VSrc) (b : RegNo) (p : Pred)
  | rng (d : RegNo) (a b : SrcR) (h : Bool)
  -- anchors (R287 to R298)
  | kcfg (f : KcfgF)
  | kmv (f : KmvF)
  | kput (f : KputF)
  | kadj (f : KadjF)
  | vdadd (f : VdF)
  | vdsub (f : VdF)
  | vddiff (f : VddiffF)
  | vdmul (f : VdmulF)
  | vdscl (f : VdsclF)
  | reanc (f : VdsclF)
  | vdwide (f : V1P)
  | vdfrom (f : VdfromF)
  -- codebooks and tiles (R299 to R314)
  | cbld (f : CbldF)
  | cbldComplete (c : CoreId)
  | cbinv (cb : Fin 8) (a : SrcR)
  | cbmode (cb : Fin 8) (a : RegOrImm)
  | cbst (d : RegNo) (cb : Fin 8)
  | cbx (f : V1P)
  | tget (d : VDst) (t : Fin 8) (spec : VIdx)
  | tfill (t : Fin 8) (spec : VIdx) (b : VSrc)
  -- conversations (R319 to R327)
  | cjoin (cv : Fin 4) (src : CjoinSrc)
  | csend (cv : Fin 4) (a : VSrc) (kind : Fin 16)
  | crecv (d : VDst) (cv : Fin 4) (b : RegNo)
  | crecvComplete (c : CoreId) (n : Nat)
  | cchoose (cv : Fin 4) (kind : Fin 16)
  | cdeleg (cv : Fin 4) (a : SrcR)
  | cleave (cv : Fin 4)
  | cstate (d : RegNo) (cv : Fin 4)
  | cprot (a b : SrcR)
  | homeReply (c : CoreId) (r : Option HomeReply)
  | sendRetry (c : CoreId)
  | homeSend (n : Nat)
  | homeJoin (n : Nat)
  | homeDelegate (n : Nat)
  | homeLeave (n : Nat)
  | homeStateRead (n : Nat)
  | messageForward (f : ForwardF)
  -- task instructions (R330 to R336)
  | spawn (a : RegNo)
  | done
  | gbar
  | gbarComplete (c : CoreId) (side : Side)
  | tid (d : RegNo)
  | dsync
  -- system instructions (R337 to R343)
  | trap (c : TrapCode)
  | eret
  | sget (d : RegNo) (n : Fin 4096)
  | sput (d : RegNo) (n : Fin 4096)
  | wait (a : SrcR)
  | waitExpire (c : CoreId) (side : Side)
  | wkt (card : Bool)
  | gts (d : RegNo)
  -- translation and code cache (R18 to R24, R76)
  | xinvAll
  | invalidationComplete
  | ccinvAll
  | ccinvComplete
  | priTimeout (fn : Fin 129) (page : Nat)
  -- fabric accesses, deliveries, panes, host ordering
  | queueEntryDelivered (c : CoreId) (n : Nat)
  | crossPaneWriteApply (c : CoreId) (n : Nat)
  | peerSilenceTimeout (d : Fin 64)
  | peerLostDeclared (d : Fin 64)
  -- engines and deterministic mode (R114 to R133)
  | cardDispatch (pane : Fin 8) (n : Nat)
  | chunkCommit (pane : Fin 8) (n : Nat)
  | cardFail (pane : Fin 8) (n : Nat)
  | cardComplete (pane : Fin 8) (n : Nat)
  | intervalClose (launch : Nat)
  | mergePartComplete (launch : Nat)
  -- host attachment (R377 to R384)
  | launchFetch (fn : Fin 129)
  | launchFetchAttempt (fn : Fin 129)
  -- scheduling (R154 to R173)
  | recordPlacement
  | taskStart (task : Nat)
  | preload (c : CoreId)
  | taskEnd (task : Nat)
  | statusRecordWrite (launch : Nat)
  | contractAdmit (k : Fin 64)
  | contractPeriodStart (k : Fin 64)
  | contractOverrun (k : Fin 64)
  | wicketGrant (pane : Fin 8)
  -- stopping, removal, errors (R183 to R198)
  | contextSave (task : Nat)
  | contextRestore (n : Nat) (lead : CoreId)
  | exitRoutineTimeout (task : Nat)
  | watchdog (task : Nat)
  | functionResetComplete (fn : Fin 129)
  -- the Gravin lattice (R345 to R359)
  | flitTransmit (d : Fin 64) (crit : Bool)
  | resendRequest (d : Fin 64)
  | reachHandshakeTimeout (d : Fin 64)
  | wakeComplete (ch : Channel)
  | autoWake (d : Fin 64)
  | fabctlRun
  | fabctlDrain
  | fabctlDark
  | fabctlRelock
  -- boot, management, thermal (R385 to R391)
  | powerOn
  | getVersion
  | getCapabilities
  | getDigests
  -- performing stores, ATS, SR-IOV, firmware
  | storePerformed (c : CoreId) (n : Nat)
  -- what comes from outside: software and host writes, host and peer answers, errors, management
  | correctedError (c : CoreId) (addr : Nat)
  | uncorrectableError (c : CoreId) (side : Side) (p : ErrPlace) (parity : Bool) (addr : Nat)
  | laneRetired (c : CoreId) (g : Fin 8)
  | functionLevelReset (fn : Fin 129)
  | conversationOpen (i : Fin 16384) (v : Word)
  | conversationClose (i : Fin 16384)
  | flitReceive (d : Fin 64) (f : Flit)
  | flitAcknowledge (d : Fin 64) (n : Nat)
  | reachWrite (v : Word)
  | reachHandshakeComplete (d : Fin 64)
  | lambdaEnWrite (f : Fin 256) (v : Word)
  | ringMove (ch : Channel)
  | drainMarkerAck (ch : Channel)
  | thermalLimit (pane : Fin 8) (hot : Bool)
  | thermalShutdown (pane : Fin 8)
  | negotiateAlgorithms (o : AlgOffer)
  | getCertificate (slot off len : Nat)
  | challenge (nonce : List Byte)
  | getMeasurements (nonce : List Byte)
  | spdmUnsupportedRequest (code : Byte)
  | atsTranslationCompletion (fn : Fin 129) (a : AtsAns)
  | sriovNumvfsWrite (n : Nat)
  | firmwareUpdate (op : MgmtOp)
  | vlcapWrite (c : CoreId) (v : Word)
  | laneokWrite (c : CoreId) (v : Word)
  | mstepWrite (c : CoreId) (v : Word)
  | registerWrite (t : RegTarget) (v : Word)
  | pageWalkComplete (pane : Fin 8) (asid : Fin 256) (va : Nat)
  | xinvRegion (asid : Fin 256)
  | xinvAsid (asid : Fin 256)
  | ccinvAsid (asid : Fin 256)
  | atsInvalidateRequest (fn : Fin 129) (page : Nat)
  | priResponse (fn : Fin 129) (page : Nat) (a : PriAns)
  | peerAccessArrival (a : PeerAccess)
  | peerResponse (peer : Fin 64) (tag : Nat) (a : PeerAns)
  | inboundZeroLengthWrite (fn : Fin 129)
  | inboundZeroLengthRead (fn : Fin 129)
  | launch (fn : Fin 129) (size : Nat) (v : Word)
  | lwbaseWrite (fn : Fin 129) (v : Word)
  | lwcntWrite (fn : Fin 129) (v : Word)
  | vstatClear (fn : Fin 129) (v : Word)
  | bar2Access (off : Nat) (size : Nat) (op : BarOp)
  | stopRequest (task : Nat) (why : StopWhy)
  | remove (task : Nat) (code : Fin 32)
  | contractDisable (k : Fin 64)
  deriving DecidableEq, Repr

end Sys2Proof
end

