-- ==== Sys2Proof/WellFormed.lean ====
section
/-!
DEFINITION. Which operand combinations an instruction word can hold: what the reserved fields (R214), the queue
select (R213), the predicate (R213) and the extended forms (R215 to R217) leave. The types of Syntax hold the widths
of the fields; this file holds the relations between fields. An event of the opcode table has no word and no
relation to keep.
-/

namespace Sys2Proof

/-- The predicate ifn m0 is not encodable (R213). -/
def Pred.wf (p : Pred) : Bool := !(p.pn && p.m == 0)

/-- No predicate: m0, not inverted (R222). -/
def Pred.none : Pred := { m := 0, pn := false }

def VSrc.isQ : VSrc → Bool
  | .reg _ => false
  | .lq _  => true

def VSrcB.isQ : VSrcB → Bool
  | .reg _  => false
  | .lq _   => true
  | .scal _ => false

def VSrcB.isScal : VSrcB → Bool
  | .reg _  => false
  | .lq _   => false
  | .scal _ => true

def VDst.isQ : VDst → Bool
  | .reg _ => false
  | .sq _  => true

/-- At most one operand of a VR instruction is a queue (R213). -/
def oneQ (a b c : Bool) : Bool := !((a && b) || (a && c) || (b && c))

/-- Whether the spec of an extended bfx, bfxs or bfi keeps its reserved bits zero (R232). -/
def specOk (v : BitVec 32) : Bool := v.toNat < 2 ^ 15 && v.toNat / 2 ^ 6 % 4 == 0

def AluF.wfSpec (f : AluF) : Bool :=
  match f.src with
  | .reg _ _ => true
  | .imm v   => specOk v

def AluF.wfFsh (f : AluF) : Bool :=
  match f.src with
  | .reg _ _ => true
  | .imm v   => v.toNat < 64

/-- SZ = 3 with S = 1 is no form of ld (R236). -/
def LdF.wf (f : LdF) : Bool := !(f.sz == 3 && f.sx)

/-- In an extended ldq with a tag, the tag code is zero (R239). -/
def LdqF.wf (f : LdqF) : Bool :=
  match f.ext with
  | none   => true
  | some x => x.tg == 0 || f.tc == 0

def LdqsF.wf (f : LdqsF) : Bool :=
  match f.ext with
  | none   => true
  | some t => t == 0 || f.tc == 0

/-- Only cas has a compare register (R252). -/
def AmoF.wf (f : AmoF) : Bool := f.op == .cas || f.c == 0

/-- amoqx has no cas (R254): its word is no instruction. -/
def AmoqxF.wf (f : AmoqxF) : Bool := f.op != .cas

/-- Only add, sub, mul, fma, abs and neg have a saturating form (R264). -/
def ArithX.wf (sat : Bool) (x : Option ArithX) : Bool :=
  match x with
  | none   => true
  | some y => sat || !y.sat

def V2F.wf (sat : Bool) (f : V2F) : Bool :=
  f.p.wf && oneQ f.d.isQ f.a.isQ f.b.isQ && ArithX.wf sat f.ext && (f.ext.isSome || !f.b.isScal)

/-- The short form of vfma reads d, so d is no queue there (R263). -/
def VfmaF.wf (f : VfmaF) : Bool :=
  f.p.wf && oneQ f.d.isQ f.a.isQ f.b.isQ && (f.ext.isSome || (!f.b.isScal && !f.d.isQ))

def V1F.wf (sat : Bool) (f : V1F) : Bool :=
  f.p.wf && oneQ f.d.isQ f.a.isQ false && ArithX.wf sat f.ext

def V1P.wf (f : V1P) : Bool := f.p.wf && oneQ f.d.isQ f.a.isQ false

def V2P.wf (f : V2P) : Bool := f.p.wf && oneQ f.d.isQ f.a.isQ f.b.isQ

/-- The random-bits vector stands for stochastic rounding only (R271). -/
def VcvtF.wf (f : VcvtF) : Bool :=
  f.p.wf && (match f.vr with
    | none   => f.rnd != 5 && oneQ f.d.isQ f.a.isQ false
    | some v => f.rnd == 5 && oneQ f.d.isQ f.a.isQ v.isQ)

/-- Under .valid the second source is unused and its field is zero (R272). -/
def VcmpF.wf (f : VcmpF) : Bool := f.p.wf && oneQ false f.a.isQ f.b.isQ && (f.cond.val != 8 || f.b == .reg 0)

def SlideF.wf (f : SlideF) : Bool := f.p.wf && oneQ f.d.isQ f.a.isQ false

/-- The rotation stands in the extended form only, whose k is IMM32 (R276). -/
def VxchgF.wf (f : VxchgF) : Bool :=
  f.p.wf && oneQ f.d.isQ f.a.isQ false && (match f.k with
    | .reg _ => !f.rot
    | .imm _ => true)

def VredF.wf (f : VredF) : Bool := f.p.wf

def VscanF.wf (f : VscanF) : Bool := f.p.wf && oneQ f.d.isQ f.a.isQ false

/-- A codebook binding and a queue target stand in the extended form only (R287). -/
def KcfgF.wf (f : KcfgF) : Bool :=
  (f.ext || (match f.t with
    | .vreg _ => true
    | .lq _   => false)) &&
  (f.ext || (match f.k with
    | .codebook _ _ => false
    | .anchor _ _   => true
    | .none         => true))

def KadjF.wf (f : KadjF) : Bool := f.p.wf

def VdF.wf (f : VdF) : Bool := f.p.wf && oneQ f.d.isQ f.a.isQ f.b.isQ

def VddiffF.wf (f : VddiffF) : Bool := f.p.wf && oneQ f.d.isQ f.a.isQ false

def VdmulF.wf (f : VdmulF) : Bool := f.p.wf && oneQ false f.a.isQ f.b.isQ

/-- Only vdscl has RND (R291). -/
def VdsclF.wf (rnd : Bool) (f : VdsclF) : Bool :=
  f.p.wf && (match f.k with
    | .reg _     => true
    | .imm _ _ r => rnd || !r)

def VdfromF.wf (f : VdfromF) : Bool := f.p.wf

/-- IMM32[31:24] of an extended cjoin is zero (R320). -/
def CjoinSrc.wf : CjoinSrc → Bool
  | .regs _ _ => true
  | .imm v    => v.toNat < 2 ^ 24

/-- IMM32[31:28] of an extended trap is zero (R337). -/
def TrapCode.wf : TrapCode → Bool
  | .short _ => true
  | .long v  => v.toNat < 2 ^ 28

/-- Whether an instruction is well formed: some word, with its prefix, encodes it. Events are well formed. -/
def Instr.wf : Instr → Bool
  | .bfx f  => f.wfSpec
  | .bfxs f => f.wfSpec
  | .bfi f  => f.wfSpec
  | .fsh f  => f.wfFsh
  | .ld f   => f.wf
  | .ldq f  => f.wf
  | .ldqs f => f.wf
  | .ldqx f => f.wf
  | .amo f  => f.wf
  | .amoqx f => f.wf
  | .vmv f  => f.wf
  | .vbc _ _ p _ => p.wf
  | .vadd f => f.wf true
  | .vsub f => f.wf true
  | .vmul f => f.wf true
  | .vmulh f => f.wf false
  | .vdiv f => f.wf false
  | .vmin f => f.wf false
  | .vmax f => f.wf false
  | .vfma f => f.wf
  | .vabs f => f.wf true
  | .vneg f => f.wf true
  | .vnot f => f.wf false
  | .vand f => f.wf false
  | .vor f => f.wf false
  | .vxor f => f.wf false
  | .vshl f => f.wf false
  | .vshr f => f.wf false
  | .vsar f => f.wf false
  | .vcvt f => f.wf
  | .vcmp f => f.wf
  | .vsel f => f.wf
  | .vslup f => f.wf
  | .vsldn f => f.wf
  | .vperm f => f.wf
  | .vxchg f => f.wf
  | .vcompress _ _ p => p.wf
  | .vexpand _ _ p => p.wf
  | .vappend _ _ p => p.wf
  | .vred f => f.wf
  | .vscan f => f.wf
  | .vrcp f => f.wf
  | .vrsq f => f.wf
  | .vsqrt f => f.wf
  | .vex2 f => f.wf
  | .vlg2 f => f.wf
  | .vtanh f => f.wf
  | .vrng _ _ _ p => p.wf
  | .kcfg f => f.wf
  | .kadj f => f.wf
  | .vdadd f => f.wf
  | .vdsub f => f.wf
  | .vddiff f => f.wf
  | .vdmul f => f.wf
  | .vdscl f => f.wf true
  | .reanc f => f.wf false
  | .vdwide f => f.wf
  | .vdfrom f => f.wf
  | .cbx f => f.wf
  | .cjoin _ src => src.wf
  | .trap c => c.wf
  | .add .. => true
  | .sub .. => true
  | .mul .. => true
  | .mulh .. => true
  | .mulhn .. => true
  | .div .. => true
  | .divn .. => true
  | .rem .. => true
  | .remn .. => true
  | .and .. => true
  | .or .. => true
  | .xor .. => true
  | .shl .. => true
  | .shr .. => true
  | .sar .. => true
  | .min .. => true
  | .max .. => true
  | .slt .. => true
  | .sltn .. => true
  | .seq .. => true
  | .cmovnz .. => true
  | .clz .. => true
  | .ctz .. => true
  | .popc .. => true
  | .addi .. => true
  | .andi .. => true
  | .ori .. => true
  | .xori .. => true
  | .slti .. => true
  | .li .. => true
  | .lih .. => true
  | .shli .. => true
  | .shri .. => true
  | .sari .. => true
  | .br .. => true
  | .bz .. => true
  | .bnz .. => true
  | .call .. => true
  | .ret => true
  | .jr .. => true
  | .loop .. => true
  | .lidx .. => true
  | .lbrk => true
  | .nop => true
  | .st .. => true
  | .pref .. => true
  | .ldab .. => true
  | .ldabRetry .. => true
  | .stq .. => true
  | .stqApp .. => true
  | .stqs .. => true
  | .stqx .. => true
  | .stqp .. => true
  | .stab .. => true
  | .stqDataArrives .. => true
  | .stabGenRetry .. => true
  | .loadComplete .. => true
  | .fence .. => true
  | .fenceSys .. => true
  | .fenceSysT .. => true
  | .fenceComplete .. => true
  | .arm .. => true
  | .arrive .. => true
  | .await .. => true
  | .awaitComplete .. => true
  | .vsetl .. => true
  | .spcfg .. => true
  | .cpy .. => true
  | .xform .. => true
  | .mcfg .. => true
  | .mcfgD .. => true
  | .mmp .. => true
  | .macroOpStart .. => true
  | .macroOpKStep .. => true
  | .macroOpComplete .. => true
  | .mzero .. => true
  | .mlive .. => true
  | .mchk .. => true
  | .mdrain .. => true
  | .sampleCheckResult .. => true
  | .vcfg .. => true
  | .vtag .. => true
  | .vgetl .. => true
  | .vsetlx .. => true
  | .vmvH .. => true
  | .vpush .. => true
  | .vpushH .. => true
  | .vid .. => true
  | .vext .. => true
  | .vins .. => true
  | .mand .. => true
  | .mor .. => true
  | .mxor .. => true
  | .mnot .. => true
  | .mpop .. => true
  | .mfirst .. => true
  | .rng .. => true
  | .kmv .. => true
  | .kput .. => true
  | .cbld .. => true
  | .cbldComplete .. => true
  | .cbinv .. => true
  | .cbmode .. => true
  | .cbst .. => true
  | .tget .. => true
  | .tfill .. => true
  | .csend .. => true
  | .crecv .. => true
  | .crecvComplete .. => true
  | .cchoose .. => true
  | .cdeleg .. => true
  | .cleave .. => true
  | .cstate .. => true
  | .cprot .. => true
  | .homeReply .. => true
  | .sendRetry .. => true
  | .homeSend .. => true
  | .homeJoin .. => true
  | .homeDelegate .. => true
  | .homeLeave .. => true
  | .homeStateRead .. => true
  | .messageForward .. => true
  | .spawn .. => true
  | .done => true
  | .gbar => true
  | .gbarComplete .. => true
  | .tid .. => true
  | .dsync => true
  | .eret => true
  | .sget .. => true
  | .sput .. => true
  | .wait .. => true
  | .waitExpire .. => true
  | .wkt .. => true
  | .gts .. => true
  | .vlcapWrite .. => true
  | .laneokWrite .. => true
  | .mstepWrite .. => true
  | .registerWrite .. => true
  | .pageWalkComplete .. => true
  | .xinvRegion .. => true
  | .xinvAsid .. => true
  | .xinvAll => true
  | .invalidationComplete => true
  | .ccinvAsid .. => true
  | .ccinvAll => true
  | .ccinvComplete => true
  | .atsInvalidateRequest .. => true
  | .priResponse .. => true
  | .priTimeout .. => true
  | .peerAccessArrival .. => true
  | .peerResponse .. => true
  | .queueEntryDelivered .. => true
  | .crossPaneWriteApply .. => true
  | .inboundZeroLengthWrite .. => true
  | .inboundZeroLengthRead .. => true
  | .peerSilenceTimeout .. => true
  | .peerLostDeclared .. => true
  | .cardDispatch .. => true
  | .chunkCommit .. => true
  | .cardFail .. => true
  | .cardComplete .. => true
  | .intervalClose .. => true
  | .mergePartComplete .. => true
  | .launch .. => true
  | .launchFetch .. => true
  | .launchFetchAttempt .. => true
  | .lwbaseWrite .. => true
  | .lwcntWrite .. => true
  | .vstatClear .. => true
  | .bar2Access .. => true
  | .recordPlacement => true
  | .taskStart .. => true
  | .preload .. => true
  | .taskEnd .. => true
  | .statusRecordWrite .. => true
  | .contractAdmit .. => true
  | .contractDisable .. => true
  | .contractPeriodStart .. => true
  | .contractOverrun .. => true
  | .wicketGrant .. => true
  | .stopRequest .. => true
  | .contextSave .. => true
  | .contextRestore .. => true
  | .remove .. => true
  | .exitRoutineTimeout .. => true
  | .watchdog .. => true
  | .correctedError .. => true
  | .uncorrectableError .. => true
  | .laneRetired .. => true
  | .functionLevelReset .. => true
  | .functionResetComplete .. => true
  | .conversationOpen .. => true
  | .conversationClose .. => true
  | .flitTransmit .. => true
  | .flitReceive .. => true
  | .flitAcknowledge .. => true
  | .resendRequest .. => true
  | .reachWrite .. => true
  | .reachHandshakeComplete .. => true
  | .reachHandshakeTimeout .. => true
  | .lambdaEnWrite .. => true
  | .wakeComplete .. => true
  | .autoWake .. => true
  | .ringMove .. => true
  | .fabctlRun => true
  | .fabctlDrain => true
  | .fabctlDark => true
  | .fabctlRelock => true
  | .drainMarkerAck .. => true
  | .powerOn => true
  | .thermalLimit .. => true
  | .thermalShutdown .. => true
  | .getVersion => true
  | .getCapabilities => true
  | .negotiateAlgorithms .. => true
  | .getDigests => true
  | .getCertificate .. => true
  | .challenge .. => true
  | .getMeasurements .. => true
  | .spdmUnsupportedRequest .. => true
  | .storePerformed .. => true
  | .atsTranslationCompletion .. => true
  | .sriovNumvfsWrite .. => true
  | .firmwareUpdate .. => true

/-- An event of the machine or its surroundings, which no word encodes; whatever is not listed is an instruction of the opcode map. -/
def Instr.isEvent : Instr → Bool
  | .ldabRetry .. => true
  | .stqDataArrives .. => true
  | .stabGenRetry .. => true
  | .loadComplete .. => true
  | .fenceComplete .. => true
  | .awaitComplete .. => true
  | .macroOpStart .. => true
  | .macroOpKStep .. => true
  | .macroOpComplete .. => true
  | .sampleCheckResult .. => true
  | .cbldComplete .. => true
  | .crecvComplete .. => true
  | .homeReply .. => true
  | .sendRetry .. => true
  | .homeSend .. => true
  | .homeJoin .. => true
  | .homeDelegate .. => true
  | .homeLeave .. => true
  | .homeStateRead .. => true
  | .messageForward .. => true
  | .gbarComplete .. => true
  | .waitExpire .. => true
  | .vlcapWrite .. => true
  | .laneokWrite .. => true
  | .mstepWrite .. => true
  | .registerWrite .. => true
  | .pageWalkComplete .. => true
  | .xinvRegion .. => true
  | .xinvAsid .. => true
  | .xinvAll => true
  | .invalidationComplete => true
  | .ccinvAsid .. => true
  | .ccinvAll => true
  | .ccinvComplete => true
  | .atsInvalidateRequest .. => true
  | .priResponse .. => true
  | .priTimeout .. => true
  | .peerAccessArrival .. => true
  | .peerResponse .. => true
  | .queueEntryDelivered .. => true
  | .crossPaneWriteApply .. => true
  | .inboundZeroLengthWrite .. => true
  | .inboundZeroLengthRead .. => true
  | .peerSilenceTimeout .. => true
  | .peerLostDeclared .. => true
  | .cardDispatch .. => true
  | .chunkCommit .. => true
  | .cardFail .. => true
  | .cardComplete .. => true
  | .intervalClose .. => true
  | .mergePartComplete .. => true
  | .launch .. => true
  | .launchFetch .. => true
  | .launchFetchAttempt .. => true
  | .lwbaseWrite .. => true
  | .lwcntWrite .. => true
  | .vstatClear .. => true
  | .bar2Access .. => true
  | .recordPlacement => true
  | .taskStart .. => true
  | .preload .. => true
  | .taskEnd .. => true
  | .statusRecordWrite .. => true
  | .contractAdmit .. => true
  | .contractDisable .. => true
  | .contractPeriodStart .. => true
  | .contractOverrun .. => true
  | .wicketGrant .. => true
  | .stopRequest .. => true
  | .contextSave .. => true
  | .contextRestore .. => true
  | .remove .. => true
  | .exitRoutineTimeout .. => true
  | .watchdog .. => true
  | .correctedError .. => true
  | .uncorrectableError .. => true
  | .laneRetired .. => true
  | .functionLevelReset .. => true
  | .functionResetComplete .. => true
  | .conversationOpen .. => true
  | .conversationClose .. => true
  | .flitTransmit .. => true
  | .flitReceive .. => true
  | .flitAcknowledge .. => true
  | .resendRequest .. => true
  | .reachWrite .. => true
  | .reachHandshakeComplete .. => true
  | .reachHandshakeTimeout .. => true
  | .lambdaEnWrite .. => true
  | .wakeComplete .. => true
  | .autoWake .. => true
  | .ringMove .. => true
  | .fabctlRun => true
  | .fabctlDrain => true
  | .fabctlDark => true
  | .fabctlRelock => true
  | .drainMarkerAck .. => true
  | .powerOn => true
  | .thermalLimit .. => true
  | .thermalShutdown .. => true
  | .getVersion => true
  | .getCapabilities => true
  | .negotiateAlgorithms .. => true
  | .getDigests => true
  | .getCertificate .. => true
  | .challenge .. => true
  | .getMeasurements .. => true
  | .spdmUnsupportedRequest .. => true
  | .storePerformed .. => true
  | .atsTranslationCompletion .. => true
  | .sriovNumvfsWrite .. => true
  | .firmwareUpdate .. => true
  | _ => false

end Sys2Proof
end

