-- ==== Sys2Proof/Decode.lean ====
section
/-!
DEFINITION. Decoding of instruction words (R210 to R222), total on any bytes and rejecting by name, and the encoder
written from the same formats. Steps 1 to 4 of R218 are decided here; SIDE, PRIV and the operand checks (steps 5 to 7)
belong to the meanings.
-/

namespace Sys2Proof

/-- Why a word is no instruction (R217, R218 steps 1 to 4); every one is ILLEGAL. -/
inductive Reject where
  | fixedWord
  | major
  | selector
  | reserved
  | queue
  | needsExt
  | noExt
  | extTwice
  | short
  deriving DecidableEq, Repr

/-! ## Fields -/

/-- The fields of an instruction word in the R format (R211); q holds fa and fb, or QS. The VR, I and B formats
are read off the same fields. -/
structure RF where
  op : Fin 64
  d  : Fin 32
  a  : Fin 32
  b  : Fin 32
  q  : Fin 4
  m  : Fin 16
  fn : Fin 32
  deriving DecidableEq, Repr

/-- The fields of a word (R211). -/
def RF.ofWord (w : Nat) : RF :=
  { op := Fin.ofNat 64 (w / 2 ^ 26), d := Fin.ofNat 32 (w / 2 ^ 21), a := Fin.ofNat 32 (w / 2 ^ 16),
    b := Fin.ofNat 32 (w / 2 ^ 11), q := Fin.ofNat 4 (w / 2 ^ 9), m := Fin.ofNat 16 (w / 2 ^ 5),
    fn := Fin.ofNat 32 w }

/-- The word of the fields (R211). -/
def RF.word (r : RF) : Nat :=
  r.op.val * 2 ^ 26 + r.d.val * 2 ^ 21 + r.a.val * 2 ^ 16 + r.b.val * 2 ^ 11 + r.q.val * 2 ^ 9 + r.m.val * 2 ^ 5 +
    r.fn.val

/-- Bits 15:0, the immediate of the I format. -/
def RF.imm16 (r : RF) : BitVec 16 :=
  BitVec.ofNat 16 (r.b.val * 2 ^ 11 + r.q.val * 2 ^ 9 + r.m.val * 2 ^ 5 + r.fn.val)

/-- Bits 21:0, the displacement of the B format. -/
def RF.disp22 (r : RF) : BitVec 22 :=
  BitVec.ofNat 22 (r.d.val % 2 * 2 ^ 21 + r.a.val * 2 ^ 16 + r.b.val * 2 ^ 11 + r.q.val * 2 ^ 9 + r.m.val * 2 ^ 5 +
    r.fn.val)

def RF.fa (r : RF) : Bool := r.q.val / 2 == 1
def RF.fb (r : RF) : Bool := r.q.val % 2 == 1

/-- sel of the VR format. -/
def RF.sel (r : RF) : Nat := r.fn.val % 16

/-- PN of the VR format. -/
def RF.pn (r : RF) : Bool := r.fn.val / 16 == 1

/-- The XF field of an EXT word (R215). -/
structure XF where
  c   : Fin 32
  tg  : Fin 32
  ms  : Fin 16
  mx  : Fin 16
  var : Fin 256
  deriving DecidableEq, Repr

def XF.zero : XF := { c := 0, tg := 0, ms := 0, mx := 0, var := 0 }

def XF.ofWord (w : Nat) : XF :=
  { c := Fin.ofNat 32 (w / 2 ^ 21), tg := Fin.ofNat 32 (w / 2 ^ 16), ms := Fin.ofNat 16 (w / 2 ^ 12),
    mx := Fin.ofNat 16 (w / 2 ^ 8), var := Fin.ofNat 256 w }

/-- The EXT word of the fields: major 0x3E (R215). -/
def XF.word (x : XF) : Nat :=
  0x3E * 2 ^ 26 + x.c.val * 2 ^ 21 + x.tg.val * 2 ^ 16 + x.ms.val * 2 ^ 12 + x.mx.val * 2 ^ 8 + x.var.val

/-- The two prefix words of an extended instruction (R215). -/
structure Ext where
  xf  : XF
  imm : BitVec 32
  deriving DecidableEq, Repr

/-! ## Operands -/

/-- The conditions of an instruction, each with the name of its rejection; the first that fails decides. -/
def chk : List (Bool × Reject) → Instr → Except Reject Instr
  | [], i           => .ok i
  | (c, r) :: cs, i => if c then chk cs i else .error r

/-- There is no prefix. -/
def plain (x : Option Ext) : Bool × Reject := (x.isNone, .noExt)

/-- There is a prefix. -/
def prefixed (x : Option Ext) : Bool × Reject := (x.isSome, .needsExt)

/-- A reserved field is zero (R214). -/
def rsv (c : Bool) : Bool × Reject := (c, .reserved)

/-- A condition on the queue select or the predicate (R213). -/
def que (c : Bool) : Bool × Reject := (c, .queue)

/-- A prefix, if there is one, keeps this condition. -/
def onExt (x : Option Ext) (p : Ext → Bool) : Bool × Reject := (match x with
  | none   => true
  | some e => p e, .reserved)

def RF.srcA (r : RF) : SrcR := { r := r.a, fe := r.fa }
def RF.srcB (r : RF) : SrcR := { r := r.b, fe := r.fb }

def aluF (x : Option Ext) (r : RF) : AluF :=
  { d := r.d, a := r.a, fa := r.fa, src := match x with
    | none   => .reg r.b r.fb
    | some e => .imm e.imm }

/-- The conditions of an R-format scalar instruction (R229): m zero, and b, fb and XF zero when extended. -/
def aluOk (x : Option Ext) (r : RF) : List (Bool × Reject) :=
  [rsv (r.m == 0), onExt x fun e => r.b == 0 && !r.fb && e.xf == XF.zero]

def immOf (x : Option Ext) (r : RF) : Imm :=
  match x with
  | none   => .short r.imm16
  | some e => .long e.imm

def immF (x : Option Ext) (r : RF) : ImmF := { d := r.d, a := r.a, imm := immOf x r }

/-- The conditions of the I format's extended form (R215). -/
def immOk (x : Option Ext) (r : RF) : Bool × Reject := onExt x fun e => r.imm16 == 0 && e.xf == XF.zero

def dispOf (x : Option Ext) (r : RF) : Disp :=
  match x with
  | none   => .short r.disp22
  | some e => .long e.imm

def dispOk (x : Option Ext) (r : RF) : List (Bool × Reject) :=
  [rsv (r.d.val / 2 == 0), onExt x fun e => r.disp22 == 0 && e.xf == XF.zero]

/-- A register a, or the IMM32 in its place. -/
def regOrImm (x : Option Ext) (r : RF) : RegOrImm :=
  match x with
  | none   => .reg r.srcA
  | some e => .imm e.imm

def regOrImmOk (x : Option Ext) (r : RF) : Bool × Reject :=
  onExt x fun e => r.a == 0 && !r.fa && e.xf == XF.zero

/-- A register b, or the IMM32 in its place. -/
def vidxB (x : Option Ext) (r : RF) : VIdx :=
  match x with
  | none   => .reg r.b
  | some e => .imm e.imm

def vidxOk (x : Option Ext) (r : RF) : Bool × Reject := onExt x fun e => r.b == 0 && e.xf == XF.zero

/-- The address of a scalar access (R228, R236): fn[3] selects the index form. -/
def addrM (x : Option Ext) (r : RF) : AddrM :=
  if r.fn.val / 8 % 2 == 1 then .index r.srcB else match x with
    | none   => .base
    | some e => .off e.imm

def addrOk (x : Option Ext) (r : RF) : List (Bool × Reject) :=
  [rsv (r.m == 0), rsv (r.fn.val / 16 == 0),
   (if r.fn.val / 8 % 2 == 1 then (x.isNone, .noExt) else rsv (r.b == 0 && !r.fb)),
   onExt x fun e => e.xf == XF.zero]

def RF.pred (r : RF) : Pred := { m := r.m, pn := r.pn }

/-- PN = 1 with m = 0 is a misuse (R213). -/
def RF.predOk (r : RF) : Bool × Reject := que r.pred.wf

/-- An instruction without a predicate (R222). -/
def RF.noPred (r : RF) : Bool × Reject := rsv (r.m == 0 && !r.pn)

def RF.vsA (r : RF) : VSrc := if r.q == 1 then .lq (Fin.ofNat 4 r.a.val) else .reg r.a
def RF.vsB (r : RF) : VSrc := if r.q == 2 then .lq (Fin.ofNat 4 r.b.val) else .reg r.b
def RF.vd (r : RF) : VDst := if r.q == 3 then .sq (Fin.ofNat 2 r.d.val) else .reg r.d

/-- Which queue selects an instruction admits, and the high bits of the queue field zero (R213). -/
def RF.qsOk (r : RF) (qs : List (Fin 4)) : List (Bool × Reject) :=
  [que (qs.contains r.q), rsv ((r.q != 1 || r.a.val < 4) && (r.q != 2 || r.b.val < 4) && (r.q != 3 || r.d.val < 2))]

/-- VAR[0] of a prefix, the SB or SAT bit. -/
def xbit (x : Option Ext) (i : Nat) : Bool :=
  match x with
  | none   => false
  | some e => e.xf.var.val / 2 ^ i % 2 == 1

def vsBs (x : Option Ext) (r : RF) : VSrcB :=
  if xbit x 0 then .scal r.b else if r.q == 2 then .lq (Fin.ofNat 4 r.b.val) else .reg r.b

def arithX (x : Option Ext) : Option ArithX :=
  x.map fun e => { tg := e.xf.tg, ms := e.xf.ms, sat := e.xf.var.val / 2 % 2 == 1 }

/-- The conditions of the arithmetic prefix (R264): c only where admitted, SB and SAT only where admitted. -/
def arithOk (x : Option Ext) (r : RF) (c sb sat : Bool) : List (Bool × Reject) :=
  [onExt x fun e => e.imm == 0 && (c || e.xf.c == 0) && e.xf.mx == 0 && e.xf.var.val < 4 &&
     (sb || e.xf.var.val % 2 == 0) && (sat || e.xf.var.val / 2 == 0),
   que (!(xbit x 0 && r.q == 2))]

def v2F (x : Option Ext) (r : RF) : V2F := { d := r.vd, a := r.vsA, b := vsBs x r, p := r.pred, ext := arithX x }

def v2Ok (x : Option Ext) (r : RF) (sat : Bool) : List (Bool × Reject) :=
  r.predOk :: r.qsOk [0, 1, 2, 3] ++ arithOk x r false true sat

def v1F (x : Option Ext) (r : RF) : V1F := { d := r.vd, a := r.vsA, p := r.pred, ext := arithX x }

def v1Ok (x : Option Ext) (r : RF) (sat : Bool) : List (Bool × Reject) :=
  r.predOk :: rsv (r.b == 0) :: r.qsOk [0, 1, 3] ++ arithOk x r false false sat

def v1P (r : RF) : V1P := { d := r.vd, a := r.vsA, p := r.pred }

def v1POk (x : Option Ext) (r : RF) : List (Bool × Reject) :=
  plain x :: r.predOk :: rsv (r.b == 0) :: r.qsOk [0, 1, 3]

def v2P (r : RF) : V2P := { d := r.vd, a := r.vsA, b := r.vsB, p := r.pred }

def v2POk (x : Option Ext) (r : RF) : List (Bool × Reject) := plain x :: r.predOk :: r.qsOk [0, 1, 2, 3]

def m16 (n : Fin 32) : Fin 16 := Fin.ofNat 16 n.val
def f8 (n : Fin 32) : Fin 8 := Fin.ofNat 8 n.val
def f4 (n : Fin 32) : Fin 4 := Fin.ofNat 4 n.val
def f2 (n : Fin 32) : Fin 2 := Fin.ofNat 2 n.val

def foldX (e : Ext) (r : RF) : FoldX :=
  { op := Fin.ofNat 8 e.xf.var.val, sat := e.xf.var.val / 8 % 2 == 1,
    init := if e.xf.var.val / 32 % 2 == 1 then some r.b else none, tg := e.xf.tg, ms := e.xf.ms }

/-- The conditions of vred and vscan (R278): b zero without INIT, EXCL for vscan only. -/
def foldOk (x : Option Ext) (r : RF) (excl : Bool) : List (Bool × Reject) :=
  [prefixed x, onExt x fun e => e.imm == 0 && e.xf.c == 0 && e.xf.mx == 0 && e.xf.var.val < 64 &&
    (e.xf.var.val / 32 % 2 == 1 || r.b == 0) && (excl || e.xf.var.val / 16 % 2 == 0)]

def anchX (x : Option Ext) : Option AnchX :=
  x.map fun e => { tg := e.xf.tg, ms := e.xf.ms, sat := e.xf.var.val % 2 == 1 }

/-- The conditions of the anchored prefix (R291). -/
def anchOk (x : Option Ext) (imm rnd : Bool) : Bool × Reject :=
  onExt x fun e => (imm || e.imm == 0) && e.xf.c == 0 && e.xf.mx == 0 && e.xf.var.val < (if rnd then 4 else 2)

def vdF (x : Option Ext) (r : RF) : VdF := { d := r.vd, a := r.vsA, b := r.vsB, p := r.pred, ext := anchX x }

def stepOp (x : Option Ext) (r : RF) : StepOp :=
  match x with
  | none   => .reg r.b
  | some e => .imm e.imm { tg := e.xf.tg, ms := e.xf.ms, sat := e.xf.var.val % 2 == 1 } (e.xf.var.val / 2 == 1)

def vdsclOk (x : Option Ext) (r : RF) (rnd : Bool) : List (Bool × Reject) :=
  r.predOk :: r.qsOk [0, 1] ++ [anchOk x true rnd, onExt x fun _ => r.b == 0]

/-- Scopes by number (R92, R252). -/
def scopeOf : Nat → Scope
  | 0 => .core
  | 1 => .gang
  | 2 => .pane
  | 3 => .dev
  | _ => .sys

/-- Operations of amo by number (R252). -/
def amoOpOf : Nat → AmoOp
  | 0 => .add
  | 1 => .and
  | 2 => .or
  | 3 => .xor
  | 4 => .min
  | 5 => .max
  | 6 => .swap
  | _ => .cas

/-! ## Majors (R219) -/

def dec01 (x : Option Ext) (r : RF) : Except Reject Instr :=
  let go (k : AluF → Instr) := chk (aluOk x r) (k (aluF x r))
  let one (k : UnF → Instr) :=
    chk [plain x, rsv (r.m == 0), rsv (r.b == 0 && !r.fb)] (k { d := r.d, a := r.a, fa := r.fa })
  match r.fn.val with
  | 0x00 => go .add
  | 0x01 => go .sub
  | 0x02 => go .mul
  | 0x03 => go .mulh
  | 0x04 => go .mulhn
  | 0x05 => go .div
  | 0x06 => go .divn
  | 0x07 => go .rem
  | 0x08 => go .remn
  | 0x09 => go .and
  | 0x0A => go .or
  | 0x0B => go .xor
  | 0x0C => go .shl
  | 0x0D => go .shr
  | 0x0E => go .sar
  | 0x0F => go .min
  | 0x10 => go .max
  | 0x11 => go .slt
  | 0x12 => go .sltn
  | 0x13 => go .seq
  | 0x14 => go .cmovnz
  | 0x15 => one .clz
  | 0x16 => one .ctz
  | 0x17 => one .popc
  | _    => .error .selector

def dec06 (x : Option Ext) (r : RF) : Except Reject Instr :=
  let go (k : ShImmF → Instr) :=
    chk [plain x, rsv (r.imm16.toNat / 64 % 256 == 0)] (k { d := r.d, a := r.a, n := Fin.ofNat 64 r.imm16.toNat })
  match r.imm16.toNat / 2 ^ 14 with
  | 0 => go .shli
  | 1 => go .shri
  | 2 => go .sari
  | _ => .error .selector

def dec0A (x : Option Ext) (r : RF) : Except Reject Instr :=
  let go (ok : AluF → Bool) (k : AluF → Instr) := chk (rsv (ok (aluF x r)) :: aluOk x r) (k (aluF x r))
  match r.fn.val with
  | 0 => go AluF.wfSpec .bfx
  | 1 => go AluF.wfSpec .bfxs
  | 2 => go AluF.wfSpec .bfi
  | 3 => go AluF.wfFsh .fsh
  | _ => .error .selector

def dec0F (x : Option Ext) (r : RF) : Except Reject Instr :=
  match r.fn.val with
  | 0 => chk [plain x, rsv (r.d == 0 && r.a == 0 && r.b == 0 && r.q == 0 && r.m == 0)] .ret
  | 1 => chk [plain x, rsv (r.d == 0 && r.b == 0 && !r.fb && r.m == 0)] (.jr r.srcA)
  | _ => .error .selector

def dec10 (x : Option Ext) (r : RF) : Except Reject Instr :=
  match r.fn.val with
  | 0 => match x with
    | none   => .error .needsExt
    | some e => chk [rsv (r.d == 0 && r.b == 0 && !r.fb && r.m == 0), rsv (e.xf == XF.zero)] (.loop r.srcA e.imm)
  | 1 => chk [plain x, rsv (r.a == 0 && r.q == 0 && r.m == 0)] (.lidx r.d r.b)
  | 2 => chk [plain x, rsv (r.d == 0 && r.a == 0 && r.b == 0 && r.q == 0 && r.m == 0)] .lbrk
  | _ => .error .selector

def dec12 (x : Option Ext) (r : RF) : Except Reject Instr :=
  let f : LdF := { d := r.d, a := r.srcA, addr := addrM x r, sz := Fin.ofNat 4 r.fn.val,
                   sx := r.fn.val / 4 % 2 == 1 }
  chk (rsv f.wf :: addrOk x r) (.ld f)

def dec13 (x : Option Ext) (r : RF) : Except Reject Instr :=
  chk (rsv (r.fn.val / 4 % 2 == 0) :: addrOk x r)
    (.st { d := r.d, a := r.srcA, addr := addrM x r, sz := Fin.ofNat 4 r.fn.val })

def dec14 (x : Option Ext) (r : RF) : Except Reject Instr :=
  chk (rsv (r.d == 0 && r.fn.val % 8 == 0) :: addrOk x r) (.pref r.srcA (addrM x r))

def dec15 (x : Option Ext) (r : RF) : Except Reject Instr :=
  let tc : Fin 8 := Fin.ofNat 8 (r.fn.val / 4)
  let base := [rsv (r.m == 0), rsv (r.d.val < 4)]
  let scat (k : LdqsF → Instr) :=
    let f : LdqsF := { q := f4 r.d, a := r.srcA, b := r.srcB, tc := tc, ext := x.map fun e => e.xf.tg }
    chk (base ++ [rsv f.wf, onExt x fun e => e.imm == 0 && e.xf == { XF.zero with tg := e.xf.tg }]) (k f)
  match r.fn.val % 4 with
  | 0 =>
    let f : LdqF := { q := f4 r.d, a := r.srcA, tc := tc, ext := x.map fun e =>
      { off := e.imm, tg := e.xf.tg, scl := Fin.ofNat 4 e.xf.var.val } }
    chk (base ++ [rsv f.wf, rsv (r.b == 0 && !r.fb),
      onExt x fun e => e.xf.var.val < 4 && e.xf == { XF.zero with tg := e.xf.tg, var := e.xf.var }]) (.ldq f)
  | 1 => scat .ldqs
  | 2 => scat .ldqx
  | _ => chk (plain x :: base ++ [rsv (r.fn.val / 8 == 0)])
    (.ldab { q := f4 r.d, a := r.srcA, b := r.srcB, wide := r.fn.val / 4 % 2 == 1 })

def dec16 (x : Option Ext) (r : RF) : Except Reject Instr :=
  let base := [rsv (r.m == 0), rsv (r.d.val < 2), rsv (r.fn.val / 16 == 0)]
  let app := r.fn.val / 8 % 2 == 1
  let scat (k : StqsF → Instr) :=
    chk (base ++ [rsv (!app), onExt x fun e => e.imm == 0 && e.xf == { XF.zero with tg := e.xf.tg }])
      (k { q := f2 r.d, a := r.srcA, b := r.srcB, ext := x.map fun e => e.xf.tg })
  match r.fn.val % 8 with
  | 0 =>
    if app then chk (plain x :: base ++ [rsv (r.b == 0 && !r.fb)]) (.stqApp (f2 r.d) r.srcA)
    else chk (base ++ [rsv (r.b == 0 && !r.fb), onExt x fun e => e.xf == { XF.zero with tg := e.xf.tg }])
      (.stq { q := f2 r.d, a := r.srcA, ext := x.map fun e => (e.imm, e.xf.tg) })
  | 1 => scat .stqs
  | 2 => scat .stqx
  | 3 => chk (plain x :: base ++ [rsv (!app)]) (.stqp { q := f2 r.d, a := r.srcA, b := r.srcB })
  | 4 => chk (plain x :: base) (.stab { q := f2 r.d, a := r.srcA, b := r.srcB, wide := app })
  | _ => .error .selector

def dec17 (x : Option Ext) (r : RF) : Except Reject Instr :=
  match x with
  | none   => .error .needsExt
  | some e =>
    let v := e.xf.var.val
    let sc := scopeOf r.m.val
    let op := amoOpOf (v % 8)
    let acq := v / 8 % 2 == 1
    let rel := v / 16 % 2 == 1
    let base := [rsv (r.m.val < 5), rsv (e.xf.ms == 0 && e.xf.mx == 0 && v < 64)]
    match r.fn.val with
    | 0 => chk (base ++ [rsv (op == .cas || e.xf.c == 0)])
      (.amo { d := r.d, a := r.srcA, b := r.srcB, scope := sc, off := e.imm, c := e.xf.c, tg := e.xf.tg, op := op,
              acq := acq, rel := rel, det := v / 32 % 2 == 1 })
    | 1 => chk (base ++ [rsv (r.d.val < 2), rsv (op != .cas && v < 32 && e.xf.c == 0 && e.imm == 0)])
      (.amoqx { q := f2 r.d, a := r.srcA, b := r.srcB, scope := sc, tg := e.xf.tg, op := op, acq := acq, rel := rel })
    | _ => .error .selector

def dec18 (x : Option Ext) (r : RF) : Except Reject Instr :=
  let base := [plain x, rsv (r.a == 0 && r.b == 0 && r.q == 0 && r.m == 0), rsv (r.fn.val / 16 == 0)]
  if r.fn.val % 8 < 4 then
    chk (base ++ [rsv (r.d == 0), rsv (r.fn.val / 8 == 0)]) (.fence (Fin.ofNat 4 r.fn.val))
  else if r.fn.val % 8 == 4 then
    (if r.fn.val / 8 % 2 == 1 then chk base (.fenceSysT r.d) else chk base (.fenceSys r.d))
  else .error .selector

def dec19 (x : Option Ext) (r : RF) : Except Reject Instr :=
  match r.fn.val with
  | 0 => chk [plain x, rsv (r.d == 0 && r.m == 0)] (.arm r.srcA r.srcB)
  | 1 => chk [plain x, rsv (r.d == 0 && r.m == 0)] (.arrive r.srcA r.srcB)
  | 2 => chk [plain x, rsv (r.m == 0)] (.await r.d r.srcA r.srcB)
  | _ => .error .selector

def dec1A (x : Option Ext) (r : RF) : Except Reject Instr :=
  match r.fn.val with
  | 0 => chk [plain x, rsv (r.b == 0 && !r.fb)] (.vsetl r.d r.srcA r.m)
  | 1 => chk [plain x, rsv (r.d == 0 && r.b == 0 && !r.fb && r.m == 0)] (.spcfg r.srcA)
  | _ => .error .selector

def dec1B (x : Option Ext) (r : RF) : Except Reject Instr :=
  match r.fn.val with
  | 0 => chk [plain x, rsv (r.d == 0 && r.b == 0 && r.q == 0 && r.m == 0)] (.cpy r.a)
  | 1 => chk [plain x, rsv (r.d == 0 && r.b == 0 && r.q == 0 && r.m == 0)] (.xform r.a)
  | _ => .error .selector

def dec1C (x : Option Ext) (r : RF) : Except Reject Instr :=
  let hi0 := rsv (r.fn.val / 8 == 0)
  let one := [rsv (r.d == 0 && r.b == 0 && !r.fb && r.m == 0), regOrImmOk x r]
  match r.fn.val % 8 with
  | 0 => if r.fn.val / 8 == 1 then chk one (.mcfgD (regOrImm x r)) else chk (hi0 :: one) (.mcfg (regOrImm x r))
  | 1 => chk [hi0, rsv (r.m.val < 8), onExt x fun e => r.d == 0 && e.xf == XF.zero]
    (.mmp { t := Fin.ofNat 8 r.m.val, a := r.srcA, b := r.srcB, k := match x with
      | none   => .reg r.d
      | some e => .imm e.imm })
  | 2 => chk (hi0 :: one) (.mzero (regOrImm x r))
  | 3 => chk (hi0 :: one) (.mlive (regOrImm x r))
  | 4 => chk [hi0, rsv (r.d == 0 && r.b == 0 && !r.fb && r.m == 0), onExt x fun e => e.xf == XF.zero]
    (.mchk r.srcA (x.map fun e => e.imm))
  | 5 => chk [hi0, rsv (r.d.val < 4 && r.b == 0 && !r.fb && r.m.val < 8), regOrImmOk x r]
    (.mdrain { q := f4 r.d, t := Fin.ofNat 8 r.m.val, spec := regOrImm x r })
  | _ => .error .selector

def dec1D (x : Option Ext) (r : RF) : Except Reject Instr :=
  let base := [plain x, r.noPred, que (r.q == 0)]
  match r.sel with
  | 0 => chk (base ++ [rsv (r.d.val < 4 && r.a == 0 && r.b == 0)]) (.vcfg (f4 r.d))
  | 1 => chk (base ++ [rsv (r.b == 0)]) (.vtag r.d r.a)
  | 2 => chk (base ++ [rsv (r.a == 0 && r.b == 0)]) (.vgetl r.d)
  | 3 => chk base (.vsetlx r.d r.a r.b)
  | _ => .error .selector

def dec1E (x : Option Ext) (r : RF) : Except Reject Instr :=
  let tagOnly := onExt x fun e => e.imm == 0 && e.xf == { XF.zero with tg := e.xf.tg }
  match r.sel with
  | 0 =>
    if r.b == 1 then
      chk [plain x, r.noPred, que (r.q == 1), rsv (r.a.val < 4)] (.vmvH r.d (f4 r.a))
    else chk (v1POk x r) (.vmv (v1P r))
  | 1 =>
    let base := [plain x, r.noPred, que (r.q == 3), rsv (r.d.val < 2)]
    if r.b == 1 then chk base (.vpushH (f2 r.d) r.a) else chk (base ++ [rsv (r.b == 0)]) (.vpush (f2 r.d) r.a)
  | 2 => chk (r.predOk :: r.qsOk [0, 3] ++ [rsv (r.a == 0), tagOnly])
    (.vbc r.vd r.b r.pred (x.map fun e => e.xf.tg))
  | 3 => chk (r.noPred :: r.qsOk [0, 3] ++ [rsv (r.a == 0 && r.b == 0), tagOnly]) (.vid r.vd (x.map fun e => e.xf.tg))
  | 4 => chk (r.noPred :: r.qsOk [0, 1] ++ [vidxOk x r]) (.vext r.d r.vsA (vidxB x r))
  | 5 => chk [r.noPred, que (r.q == 0), vidxOk x r] (.vins r.d r.a (vidxB x r))
  | _ => .error .selector

def dec1F (x : Option Ext) (r : RF) : Except Reject Instr :=
  match r.sel with
  | 0 => chk (v2Ok x r true) (.vadd (v2F x r))
  | 1 => chk (v2Ok x r true) (.vsub (v2F x r))
  | 2 => chk (v2Ok x r true) (.vmul (v2F x r))
  | 3 => chk (v2Ok x r false) (.vmulh (v2F x r))
  | 4 => chk (r.predOk :: r.qsOk (if x.isSome then [0, 1, 2, 3] else [0, 1, 2]) ++ arithOk x r true true true)
    (.vfma { d := r.vd, a := r.vsA, b := vsBs x r, p := r.pred, ext := match x with
      | none   => none
      | some e => some ({ tg := e.xf.tg, ms := e.xf.ms, sat := e.xf.var.val / 2 % 2 == 1 }, e.xf.c) })
  | 5 => chk (v2Ok x r false) (.vdiv (v2F x r))
  | 6 => chk (v2Ok x r false) (.vmin (v2F x r))
  | 7 => chk (v2Ok x r false) (.vmax (v2F x r))
  | _ => .error .selector

def dec20 (x : Option Ext) (r : RF) : Except Reject Instr :=
  match r.sel with
  | 0 => chk (v1Ok x r true) (.vabs (v1F x r))
  | 1 => chk (v1Ok x r true) (.vneg (v1F x r))
  | 2 => chk (v2Ok x r false) (.vand (v2F x r))
  | 3 => chk (v2Ok x r false) (.vor (v2F x r))
  | 4 => chk (v2Ok x r false) (.vxor (v2F x r))
  | 5 => chk (v1Ok x r false) (.vnot (v1F x r))
  | 6 => chk (v2Ok x r false) (.vshl (v2F x r))
  | 7 => chk (v2Ok x r false) (.vshr (v2F x r))
  | 8 => chk (v2Ok x r false) (.vsar (v2F x r))
  | _ => .error .selector

def dec21 (x : Option Ext) (r : RF) : Except Reject Instr :=
  match r.sel, x with
  | 0, none   => .error .needsExt
  | 0, some e =>
    let st := e.xf.var.val == 5
    chk (r.predOk :: r.qsOk (if st then [0, 1, 2, 3] else [0, 1, 3]) ++
        [rsv (st || r.b == 0), rsv (e.imm == 0 && e.xf.c == 0 && e.xf.mx == 0 && e.xf.var.val < 8)])
      (.vcvt { d := r.vd, a := r.vsA, p := r.pred, tg := e.xf.tg, ms := e.xf.ms, rnd := Fin.ofNat 8 e.xf.var.val,
               vr := if st then some r.vsB else none })
  | _, _ => .error .selector

def dec22 (x : Option Ext) (r : RF) : Except Reject Instr :=
  match r.sel with
  | 0 => match x with
    | none   => .error .needsExt
    | some e =>
      let sb := e.xf.var.val / 16 % 2 == 1
      let valid := e.xf.var.val % 16 == 8
      chk (r.predOk :: r.qsOk [0, 1, 2] ++ [rsv (r.d.val < 16), que (!((sb || valid) && r.q == 2)),
          rsv (!valid || (r.b == 0 && !sb)),
          rsv (e.imm == 0 && e.xf == { XF.zero with var := e.xf.var } && e.xf.var.val < 64)])
        (.vcmp { d := m16 r.d, a := r.vsA, p := r.pred,
                 b := if sb then .scal r.b else if r.q == 2 then .lq (f4 r.b) else .reg r.b,
                 cond := Fin.ofNat 16 e.xf.var.val, sig := e.xf.var.val / 32 % 2 == 1 })
  | 1 => chk (v2POk x r) (.vsel (v2P r))
  | _ => .error .selector

def dec23 (x : Option Ext) (r : RF) : Except Reject Instr :=
  let base := [plain x, r.noPred, que (r.q == 0), rsv (r.a.val < 16)]
  let two (k : Fin 16 → Fin 16 → Fin 16 → Instr) :=
    chk (base ++ [rsv (r.d.val < 16 && r.b.val < 16)]) (k (m16 r.d) (m16 r.a) (m16 r.b))
  match r.sel with
  | 0 => two .mand
  | 1 => two .mor
  | 2 => two .mxor
  | 3 => chk (base ++ [rsv (r.d.val < 16 && r.b == 0)]) (.mnot (m16 r.d) (m16 r.a))
  | 4 => chk (base ++ [rsv (r.b == 0)]) (.mpop r.d (m16 r.a))
  | 5 => chk (base ++ [rsv (r.b == 0)]) (.mfirst r.d (m16 r.a))
  | _ => .error .selector

def dec24 (x : Option Ext) (r : RF) : Except Reject Instr :=
  let sl (k : SlideF → Instr) := chk (r.predOk :: r.qsOk [0, 1, 3] ++ [vidxOk x r])
    (k { d := r.vd, a := r.vsA, k := vidxB x r, p := r.pred })
  match r.sel with
  | 0 => sl .vslup
  | 1 => sl .vsldn
  | 2 => chk (v2POk x r) (.vperm (v2P r))
  | 3 => chk (r.predOk :: r.qsOk [0, 1, 3] ++
      [onExt x fun e => r.b == 0 && e.xf.var.val < 2 && e.xf == { XF.zero with var := e.xf.var }])
    (.vxchg { d := r.vd, a := r.vsA, k := vidxB x r, rot := xbit x 0, p := r.pred })
  | _ => .error .selector

def dec25 (x : Option Ext) (r : RF) : Except Reject Instr :=
  let base := [plain x, r.predOk, rsv (r.b == 0)]
  match r.sel with
  | 0 => chk (base ++ r.qsOk [0, 1]) (.vcompress r.d r.vsA r.pred)
  | 1 => chk (base ++ r.qsOk [0, 1]) (.vexpand r.d r.vsA r.pred)
  | 2 => chk (base ++ r.qsOk [3]) (.vappend (f2 r.d) r.a r.pred)
  | _ => .error .selector

def dec26 (x : Option Ext) (r : RF) : Except Reject Instr :=
  match r.sel, x with
  | 0, none   => .error .needsExt
  | 0, some e => chk (r.predOk :: r.qsOk [0, 1] ++ foldOk x r false)
    (.vred { d := r.d, a := r.vsA, p := r.pred, x := foldX e r })
  | 1, none   => .error .needsExt
  | 1, some e => chk (r.predOk :: r.qsOk [0, 1, 3] ++ foldOk x r true)
    (.vscan { d := r.vd, a := r.vsA, p := r.pred, x := foldX e r, excl := e.xf.var.val / 16 % 2 == 1 })
  | _, _ => .error .selector

def dec27 (x : Option Ext) (r : RF) : Except Reject Instr :=
  match r.sel with
  | 0 => chk (v1POk x r) (.vrcp (v1P r))
  | 1 => chk (v1POk x r) (.vrsq (v1P r))
  | 2 => chk (v1POk x r) (.vsqrt (v1P r))
  | 3 => chk (v1POk x r) (.vex2 (v1P r))
  | 4 => chk (v1POk x r) (.vlg2 (v1P r))
  | 5 => chk (v1POk x r) (.vtanh (v1P r))
  | _ => .error .selector

def dec28 (x : Option Ext) (r : RF) : Except Reject Instr :=
  match r.sel with
  | 0 => chk (plain x :: r.predOk :: r.qsOk [0, 1]) (.vrng r.d r.vsA r.b r.pred)
  | 1 => chk [plain x, rsv (r.fn.val / 16 == 0), rsv (r.m.val < 2)] (.rng r.d r.srcA r.srcB (r.m.val == 1))
  | _ => .error .selector

/-- The target and the binding of kcfg (R287). -/
def kcfgOf (x : Option Ext) (r : RF) : KcfgF :=
  { t := if xbit x 4 then .lq (f4 r.d) else .vreg r.d,
    k := match r.b.val / 8 with
      | 0 => .anchor (m16 r.a) (Fin.ofNat 7 r.b.val)
      | 1 => .codebook (f8 r.a) (match x with
        | none   => 0
        | some e => Fin.ofNat 16 e.xf.var.val)
      | _ => .none,
    ext := x.isSome }

def dec29 (x : Option Ext) (r : RF) : Except Reject Instr :=
  match r.sel with
  | 0 =>
    let cb := r.b.val / 8 == 1
    chk [r.noPred, que (r.q == 0), rsv (r.b.val / 8 < 3),
      rsv (if r.b.val / 8 == 0 then r.a.val < 16 && r.b.val < 7 else if cb then r.a.val < 8 && r.b.val % 8 == 0
           else r.a == 0 && r.b.val % 8 == 0),
      (!cb || x.isSome, .needsExt), rsv (!xbit x 4 || r.d.val < 4),
      onExt x fun e => e.imm == 0 && e.xf == { XF.zero with var := e.xf.var } && e.xf.var.val < 32 &&
        (cb || e.xf.var.val % 16 == 0)] (.kcfg (kcfgOf x r))
  | 1 =>
    let base := [plain x, r.noPred, rsv (r.b == 0)]
    if r.q == 0 then chk (base ++ [rsv (r.d.val < 16 && r.a.val < 16)]) (.kmv (.copy (m16 r.d) (m16 r.a)))
    else if r.q == 1 then chk (base ++ [rsv (r.d.val < 16 && r.a.val < 4)]) (.kmv (.pop (m16 r.d) (f4 r.a)))
    else if r.q == 3 then chk (base ++ [rsv (r.d.val < 2 && r.a.val < 16)]) (.kmv (.push (f2 r.d) (m16 r.a)))
    else .error .queue
  | 2 => chk [r.noPred, que (r.q == 0), rsv (r.d.val < 16), onExt x fun e => e.xf == XF.zero]
    (.kput { d := m16 r.d, a := r.a, b := r.b, slot := x.map fun e => e.imm })
  | 3 => chk [plain x, r.predOk, que (r.q == 0), rsv (r.d.val < 16 && r.a.val < 16)]
    (.kadj { d := m16 r.d, a := m16 r.a, b := r.b, p := r.pred })
  | _ => .error .selector

def dec2A (x : Option Ext) (r : RF) : Except Reject Instr :=
  let vd (k : VdF → Instr) := chk (r.predOk :: r.qsOk [0, 1, 2, 3] ++ [anchOk x false false]) (k (vdF x r))
  match r.sel with
  | 0 => vd .vdadd
  | 1 => vd .vdsub
  | 2 => chk (r.predOk :: r.qsOk [0, 1, 3] ++ [vidxOk x r])
    (.vddiff { d := r.vd, a := r.vsA, k := vidxB x r, p := r.pred })
  | 3 => chk (plain x :: r.predOk :: r.qsOk [0, 1, 2]) (.vdmul { d := r.d, a := r.vsA, b := r.vsB, p := r.pred })
  | 4 => chk (vdsclOk x r true) (.vdscl { d := r.d, a := r.vsA, k := stepOp x r, p := r.pred })
  | 5 => chk (vdsclOk x r false) (.reanc { d := r.d, a := r.vsA, k := stepOp x r, p := r.pred })
  | 6 => chk (v1POk x r) (.vdwide (v1P r))
  | 7 => chk (r.predOk :: rsv (r.b == 0) :: r.qsOk [0, 1] ++ [anchOk x false false])
    (.vdfrom { d := r.d, a := r.vsA, p := r.pred, ext := anchX x })
  | _ => .error .selector

def dec2B (x : Option Ext) (r : RF) : Except Reject Instr :=
  let base := [rsv (r.fn.val / 16 == 0), rsv (r.b == 0 && !r.fb && r.m == 0), rsv (r.d.val < 8)]
  match r.sel with
  | 0 => chk (base ++ [onExt x fun e => e.xf == XF.zero])
    (.cbld { cb := f8 r.d, a := r.srcA, off := x.map fun e => e.imm })
  | 1 => chk (plain x :: base) (.cbinv (f8 r.d) r.srcA)
  | 2 => chk (base ++ [regOrImmOk x r]) (.cbmode (f8 r.d) (regOrImm x r))
  | 3 => chk [plain x, rsv (r.fn.val / 16 == 0), rsv (r.a == 0 && r.q == 0 && r.m == 0 && r.b.val < 8)]
    (.cbst r.d (f8 r.b))
  | 4 => chk (v1POk x r) (.cbx (v1P r))
  | _ => .error .selector

def dec2C (x : Option Ext) (r : RF) : Except Reject Instr :=
  match r.sel with
  | 0 => chk (r.noPred :: r.qsOk [0, 3] ++ [rsv (r.a.val < 8), vidxOk x r]) (.tget r.vd (f8 r.a) (vidxB x r))
  | 1 => chk (r.noPred :: r.qsOk [0, 2] ++ [rsv (r.d.val < 8), onExt x fun e => r.a == 0 && e.xf == XF.zero])
    (.tfill (f8 r.d) (match x with
      | none   => .reg r.a
      | some e => .imm e.imm) r.vsB)
  | _ => .error .selector

def dec2D (x : Option Ext) (r : RF) : Except Reject Instr :=
  let cvd := rsv (r.d.val < 4)
  let cva := rsv (r.a.val < 4)
  let rr := [rsv (r.fn.val / 16 == 0), rsv (r.m == 0)]
  match r.sel with
  | 0 => chk (cvd :: rr ++ [onExt x fun e => e.imm.toNat < 2 ^ 24 && r.a == 0 && r.b == 0 && r.q == 0 &&
      e.xf == XF.zero])
    (.cjoin (f4 r.d) (match x with
      | none   => .regs r.srcA r.srcB
      | some e => .imm e.imm))
  | 1 => chk (plain x :: cvd :: r.noPred :: r.qsOk [0, 1] ++ [rsv (r.b.val < 16)]) (.csend (f4 r.d) r.vsA (m16 r.b))
  | 2 => chk (plain x :: cva :: r.noPred :: r.qsOk [0, 3]) (.crecv r.vd (f4 r.a) r.b)
  | 3 => chk (plain x :: cvd :: rr ++ [rsv (r.a == 0 && r.q == 0 && r.b.val < 16)]) (.cchoose (f4 r.d) (m16 r.b))
  | 4 => chk (plain x :: cvd :: rr ++ [rsv (r.b == 0 && !r.fb)]) (.cdeleg (f4 r.d) r.srcA)
  | 5 => chk (plain x :: cvd :: rr ++ [rsv (r.a == 0 && r.b == 0 && r.q == 0)]) (.cleave (f4 r.d))
  | 6 => chk (plain x :: cva :: rr ++ [rsv (r.b == 0 && r.q == 0)]) (.cstate r.d (f4 r.a))
  | 7 => chk (plain x :: rr ++ [rsv (r.d == 0)]) (.cprot r.srcA r.srcB)
  | _ => .error .selector

def dec2E (x : Option Ext) (r : RF) : Except Reject Instr :=
  let none0 := [plain x, rsv (r.a == 0 && r.b == 0 && r.q == 0 && r.m == 0)]
  match r.fn.val with
  | 0 => chk [plain x, rsv (r.d == 0 && !r.fa && r.b == 0 && !r.fb && r.m == 0)] (.spawn r.a)
  | 1 => chk (rsv (r.d == 0) :: none0) .done
  | 2 => chk (rsv (r.d == 0) :: none0) .gbar
  | 3 => chk none0 (.tid r.d)
  | 4 => chk (rsv (r.d == 0) :: none0) .dsync
  | _ => .error .selector

def dec2F (x : Option Ext) (r : RF) : Except Reject Instr :=
  let sys : Fin 4096 := Fin.ofNat 4096 (r.a.val * 128 + r.b.val * 4 + r.q.val)
  match r.fn.val with
  | 0 => match x with
    | none   => chk [rsv (r.d == 0 && r.q == 0 && r.m == 0)] (.trap (.short (Fin.ofNat 1024 (r.a.val * 32 + r.b.val))))
    | some e => chk [rsv (r.d == 0 && r.a == 0 && r.b == 0 && r.q == 0 && r.m == 0),
        rsv (e.imm.toNat < 2 ^ 28 && e.xf == XF.zero)] (.trap (.long e.imm))
  | 1 => chk [plain x, rsv (r.d == 0 && r.a == 0 && r.b == 0 && r.q == 0 && r.m == 0)] .eret
  | 2 => chk [plain x, rsv (r.m == 0)] (.sget r.d sys)
  | 3 => chk [plain x, rsv (r.m == 0)] (.sput r.d sys)
  | 4 => chk [plain x, rsv (r.d == 0 && r.b == 0 && !r.fb && r.m == 0)] (.wait r.srcA)
  | 5 => chk [plain x, rsv (r.d == 0 && r.a == 0 && r.b.val < 2 && r.q == 0 && r.m == 0)] (.wkt (r.b == 1))
  | 6 => chk [plain x, rsv (r.a == 0 && r.b == 0 && r.q == 0 && r.m == 0)] (.gts r.d)
  | _ => .error .selector

/-- One instruction word with its prefix, if any (R219). -/
def decodeFields (x : Option Ext) (r : RF) : Except Reject Instr :=
  match r.op.val with
  | 0x01 => dec01 x r
  | 0x02 => chk [immOk x r] (.addi (immF x r))
  | 0x03 => chk [immOk x r] (.andi (immF x r))
  | 0x04 => chk [immOk x r] (.ori (immF x r))
  | 0x05 => chk [immOk x r] (.xori (immF x r))
  | 0x06 => dec06 x r
  | 0x07 => chk [immOk x r] (.slti (immF x r))
  | 0x08 => chk [rsv (r.a == 0), immOk x r] (.li r.d (immOf x r))
  | 0x09 => chk [plain x, rsv (r.a == 0)] (.lih r.d r.imm16)
  | 0x0A => dec0A x r
  | 0x0B => chk (dispOk x r) (.br (dispOf x r))
  | 0x0C => chk [rsv (r.d == 0), immOk x r] (.bz r.a (immOf x r))
  | 0x0D => chk [rsv (r.d == 0), immOk x r] (.bnz r.a (immOf x r))
  | 0x0E => chk (dispOk x r) (.call (dispOf x r))
  | 0x0F => dec0F x r
  | 0x10 => dec10 x r
  | 0x11 => chk [plain x, rsv (r.d == 0 && r.a == 0 && r.b == 0 && r.q == 0 && r.m == 0 && r.fn == 0)] .nop
  | 0x12 => dec12 x r
  | 0x13 => dec13 x r
  | 0x14 => dec14 x r
  | 0x15 => dec15 x r
  | 0x16 => dec16 x r
  | 0x17 => dec17 x r
  | 0x18 => dec18 x r
  | 0x19 => dec19 x r
  | 0x1A => dec1A x r
  | 0x1B => dec1B x r
  | 0x1C => dec1C x r
  | 0x1D => dec1D x r
  | 0x1E => dec1E x r
  | 0x1F => dec1F x r
  | 0x20 => dec20 x r
  | 0x21 => dec21 x r
  | 0x22 => dec22 x r
  | 0x23 => dec23 x r
  | 0x24 => dec24 x r
  | 0x25 => dec25 x r
  | 0x26 => dec26 x r
  | 0x27 => dec27 x r
  | 0x28 => dec28 x r
  | 0x29 => dec29 x r
  | 0x2A => dec2A x r
  | 0x2B => dec2B x r
  | 0x2C => dec2C x r
  | 0x2D => dec2D x r
  | 0x2E => dec2E x r
  | 0x2F => dec2F x r
  | _    => .error .major

/-- One word with its prefix (R218 steps 1 to 4). -/
def decodeWord (x : Option Ext) (w : Nat) : Except Reject Instr :=
  if w == 0 || w == 0xFFFFFFFF then .error .fixedWord
  else if w / 2 ^ 26 == 0x3E then .error .extTwice
  else decodeFields x (RF.ofWord w)

/-- The instruction at the head of a list of words, and the number of its words (R215, R216). -/
def decodeWords : List Nat → Except Reject (Instr × Nat)
  | []      => .error .short
  | w :: ws =>
    if w / 2 ^ 26 == 0x3E then
      match ws with
      | i :: v :: _ =>
        match decodeWord (some { xf := XF.ofWord w, imm := BitVec.ofNat 32 i }) v with
        | .ok k    => .ok (k, 3)
        | .error r => .error r
      | _ => .error .short
    else match decodeWord none w with
      | .ok k    => .ok (k, 1)
      | .error r => .error r

/-- The little-endian words of a list of bytes (R3, R210); bytes short of a word at the end are no word. -/
def wordsOf : List Byte → List Nat
  | b0 :: b1 :: b2 :: b3 :: bs =>
    (b0.toNat + 2 ^ 8 * b1.toNat + 2 ^ 16 * b2.toNat + 2 ^ 24 * b3.toNat) :: wordsOf bs
  | _ => []

/-- Decoding, total on any bytes: the instruction and its length in bytes. -/
def decode (bs : List Byte) : Except Reject (Instr × Nat) :=
  match decodeWords (wordsOf bs) with
  | .ok (i, n) => .ok (i, 4 * n)
  | .error r   => .error r

/-- Four little-endian bytes of a word. -/
def bytesOfWord (w : Nat) : List Byte :=
  [BitVec.ofNat 8 w, BitVec.ofNat 8 (w / 2 ^ 8), BitVec.ofNat 8 (w / 2 ^ 16), BitVec.ofNat 8 (w / 2 ^ 24)]

/-- The instruction the decoder reads from bits w of an opcode-table row, bytes in memory order, padded with zeros to
the longest instruction. -/
def decodeTableWord (_nbits w : Nat) : Option Instr :=
  match decode (bytesOfWord w ++ bytesOfWord (w / 2 ^ 32) ++ bytesOfWord (w / 2 ^ 64)) with
  | .ok (i, _) => some i
  | .error _   => none

/-! ## The encoder -/

def RF.ofOp (op : Fin 64) (fn : Fin 32) : RF := { op := op, d := 0, a := 0, b := 0, q := 0, m := 0, fn := fn }

def bitQ (x y : Bool) : Fin 4 :=
  match x, y with
  | false, false => 0
  | false, true  => 1
  | true, false  => 2
  | true, true   => 3

/-- QS of the queue operands d, a and b (R213). -/
def qsel (d a b : Bool) : Fin 4 := if a then 1 else if b then 2 else if d then 3 else 0

def up4 (n : Fin 4) : Fin 32 := n.castLE (by decide)
def up2 (n : Fin 2) : Fin 32 := n.castLE (by decide)
def up8 (n : Fin 8) : Fin 32 := n.castLE (by decide)
def up16 (n : Fin 16) : Fin 32 := n.castLE (by decide)

def VSrc.fld : VSrc → Fin 32
  | .reg v => v
  | .lq n  => up4 n

def VSrcB.fld : VSrcB → Fin 32
  | .reg v  => v
  | .lq n   => up4 n
  | .scal s => s

def VDst.fld : VDst → Fin 32
  | .reg v => v
  | .sq n  => up2 n

/-- fn of a VR word: PN and sel. -/
def vrFn (p : Bool) (sel : Fin 16) : Fin 32 := ⟨(if p then 16 else 0) + sel.val, by split <;> omega⟩

def RF.withImm (r : RF) (v : BitVec 16) : RF :=
  { r with b := Fin.ofNat 32 (v.toNat / 2 ^ 11), q := Fin.ofNat 4 (v.toNat / 2 ^ 9),
           m := Fin.ofNat 16 (v.toNat / 2 ^ 5), fn := Fin.ofNat 32 v.toNat }

def RF.withDisp (r : RF) (v : BitVec 22) : RF :=
  { r with d := Fin.ofNat 32 (v.toNat / 2 ^ 21), a := Fin.ofNat 32 (v.toNat / 2 ^ 16),
           b := Fin.ofNat 32 (v.toNat / 2 ^ 11), q := Fin.ofNat 4 (v.toNat / 2 ^ 9),
           m := Fin.ofNat 16 (v.toNat / 2 ^ 5), fn := Fin.ofNat 32 v.toNat }

/-- What the encoder gives: a prefix, if any, and the fields of the instruction word. -/
abbrev Enc := Option Ext × RF

def ext0 (v : BitVec 32) : Option Ext := some { xf := XF.zero, imm := v }

def encAlu (op : Fin 64) (fn : Fin 32) (f : AluF) : Enc :=
  match f.src with
  | .reg b fb => (none, { RF.ofOp op fn with d := f.d, a := f.a, b := b, q := bitQ f.fa fb })
  | .imm v    => (ext0 v, { RF.ofOp op fn with d := f.d, a := f.a, q := bitQ f.fa false })

def encUn (fn : Fin 32) (f : UnF) : Enc :=
  (none, { RF.ofOp 0x01 fn with d := f.d, a := f.a, q := bitQ f.fa false })

def encImmR (op : Fin 64) (d a : RegNo) (v : Imm) : Enc :=
  match v with
  | .short v => (none, { RF.ofOp op 0 with d := d, a := a }.withImm v)
  | .long v  => (ext0 v, { RF.ofOp op 0 with d := d, a := a })

def encImm (op : Fin 64) (f : ImmF) : Enc := encImmR op f.d f.a f.imm

def encSh (kind : Nat) (f : ShImmF) : Enc :=
  (none, { RF.ofOp 0x06 0 with d := f.d, a := f.a }.withImm (BitVec.ofNat 16 (kind * 2 ^ 14 + f.n.val)))

def encDisp (op : Fin 64) : Disp → Enc
  | .short v => (none, (RF.ofOp op 0).withDisp v)
  | .long v  => (ext0 v, RF.ofOp op 0)

def encRegImm (r : RF) : RegOrImm → Enc
  | .reg a => (none, { r with a := a.r, q := bitQ a.fe false })
  | .imm v => (ext0 v, r)

/-- fn bit 3 and the fields of a scalar address (R236). -/
def encAddr (op : Fin 64) (d : RegNo) (a : SrcR) (lo : Fin 8) : AddrM → Enc
  | .base    => (none, { RF.ofOp op (up8 lo) with d := d, a := a.r, q := bitQ a.fe false })
  | .off v   => (ext0 v, { RF.ofOp op (up8 lo) with d := d, a := a.r, q := bitQ a.fe false })
  | .index b => (none, { RF.ofOp op ⟨8 + lo.val, by omega⟩ with d := d, a := a.r, b := b.r, q := bitQ a.fe b.fe })

def encRR (op : Fin 64) (fn : Fin 32) (d : RegNo) (a b : SrcR) : RF :=
  { RF.ofOp op fn with d := d, a := a.r, b := b.r, q := bitQ a.fe b.fe }

def encR1 (op : Fin 64) (fn : Fin 32) (d : RegNo) (a : SrcR) : RF :=
  { RF.ofOp op fn with d := d, a := a.r, q := bitQ a.fe false }

def tgX (t : Fin 32) : XF := { XF.zero with tg := t }

def scopeNo : Scope → Fin 16
  | .core => 0
  | .gang => 1
  | .pane => 2
  | .dev  => 3
  | .sys  => 4

def amoNo : AmoOp → Nat
  | .add  => 0
  | .and  => 1
  | .or   => 2
  | .xor  => 3
  | .min  => 4
  | .max  => 5
  | .swap => 6
  | .cas  => 7

def b2n (b : Bool) (k : Nat) : Nat := if b then 2 ^ k else 0

/-- XF of amo and amoqx (R252). -/
def amoX (c tg : Fin 32) (op : AmoOp) (acq rel det : Bool) : XF :=
  { c := c, tg := tg, ms := 0, mx := 0,
    var := Fin.ofNat 256 (amoNo op + b2n acq 3 + b2n rel 4 + b2n det 5) }

def encVR (op : Fin 64) (sel : Fin 16) (p : Pred) : RF := { RF.ofOp op (vrFn p.pn sel) with m := p.m }

def encV1P (op : Fin 64) (sel : Fin 16) (f : V1P) : Enc :=
  (none, { encVR op sel f.p with d := f.d.fld, a := f.a.fld, q := qsel f.d.isQ f.a.isQ false })

def encV2P (op : Fin 64) (sel : Fin 16) (f : V2P) : Enc :=
  (none, { encVR op sel f.p with d := f.d.fld, a := f.a.fld, b := f.b.fld, q := qsel f.d.isQ f.a.isQ f.b.isQ })

def arithExt (x : ArithX) (c : Fin 32) (sb : Bool) : Option Ext :=
  some { xf := { c := c, tg := x.tg, ms := x.ms, mx := 0, var := Fin.ofNat 256 (b2n sb 0 + b2n x.sat 1) }, imm := 0 }

def encV2 (op : Fin 64) (sel : Fin 16) (f : V2F) : Enc :=
  (match f.ext with
    | none   => none
    | some x => arithExt x 0 f.b.isScal,
   { encVR op sel f.p with d := f.d.fld, a := f.a.fld, b := f.b.fld, q := qsel f.d.isQ f.a.isQ f.b.isQ })

def encV1 (op : Fin 64) (sel : Fin 16) (f : V1F) : Enc :=
  (match f.ext with
    | none   => none
    | some x => arithExt x 0 false,
   { encVR op sel f.p with d := f.d.fld, a := f.a.fld, q := qsel f.d.isQ f.a.isQ false })

def encVIdxB (r : RF) : VIdx → Enc
  | .reg b => (none, { r with b := b })
  | .imm v => (ext0 v, r)

def encMask (sel : Fin 16) (d a b : Fin 16) : Enc :=
  (none, { RF.ofOp 0x23 (up16 sel) with d := up16 d, a := up16 a, b := up16 b })

def foldExt (x : FoldX) (excl : Bool) : Option Ext :=
  let v := x.op.val + b2n x.sat 3 + b2n excl 4 + b2n x.init.isSome 5
  some { xf := { c := 0, tg := x.tg, ms := x.ms, mx := 0, var := Fin.ofNat 256 v }, imm := 0 }

def initReg (x : FoldX) : RegNo :=
  match x.init with
  | none   => 0
  | some b => b

def anchExt (v : BitVec 32) (x : AnchX) (rnd : Bool) : Option Ext :=
  some { xf := { c := 0, tg := x.tg, ms := x.ms, mx := 0, var := Fin.ofNat 256 (b2n x.sat 0 + b2n rnd 1) }, imm := v }

def encVd (sel : Fin 16) (f : VdF) : Enc :=
  (match f.ext with
    | none   => none
    | some x => anchExt 0 x false,
   { encVR 0x2A sel f.p with d := f.d.fld, a := f.a.fld, b := f.b.fld, q := qsel f.d.isQ f.a.isQ f.b.isQ })

def encStep (sel : Fin 16) (f : VdsclF) : Enc :=
  match f.k with
  | .reg b     => (none, { encVR 0x2A sel f.p with d := f.d, a := f.a.fld, b := b, q := qsel false f.a.isQ false })
  | .imm v x r => (anchExt v x r, { encVR 0x2A sel f.p with d := f.d, a := f.a.fld, q := qsel false f.a.isQ false })

/-- kcfg (R287): the size code or nothing in b[2:0], KIND in b[4:3]. -/
def encKcfg (f : KcfgF) : Enc :=
  let lq := match f.t with
    | .vreg _ => false
    | .lq _   => true
  let d := match f.t with
    | .vreg v => v
    | .lq n   => up4 n
  let off : Nat := match f.k with
    | .anchor _ _     => 0
    | .codebook _ off => off.val
    | .none           => 0
  (if f.ext then some { xf := { XF.zero with var := Fin.ofNat 256 (off + b2n lq 4) }, imm := 0 } else none,
   match f.k with
   | .anchor k c    => { RF.ofOp 0x29 0 with d := d, a := up16 k, b := c.castLE (by decide) }
   | .codebook cb _ => { RF.ofOp 0x29 0 with d := d, a := up8 cb, b := 8 }
   | .none          => { RF.ofOp 0x29 0 with d := d, b := 16 })

def encSys (fn : Fin 32) (d : RegNo) (n : Fin 4096) : Enc :=
  (none, { RF.ofOp 0x2F fn with d := d, a := Fin.ofNat 32 (n.val / 128), b := Fin.ofNat 32 (n.val / 4),
                                q := Fin.ofNat 4 n.val })

/-- The encoding of an instruction; none for an event. -/
def encodeFields : Instr → Option Enc
  | .add f    => some (encAlu 0x01 0x00 f)
  | .sub f    => some (encAlu 0x01 0x01 f)
  | .mul f    => some (encAlu 0x01 0x02 f)
  | .mulh f   => some (encAlu 0x01 0x03 f)
  | .mulhn f  => some (encAlu 0x01 0x04 f)
  | .div f    => some (encAlu 0x01 0x05 f)
  | .divn f   => some (encAlu 0x01 0x06 f)
  | .rem f    => some (encAlu 0x01 0x07 f)
  | .remn f   => some (encAlu 0x01 0x08 f)
  | .and f    => some (encAlu 0x01 0x09 f)
  | .or f     => some (encAlu 0x01 0x0A f)
  | .xor f    => some (encAlu 0x01 0x0B f)
  | .shl f    => some (encAlu 0x01 0x0C f)
  | .shr f    => some (encAlu 0x01 0x0D f)
  | .sar f    => some (encAlu 0x01 0x0E f)
  | .min f    => some (encAlu 0x01 0x0F f)
  | .max f    => some (encAlu 0x01 0x10 f)
  | .slt f    => some (encAlu 0x01 0x11 f)
  | .sltn f   => some (encAlu 0x01 0x12 f)
  | .seq f    => some (encAlu 0x01 0x13 f)
  | .cmovnz f => some (encAlu 0x01 0x14 f)
  | .clz f    => some (encUn 0x15 f)
  | .ctz f    => some (encUn 0x16 f)
  | .popc f   => some (encUn 0x17 f)
  | .addi f   => some (encImm 0x02 f)
  | .andi f   => some (encImm 0x03 f)
  | .ori f    => some (encImm 0x04 f)
  | .xori f   => some (encImm 0x05 f)
  | .slti f   => some (encImm 0x07 f)
  | .li d v   => some (encImmR 0x08 d 0 v)
  | .lih d v  => some (none, { RF.ofOp 0x09 0 with d := d }.withImm v)
  | .shli f   => some (encSh 0 f)
  | .shri f   => some (encSh 1 f)
  | .sari f   => some (encSh 2 f)
  | .bfx f    => some (encAlu 0x0A 0 f)
  | .bfxs f   => some (encAlu 0x0A 1 f)
  | .bfi f    => some (encAlu 0x0A 2 f)
  | .fsh f    => some (encAlu 0x0A 3 f)
  | .br v     => some (encDisp 0x0B v)
  | .bz a v   => some (encImmR 0x0C 0 a v)
  | .bnz a v  => some (encImmR 0x0D 0 a v)
  | .call v   => some (encDisp 0x0E v)
  | .ret      => some (none, RF.ofOp 0x0F 0)
  | .jr a     => some (none, encR1 0x0F 1 0 a)
  | .loop a v => some (ext0 v, encR1 0x10 0 0 a)
  | .lidx d n => some (none, { RF.ofOp 0x10 1 with d := d, b := n })
  | .lbrk     => some (none, RF.ofOp 0x10 2)
  | .nop      => some (none, RF.ofOp 0x11 0)
  | .ld f     => some (encAddr 0x12 f.d f.a ⟨f.sz.val + (if f.sx then 4 else 0), by split <;> omega⟩ f.addr)
  | .st f     => some (encAddr 0x13 f.d f.a (f.sz.castLE (by decide)) f.addr)
  | .pref a m => some (encAddr 0x14 0 a 0 m)
  | .ldq f    => some (f.ext.map fun x => { xf := { tgX x.tg with var := x.scl.castLE (by decide) }, imm := x.off },
      encR1 0x15 ⟨4 * f.tc.val, by omega⟩ (up4 f.q) f.a)
  | .ldqs f   => some (f.ext.map fun t => { xf := tgX t, imm := 0 },
      encRR 0x15 ⟨4 * f.tc.val + 1, by omega⟩ (up4 f.q) f.a f.b)
  | .ldqx f   => some (f.ext.map fun t => { xf := tgX t, imm := 0 },
      encRR 0x15 ⟨4 * f.tc.val + 2, by omega⟩ (up4 f.q) f.a f.b)
  | .ldab f   => some (none, encRR 0x15 (if f.wide then 7 else 3) (up4 f.q) f.a f.b)
  | .stq f    => some (f.ext.map fun x => { xf := tgX x.2, imm := x.1 }, encR1 0x16 0 (up2 f.q) f.a)
  | .stqApp q a => some (none, encR1 0x16 8 (up2 q) a)
  | .stqs f   => some (f.ext.map fun t => { xf := tgX t, imm := 0 }, encRR 0x16 1 (up2 f.q) f.a f.b)
  | .stqx f   => some (f.ext.map fun t => { xf := tgX t, imm := 0 }, encRR 0x16 2 (up2 f.q) f.a f.b)
  | .stqp f   => some (none, encRR 0x16 3 (up2 f.q) f.a f.b)
  | .stab f   => some (none, encRR 0x16 (if f.wide then 12 else 4) (up2 f.q) f.a f.b)
  | .amo f    => some (some { xf := amoX f.c f.tg f.op f.acq f.rel f.det, imm := f.off },
      { encRR 0x17 0 f.d f.a f.b with m := scopeNo f.scope })
  | .amoqx f  => some (some { xf := amoX 0 f.tg f.op f.acq f.rel false, imm := 0 },
      { encRR 0x17 1 (up2 f.q) f.a f.b with m := scopeNo f.scope })
  | .fence n  => some (none, RF.ofOp 0x18 (up4 n))
  | .fenceSys d  => some (none, { RF.ofOp 0x18 4 with d := d })
  | .fenceSysT d => some (none, { RF.ofOp 0x18 12 with d := d })
  | .arm a b     => some (none, encRR 0x19 0 0 a b)
  | .arrive a b  => some (none, encRR 0x19 1 0 a b)
  | .await d a b => some (none, encRR 0x19 2 d a b)
  | .vsetl d a m => some (none, { encR1 0x1A 0 d a with m := m })
  | .spcfg a  => some (none, encR1 0x1A 1 0 a)
  | .cpy a    => some (none, { RF.ofOp 0x1B 0 with a := a })
  | .xform a  => some (none, { RF.ofOp 0x1B 1 with a := a })
  | .mcfg a   => some (encRegImm (RF.ofOp 0x1C 0) a)
  | .mcfgD a  => some (encRegImm (RF.ofOp 0x1C 8) a)
  | .mmp f    => some (match f.k with
    | .reg d => (none, { encRR 0x1C 1 d f.a f.b with m := f.t.castLE (by decide) })
    | .imm v => (ext0 v, { encRR 0x1C 1 0 f.a f.b with m := f.t.castLE (by decide) }))
  | .mzero a  => some (encRegImm (RF.ofOp 0x1C 2) a)
  | .mlive a  => some (encRegImm (RF.ofOp 0x1C 3) a)
  | .mchk a o => some (o.map fun v => { xf := XF.zero, imm := v }, encR1 0x1C 4 0 a)
  | .mdrain f => some (encRegImm { RF.ofOp 0x1C 5 with d := up4 f.q, m := f.t.castLE (by decide) } f.spec)
  | .vcfg c   => some (none, { RF.ofOp 0x1D 0 with d := up4 c })
  | .vtag d t => some (none, { RF.ofOp 0x1D 1 with d := d, a := t })
  | .vgetl d  => some (none, { RF.ofOp 0x1D 2 with d := d })
  | .vsetlx d a w => some (none, { RF.ofOp 0x1D 3 with d := d, a := a, b := w })
  | .vmv f    => some (encV1P 0x1E 0 f)
  | .vmvH d q => some (none, { RF.ofOp 0x1E 0 with d := d, a := up4 q, b := 1, q := 1 })
  | .vpush q a  => some (none, { RF.ofOp 0x1E 1 with d := up2 q, a := a, q := 3 })
  | .vpushH q a => some (none, { RF.ofOp 0x1E 1 with d := up2 q, a := a, b := 1, q := 3 })
  | .vbc d b p x => some (x.map fun t => { xf := tgX t, imm := 0 },
      { encVR 0x1E 2 p with d := d.fld, b := b, q := qsel d.isQ false false })
  | .vid d x  => some (x.map fun t => { xf := tgX t, imm := 0 },
      { RF.ofOp 0x1E 3 with d := d.fld, q := qsel d.isQ false false })
  | .vext d a i => some (encVIdxB { RF.ofOp 0x1E 4 with d := d, a := a.fld, q := qsel false a.isQ false } i)
  | .vins d a i => some (encVIdxB { RF.ofOp 0x1E 5 with d := d, a := a } i)
  | .vadd f   => some (encV2 0x1F 0 f)
  | .vsub f   => some (encV2 0x1F 1 f)
  | .vmul f   => some (encV2 0x1F 2 f)
  | .vmulh f  => some (encV2 0x1F 3 f)
  | .vfma f   => some (match f.ext with
      | none        => none
      | some (x, c) => arithExt x c f.b.isScal,
    { encVR 0x1F 4 f.p with d := f.d.fld, a := f.a.fld, b := f.b.fld, q := qsel f.d.isQ f.a.isQ f.b.isQ })
  | .vdiv f   => some (encV2 0x1F 5 f)
  | .vmin f   => some (encV2 0x1F 6 f)
  | .vmax f   => some (encV2 0x1F 7 f)
  | .vabs f   => some (encV1 0x20 0 f)
  | .vneg f   => some (encV1 0x20 1 f)
  | .vand f   => some (encV2 0x20 2 f)
  | .vor f    => some (encV2 0x20 3 f)
  | .vxor f   => some (encV2 0x20 4 f)
  | .vnot f   => some (encV1 0x20 5 f)
  | .vshl f   => some (encV2 0x20 6 f)
  | .vshr f   => some (encV2 0x20 7 f)
  | .vsar f   => some (encV2 0x20 8 f)
  | .vcvt f   => some (some { xf := { c := 0, tg := f.tg, ms := f.ms, mx := 0, var := f.rnd.castLE (by decide) },
                              imm := 0 }, match f.vr with
    | none   => { encVR 0x21 0 f.p with d := f.d.fld, a := f.a.fld, q := qsel f.d.isQ f.a.isQ false }
    | some b => { encVR 0x21 0 f.p with d := f.d.fld, a := f.a.fld, b := b.fld, q := qsel f.d.isQ f.a.isQ b.isQ })
  | .vcmp f   => some (some { xf := { XF.zero with var := Fin.ofNat 256 (f.cond.val + b2n f.b.isScal 4 + b2n f.sig 5) },
                              imm := 0 },
    { encVR 0x22 0 f.p with d := up16 f.d, a := f.a.fld, b := f.b.fld, q := qsel false f.a.isQ f.b.isQ })
  | .vsel f   => some (encV2P 0x22 1 f)
  | .mand d a b => some (encMask 0 d a b)
  | .mor d a b  => some (encMask 1 d a b)
  | .mxor d a b => some (encMask 2 d a b)
  | .mnot d a   => some (encMask 3 d a 0)
  | .mpop d a   => some (none, { RF.ofOp 0x23 4 with d := d, a := up16 a })
  | .mfirst d a => some (none, { RF.ofOp 0x23 5 with d := d, a := up16 a })
  | .vslup f  => some (encVIdxB { encVR 0x24 0 f.p with d := f.d.fld, a := f.a.fld, q := qsel f.d.isQ f.a.isQ false } f.k)
  | .vsldn f  => some (encVIdxB { encVR 0x24 1 f.p with d := f.d.fld, a := f.a.fld, q := qsel f.d.isQ f.a.isQ false } f.k)
  | .vperm f  => some (encV2P 0x24 2 f)
  | .vxchg f  => some (match f.k with
    | .reg b => (none, { encVR 0x24 3 f.p with d := f.d.fld, a := f.a.fld, b := b, q := qsel f.d.isQ f.a.isQ false })
    | .imm v => (some { xf := { XF.zero with var := Fin.ofNat 256 (b2n f.rot 0) }, imm := v },
        { encVR 0x24 3 f.p with d := f.d.fld, a := f.a.fld, q := qsel f.d.isQ f.a.isQ false }))
  | .vcompress d a p => some (none, { encVR 0x25 0 p with d := d, a := a.fld, q := qsel false a.isQ false })
  | .vexpand d a p   => some (none, { encVR 0x25 1 p with d := d, a := a.fld, q := qsel false a.isQ false })
  | .vappend q a p   => some (none, { encVR 0x25 2 p with d := up2 q, a := a, q := 3 })
  | .vred f   => some (foldExt f.x false,
    { encVR 0x26 0 f.p with d := f.d, a := f.a.fld, b := initReg f.x, q := qsel false f.a.isQ false })
  | .vscan f  => some (foldExt f.x f.excl,
    { encVR 0x26 1 f.p with d := f.d.fld, a := f.a.fld, b := initReg f.x, q := qsel f.d.isQ f.a.isQ false })
  | .vrcp f   => some (encV1P 0x27 0 f)
  | .vrsq f   => some (encV1P 0x27 1 f)
  | .vsqrt f  => some (encV1P 0x27 2 f)
  | .vex2 f   => some (encV1P 0x27 3 f)
  | .vlg2 f   => some (encV1P 0x27 4 f)
  | .vtanh f  => some (encV1P 0x27 5 f)
  | .vrng d a b p => some (none, { encVR 0x28 0 p with d := d, a := a.fld, b := b, q := qsel false a.isQ false })
  | .rng d a b h  => some (none, { encRR 0x28 1 d a b with m := if h then 1 else 0 })
  | .kcfg f   => some (encKcfg f)
  | .kmv (.copy d a) => some (none, { RF.ofOp 0x29 1 with d := up16 d, a := up16 a })
  | .kmv (.pop d q)  => some (none, { RF.ofOp 0x29 1 with d := up16 d, a := up4 q, q := 1 })
  | .kmv (.push q a) => some (none, { RF.ofOp 0x29 1 with d := up2 q, a := up16 a, q := 3 })
  | .kput f   => some (f.slot.map fun v => { xf := XF.zero, imm := v },
    { RF.ofOp 0x29 2 with d := up16 f.d, a := f.a, b := f.b })
  | .kadj f   => some (none, { encVR 0x29 3 f.p with d := up16 f.d, a := up16 f.a, b := f.b })
  | .vdadd f  => some (encVd 0 f)
  | .vdsub f  => some (encVd 1 f)
  | .vddiff f => some (encVIdxB { encVR 0x2A 2 f.p with d := f.d.fld, a := f.a.fld, q := qsel f.d.isQ f.a.isQ false } f.k)
  | .vdmul f  => some (none,
    { encVR 0x2A 3 f.p with d := f.d, a := f.a.fld, b := f.b.fld, q := qsel false f.a.isQ f.b.isQ })
  | .vdscl f  => some (encStep 4 f)
  | .reanc f  => some (encStep 5 f)
  | .vdwide f => some (encV1P 0x2A 6 f)
  | .vdfrom f => some (match f.ext with
      | none   => none
      | some x => anchExt 0 x false, { encVR 0x2A 7 f.p with d := f.d, a := f.a.fld, q := qsel false f.a.isQ false })
  | .cbld f   => some (f.off.map fun v => { xf := XF.zero, imm := v }, encR1 0x2B 0 (up8 f.cb) f.a)
  | .cbinv c a  => some (none, encR1 0x2B 1 (up8 c) a)
  | .cbmode c a => some (encRegImm { RF.ofOp 0x2B 2 with d := up8 c } a)
  | .cbst d c   => some (none, { RF.ofOp 0x2B 3 with d := d, b := up8 c })
  | .cbx f    => some (encV1P 0x2B 4 f)
  | .tget d t s => some (encVIdxB { RF.ofOp 0x2C 0 with d := d.fld, a := up8 t, q := qsel d.isQ false false } s)
  | .tfill t s b => some (match s with
    | .reg a => (none, { RF.ofOp 0x2C 1 with d := up8 t, a := a, b := b.fld, q := qsel false false b.isQ })
    | .imm v => (ext0 v, { RF.ofOp 0x2C 1 with d := up8 t, b := b.fld, q := qsel false false b.isQ }))
  | .cjoin c (.regs a b) => some (none, encRR 0x2D 0 (up4 c) a b)
  | .cjoin c (.imm v)    => some (ext0 v, { RF.ofOp 0x2D 0 with d := up4 c })
  | .csend c a k  => some (none, { RF.ofOp 0x2D 1 with d := up4 c, a := a.fld, b := up16 k, q := qsel false a.isQ false })
  | .crecv d c b  => some (none, { RF.ofOp 0x2D 2 with d := d.fld, a := up4 c, b := b, q := qsel d.isQ false false })
  | .cchoose c k  => some (none, { RF.ofOp 0x2D 3 with d := up4 c, b := up16 k })
  | .cdeleg c a   => some (none, encR1 0x2D 4 (up4 c) a)
  | .cleave c     => some (none, { RF.ofOp 0x2D 5 with d := up4 c })
  | .cstate d c   => some (none, { RF.ofOp 0x2D 6 with d := d, a := up4 c })
  | .cprot a b    => some (none, encRR 0x2D 7 0 a b)
  | .spawn a  => some (none, encR1 0x2E 0 0 { r := a, fe := false })
  | .done     => some (none, RF.ofOp 0x2E 1)
  | .gbar     => some (none, RF.ofOp 0x2E 2)
  | .tid d    => some (none, { RF.ofOp 0x2E 3 with d := d })
  | .dsync    => some (none, RF.ofOp 0x2E 4)
  | .trap (.short c) => some (none, { RF.ofOp 0x2F 0 with a := Fin.ofNat 32 (c.val / 32), b := Fin.ofNat 32 c.val })
  | .trap (.long v)  => some (ext0 v, RF.ofOp 0x2F 0)
  | .eret     => some (none, RF.ofOp 0x2F 1)
  | .sget d n => some (encSys 2 d n)
  | .sput d n => some (encSys 3 d n)
  | .wait a   => some (none, encR1 0x2F 4 0 a)
  | .wkt k    => some (none, { RF.ofOp 0x2F 5 with b := if k then 1 else 0 })
  | .gts d    => some (none, { RF.ofOp 0x2F 6 with d := d })
  | .ldabRetry .. => none
  | .stqDataArrives .. => none
  | .stabGenRetry .. => none
  | .loadComplete .. => none
  | .fenceComplete .. => none
  | .awaitComplete .. => none
  | .macroOpStart .. => none
  | .macroOpKStep .. => none
  | .macroOpComplete .. => none
  | .sampleCheckResult .. => none
  | .cbldComplete .. => none
  | .crecvComplete .. => none
  | .homeReply .. => none
  | .sendRetry .. => none
  | .homeSend .. => none
  | .homeJoin .. => none
  | .homeDelegate .. => none
  | .homeLeave .. => none
  | .homeStateRead .. => none
  | .messageForward .. => none
  | .gbarComplete .. => none
  | .waitExpire .. => none
  | .vlcapWrite .. => none
  | .laneokWrite .. => none
  | .mstepWrite .. => none
  | .registerWrite .. => none
  | .pageWalkComplete .. => none
  | .xinvRegion .. => none
  | .xinvAsid .. => none
  | .xinvAll => none
  | .invalidationComplete => none
  | .ccinvAsid .. => none
  | .ccinvAll => none
  | .ccinvComplete => none
  | .atsInvalidateRequest .. => none
  | .priResponse .. => none
  | .priTimeout .. => none
  | .peerAccessArrival .. => none
  | .peerResponse .. => none
  | .queueEntryDelivered .. => none
  | .crossPaneWriteApply .. => none
  | .inboundZeroLengthWrite .. => none
  | .inboundZeroLengthRead .. => none
  | .peerSilenceTimeout .. => none
  | .peerLostDeclared .. => none
  | .cardDispatch .. => none
  | .chunkCommit .. => none
  | .cardFail .. => none
  | .cardComplete .. => none
  | .intervalClose .. => none
  | .mergePartComplete .. => none
  | .launch .. => none
  | .launchFetch .. => none
  | .launchFetchAttempt .. => none
  | .lwbaseWrite .. => none
  | .lwcntWrite .. => none
  | .vstatClear .. => none
  | .bar2Access .. => none
  | .recordPlacement => none
  | .taskStart .. => none
  | .preload .. => none
  | .taskEnd .. => none
  | .statusRecordWrite .. => none
  | .contractAdmit .. => none
  | .contractDisable .. => none
  | .contractPeriodStart .. => none
  | .contractOverrun .. => none
  | .wicketGrant .. => none
  | .stopRequest .. => none
  | .contextSave .. => none
  | .contextRestore .. => none
  | .remove .. => none
  | .exitRoutineTimeout .. => none
  | .watchdog .. => none
  | .correctedError .. => none
  | .uncorrectableError .. => none
  | .laneRetired .. => none
  | .functionLevelReset .. => none
  | .functionResetComplete .. => none
  | .conversationOpen .. => none
  | .conversationClose .. => none
  | .flitTransmit .. => none
  | .flitReceive .. => none
  | .flitAcknowledge .. => none
  | .resendRequest .. => none
  | .reachWrite .. => none
  | .reachHandshakeComplete .. => none
  | .reachHandshakeTimeout .. => none
  | .lambdaEnWrite .. => none
  | .wakeComplete .. => none
  | .autoWake .. => none
  | .ringMove .. => none
  | .fabctlRun => none
  | .fabctlDrain => none
  | .fabctlDark => none
  | .fabctlRelock => none
  | .drainMarkerAck .. => none
  | .powerOn => none
  | .thermalLimit .. => none
  | .thermalShutdown .. => none
  | .getVersion => none
  | .getCapabilities => none
  | .negotiateAlgorithms .. => none
  | .getDigests => none
  | .getCertificate .. => none
  | .challenge .. => none
  | .getMeasurements .. => none
  | .spdmUnsupportedRequest .. => none
  | .storePerformed .. => none
  | .atsTranslationCompletion .. => none
  | .sriovNumvfsWrite .. => none
  | .firmwareUpdate .. => none

/-- The words of an instruction: one, or the prefix and the word (R215); none for an event. -/
def encode (i : Instr) : Option (List Nat) :=
  match encodeFields i with
  | none             => none
  | some (none, r)   => some [r.word]
  | some (some e, r) => some [e.xf.word, e.imm.toNat, r.word]

end Sys2Proof
end

