-- ==== Sys2Proof/Config.lean ====
section
/-!
DEFINITION. What one implementation fixes and the values the manual leaves open. An opaque constant has no body, so
no proof can see its value and a claim holds whatever it is.
-/

namespace Sys2Proof
namespace Config

/-- The undefined value number k of the machine (R6, R75, R186): unconstrained. DESIGN CHOICE, log entry 7. -/
opaque undef : Nat → Word

/-- The set of its pane's translation buffer that a page has (R17): space, ASID or function, address, size. DESIGN CHOICE, log entry 9. -/
opaque tlbSet : Bool → Nat → Nat → Nat → Nat

/-- Which of the two representable values that bracket an inexact f64 vrsq, vex2, vlg2 or vtanh is returned (R280):
true for the upper one. The first argument is the selector of the function. DESIGN CHOICE, log entry 8. -/
opaque f64Upper : Nat → Word → Bool

/-- The ASID, less 128, of the contexts that the PF creates (R13). DESIGN CHOICE, log entry 36. -/
opaque pfAsid : Fin 128

/-- The REACH value that firmware writes at boot (R352, R385). DESIGN CHOICE, log entry 5. -/
opaque bootReach : Word

/-- ECDSA P-256 verification of a SHA-256 digest by the fused key (R385): key digest fuse, signature, digest.
DESIGN CHOICE, log entry 15. -/
opaque ecdsaVerify : List Byte → List Byte → Bool

/-- The device's signature under its identity key over an SPDM transcript (R387). DESIGN CHOICE, log entry 15. -/
opaque sign : List Byte → List Byte

/-- The certificate chain in flash (R387). DESIGN CHOICE, log entry 15. -/
opaque certChain : List Byte

/-- Boot ROM version and fuse configuration, with a rollback counter, over which measurement 1 is taken
(R388). DESIGN CHOICE, log entry 15. -/
opaque fuseBytes : Nat → List Byte

/-- The value to which firmware of a security version may raise the rollback counter (R385). DESIGN CHOICE, log entry 15. -/
opaque rollbackTo : Nat → Nat

/-- The 64 payload bytes of the header flit of a packet (R347, R351): the manual says of some what they carry, of none how. DESIGN CHOICE,
log entry 81. -/
opaque headFlit : Cargo → Vector Byte 64

/-- The choice of the LZP encoder: the sequence stream it writes for a chunk (R125: one that LZU decodes to the
input, the same for the same input). DESIGN CHOICE, log entry 14. -/
opaque lzpChoice : List Byte → Nat → Nat

end Config
end Sys2Proof
end

