-- ==== Sys2Proof/Machine/State.lean ====
section
/-!
DEFINITION. The state of one Z8 device as plain data, the reasons a step can stop, and the state after reset.
-/

namespace Sys2Proof
namespace Machine

/-- The reasons the machine stops. Every trap of the manual is a next state (R178), and every instruction has an
effect, so no meaning raises one of these. -/
inductive Fault where
  /-- Raised by nothing: the sequencer the agenda names is not one of the device. Safe. -/
  | noSequencer
  deriving DecidableEq, Repr

/-- The reasons a step has no meaning. -/
inductive Refusal where
  /-- Raised by an arm of exec whose instruction has no meaning yet. Safe: the machine stops. -/
  | notModelled (mnemonic : String)
  deriving DecidableEq, Repr

/-! ## Pieces of a core -/

/-- A loop-stack entry (R136). -/
structure LoopEnt where
  start : Word
  fin   : Word
  count : BitVec 32
  index : BitVec 32
  deriving DecidableEq, Repr

/-- A pending asynchronous cause of a side (R180). -/
inductive AsyncCause where
  | load (prot : Bool) (einfo : Word)
  | overrun
  | quality (tile : Nat)
  deriving DecidableEq, Repr

/-- A fence in progress on a side (R98, R106): its scope, its status destination, and whether a lost peer traps. -/
structure FenceSt where
  scope : Scope
  dst   : RegNo
  trapT : Bool
  deriving DecidableEq, Repr

/-- A barrier round a side waits in (R333, R336); merge says that the round is over and the merge is awaited. -/
structure BarSt where
  isDsync : Bool
  merge   : Bool
  deriving DecidableEq, Repr

/-- What belongs to one side of a core: position (R136), view, lengths and trap registers (R175). -/
structure SideSt where
  pc     : Word
  loops  : List LoopEnt
  super  : Bool
  vl     : BitVec 32
  vstart : BitVec 32
  cause  : Word
  epc    : Word
  einfo  : Word
  q      : Nat
  asyncs : List AsyncCause
  fin    : Bool
  fence  : Option FenceSt
  waitTo : Option Word
  bar    : Option BarSt
  deriving DecidableEq, Repr

/-- A binding of a vector register or a load queue (R286). -/
inductive Binding where
  | none
  | anchor (k : Fin 16) (b : Nat)
  | codebook (cb : Fin 8) (off : Nat)
  deriving DecidableEq, Repr

/-- A vector register: tag, high-water mark, element bits under the tag, validity bits, carried codebook versions
(as CBVER lays them out) and binding (R33, R47, R73, R299, R286). An element beyond the lists is zero and valid. -/
structure VReg where
  tag   : Fin 32
  mark  : Nat
  elems : List Word
  valid : List Bool
  vers  : BitVec 32
  bind  : Binding
  deriving DecidableEq, Repr

/-- A block header (R48). -/
structure Header where
  anchor : Word
  step   : BitVec 8
  flags  : BitVec 8
  gen    : BitVec 16
  rsv    : BitVec 32
  deriving DecidableEq, Repr

/-- An anchor register: slot count and headers (R286, R288). -/
structure AnchorReg where
  count : Nat
  slots : List Header
  deriving DecidableEq, Repr

/-- What a queue entry holds (R139). -/
inductive EntryKind where
  | data
  | headers
  | deviations
  | spill
  deriving DecidableEq, Repr

/-- A load-queue or store-queue entry (R139). Elements of a headers entry are given as two dwords each. ready says
that every element is read, delivered that X may pop it; held is the progress index of a restartable fault. -/
structure Entry where
  id    : Nat
  n     : Nat
  tag   : Fin 32
  base  : BitVec 32
  vers  : BitVec 32
  kind  : EntryKind
  elems : List Word
  valid : List Bool
  ready : Bool
  delivered : Bool
  held  : Option Nat
  deriving DecidableEq, Repr

/-- A queue of entries with its element-group counter (R85). -/
structure Queue where
  ents : List Entry
  ctr  : BitVec 32
  deriving DecidableEq, Repr

/-- A control-queue token (R139); id numbers it among the entries, tokens and commands of the A-side (R315). -/
structure Token where
  id   : Nat
  vl   : BitVec 32
  w    : Nat
  base : BitVec 32
  deriving DecidableEq, Repr

/-- Forms of a pending store-queue store (R244, R246, R248, R249, R254). -/
inductive StqForm where
  /-- elements at their spans, from the entry's byte string -/
  | plain
  /-- an i4 or sh8 row: in each block of 32 elements its first byte, its scale byte, then its other bytes -/
  | row
  /-- bit planes at precision p of n elements, one span per 128-byte slice -/
  | planes (p n : Nat)
  /-- anchored blocks of b elements -/
  | blocks (wide : Bool) (b : Nat)
  /-- atomics at the spans -/
  | amo (op : AmoOp) (tag : Fin 32) (acq rel : Bool)
  /-- an append (R90): the capacity of its ring, and how many bytes from the ring's base on may be written; the span is the TAIL word and
  the first range starts at the base -/
  | app (cap lim : Nat)
  deriving DecidableEq, Repr

/-- How the bytes of a fill become elements (R240, R243): plain elements of the tag, or a row with the scale form. -/
inductive FillForm where
  | plain
  | row (src : Fin 32) (scl : Fin 4)
  /-- the first n elements of one of these, after a handler that returned elsewhere (R179) -/
  | upTo (row : Option (Fin 32 × Fin 4)) (n : Nat)
  deriving DecidableEq, Repr

/-- What an access of the A-side still has to do (R77, R81, R84). -/
inductive AccKind where
  /-- a scalar load into a register of the A-side -/
  | load (d : RegNo) (size : Nat) (sx : Bool)
  /-- the fill of the load-queue entry with this id -/
  | fill (q : Fin 4) (id : Nat) (form : FillForm)
  /-- writes of these bytes, one list per span; a list shorter than its span leaves the rest of the span alone -/
  | writes (data : List (List Byte))
  /-- a store-queue store that waits for its data; cut says that it is held by a restartable-partial fault -/
  | stq (q : Fin 2) (tag : Fin 32) (form : StqForm) (cut : Bool)
  /-- anchored blocks being written: the headers (two dwords each), the deviation bytes, the block and its step -/
  | stab (wide : Bool) (b : Nat) (hdrs : List (Word × Word)) (devs : List Byte) (blk stepNo : Nat)
  /-- atomics, one per span in ascending order; d = 0 keeps no result -/
  | amo (d : RegNo) (op : AmoOp) (tag : Fin 32) (bs : List Word) (c : Word) (acq rel det : Bool)
  | arm (t : Nat)
  | arrive (n : Nat)
  | await (d : RegNo) (ag : BitVec 32) (addr : Word)
  /-- a value that has arrived and waits to be written to its register -/
  | value (d : RegNo) (v : Word)
  deriving DecidableEq, Repr

/-- The matrix configuration (R307). -/
structure MCfg where
  p    : Nat
  btag : Fin 32
  bank : Fin 8
  off  : Nat
  rows : Nat
  deriving DecidableEq, Repr

/-- What unwinding the A-side to an instruction restores (R177): its registers and full bits, its position, and the registers of the
core that only it writes. -/
structure ASnap where
  a     : Vector Word 32
  aFull : Vector Bool 32
  side  : SideSt
  spsz  : Nat
  mcfg  : Option MCfg
  deriving DecidableEq, Repr

/-- A pending access: an id, its byte spans (key and length), what each span gave once it was performed, the packet
tags of the spans that were sent to a peer, whether X gives its data, the ranges that a scatter counts as
overlapping (R84), the view and the ASID it was issued with (R11), the address of a scalar load (R82) or of the await itself
(R123), for an await or an append, the A-side as it was before it, the base of the index vector at which its elements lie (R351), the
rounding mode it was issued with (R39), and where it was
executed again, from which span on with the number that the next access had then (R19, R77). A span of key 0 that is answered with nothing
is one that no access was made for. -/
structure Access where
  id    : Nat
  kind  : AccKind
  spans : List (Nat × Nat)
  ans   : List (Option (List Byte))
  sent  : List (Nat × Nat)
  ofX   : Bool
  range : List (Nat × Nat)
  super : Bool
  asid  : Nat
  addr  : Word
  snap  : Option ASnap
  list  : Option Word
  late  : List (Nat × Nat)
  rm    : Nat
  deriving DecidableEq, Repr

/-- A fault acknowledgement of a peer store (R12): the peer, the access and the element in it, the address, and whether
the fault is PROT. -/
structure PeerFault where
  peer : Nat
  id   : Nat
  elem : Nat
  addr : Word
  prot : Bool
  deriving DecidableEq, Repr

/-- An access to a peer that the A-side waits for (R12): its access, the lowest span that faulted there, if any, with
whether the fault is PROT, and the element index and the address of each span. -/
structure PeerWait where
  id    : Nat
  fault : Option (Nat × Bool)
  units : List (Nat × Word)
  deriving DecidableEq, Repr

/-- An ldab in progress (R250): the block it is at, the attempts that failed, the bytes that this attempt has read, the
headers and deviations accepted so far, and whether 64 clk are being waited for. -/
structure LdabSt where
  blk     : Nat
  attempt : Nat
  bytes   : List Byte
  got     : List (List Byte × Option (List Byte))
  waiting : Bool
  deriving DecidableEq, Repr

/-- One physical copy of a codebook bank (R299). -/
structure BankCopy where
  ver   : Fin 16
  ents  : List Word
  valid : List Bool
  mode  : Nat
  deriving DecidableEq, Repr

/-- A codebook bank: two copies, which of them is current, and whether a load is incomplete (R299, R300). -/
structure Bank where
  cur   : BankCopy
  other : BankCopy
  busy  : Bool
  deriving DecidableEq, Repr

/-- A load of a bank in progress (R301): bank, memory spans to be read, the bytes read so far, the core and offset they
start at, length of the instruction. -/
structure CbldSt where
  cb   : Fin 8
  keys : List (Nat × Nat)
  got  : List Byte
  core : Nat
  off  : Nat
  len  : Nat
  deriving DecidableEq, Repr

/-- A check descriptor (R316); no tells which mchk installed it (R395). -/
structure ChkDesc where
  no    : Nat
  acopy : Word
  bcopy : Word
  n     : Nat
  e     : Nat
  qen   : Bool
  deriving DecidableEq, Repr

/-- A macro-operation (R309 to R311): its number, first tile, scratchpad offsets of its operands, K, configuration,
pinned version, W and the width of a weight (R308), own cards it waits for (R121), whether its louvre is granted and whether it has started, the tiles as
they were before it, the check descriptor it was issued under, and, with MCOMPAT, the length of the instruction that
waits for it. -/
structure MacroOp where
  id      : Nat
  t       : Nat
  a       : Nat
  b       : Nat
  k       : Nat
  cfg     : MCfg
  ver     : Fin 16
  wx      : Nat × Nat
  waits   : List Nat
  granted : Bool
  run     : Bool
  before  : List (List (BitVec 32))
  chk     : Option ChkDesc
  compat  : Option Nat
  deriving DecidableEq, Repr

/-- A sample of the check unit (R317): core, task and position in its gang, tile, row tile, K, contribution, descriptor, how its copies are
read, and what they held when its context stopped, if they lie in scratchpads. -/
structure Sample where
  core  : Nat
  task  : Option Nat
  gpos  : Nat
  tile  : Nat
  m     : Nat
  k     : Nat
  delta : List Int
  chk   : ChkDesc
  asid  : Nat
  super : Bool
  copies : Option (Option (List Nat) × Option (List Nat))
  deriving DecidableEq, Repr

/-- A bound role register (R320) with its delivery buffer (R206), the terminal state once the conversation has
ended without a further message for the role (R323), and whether the role was restored and its home has not bound it again yet
(R207, R208). -/
structure Role where
  conv  : Nat
  role  : Fin 16
  buf   : List Msg
  ended : Option (Fin 64)
  waits : Bool
  deriving DecidableEq, Repr

/-- The conversation instruction whose request is out: its role register, and what its reply needs (R320 to R325). -/
inductive ConvOp where
  | join (cv : Fin 4) (role : Fin 16) (len : Nat)
  | send (cv : Fin 4) (a : VSrc) (kind : Fin 16)
  | choose (cv : Fin 4) (kind : Fin 16)
  | deleg (cv : Fin 4)
  | leave (cv : Fin 4)
  | state (d : RegNo) (cv : Fin 4)
  deriving DecidableEq, Repr

/-- How far the conversation instruction of X is that waits: in its release phase, whose covered accesses have ids
below a bound (R103), sent to its home, answered, or before a further attempt (R203 to R205); or a request is out whose instruction is
gone, for an attempt cannot be interrupted (R205). conv is the conversation it asks about. -/
inductive ConvWait where
  | release (upTo : Nat)
  | sent (i : ConvOp) (conv : Nat)
  | replied (i : ConvOp) (conv : Nat) (r : HomeReply)
  | again (i : ConvOp) (since : Word)
  | void (i : ConvOp) (conv : Nat)
  deriving DecidableEq, Repr

/-- What X has popped behind a pending crecv (R147): an entry of a load queue, or a token. -/
inductive Pop where
  | entry (q : Fin 4) (e : Entry)
  | token (k : Token)
  deriving DecidableEq, Repr

/-- What the unwinding of a trapped crecv restores (R147, R323); pops is the number of pops before it, nextId the
number that the next entry had, kept the entries that older receives have pushed since, and roles what its role registers were bound to. -/
structure XSnap where
  s      : Vector Word 32
  sFull  : Vector Bool 32
  side   : SideSt
  vregs  : Vector VReg 32
  masks  : Vector Nat 16
  anchors : Vector AnchorReg 16
  lqBind : Vector Binding 4
  fflg   : Nat
  mv     : Nat
  rstate : Word
  pops   : Nat
  popMark : Nat
  nextId : Nat
  kept   : List Nat
  roles  : List (Option (Nat × Fin 16))
  deriving DecidableEq, Repr

/-- A pending crecv (R323), the instructions that issued behind it before the next crecv (R135), whether one of
them sent a message, and whether its role has become unbound. -/
structure CrecvSt where
  cv    : Fin 4
  dst   : VDst
  b     : RegNo
  snap  : XSnap
  young : Nat
  sent  : Bool
  gone  : Bool
  deriving DecidableEq, Repr

/-- A card failure record kept against the context (R123); key is that of the card's arrival word. -/
structure FailRec where
  key   : Option Nat
  cause : Nat
  chunk : Nat
  boff  : Nat
  deriving DecidableEq, Repr

/-- A line of a code cache (R76): 128 bytes, with the ASID and the address that tag it. -/
structure CodeLine where
  asid  : Nat
  va    : Nat
  bytes : List Byte
  deriving DecidableEq, Repr

/-- A vector instruction that a stop found in flight (R183 to R187): its progress index; where it is to end before it is whole, which
only a stop under way has; its running value, if it has one; the elements and widths that the image keeps of the registers it replaces; of
an instruction that also reads its destination, that register of every member as it was; the elements that each member has made of an
entry to be pushed; and the bytes it issued from. -/
structure InFlight where
  idx  : Nat
  upto : Option Nat
  run  : Option Word
  kept : List (Nat × Nat)
  old  : Option (Fin 32 × List VReg)
  pushed : List (List (Word × Bool))
  bytes : List Byte
  deriving DecidableEq, Repr

/-- One core (R135 and the table of R138). leaving holds the roles that a removal has just unbound and whose homes are
told at the end of the step (R207). lanes holds the lane groups that the shape counts, laneok the register (R198). flight holds, for
each vector instruction that a stop found in flight, oldest first and the first of them at X's position, how far it is (R183). wktPend and wktHeld say of a wkt whether it is of the card kind and
from which number on the operations are younger than it (R173). heldInh names the queue load of the A-side's handler that a stop has abandoned, with
VSTART as the trap left it (R21, R183). emptyRead is the EINFO of an EMPTY_READ that X raises once its older receives have retired (R81, R147). -/
structure Core where
  a       : Vector Word 32
  aFull   : Vector Bool 32
  s       : Vector Word 32
  sFull   : Vector Bool 32
  av      : SideSt
  xv      : SideSt
  vregs   : Vector VReg 32
  masks   : Vector Nat 16
  anchors : Vector AnchorReg 16
  lqBind  : Vector Binding 4
  tiles   : Vector (List (BitVec 32)) 8
  banks   : Vector Bank 8
  cbld    : Option CbldSt
  lq      : Vector Queue 4
  sq      : Vector Queue 2
  cq      : List Token
  cqCtr   : BitVec 32
  nextId  : Nat
  popMark : Nat
  pend    : List Access
  peerWait : Option PeerWait
  ldabTry : Option LdabSt
  roles   : Vector (Option Role) 4
  crecvs  : List CrecvSt
  pops    : List Pop
  conv    : Option ConvWait
  reqNo   : Nat
  -- system registers of the core
  vlmax   : Nat
  vlcap   : Nat
  vnreg   : Nat
  rstate  : Word
  spsz    : Nat
  laneok  : BitVec 8
  lanes   : BitVec 8
  mlive   : BitVec 8
  mstep   : Nat
  mcompat : Bool
  msat    : Nat
  chkcfg  : Word
  chkfail : Word
  chk     : Option ChkDesc
  sampleCtr : Nat
  mcfg    : Option MCfg
  mops    : List MacroOp
  mv      : Nat
  fctl    : Nat
  fflg    : Nat
  tid     : BitVec 32
  gid     : BitVec 16
  gpos    : Nat
  gsize   : Nat
  tvec    : Word
  asid    : BitVec 8
  fencest : Word
  lossSet : Word
  lostStores : List (Nat × Nat)
  peerFaults : List PeerFault
  wktPend : Option (Bool × Nat)
  wktHeld : Option (Bool × Nat)
  -- placement
  task    : Option Nat
  spBase  : Nat
  spResv  : Nat
  heldEpc : Option Word
  heldInh : Option (Word × BitVec 32)
  leaving : List Role
  flight  : List InFlight
  emptyRead : Option Word
  icache  : List CodeLine
  parity  : List (Nat × Word)
  deriving DecidableEq, Repr

/-! ## Pieces of the device -/

/-- A translation-buffer entry (R17): the pane whose buffer holds it, or the core whose micro-buffer does (microOf), ASID or function,
space, page base and size, physical base, W, X, S. -/
structure TlbEnt where
  pane : Nat
  host : Bool
  asid : Nat
  va   : Nat
  size : Nat
  pa   : Nat
  w    : Bool
  x    : Bool
  s    : Bool
  deriving DecidableEq, Repr

/-- A continuation record (R154). -/
structure Record where
  image    : Word
  frame    : Word
  join     : Word
  taskid   : BitVec 32
  gsize    : Nat
  prio     : Nat
  contract : Nat
  deriving DecidableEq, Repr

/-- An entry of a deterministic task's write log (R130): an aligned dword with a byte mask and data, or an atomic. -/
inductive LogEnt where
  | plain (key : Nat) (bytes : List (Option Byte))
  | amo (key : Nat) (size : Nat) (op : AmoOp) (tag : Fin 32) (b : Word)
  deriving DecidableEq, Repr

/-- Where a task's members stand (R149): placed and not started, running, stopping, saved, or removed and in the
exit routine since a GTS value, or discarded outright (R189, R190). -/
inductive TaskPhase where
  | placed
  | running
  | stopping (overrun : Bool)
  | saved
  | exiting (code : Nat) (since : Word)
  | discarded (code : Nat)
  deriving DecidableEq, Repr

/-- A task: record, launch it belongs to, function, its members (lead first), mode, phase, interval, logs (its own and
the part of its spawner's that it sees), card failures, its place in the order of starts, when it was placed and when it
last retired an instruction, the conflict that its merge found (R336), the faulting address of the trap that removed
it (R162), and the record for which it was last passed over because its image would not fit (R185). -/
structure Task where
  id       : Nat
  cont     : Record
  launch   : Option Nat
  fn       : Nat
  cores    : List Nat
  long     : Bool
  phase    : TaskPhase
  interval : Nat
  log      : List LogEnt
  prefixLog : List LogEnt
  fails    : List FailRec
  started  : Nat
  placedAt : Word
  idle     : Word
  conflict : Option (Nat × Nat)
  addr     : Word
  passedBy : Option Record
  deriving DecidableEq, Repr

/-- The stages of a card's life in the pane's window (R114, R115). -/
inductive CardPhase where
  | accepted
  | waiting
  | running
  | failing (cause boff : Nat)
  deriving DecidableEq, Repr

/-- A part of a chunk that an engine has asked a peer for (R113): packet tag, address and length there, whether it is
a write, and the answer with whether it is a fault. -/
structure Asked where
  peer  : Nat
  tag   : Nat
  va    : Nat
  len   : Nat
  write : Bool
  got   : Option (List Byte)
  fault : Option Bool
  deriving DecidableEq, Repr

/-- An accepted card (R111, R114): its 128 bytes as copied, issuing core, its number among that core's accesses (R117,
R121), task, key of the card, chunk, CRC, table snapshot and whether it has been taken (R128), the bytes of output that an encode
chain has committed (R127), the cards it must follow (R115), whether it holds its louvres, and what it has asked peers for. -/
structure Card where
  id    : Nat
  core  : Nat
  seq   : Nat
  task  : Option Nat
  key   : Nat
  bytes : List Byte
  asid  : Nat
  super : Bool
  chunk : Nat
  crc   : BitVec 32
  table : List Byte
  tabled : Bool
  out   : Nat
  mids  : List Byte
  edges : List Nat
  louv  : Bool
  phase : CardPhase
  asked : List Asked
  deriving DecidableEq, Repr

/-- A saved context (R185): the task, whose cores are now places outside the panes (DESIGN CHOICE, log entry 11), the cores it ran on
with their scratchpad bases, its cards, whether its reservation stayed resident, and else the regions of each member's that were written
out, in the order in which they follow the image (R65); the image's address and size, the size with the regions, the VLMAX it was saved
at, and whether it was stopped for a contract overrun. -/
structure SavedCtx where
  task    : Nat
  old     : List (Nat × Nat)
  cards   : List Card
  spad    : List (List Nat)
  stay    : Bool
  base    : Nat
  size    : Nat
  total   : Nat
  vlmax   : Nat
  overrun : Bool
  deriving DecidableEq, Repr

/-- A failed task of a launch (R162): task id, cause, the earlier id of a conflict, address. -/
structure TaskFail where
  id    : Nat
  cause : Nat
  early : Nat
  addr  : Word
  deriving DecidableEq, Repr

/-- A log to be merged: the task id, the task while it still waits at dsync, the entries (R132), whether the task has failed already (R162), and the pane it ran on. -/
structure MergeLog where
  id   : Nat
  task : Option Nat
  log  : List LogEnt
  failed : Bool
  pane : Nat
  deriving DecidableEq, Repr

/-- A launch in progress (R159, R161, R162): its block, the next work unit, the records and tasks that have not ended,
its failures, its interval, memory as it stood when the interval began (its base view, R129), continuations held for the next one, the
logs of tasks that ended in this one, and a merge in progress: what is to be merged, and what was. -/
structure LaunchSt where
  id      : Nat
  fn      : Nat
  det     : Bool
  rerun   : Bool
  count   : Nat
  next    : Nat
  cont    : Record
  fstride : Nat
  vlfix   : Nat
  status  : Word
  out     : Nat
  stateNo : Nat
  fails   : List TaskFail
  interval : Nat
  base    : List Host.Cell
  held    : List Record
  logs    : List MergeLog
  merging : Option (List MergeLog × List MergeLog)
  deriving DecidableEq, Repr

/-- An item of a priority or contract queue (R156, R161, R164). -/
inductive QItem where
  | record (r : Record) (launch : Option Nat) (interval : Nat) (prefixLog : List LogEnt)
  | cursor (launch : Nat)
  | saved (task : Nat)
  deriving DecidableEq, Repr

/-- The launch path of one function (R379 to R381) and its queues (R164). vstat holds the sticky bits and LASTIDX; taking
is the entry taken from the FIFO with the IOVA of its slot, tries the attempts it had, taken when it was taken, and first the bytes that
the first read of the attempt under way gave. -/
structure Fn where
  lwbase : Word
  lwcnt  : Word
  vstat  : Word
  fifo   : List (Nat × Nat)
  taking : Option (Nat × Nat × Nat)
  tries  : Nat
  taken  : Word
  first  : Option (List Byte)
  queues : List (List QItem)
  deriving DecidableEq, Repr

/-- A request of the wicket (R172): louvres, who asks, and whether a contract task asks. -/
inductive WktWho where
  | mop (core : Nat)
  | card (id : Nat)
  | ahead (core : Nat)
  deriving DecidableEq, Repr

structure WktReq where
  n        : Nat
  who      : WktWho
  contract : Bool
  deriving DecidableEq, Repr

/-- A pane: wicket, engine window, samples, vector clock. -/
structure Pane where
  limit   : Nat
  reqs    : List WktReq
  cards   : List Card
  samples : List Sample
  clock   : List Nat
  sentNo  : Nat
  deriving DecidableEq, Repr

/-- A role of a conversation at its home (R202); parked: bound to a context that is saved (R207). -/
inductive RoleSt where
  | unbound
  | bound (p : Party)
  | parked (p : Party)
  | offered (p : Party)
  | moving (p : Party)
  deriving DecidableEq, Repr

/-- The home's record of one conversation (R202): roles, the queue of each role, how many messages of each role are
forwarded and not popped (R205), and the number of the next accepted message and of the first since it was opened. -/
structure Conv where
  roles  : List RoleSt
  queues : List (List Msg)
  away   : List Nat
  next   : Nat
  base   : Nat
  deriving DecidableEq, Repr

/-- A request that has reached this home, and where its reply goes: a core of this device or another device; rid is the number that its
asker gave it, 0 where no reply is awaited. -/
structure HomeIn where
  r     : HomeReq
  src   : Nat
  here  : Bool
  rid   : Nat
  deriving DecidableEq, Repr

/-- A join whose request is out although its task is gone (R205): its number, what it asks for, and the party it was made for. -/
structure Stray where
  no    : Nat
  conv  : Nat
  role  : Fin 16
  party : Party
  deriving DecidableEq, Repr

/-- The port's record of one peer (R347 to R352, R107): next and expected sequence numbers of the data and critical
class, the round-robin position, flits queued, flits to be sent again, the window, the flits of its buffer in use (allow),
flits received and held for their order in the data (ingress) and the critical class (heldC), trimmed packets, acknowledgements owed to it
by class and SEQ, the fibre of the first copy of the critical flit that leaves now (R350), the flit that left last with its fibre, the
egress depth at the last evaluation of R355, the silence timer and its probe, and the handshake with the numbers of the last one made and
the last one heard. -/
structure Peer where
  seqD    : Nat
  seqC    : Nat
  expD    : Nat
  expC    : Nat
  pos     : Nat
  egress  : List Flit
  egressC : List Flit
  again   : List Flit
  window  : List Flit
  allow   : Nat
  ingress : List Flit
  heldC   : List Flit
  trimmed : List (Nat × Nat)
  acks    : List (Bool × Nat)
  copy    : Option Nat
  beam    : Option (Nat × Flit)
  depthWas : Nat
  lastGood : Word
  outSince : Option Word
  probeAt : Option Word
  lost    : Bool
  shake   : Option Word
  shakeNo : Nat
  shookNo : Option Nat
  nextTag : Nat
  deriving DecidableEq, Repr

/-- A wake sequence in progress (R354). -/
structure Wake where
  ch    : Channel
  since : Word
  deriving DecidableEq, Repr

/-- A host page that an element waits for (R23, R24): function, page, whether a write needs it, when its page request was
sent, its state (0 translation asked, 1 waits for allocation, 2 page request sent, 3 answered with success and the
translation asked again, 4 refused, 5 timed out, 6 permission still lacking, 7 translation asked by pref alone), and the cores whose elements wait. -/
structure PriReq where
  fn     : Nat
  page   : Nat
  write  : Bool
  sentAt : Word
  state  : Nat
  cores  : List Nat
  deriving DecidableEq, Repr

/-- Management responses (R387 to R389, R391). -/
inductive SpdmResp where
  | version (v : Nat)
  | capabilities
  | algorithms (ecdsaP256 sha256 : Bool)
  | digests (d : List Byte)
  | certificate (part : List Byte)
  | challengeAuth (sig : List Byte)
  | measurements (digests : List (List Byte)) (sig : List Byte)
  | unsupported (code : Byte)
  | errlog (words : List Word)
  deriving DecidableEq, Repr

/-- Boot state (R385): before power-on, running, or both flash slots refused, or gated by heat (R390). -/
inductive BootPhase where
  | off
  | running
  | failed
  | gated
  deriving DecidableEq, Repr

structure BootSt where
  phase    : BootPhase
  flash0   : List Byte
  flash1   : List Byte
  rollback : Nat
  slot     : Nat
  deriving DecidableEq, Repr

/-- A sequencer: its core, numbered pane * 256 + index, and its side. -/
structure Seq where
  core : Nat
  side : Side
  deriving DecidableEq, Repr

/-- The next mover (DESIGN CHOICE, log entry 2): a sequencer issues, an event happens, time passes, a buffered translation or a code
line of a core is replaced (R17, R76), or the X-side of a stopping core reaches its stop point inside vector instructions with these
progress indices (R183). -/
inductive Turn where
  | seq (c : Nat) (side : Side)
  | event (i : Instr)
  | tick (ns : Nat)
  | evict (n : Nat)
  | evictLine (c n : Nat)
  | halfway (c : Nat) (ks : List Nat)
  deriving DecidableEq, Repr

/-- A filled preload slot of a gang (R165): its cores, the function and the record taken, with launch, interval and the
log it sees, its ASID, its reservation and preload size in regions, the physical scratchpad offset of the region that the preload
fills on each core (R64), the header and the code lines that were loaded with it, and whether it is parked for a rerun. -/
structure Preload where
  cores    : List Nat
  fn       : Nat
  cont     : Record
  launch   : Option Nat
  interval : Nat
  prefixLog : List LogEnt
  asid     : Nat
  resv     : Nat
  pre      : Nat
  bases    : List Nat
  head     : List Byte
  lines    : List CodeLine
  parked   : Bool
  deriving DecidableEq, Repr

/-- A contract's running state (R167 to R169): the start of its period, when REMAIN was last brought up to date, core-ns
used beyond whole core-µs, whether its queue is released, and how many of the records that the release found are still to be placed,
0 once the release has been late. -/
structure ContractSt where
  start    : Word
  charged  : Word
  used     : Nat
  released : Bool
  owed     : Nat
  deriving DecidableEq, Repr

/-- The state of one Z8: everything the manual gives the device, and the agenda, the current sequencer and the
counter of undefined values, which are the model's (DESIGN CHOICE, log entries 2 and 7). gone holds the translations that have left a buffer
while an access that used them is not performed (R22). inval is the command of XINVC in progress with
the address it was given, ccinval that of CCINV (R22, R76). served gives, for each priority, the function served last. The maps cores,
fns, contracts, protos, convs and peers are sparse: a key without an entry holds the reset value. -/
structure State where
  dev      : Nat
  gts      : Word
  mem      : List Host.Cell
  ctl      : List (Nat × Word)
  errlog   : Word
  reach    : Word
  tlb      : List TlbEnt
  gone     : List TlbEnt
  cores    : List (Nat × Core)
  panes    : Vector Pane 8
  fns      : List (Nat × Fn)
  cqueues  : List (Nat × List QItem)
  contracts : List (Nat × ContractSt)
  served   : List Nat
  tasks    : List Task
  nextTask : Nat
  saved    : List SavedCtx
  launches : List LaunchSt
  nextLaunch : Nat
  preloads : List Preload
  protos   : List (Nat × List Byte)
  convs    : List (Nat × Conv)
  homeIn   : List HomeIn
  nextReq  : Nat
  strays   : List Stray
  peers    : List (Nat × Peer)
  wakes    : List Wake
  markers  : List Channel
  drainNo  : Nat
  octets   : Word
  pri      : List PriReq
  priAlloc : Nat
  inval    : Option (Nat × Nat × Nat)
  ccinval  : Option (Nat × Nat)
  numVFs   : Nat
  resets   : List Nat
  boot     : BootSt
  msix     : List (Nat × Nat)
  barOut   : List Word
  spdm     : List SpdmResp
  nextCard : Nat
  agenda   : List Turn
  cur      : Seq
  undefCtr : Nat
  deriving DecidableEq, Repr

/-! ## Reset -/

/-- A side at reset: U view, lengths and trap registers zero (R138); its pc has no reset value (DESIGN CHOICE, log entry 5). -/
def SideSt.reset : SideSt :=
  { pc := 0, loops := [], super := false, vl := 0, vstart := 0, cause := 0, epc := 0, einfo := 0, q := 0,
    asyncs := [], fin := false, fence := none, waitTo := none, bar := none }

/-- A vector register as just after vcfg (R142). -/
def VReg.reset : VReg := { tag := 0, mark := 0, elems := [], valid := [], vers := 0, bind := .none }

/-- An empty anchor register (R138). -/
def AnchorReg.reset : AnchorReg := { count := 0, slots := [] }

/-- A copy of a bank at version 0, every entry invalid (R138), mode scalar i8, FAULT, MZ 0 (R303). -/
def BankCopy.reset : BankCopy := { ver := 0, ents := [], valid := [], mode := 0x02 }

/-- A bank at reset (R138). -/
def Bank.reset : Bank := { cur := BankCopy.reset, other := BankCopy.reset, busy := false }

/-- An empty queue with counter zero (R86). -/
def Queue.reset : Queue := { ents := [], ctr := 0 }

/-- A core at reset (R138, R194, R198); registers whose reset value the manual does not give are zero, VNREG is 32
and VLMAX what R141 makes of it (DESIGN CHOICE, log entry 5). -/
def Core.reset : Core :=
  { a := Vector.replicate 32 0, aFull := Vector.replicate 32 true,
    s := Vector.replicate 32 0, sFull := Vector.replicate 32 true,
    av := SideSt.reset, xv := SideSt.reset,
    vregs := Vector.replicate 32 VReg.reset, masks := Vector.replicate 16 0,
    anchors := Vector.replicate 16 AnchorReg.reset, lqBind := Vector.replicate 4 .none,
    tiles := Vector.replicate 8 [], banks := Vector.replicate 8 Bank.reset, cbld := none,
    lq := Vector.replicate 4 Queue.reset, sq := Vector.replicate 2 Queue.reset, cq := [], cqCtr := 0,
    nextId := 0, popMark := 0, pend := [], peerWait := none, ldabTry := none, roles := Vector.replicate 4 none, crecvs := [],
    pops := [], conv := none, reqNo := 0, vlmax := 512, vlcap := 4096, vnreg := 32, rstate := 0, spsz := 0, laneok := 0xFF, lanes := 0xFF, mlive := 0,
    mstep := 0, mcompat := false, msat := 0, chkcfg := 0, chkfail := 0, chk := none, sampleCtr := 0, mcfg := none,
    mops := [], mv := 0, fctl := 0, fflg := 0, tid := 0, gid := 0, gpos := 0, gsize := 0, tvec := 0, asid := 0,
    fencest := 0, lossSet := 0, lostStores := [], peerFaults := [], wktPend := none, wktHeld := none, task := none, spBase := 0,
    spResv := 0, heldEpc := none, heldInh := none, leaving := [], flight := [], emptyRead := none, icache := [], parity := [] }

/-- A pane at reset: the wicket's limit is 64 tokens of four louvres (R172). -/
def Pane.reset : Pane :=
  { limit := 256, reqs := [], cards := [], samples := [], clock := [], sentNo := 0 }

/-- A function at reset: empty FIFO and queues (R379 to R381). -/
def Fn.reset : Fn :=
  { lwbase := 0, lwcnt := 0, vstat := 0, fifo := [], taking := none, tries := 0, taken := 0, first := none, queues := [] }

/-- A conversation with no role bound and no message queued (R202). -/
def Conv.reset : Conv := { roles := [], queues := [], away := [], next := 0, base := 0 }

/-- The port's record of a peer at reset: sequence numbers zero, not lost (R347, R348, R107). -/
def Peer.reset : Peer :=
  { seqD := 0, seqC := 0, expD := 0, expC := 0, pos := 0, egress := [], egressC := [], again := [], window := [], allow := 0,
    ingress := [], heldC := [], trimmed := [], acks := [], copy := none, beam := none, depthWas := 0, lastGood := 0, outSince := none,
    probeAt := none, lost := false, shake := none, shakeNo := 0, shookNo := none, nextTag := 0 }

/-- Before power-on: nothing boots, both flash slots are empty (DESIGN CHOICE, log entry 5). -/
def BootSt.reset : BootSt := { phase := .off, flash0 := [], flash1 := [], rollback := 0, slot := 0 }

/-- The device right after reset. -/
def State.reset : State :=
  { dev := 0, gts := 0, mem := [], ctl := [], errlog := 0, reach := 0, tlb := [], gone := [], cores := [],
    panes := Vector.replicate 8 Pane.reset, fns := [], cqueues := [], contracts := [], served := [], tasks := [], nextTask := 0,
    saved := [], launches := [], nextLaunch := 0, preloads := [], protos := [], convs := [], homeIn := [], nextReq := 1, strays := [], peers := [],
    wakes := [], markers := [], drainNo := 0, octets := 0xFAC688, pri := [], priAlloc := 512, inval := none, ccinval := none, numVFs := 0, resets := [], boot := BootSt.reset, msix := [],
    barOut := [], spdm := [], nextCard := 0, agenda := [], cur := { core := 0, side := .A }, undefCtr := 0 }

end Machine
end Sys2Proof
end

