-- ==== Sys2Proof/Machine/Ops.lean ====
section
/-!
DEFINITION. The named operations over maps, memory, control space, cores and registers, the checks of an address
(R8 to R32), taking a trap and returning from one (R175 to R182), and removal (R189).
-/

namespace Sys2Proof

/-- A core by number: pane times 256 plus index. -/
def CoreId.no (c : CoreId) : Nat := c.pane.val * 256 + c.idx.val

/-- The length of an instruction with an optional prefix (R215). -/
def lenOf (x : Option α) : Nat := if x.isSome then 12 else 4

def Imm.len : Imm → Nat
  | .short _ => 4
  | .long _  => 12

def Disp.len : Disp → Nat
  | .short _ => 4
  | .long _  => 12

def Src2.len : Src2 → Nat
  | .reg _ _ => 4
  | .imm _   => 12

def RegOrImm.len : RegOrImm → Nat
  | .reg _ => 4
  | .imm _ => 12

def VIdx.len : VIdx → Nat
  | .reg _ => 4
  | .imm _ => 12

def AddrM.len : AddrM → Nat
  | .base    => 4
  | .off _   => 12
  | .index _ => 4

/-- A 32-bit immediate, sign-extended (R215). -/
def sx32 (v : BitVec 32) : Word := v.signExtend 64

namespace Machine

/-! ## Sparse maps, sorted by key -/

/-- The entry of a key, if there is one. -/
def nget : List (Nat × α) → Nat → Option α
  | [], _            => none
  | (j, v) :: m, k => if j = k then some v else if k < j then none else nget m k

/-- The map with one entry written. -/
def nset : List (Nat × α) → Nat → α → List (Nat × α)
  | [], k, v          => [(k, v)]
  | (j, w) :: m, k, v =>
    if k < j then (k, v) :: (j, w) :: m else if k = j then (k, v) :: m else (j, w) :: nset m k v

/-- The map without the entry of a key. -/
def ndel : List (Nat × α) → Nat → List (Nat × α)
  | [], _          => []
  | (j, w) :: m, k => if k < j then (j, w) :: m else if k = j then m else (j, w) :: ndel m k

/-! ## Memory -/

/-- What an address that nothing is listed at reads as: zero (R385 for DRAM and scratchpads; DESIGN CHOICE, log entry 4). -/
def Memory.blank : Byte := 0

/-- Keys rise strictly from a bound. -/
def risesFrom : Nat → List (Nat × α) → Bool
  | _, []          => true
  | n, (k, _) :: m => n ≤ k && risesFrom (k + 1) m

/-- The canonical form of memory: addresses strictly rising, no entry equal to what an unlisted address reads as. -/
def Memory.wf (m : List Host.Cell) : Bool := risesFrom 0 m && m.all fun c => c.2 != Memory.blank

/-- One byte of memory. -/
def Memory.read (m : List Host.Cell) (k : Nat) : Byte :=
  match nget m k with
  | some b => b
  | none   => Memory.blank

/-- Memory with one byte written; writing the blank byte removes the entry. -/
def Memory.write (m : List Host.Cell) (k : Nat) (b : Byte) : List Host.Cell :=
  if b = Memory.blank then ndel m k else nset m k b

/-- n bytes from a key. -/
def Memory.readN (m : List Host.Cell) (k : Nat) : Nat → List Byte
  | 0     => []
  | n + 1 => Memory.read m k :: Memory.readN m (k + 1) n

/-- Bytes written from a key on. -/
def Memory.writeN (m : List Host.Cell) (k : Nat) : List Byte → List Host.Cell
  | []      => m
  | b :: bs => Memory.writeN (Memory.write m k b) (k + 1) bs

/-- Bytes as a little-endian number (R3). -/
def leNat : List Byte → Nat
  | []      => 0
  | b :: bs => b.toNat + 256 * leNat bs

/-- The n little-endian bytes of a number (R3). -/
def leBytes : Nat → Nat → List Byte
  | 0, _     => []
  | n + 1, v => BitVec.ofNat 8 v :: leBytes n (v / 256)

/-! ## Keys: the places of memory (DESIGN CHOICE, log entry 4) -/

/-- The key of the physical DRAM byte pa is pa itself (R14). -/
def dramKey (pa : Nat) : Nat := pa

/-- The key of a physical scratchpad byte of a core (R56). -/
def spadKey (core off : Nat) : Nat := 2 ^ 42 + core * 2 ^ 21 + off % 2 ^ 21

/-- The key of a host-shared byte. -/
def hostKey (iova : Nat) : Nat := 2 ^ 52 + iova

/-- The key by which an access to a peer's byte is known at this device. -/
def peerKey (d va : Nat) : Nat := (0x80 + d) * 2 ^ 56 + va

def keyIsDram (k : Nat) : Bool := k < 2 ^ 38
def keyIsSpad (k : Nat) : Bool := 2 ^ 42 ≤ k && k < 2 ^ 43
def keyIsHost (k : Nat) : Bool := 2 ^ 52 ≤ k && k < 2 ^ 53
def keyIsPeer (k : Nat) : Bool := 2 ^ 63 ≤ k
def peerOfKey (k : Nat) : Nat := k / 2 ^ 56 - 0x80

/-! ## Cores and sides -/

def State.core (s : State) (n : Nat) : Core :=
  match nget s.cores n with
  | some c => c
  | none   => Core.reset

def State.setCore (s : State) (n : Nat) (c : Core) : State := { s with cores := nset s.cores n c }

def paneOf (core : Nat) : Nat := core / 256

/-- The source number of a core (R174). -/
def srcOf (core : Nat) : Nat := core / 256 * 2 ^ 13 + core % 256

def State.pane (s : State) (p : Nat) : Pane := if h : p < 8 then s.panes[p] else Pane.reset

def State.setPane (s : State) (p : Nat) (q : Pane) : State :=
  if h : p < 8 then { s with panes := s.panes.set p q } else s

def Core.side (c : Core) : Side → SideSt
  | .A => c.av
  | .X => c.xv

def Core.setSide (c : Core) (sd : Side) (t : SideSt) : Core :=
  match sd with
  | .A => { c with av := t }
  | .X => { c with xv := t }

/-- The core and the side of the sequencer that issues. -/
def State.me (s : State) : Core := s.core s.cur.core

def State.setMe (s : State) (c : Core) : State := s.setCore s.cur.core c

def State.mySide (s : State) : SideSt := s.me.side s.cur.side

def State.setMySide (s : State) (t : SideSt) : State := s.setMe (s.me.setSide s.cur.side t)

/-! ## Scalar registers (R7, R81, R212) -/

def Core.rawReg (c : Core) (sd : Side) (r : RegNo) : Word :=
  match sd with
  | .A => c.a[r.val]
  | .X => c.s[r.val]

/-- A scalar register as a source: a0 and s0 read as zero (R7). -/
def Core.reg (c : Core) (sd : Side) (r : RegNo) : Word := if r = 0 then 0 else c.rawReg sd r

/-- Whether a register is full; a0 and s0 always are (R81). -/
def Core.full (c : Core) (sd : Side) (r : RegNo) : Bool :=
  r = 0 || (match sd with
    | .A => c.aFull[r.val]
    | .X => c.sFull[r.val])

/-- A register written; a write to a0 or s0 is discarded (R212). -/
def Core.putReg (c : Core) (sd : Side) (r : RegNo) (v : Word) : Core :=
  if r = 0 then c else match sd with
    | .A => { c with a := c.a.set r.val v }
    | .X => { c with s := c.s.set r.val v }

/-- The full/empty bit of a register set. -/
def Core.setFull (c : Core) (sd : Side) (r : RegNo) (b : Bool) : Core :=
  if r = 0 then c else match sd with
    | .A => { c with aFull := c.aFull.set r.val b }
    | .X => { c with sFull := c.sFull.set r.val b }

/-- A late value written, and its register marked full (R81). -/
def Core.arriveReg (c : Core) (sd : Side) (r : RegNo) (v : Word) : Core := (c.putReg sd r v).setFull sd r true

/-! ## Control space (R10) -/

/-- The reset value of a control-space dword: zero but for APLIM, LAMBDA_EN, RINGMAP, FABCTL, FABCFG and CLSMAP
(R28, R353, R356, R359; FABCTL.DONE is computed). -/
def ctlReset (off : Nat) : Word :=
  if 0x2000 ≤ off && off < 0x2200 && off % 0x20 == 8 then 0xFFFF
  else if 0x80000 ≤ off && off < 0x80800 then 0xFF00FFFF
  else if 0x80800 ≤ off && off < 0x81000 then 0x76543210
  else if off == 0x82008 then BitVec.ofNat 64 (2 ^ 63 + 448 * 2 ^ 16 + 48)
  else if off == 0x82018 then 0xFAC688
  else 0

def State.ctlGet (s : State) (off : Nat) : Word :=
  match nget s.ctl off with
  | some v => v
  | none   => ctlReset off

def State.ctlSet (s : State) (off : Nat) (v : Word) : State := { s with ctl := nset s.ctl off v }

/-! ## The event ring (R197) -/

/-- HEAD and TAIL of ERRLOG. -/
def errHead (w : Word) : Nat := bits w.toNat 30 0
def errTail (w : Word) : Nat := bits w.toNat 62 32

/-- The number of the PF among the functions; the VFs are 0 to 127. -/
def pfNo : Nat := 128

/-- One event written to the ring (R197): kind, source, lane group, element, address, task id, cause. Kinds 2 to 5 send
their MSI-X vectors (R383). Time goes on by 1 ns, so that the stamps of one source rise strictly (R174). DESIGN CHOICE, log entry 3. -/
def State.logEvent (s : State) (kind src lgrp elem addr task cause : Nat) : State :=
  let head := errHead s.errlog
  let o := 0x10000 + 32 * (head % 4096)
  let head' := (head + 1) % 2 ^ 31
  let ovf := (s.errlog.toNat / 2 ^ 63 == 1) || decide (4096 < (head' + 2 ^ 31 - errTail s.errlog) % 2 ^ 31)
  let w1 := src % 2 ^ 16 + kind % 256 * 2 ^ 16 + lgrp % 256 * 2 ^ 24 + elem % 2 ^ 32 * 2 ^ 32
  let w3 := task % 2 ^ 32 + cause % 256 * 2 ^ 32
  let s1 := (((s.ctlSet o s.gts).ctlSet (o + 8) (BitVec.ofNat 64 w1)).ctlSet (o + 16) (BitVec.ofNat 64 addr)).ctlSet
    (o + 24) (BitVec.ofNat 64 w3)
  { s1 with gts := s.gts + 1
            errlog := BitVec.ofNat 64 ((if ovf then 2 ^ 63 else 0) + errTail s.errlog * 2 ^ 32 + head')
            msix := if 2 ≤ kind && kind ≤ 5 then s.msix ++ [(pfNo, kind + 2)] else s.msix }

/-! ## Undefined values (R6, DESIGN CHOICE, log entry 7) -/

/-- The next undefined value, and the state with the counter advanced. -/
def State.fresh (s : State) : Word × State := (Config.undef s.undefCtr, { s with undefCtr := s.undefCtr + 1 })

/-! ## Traps: words of CAUSE and EINFO -/

/-- Layout E of EINFO (R182). DEDUCED, log entry 20. -/
def infoE (mark aux elem : Nat) : Word :=
  BitVec.ofNat 64 (mark % 16 * 2 ^ 60 + aux % 2 ^ 28 * 2 ^ 32 + elem % 2 ^ 32)

/-- ELEM of layout E for no element (R182). -/
def noElem : Nat := 0xFFFFFFFF

/-- Layout A of EINFO (R182): the address with MARK in bits 55:52. -/
def infoA (addr : Word) (mark : Nat) : Word :=
  BitVec.ofNat 64 (addr.toNat / 2 ^ 56 * 2 ^ 56 + mark % 16 * 2 ^ 52 + addr.toNat % 2 ^ 52)

/-- Layouts D and S of EINFO (R182): two words. -/
def info2 (hi lo : Nat) : Word := BitVec.ofNat 64 (hi % 2 ^ 32 * 2 ^ 32 + lo % 2 ^ 32)

/-- CAUSE (R180). -/
def causeWord (asy part fatal inh pv : Bool) (qual code : Nat) : Word :=
  BitVec.ofNat 64 ((if asy then 2 ^ 63 else 0) + (if part then 2 ^ 62 else 0) + (if fatal then 2 ^ 61 else 0) +
    (if inh then 2 ^ 60 else 0) + (if pv then 2 ^ 59 else 0) + qual % 8 * 2 ^ 8 + code % 32)

def causeInh (w : Word) : Bool := bit w.toNat 60
def causePv (w : Word) : Bool := bit w.toNat 59

/-- Cause codes (R176). -/
def cILLEGAL : Nat := 0x01
def cSIDE : Nat := 0x02
def cPRIV : Nat := 0x03
def cEMPTY_READ : Nat := 0x04
def cILLEGAL_TAG : Nat := 0x05
def cVL_RANGE : Nat := 0x06
def cXLATE : Nat := 0x08
def cPROT : Nat := 0x09
def cALIGN : Nat := 0x0A
def cPEER_UNREACHABLE : Nat := 0x0B
def cPEER_LOST : Nat := 0x0C
def cANCHOR_BUSY : Nat := 0x0D
def cDEVOVF : Nat := 0x0E
def cCBIDX : Nat := 0x0F
def cTILE_BUSY : Nat := 0x10
def cOOT : Nat := 0x11
def cCONV_ROLE : Nat := 0x12
def cCONV_END : Nat := 0x13
def cDET_CONFLICT : Nat := 0x14
def cSTREAM_BACKREF : Nat := 0x15
def cSTREAM_CODE : Nat := 0x16
def cSTREAM_LEGAL : Nat := 0x17
def cQUALITY : Nat := 0x18
def cCONTRACT_OVERRUN : Nat := 0x19
def cDIVZERO : Nat := 0x1A
def cFP : Nat := 0x1B
def cTRAP : Nat := 0x1C
def cFATAL_HW : Nat := 0x1E
def cWATCHDOG : Nat := 0x1F

/-- A trap about to be taken: its code, its class (precise unless rp or asy), NONCAN, EINFO, and the page request
whose answer it reports (R24). -/
structure Trap where
  code   : Nat
  info   : Word
  rp     : Bool := false
  asy    : Bool := false
  nonCan : Bool := false
  pri    : Option (Nat × Nat × Bool) := none
  deriving DecidableEq, Repr

/-- A precise trap of layout E without element. -/
def trapE (code : Nat) (aux : Nat := 0) (elem : Nat := noElem) : Trap := { code := code, info := infoE 0 aux elem }

/-- A trap about an address (layout A). -/
def trapA (code : Nat) (addr : Word) (mark : Nat := 0) : Trap := { code := code, info := infoA addr mark }

/-- The trap of a non-canonical address: EINFO holds it exactly as issued (R180, R182). -/
def trapNonCan (addr : Word) : Trap := { code := cXLATE, info := addr, nonCan := true }

/-- How an instruction ends without retiring: it waits and is issued again, it asks for a host page and waits (R24),
or it traps. -/
inductive Stop where
  | wait
  | page (fn page : Nat) (write : Bool)
  | trap (t : Trap)
  deriving DecidableEq, Repr

/-- A computation of an instruction that may end without retiring. -/
abbrev R (α : Type) := Except Stop α

def raise (t : Trap) : R α := .error (.trap t)
def waits : R α := .error .wait

/-- A condition without which the instruction raises a trap. -/
def orTrap (c : Bool) (t : Trap) : R Unit := if c then .ok () else .error (.trap t)

/-- A condition without which the instruction waits. -/
def orWait (c : Bool) : R Unit := if c then .ok () else .error .wait

/-! ## Removal (R189) -/

def State.task (s : State) (id : Nat) : Option Task := s.tasks.find? fun t => t.id == id

def State.setTask (s : State) (t : Task) : State :=
  { s with tasks := s.tasks.map fun u => if u.id == t.id then t else u }

/-- The members of the gang a core belongs to; a core without a task stands alone. -/
def State.gang (s : State) (core : Nat) : List Nat :=
  match (s.core core).task with
  | none    => [core]
  | some id => match s.task id with
    | none   => [core]
    | some t => t.cores

/-- Whether the task of a core has been removed already. -/
def State.exiting (s : State) (core : Nat) : Bool :=
  match (s.core core).task with
  | none    => false
  | some id => match s.task id with
    | none   => false
    | some t => match t.phase with
      | .exiting _ _ => true
      | .discarded _ => true
      | .placed      => false
      | .running     => false
      | .stopping _  => false
      | .saved       => false

/-- Every register full, keeping the value it holds (R82). -/
def Core.fillAll (c : Core) : Core :=
  { c with aFull := Vector.replicate 32 true, sFull := Vector.replicate 32 true }

/-- One side of a removed core: CAUSE, EPC, S view, empty loop stack, and the exit entry; with TVEC = 0 the side has
ended (R189). -/
def SideSt.removed (t : SideSt) (tvec : Word) (off code qual : Nat) : SideSt :=
  if tvec = 0 then { t with vl := 0, fence := none, waitTo := none, bar := none, asyncs := [], fin := true }
  else { t with
    vl := 0, fence := none, waitTo := none, bar := none, asyncs := [], fin := false, loops := [], super := true,
    cause := causeWord false false true true t.super qual code, epc := t.pc, pc := tvec + BitVec.ofNat 64 off }

/-- A core no longer waits for the answer to a page request; one that nobody waits for is dropped (R24). -/
def State.heardPage (s : State) (core fn pg : Nat) (write : Bool) : State :=
  let hear (r : PriReq) : PriReq :=
    if r.fn == fn && r.page == pg && r.write == write then { r with cores := r.cores.filter fun c => c != core } else r
  { s with pri := (s.pri.map hear).filter fun r => !r.cores.isEmpty || r.state == 2 }

/-- A context has left a core: it waits for no page any more; a request that was sent stays outstanding (R24). -/
def State.forgetPages (s : State) (core : Nat) : State :=
  let hear (r : PriReq) : PriReq := { r with cores := r.cores.filter fun c => c != core }
  { s with pri := (s.pri.map hear).filter fun r => !r.cores.isEmpty || r.state == 2 }

/-- The accesses that a core which no longer issues leaves to be performed: writes with their data, blocks that have begun, atomics and
arrivals. Loads, awaits and stores without data are discarded (R189, R190). -/
def keptAccesses (xs : List Access) : List Access :=
  (xs.filter fun x => match x.kind with
    | .writes _             => true
    | .stab _ _ _ _ _ st    => st != 0 && st != 4
    | .load _ _ _           => false
    | .fill _ _ _           => false
    | .stq _ _ _ _          => false
    | .amo _ _ _ _ _ _ _ _  => true
    | .arm _                => true
    | .arrive _             => true
    | .await _ _ _          => false
    | .value _ _            => false).map fun x => match x.kind with
    | .amo _ op tag bs v acq rel det => { x with kind := .amo 0 op tag bs v acq rel det }
    | .writes _             => x
    | .stab _ _ _ _ _ _     => x
    | .load _ _ _           => x
    | .fill _ _ _           => x
    | .stq _ _ _ _          => x
    | .arm _                => x
    | .arrive _             => x
    | .await _ _ _          => x
    | .value _ _            => x

/-- A request whose instruction is gone stays out until it is answered: an attempt cannot be interrupted (R205). -/
def ConvWait.voided : ConvWait → Option ConvWait
  | .sent i k      => some (.void i k)
  | .void i k      => some (.void i k)
  | .release _     => none
  | .replied _ _ _ => none
  | .again _ _     => none

/-- What removal does to one core (R189): tokens and held entries take length 0, claimed stores without data and
every late write are discarded, awaits and receives too. -/
def Core.removed (c : Core) (code qual : Nat) : Core :=
  let c1 := c.fillAll
  { c1 with
    av := c.av.removed c.tvec 0x100 code qual, xv := c.xv.removed c.tvec 0x140 code qual,
    cq := c.cq.map fun k => { k with vl := 0 },
    lq := c.lq.map fun q => { q with ents := q.ents.map fun e =>
      if e.held.isSome || !e.ready then { e with n := 0, elems := [], valid := [], ready := true, held := none } else e },
    pend := keptAccesses c.pend,
    peerWait := none, crecvs := [], pops := [], conv := c.conv.bind ConvWait.voided, ldabTry := none, cbld := none, mops := [], mstep := 0,
    wktPend := none, wktHeld := none, heldEpc := none, heldInh := none, flight := [], emptyRead := none,
    leaving := c.leaving ++ c.roles.toList.filterMap id, roles := Vector.replicate 4 none,
    banks := c.banks.map fun b => if b.busy then { b with busy := false, cur := { b.cur with valid := [] } } else b }

/-- A core whose context is discarded outright: it issues nothing again, and what it still waits for is dropped. -/
def Core.discarded (c : Core) : Core :=
  let halt (t : SideSt) : SideSt := { t with fin := true, fence := none, waitTo := none, bar := none, asyncs := [] }
  { c.fillAll with
    av := halt c.av, xv := halt c.xv, pend := keptAccesses c.pend, peerWait := none, ldabTry := none, crecvs := [], pops := [],
    conv := c.conv.bind ConvWait.voided, cbld := none, mops := [], wktPend := none, wktHeld := none, heldEpc := none, heldInh := none, flight := [], emptyRead := none }

/-- A context is discarded outright: no side of it issues again (R189, R190). -/
def State.discardTask (s : State) (core code : Nat) : State :=
  let s1 := (s.gang core).foldl (fun s n => (s.setCore n (s.core n).discarded).forgetPages n) s
  match (s.core core).task with
  | none    => s1
  | some id => match s1.task id with
    | none   => s1
    | some t => match t.phase with
      | .exiting c _ => s1.setTask { t with phase := .discarded c }
      | .discarded _ => s1
      | .placed      => s1.setTask { t with phase := .discarded code }
      | .running     => s1.setTask { t with phase := .discarded code }
      | .stopping _  => s1.setTask { t with phase := .discarded code }
      | .saved       => s1.setTask { t with phase := .discarded code }

/-- Removal of the context of a core (R189): every member of its gang is removed, its cards and its requests to the
wicket are discarded, a deterministic log is discarded, and a kind 5 event is logged. A second removal ends the
context (R190). DEDUCED, log entry 13. -/
def State.remove (s : State) (core code qual : Nat) : State :=
  if s.exiting core then s.discardTask core code
  else
    let g := s.gang core
    let id := (s.core core).task
    let tid := match id with
      | none   => 0
      | some k => match s.task k with
        | none   => 0
        | some t => t.cont.taskid.toNat
    let s1 := g.foldl (fun s n => (s.setCore n ((s.core n).removed code qual)).forgetPages n) s
    let p := s1.pane (paneOf core)
    let s2 := s1.setPane (paneOf core) { p with
      cards := p.cards.filter fun k => !g.contains k.core
      reqs := p.reqs.filter fun r => match r.who with
        | .mop n   => !g.contains n
        | .ahead n => !g.contains n
        | .card k  => (p.cards.filter fun x => g.contains x.core).all fun x => x.id != k }
    let s3 := match id with
      | none   => s2
      | some k => match s2.task k with
        | none   => s2
        | some t => s2.setTask { t with phase := .exiting code s.gts, log := [], fails := [] }
    let s4 := s3.logEvent 5 (srcOf core) 0xFF noElem 0 tid code
    if g.all fun n => (s.core n).tvec != 0 then s4 else s4.discardTask core code

/-! ## Taking a trap and returning (R178, R179) -/

/-- Codes of stream faults, which leave VSTART unchanged (R30). -/
def isStream (code : Nat) : Bool := cSTREAM_BACKREF ≤ code && code ≤ cSTREAM_LEGAL

/-- The entry of a side into its handler: what the trap saves and where it goes (R178). -/
def SideSt.enter (t : SideSt) (tvec : Word) (sd : Side) (k : Trap) : SideSt :=
  { t with
    cause := causeWord k.asy k.rp false true t.super (if k.nonCan then 4 else 0) k.code,
    epc := t.pc, einfo := k.info, super := true,
    vstart := if k.rp || k.asy || isStream k.code then t.vstart else 0,
    pc := tvec + (match sd with
      | .A => 0x00
      | .X => 0x40) }

/-- A conversation instruction of X that traps in its release phase starts it afresh (R103), a request that is out stays out (R205), and what a stop or an older receive left
to be done at its position is over; so are the attempts of an ldab that traps (R250). -/
def Core.dropConv (c : Core) (sd : Side) : Core :=
  match sd with
  | .A => { c with ldabTry := none }
  | .X => { c with conv := c.conv.bind ConvWait.voided, flight := [], emptyRead := none }

/-- Codes whose EINFO is an address (R176). -/
def isMemCause (code : Nat) : Bool := cXLATE ≤ code && code ≤ cPEER_UNREACHABLE

/-- The faulting address of a trap that removes its context, for the launch's status record (R162). -/
def State.noteAddr (s : State) (k : Trap) : State :=
  match s.me.task with
  | none    => s
  | some id => match s.task id with
    | none   => s
    | some t =>
      if s.exiting s.cur.core || !isMemCause k.code then s
      else s.setTask { t with addr := if k.nonCan then k.info
                                      else BitVec.ofNat 64 (k.info.toNat / 2 ^ 56 * 2 ^ 56 + k.info.toNat % 2 ^ 52) }

/-- TakeTrap (R178): a trap in the handler, or without one, removes the context as a double trap; one in an exit routine, whether it has
cleared INH or not, discards it (R190). -/
def State.takeTrap (s : State) (k : Trap) : State :=
  let s := match k.pri with
    | none            => s
    | some (fn, pg, w) => s.heardPage s.cur.core fn pg w
  let s := s.setMe (s.me.dropConv s.cur.side)
  if causeInh s.mySide.cause || s.me.tvec == 0 || s.exiting s.cur.core then (s.noteAddr k).remove s.cur.core k.code 1
  else s.setMySide (s.mySide.enter s.me.tvec s.cur.side k)

/-- The return of a side from its handler (R179): the view becomes CAUSE.PV, CAUSE.INH is cleared, and the side goes
on at EPC. -/
def SideSt.leave (t : SideSt) : SideSt :=
  { t with super := causePv t.cause, cause := t.cause &&& ~~~(BitVec.ofNat 64 (2 ^ 60)), pc := t.epc }

/-- The state in which a page request starts or goes on: sent when the allocation allows, else waiting for it (R24). DEDUCED, log entry 26. -/
def State.priState (s : State) (fn : Nat) : Nat :=
  if (s.pri.filter fun r => r.fn == fn && r.state == 2).length < s.priAlloc then 2 else 1

/-- A request of which every core that waits is about to trap (R24). -/
def PriReq.answered (r : PriReq) : Bool := r.state == 4 || r.state == 5 || r.state == 6

/-- A host page is asked for once, and the core waits for it (R23, R24): its translation first, and a page request where
the translation is known and lacks the permission. A core that needs a page already asked for waits with the others; one that needs it after the answer has come asks afresh. -/
def State.askPage (s : State) (core fn page : Nat) (write : Bool) : State :=
  let same (r : PriReq) : Bool := r.fn == fn && r.page == page && r.write == write && !r.answered
  if s.pri.any same then
    let join (r : PriReq) : PriReq :=
      { r with state := if r.state == 7 then 0 else r.state
               cores := if r.cores.contains core then r.cores else r.cores ++ [core] }
    { s with pri := s.pri.map fun r => if same r then join r else r }
  else
    let known := s.tlb.any fun e => e.host && e.asid == fn && e.va ≤ page * 4096 && page * 4096 < e.va + e.size
    { s with pri := s.pri ++ [{ fn := fn, page := page, write := write, sentAt := s.gts,
                                state := if known then s.priState fn else 0, cores := [core] }] }

/-- A trap of X behind a pending crecv waits until that has retired (R147). -/
def State.holdsTrap (s : State) : Bool := s.cur.side == .X && !s.me.crecvs.isEmpty

/-- What becomes of a trap of X behind a pending crecv: the instruction is issued again once the older ones have retired (R147), by
when a register that was empty is full, so an EMPTY_READ is kept to be raised then (R81). -/
def State.keepTrap (s : State) (k : Trap) : State :=
  if k.code == cEMPTY_READ then s.setMe { s.me with emptyRead := some k.info } else s

/-- The state in which an instruction leaves the machine: its next state, the state it waits in, or the handler's entry. -/
def State.conclude (s : State) : R State → State
  | .ok t                => t
  | .error .wait         => s
  | .error (.page fn pg w) => s.askPage s.cur.core fn pg w
  | .error (.trap k)     => if s.holdsTrap then s.keepTrap k else s.takeTrap k

/-- The end of an instruction. -/
def State.finish (s : State) (r : R State) : Host.Outcome State Fault Refusal := .next (s.conclude r)

/-- An instruction that a core's side is at goes on because of an event; the sequencer that issues stays the same. -/
def State.onBehalf (s : State) (core : Nat) (sd : Side) (f : State → R State) : State :=
  let s1 := { s with cur := { core := core, side := sd } }
  { s1.conclude (f s1) with cur := s.cur }

/-! ## Issue and retirement -/

/-- The instruction belongs to this side (R218 step 5). -/
def State.onSide (s : State) (sd : Side) : R Unit := orTrap (s.cur.side == sd) (trapE cSIDE)

/-- The instruction belongs to the S view (R218 step 6). -/
def State.inS (s : State) : R Unit := orTrap s.mySide.super (trapE cPRIV)

/-- A source register of the issuing side with its full/empty control (R81). -/
def State.src (s : State) (r : RegNo) (fe : Bool) : R Word :=
  if s.me.full s.cur.side r then .ok (s.me.reg s.cur.side r)
  else if fe then raise (trapE cEMPTY_READ ((match s.cur.side with
    | .A => 0
    | .X => 32) + r.val))
  else waits

def State.srcR (s : State) (r : SrcR) : R Word := s.src r.r r.fe

/-- An instruction that writes an empty register waits (R81). -/
def State.dst (s : State) (r : RegNo) : R Unit := orWait (s.me.full s.cur.side r)

/-- A register of the issuing side written. -/
def State.put (s : State) (r : RegNo) (v : Word) : State := s.setMe (s.me.putReg s.cur.side r v)

/-- Falling through END of the top loop entry (R137). -/
def SideSt.advance (t : SideSt) (len : Nat) : SideSt :=
  match t.loops with
  | []      => { t with pc := t.pc + BitVec.ofNat 64 len }
  | e :: es =>
    if e.fin = t.pc then
      if 1 < e.count.toNat then
        { t with pc := e.start, loops := { e with count := e.count - 1, index := e.index + 1 } :: es }
      else { t with pc := t.pc + BitVec.ofNat 64 len, loops := es }
    else { t with pc := t.pc + BitVec.ofNat 64 len }

/-- A side is at the instruction that the last eret returned to: VSTART is the progress of that one (R179, R339;
DEDUCED, log entry 35). -/
def SideSt.resumes (t : SideSt) : Bool := t.pc == t.epc && !causeInh t.cause

/-- Its progress is consumed when it retires. -/
def SideSt.spent (t : SideSt) : SideSt := if t.resumes then { t with vstart := 0 } else t

/-- The instruction of X at hand that a stop found in flight, if it is one: its progress index and running value (R183). -/
def State.inFlight (s : State) : Option InFlight :=
  match s.cur.side with
  | .A => none
  | .X => s.me.flight.head?

/-- A side is at the queue load or store of which an entry is held, by a fault or by a stop that abandoned it (R19, R87, R170). -/
def State.atHeld (s : State) : Bool :=
  s.cur.side == .A && (if causeInh s.mySide.cause then (s.me.heldInh.map fun p => p.1) == some s.mySide.pc
    else s.me.heldEpc == some s.mySide.pc)

/-- The first element that the instruction at hand performs (R184, R194). -/
def State.resumeAt (s : State) : Nat :=
  match s.inFlight with
  | some f => f.idx
  | none   => if s.mySide.resumes || s.atHeld then s.mySide.vstart.toNat else 0

/-- Element e is one that the instruction at hand performs: none below where it goes on, nor from where a stop ends it (R183). -/
def State.performs (s : State) (e : Nat) : Bool :=
  s.resumeAt ≤ e && (match s.inFlight.bind fun f => f.upto with
    | none   => true
    | some k => e < k)

/-- The running value that a reduction or scan at hand goes on from (R54, R183). -/
def State.resumeVal (s : State) : Word :=
  match s.inFlight with
  | some f => f.run.getD 0
  | none   => s.me.rstate

/-- Retirement of an instruction of len bytes that does not transfer control. -/
def State.retire (s : State) (len : Nat) : State := s.setMySide (s.mySide.advance len)

/-- Retirement of a vector instruction. -/
def State.retireV (s : State) (len : Nat) : State :=
  let s1 := s.setMySide (s.mySide.spent.advance len)
  match s.cur.side with
  | .A => s1
  | .X => s1.setMe { s1.me with flight := s1.me.flight.drop 1 }

/-- A transfer of control (R233): the loop stack is left alone. -/
def State.goto (s : State) (pc : Word) : State := s.setMySide { s.mySide with pc := pc }

/-- A target that is not a multiple of 4 raises ALIGN at the transferring instruction (R210). -/
def target (pc : Word) : R Unit := orTrap (pc.toNat % 4 == 0) (trapA cALIGN pc)

/-! ## Translation (R13 to R17) -/

/-- What an access does; amo is an atomic, which needs what a write needs and reaches no control space and no host
(R97). -/
inductive Acc where
  | read
  | write
  | fetch
  | amo
  deriving DecidableEq, Repr

/-- A valid leaf: base and size of the page, physical base, permissions (R15). -/
structure Leaf where
  va   : Nat
  size : Nat
  pa   : Nat
  w    : Bool
  x    : Bool
  sv   : Bool
  deriving DecidableEq, Repr

/-- The PA field of an entry. -/
def ptePa (e : Nat) : Nat := bits e 40 8 * 256

/-- An entry that is valid and keeps its reserved bits zero (R15). -/
def pteOk (e : Nat) : Bool := bit e 0 && e / 2 ^ 41 == 0 && bits e 7 5 == 0

def leafOf (e va size : Nat) : Option Leaf :=
  if ptePa e % size == 0 then
    some { va := va / size * size, size := size, pa := ptePa e, w := bit e 2, x := bit e 3, sv := bit e 4 }
  else none

def State.dram64 (s : State) (pa : Nat) : Nat := leNat (Memory.readN s.mem (dramKey pa) 8)

/-- The walk of three levels (R15, R16); none for a walk that raises XLATE. -/
def State.walk (s : State) (asid va : Nat) : Option Leaf :=
  let root := (s.ctlGet (8 * asid)).toNat
  let i1 := va / 2 ^ 30
  let a1 := bits root 37 12 * 2 ^ 12 + 8 * i1
  if !bit root 63 || bits root 59 38 < i1 || 2 ^ 38 ≤ a1 then none else
  let e1 := s.dram64 a1
  if !pteOk e1 then none else
  if bit e1 1 then leafOf e1 va (2 ^ 30) else
  if ptePa e1 % 4096 != 0 || 2 ^ 38 ≤ ptePa e1 then none else
  let e2 := s.dram64 (ptePa e1 + 8 * bits va 29 21)
  if !pteOk e2 then none else
  if bit e2 1 then leafOf e2 va (2 ^ 21) else
  if 2 ^ 38 ≤ ptePa e2 then none else
  let e3 := s.dram64 (ptePa e2 + 8 * bits va 20 16)
  if pteOk e3 && bit e3 1 then leafOf e3 va (2 ^ 16) else none

/-- An entry of the translation buffers of a pane that covers an address (R17). DESIGN CHOICE, log entry 9. -/
def State.tlbHit (s : State) (pane : Nat) (host : Bool) (asid va : Nat) : Option Leaf :=
  match s.tlb.find? fun e => e.pane == pane && e.host == host && e.asid == asid && e.va ≤ va && va < e.va + e.size with
  | none   => none
  | some e => some { va := e.va, size := e.size, pa := e.pa, w := e.w, x := e.x, sv := e.s }

/-- How a micro-buffer of a core is named among the buffers of the panes. -/
def microOf (core : Nat) : Nat := 2 ^ 20 + core

/-- The pane that a buffer belongs to. -/
def TlbEnt.paneNo (e : TlbEnt) : Nat := if e.pane < 2 ^ 20 then e.pane else paneOf (e.pane - 2 ^ 20)

/-- A translation that a core finds buffered: in its own micro-buffer, else in its pane's buffer (R17). -/
def State.buffered (s : State) (core : Nat) (host : Bool) (asid va : Nat) : Option Leaf :=
  (s.tlbHit (microOf core) host asid va).or (s.tlbHit (paneOf core) host asid va)

/-- Whether a translated address is one that exists: DRAM, or the aperture range (R14). -/
def paOk (pa : Nat) : Bool := pa < 2 ^ 38 || (2 ^ 40 ≤ pa && pa < 2 ^ 41)

/-- The translation used by an access: the buffered one, or that of a walk (R17, R22). -/
def State.leaf (s : State) (core asid va : Nat) : Option Leaf :=
  match s.buffered core false asid va with
  | some l => some l
  | none   => s.walk asid va

/-- Entries that leave the buffers (R22): an access may still be under way that used them. -/
def State.dropTlb (s : State) (f : TlbEnt → Bool) : State :=
  { s with tlb := s.tlb.filter fun e => !f e, gone := s.gone ++ s.tlb.filter f }

/-- The set of its buffer that an entry belongs to: a pane's buffer has 1024, of which the manual does not say which one a page has (DESIGN
CHOICE, log entry 9), a micro-buffer is one (R17). -/
def TlbEnt.set (e : TlbEnt) : Nat := if e.pane < 2 ^ 20 then Config.tlbSet e.host e.asid e.va e.size % 1024 else 0

/-- An entry put into a buffer: a micro-buffer holds 64 and each set of a pane's 8 (R17); of a full one it replaces an entry that the
manual does not name (DESIGN CHOICE, log entry 9). -/
def State.install (s : State) (e : TlbEnt) : State :=
  let near := s.tlb.filter fun x => x.pane == e.pane
  let ways := if e.pane < 2 ^ 20 then 8 else 64
  if near.length < ways then { s with tlb := e :: s.tlb }
  else
    let mine := near.filter fun x => x.set == e.set
    if mine.length < ways then { s with tlb := e :: s.tlb }
    else
      let old := mine.getD ((Config.undef s.undefCtr).toNat % ways) e
      { s with tlb := e :: s.tlb.erase old, gone := s.gone ++ [old], undefCtr := s.undefCtr + 1 }

/-- A leaf as an entry of a buffer. -/
def Leaf.entry (l : Leaf) (pane : Nat) (host : Bool) (asid : Nat) : TlbEnt :=
  { pane := pane, host := host, asid := asid, va := l.va, size := l.size, pa := l.pa, w := l.w, x := l.x, s := l.sv }

/-- The buffers with the translation of an address installed (R17, R26, R27); one that a walk finds at fault, or that leads to no
address that exists, installs nothing (R14, R18). -/
def State.warm (s : State) (pane asid va : Nat) : State :=
  match s.tlbHit pane false asid va with
  | some _ => s
  | none   => match s.walk asid va with
    | none   => s
    | some l => if paOk (l.pa + (va - l.va)) then s.install (l.entry pane false asid) else s

def permOk (l : Leaf) (acc : Acc) (super : Bool) : Bool :=
  (super || !l.sv) && (match acc with
    | .read  => true
    | .write => l.w
    | .fetch => l.x
    | .amo   => l.w)

/-! ## Apertures (R28, R29) -/

/-- The aperture that serves a physical address, lowest number first (R28). -/
def State.aperture (s : State) (pa : Nat) : Option Nat :=
  (List.range 16).find? fun n =>
    let base := (s.ctlGet (0x2000 + 0x20 * n)).toNat
    let lim := (s.ctlGet (0x2000 + 0x20 * n + 8)).toNat
    bit (s.ctlGet (0x2000 + 0x20 * n + 16)).toNat 63 && bit base 40 && base ≤ lim && base ≤ pa && pa ≤ lim

def State.apBase (s : State) (n : Nat) : Nat := (s.ctlGet (0x2000 + 0x20 * n)).toNat

/-- The DRAM address of an aperture's buffer header (R28). -/
def State.apBuf (s : State) (n : Nat) : Nat := bits (s.ctlGet (0x2000 + 0x20 * n + 16)).toNat 21 0 * 2 ^ 16

/-- The bytes by which accesses to a range of physical addresses are known: the range itself, and what an aperture's stored bytes
alias there (R29). -/
def State.aliases (s : State) (lo size : Nat) : List (Nat × Nat) :=
  (lo, size) :: (List.range 16).filterMap fun n =>
    let base := s.apBase n
    let a := max lo base
    let b := min (lo + size) ((s.ctlGet (0x2000 + 0x20 * n + 8)).toNat + 1)
    if bit (s.ctlGet (0x2000 + 0x20 * n + 16)).toNat 63 && a < b then some (dramKey (s.apBuf n + (a - base)), b - a) else none

def State.apRo (s : State) (n : Nat) : Bool := bit (s.ctlGet (0x2000 + 0x20 * n + 16)).toNat 62

/-- EXP and NSTG of a buffer header (R31). -/
def State.hdrExp (s : State) (buf : Nat) : Nat := (Memory.read s.mem (dramKey (buf + 2))).toNat % 4
def State.hdrNstg (s : State) (buf : Nat) : Nat := (Memory.read s.mem (dramKey (buf + 3))).toNat

/-! ## The checks of an address (R20) -/

/-- Where an access that passed its checks goes. -/
inductive Place where
  /-- plain memory at this key -/
  | mem (k : Nat)
  /-- the expanded output of aperture n at this offset -/
  | aper (n off : Nat)
  | ctl (off : Nat)
  | peer (d va : Nat)
  deriving DecidableEq, Repr

/-- How a group of addresses is accessed: by a scalar access, or by a queue, strided, gathered or block access. -/
structure How where
  core   : Nat
  super  : Bool
  asid   : Nat
  acc    : Acc
  scalar : Bool
  size   : Nat
  deriving DecidableEq, Repr

/-- Whether the bits a space leaves unused are zero (R8). -/
def canonical (addr : Nat) : Bool :=
  let sel := addr / 2 ^ 56
  let rest := addr % 2 ^ 56
  if sel == 0x00 || sel == 0x04 || (0x80 ≤ sel && sel ≤ 0xBF) then rest < 2 ^ 52
  else if sel == 0x01 then rest < 2 ^ 21
  else if sel == 0x02 then rest < 2 ^ 29
  else if sel == 0x03 then rest < 2 ^ 32
  else false

/-- The function whose host translations a context uses: its VF, or the PF for ASIDs from 128 (R13). -/
def fnOfAsid (asid : Nat) : Nat := if asid < 128 then asid else 128

/-- Aperture rules, step 6 of R20. What a write at offset o reaches is byte buf + o of the buffer, its header included, and the alias
wraps at the end of DRAM. DESIGN CHOICE, log entry 68. -/
def State.aperPlace (s : State) (h : How) (addr : Word) (pa : Nat) : R Place :=
  match s.aperture pa with
  | none   => raise (trapA cPROT addr)
  | some n =>
    let o := pa - s.apBase n
    let buf := s.apBuf n
    let stored : R Place := .ok (.mem (dramKey ((buf + o) % 2 ^ 38)))
    let write : R Place := if s.apRo n || (s.hdrExp buf == 0 && s.hdrNstg buf != 0) then raise (trapA cPROT addr) else stored
    let read : R Place := if s.hdrExp buf == 0 then .ok (.aper n o) else stored
    match h.acc with
    | .write => write
    | .amo   => write
    | .read  => read
    | .fetch => read

/-- A device-virtual access, steps 4 to 6 (R13 to R16, R28). -/
def State.virtPlace (s : State) (h : How) (addr : Word) : R Place :=
  let va := addr.toNat % 2 ^ 56
  match s.leaf h.core h.asid va with
  | none   => raise (trapA cXLATE addr)
  | some l =>
    let pa := l.pa + (va - l.va)
    if !paOk pa then raise (trapA cXLATE addr)
    else if !permOk l h.acc h.super then raise (trapA cPROT addr)
    else if pa < 2 ^ 38 then .ok (.mem (dramKey pa)) else s.aperPlace h addr pa

/-- A scratchpad access (R9, R62, R63): in the U view, a member's own reservation only. -/
def State.spadPlace (s : State) (h : How) (addr : Word) (core off : Nat) : R Place :=
  let c := s.core core
  if h.super then .ok (.mem (spadKey core (c.spBase + off)))
  else if (s.gang h.core).contains core && off < c.spResv * 2 ^ 16 then .ok (.mem (spadKey core (c.spBase + off)))
  else raise (trapA cPROT addr)

/-- Control space, step 3 (R10). -/
def ctlPlace (h : How) (addr : Word) : R Place :=
  if !h.super || !h.scalar then raise (trapA cPROT addr)
  else if h.size != 8 then raise (trapA cALIGN addr)
  else .ok (.ctl (addr.toNat % 2 ^ 32))

/-- A host-shared access: translated by ATS, with a page request where the translation fails (R23, R24). -/
def State.hostPlace (s : State) (h : How) (addr : Word) : R Place :=
  let iova := addr.toNat % 2 ^ 56
  let fn := fnOfAsid h.asid
  let pg := iova / 4096
  let w := h.acc != .read
  let hit := s.buffered h.core true fn iova
  let ok := match hit with
    | none   => false
    | some l => permOk l h.acc true
  if ok then .ok (.mem (hostKey iova))
  else match s.pri.find? fun r => r.fn == fn && r.page == pg && r.write == w && r.state != 7 && r.cores.contains h.core with
    | none   => .error (.page fn pg w)
    | some r =>
      let at_ (c m : Nat) : R Place := raise { trapA c addr m with pri := some (fn, pg, w) }
      match r.state with
      | 4 => at_ cXLATE 0
      | 5 => at_ cXLATE 2
      | 6 => at_ cPROT 0
      | _ => waits

/-- The checks of one element, in the order of R20. -/
def State.place (s : State) (h : How) (addr : Word) : R Place :=
  let a := addr.toNat
  let sel := a / 2 ^ 56
  if !canonical a then raise (trapNonCan addr)
  else if a % h.size != 0 then raise (trapA cALIGN addr)
  else if sel == 0x00 then s.virtPlace h addr
  else if h.acc == .fetch || (h.acc == .amo && (sel == 0x03 || sel == 0x04)) then raise (trapA cPROT addr)
  else if sel == 0x01 then s.spadPlace h addr h.core (a % 2 ^ 21)
  else if sel == 0x02 then s.spadPlace h addr (paneOf h.core * 256 + a / 2 ^ 21 % 256) (a % 2 ^ 21)
  else if sel == 0x03 then ctlPlace h addr
  else if sel == 0x04 then s.hostPlace h addr
  else if s.reach.toNat / 2 ^ (sel - 0x80) % 2 == 1 then .ok (.peer (sel - 0x80) (a % 2 ^ 56))
  else raise (trapA cPEER_UNREACHABLE addr)

/-- The key of a place: what an access overlaps (R77). An aperture's expanded byte is known by its physical address
and a control-space dword by an address of its own. -/
def State.keyOf (s : State) : Place → Nat
  | .mem k    => k
  | .aper n o => s.apBase n + o
  | .ctl o    => 2 ^ 54 + o
  | .peer d v => peerKey d v

/-- How the issuing sequencer accesses memory. -/
def State.how (s : State) (acc : Acc) (scalar : Bool) (size : Nat) : How :=
  { core := s.cur.core, super := s.mySide.super, asid := s.me.asid.toNat, acc := acc, scalar := scalar, size := size }

/-- A translation that one of a core's two buffers holds is held by both: by its micro-buffer (R17), and after a probe by its pane's too
(R26). -/
def State.warmBoth (s : State) (core : Nat) (host : Bool) (asid va : Nat) : State :=
  match s.tlbHit (microOf core) host asid va, s.tlbHit (paneOf core) host asid va with
  | none, some l   => s.install (l.entry (microOf core) host asid)
  | some l, none   => s.install (l.entry (paneOf core) host asid)
  | none, none     => s
  | some _, some _ => s

/-- A translation that a core's pane holds is held by its micro-buffer too (R17). -/
def State.warmMicro (s : State) (core : Nat) (host : Bool) (asid va : Nat) : State :=
  match s.tlbHit (microOf core) host asid va, s.tlbHit (paneOf core) host asid va with
  | none, some l   => s.install (l.entry (microOf core) host asid)
  | none, none     => s
  | some _, some _ => s
  | some _, none   => s

/-- Translations that an access used are kept (R17). -/
def State.warmAddr (s : State) (addr : Word) : State :=
  let asid := s.me.asid.toNat
  let va := addr.toNat % 2 ^ 56
  if addr.toNat / 2 ^ 56 == 0 then
    (if (s.buffered s.cur.core false asid va).isSome then s else s.warm (paneOf s.cur.core) asid va).warmMicro s.cur.core false asid va
  else if addr.toNat / 2 ^ 56 == 4 then s.warmMicro s.cur.core true (fnOfAsid asid) va
  else s

/-- The translation of a probe is left in both buffers (R26). -/
def State.warmProbe (s : State) (addr : Word) : State :=
  let asid := s.me.asid.toNat
  let va := addr.toNat % 2 ^ 56
  let s1 := s.warmAddr addr
  if addr.toNat / 2 ^ 56 == 0 then s1.warmBoth s.cur.core false asid va
  else if addr.toNat / 2 ^ 56 == 4 then s1.warmBoth s.cur.core true (fnOfAsid asid) va
  else s1

/-- The places of elements in ascending order, up to the first that fails (R19): the places that passed, and the
index and the reason of the first failure. -/
def State.places (s : State) (h : How) : List Word → List Place × Option Stop
  | []      => ([], none)
  | a :: as => match s.place h a with
    | .error e => ([], some e)
    | .ok p    => match s.places h as with
      | (ps, e) => (p :: ps, e)

end Machine
end Sys2Proof
end

