-- ==== Sys2Proof/Machine/Contracts.lean ====
section
/-!
DEFINITION. Real-time contracts: their registers, admission, and the accounting of REMAIN (R167 to R169).
-/

namespace Sys2Proof
namespace Machine

/-! ## Registers (R167) -/

def ctlCctl (k : Nat) : Nat := 0x4000 + 0x20 * k
def ctlCper (k : Nat) : Nat := 0x4000 + 0x20 * k + 8
def ctlCbud (k : Nat) : Nat := 0x4000 + 0x20 * k + 16
def ctlCstat (k : Nat) : Nat := 0x4000 + 0x20 * k + 24

def State.cctl (s : State) (k : Nat) : Nat := (s.ctlGet (ctlCctl k)).toNat
def State.cEn (s : State) (k : Nat) : Bool := bit (s.cctl k) 63
def State.cAdm (s : State) (k : Nat) : Bool := bit (s.cctl k) 62
def State.cVf (s : State) (k : Nat) : Nat := bits (s.cctl k) 55 48
def State.cPanes (s : State) (k : Nat) : Nat := bits (s.cctl k) 47 40
def State.cGsize (s : State) (k : Nat) : Nat := bits (s.cctl k) 36 32
def State.cPrio (s : State) (k : Nat) : Nat := bits (s.cctl k) 2 0
/-- SWUS; values below 12 are taken as 12. -/
def State.cSwus (s : State) (k : Nat) : Nat := max 12 (bits (s.cctl k) 23 16)
def State.cPeriod (s : State) (k : Nat) : Nat := (s.ctlGet (ctlCper k)).toNat
def State.cBudget (s : State) (k : Nat) : Nat := (s.ctlGet (ctlCbud k)).toNat
def State.cRemain (s : State) (k : Nat) : Nat := bits (s.ctlGet (ctlCstat k)).toNat 63 32
def State.cOverruns (s : State) (k : Nat) : Nat := bits (s.ctlGet (ctlCstat k)).toNat 31 16
def State.cLate (s : State) (k : Nat) : Nat := bits (s.ctlGet (ctlCstat k)).toNat 15 0

/-- CSTAT written by the device. -/
def State.setCstat (s : State) (k remain overruns late : Nat) : State :=
  s.ctlSet (ctlCstat k) (BitVec.ofNat 64 (remain % 2 ^ 32 * 2 ^ 32 + min overruns 0xFFFF * 2 ^ 16 + min late 0xFFFF))

def State.contract (s : State) (k : Nat) : ContractSt :=
  match nget s.contracts k with
  | some c => c
  | none   => { start := 0, charged := 0, used := 0, released := false, owed := 0 }

def State.setContract (s : State) (k : Nat) (c : ContractSt) : State := { s with contracts := nset s.contracts k c }

/-- The fields of CCTL that software writes. -/
def cctlFields (v : Nat) : Nat :=
  bits v 55 48 * 2 ^ 48 + bits v 47 40 * 2 ^ 40 + bits v 36 32 * 2 ^ 32 + bits v 23 16 * 2 ^ 16 + bits v 2 0

/-- A contract stops: nothing is released, queued records stay (R167). -/
def State.disableContract (s : State) (k : Nat) : State :=
  let s1 := s.ctlSet (ctlCctl k) (BitVec.ofNat 64 (cctlFields (s.cctl k)))
  s1.setContract k { s1.contract k with released := false }

/-- A write of CCTL[k]: fields are writable while EN = 0; setting EN starts admission, clearing it stops release (R167). -/
def State.writeCctl (s : State) (k : Nat) (v : Word) : State :=
  if s.cEn k then (if bit v.toNat 63 then s else s.disableContract k)
  else
    let old := s.cctl k / 2 ^ 61 % 2 * 2 ^ 61
    s.ctlSet (ctlCctl k) (BitVec.ofNat 64 ((if bit v.toNat 63 then 2 ^ 63 else old) + cctlFields v.toNat))

/-- A write of CPER[k] or CBUD[k]. -/
def State.writeCper (s : State) (k : Nat) (v : Word) : State :=
  if s.cEn k then s else s.ctlSet (ctlCper k) (BitVec.ofNat 64 (v.toNat % 2 ^ 32))

def State.writeCbud (s : State) (k : Nat) (v : Word) : State :=
  if s.cEn k then s else s.ctlSet (ctlCbud k) (BitVec.ofNat 64 (v.toNat % 2 ^ 32))

/-! ## Admission (R168) -/

/-- Values of the fields that admission accepts (R167). DEDUCED, log entry 27. -/
def State.contractOk (s : State) (k : Nat) : Bool :=
  s.cPanes k != 0 && 1 ≤ s.cGsize k && s.cGsize k ≤ 16 && s.cVf k < 128 && 100 ≤ s.cPeriod k && s.cPeriod k ≤ 1000000 &&
    1 ≤ s.cBudget k && s.cBudget k ≤ s.cPeriod k * s.cGsize k

/-- Cores of a pane that can run a task: those with a lane group in service (R141). -/
def State.usableCores (s : State) (pane : Nat) : Nat :=
  ((List.range 256).filter fun i => (s.core (pane * 256 + i)).laneok != 0).length

/-- A sum of fractions: numerator and denominator. -/
def addFrac (x y : Nat × Nat) : Nat × Nat := (x.1 * y.2 + y.1 * x.2, x.2 * y.2)

/-- The demand of a contract on each of its panes, (B + G · 2 · W) / (P · n). -/
def State.demand (s : State) (k : Nat) : Nat × Nat :=
  let n := ((List.range 8).filter fun p => bit (s.cPanes k) p).length
  (s.cBudget k + s.cGsize k * 2 * s.cSwus k, s.cPeriod k * n)

/-- Whether contract k fits beside the admitted ones on every pane of its mask: at most 0.9 of the pane's cores. -/
def State.admissible (s : State) (k : Nat) : Bool :=
  (List.range 8).all fun p => !bit (s.cPanes k) p ||
    (let others := (List.range 64).filter fun j => j != k && s.cAdm j && bit (s.cPanes j) p
     let t := (k :: others).foldl (fun acc j => addFrac acc (s.demand j)) (0, 1)
     10 * t.1 ≤ 9 * s.usableCores p * t.2)

/-- CONTRACT_DISABLE (R167). -/
def execContractDisable (k : Fin 64) (s : State) : Host.Outcome State Fault Refusal :=
  .next (if s.cEn k.val then s.writeCctl k.val 0 else s)

/-! ## Accounting (R169) -/

/-- Whether a task stands on cores of a pane. -/
def TaskPhase.placed? : TaskPhase → Bool
  | .placed      => true
  | .running     => true
  | .stopping _  => true
  | .exiting _ _ => true
  | .discarded _ => true
  | .saved       => false

/-- The tasks of a contract that are placed. -/
def State.contractTasks (s : State) (k : Nat) : List Task := s.tasks.filter fun t => t.cont.contract == k && t.phase.placed?

/-- REMAIN brought up to date: it falls by GSIZE core-µs for each µs of a placed task. -/
def State.chargeContract (s : State) (k : Nat) : State :=
  let c := s.contract k
  let rate := (s.contractTasks k).foldl (fun n t => n + t.cont.gsize) 0
  let used := c.used + (s.gts.toNat - c.charged.toNat) * rate
  let s1 := s.setCstat k (s.cRemain k - used / 1000) (s.cOverruns k) (s.cLate k)
  s1.setContract k { c with charged := s.gts, used := used % 1000 }

/-- Every admitted contract brought up to date, before the set of placed tasks changes. -/
def State.chargeAll (s : State) : State :=
  s.contracts.foldl (fun s q => s.chargeContract q.1) s

/-- A source number of a pane unit (R174). -/
def unitSrc (pane unit : Nat) : Nat := pane * 2 ^ 13 + 2 ^ 12 + unit

end Machine
end Sys2Proof
end

