-- ==== Sys2Proof/Machine/Operands.lean ====
section
/-!
DEFINITION. The operand forms of scalar and access instructions: second sources, immediates, displacements and
effective addresses (R211, R215, R228).
-/

namespace Sys2Proof

/-- An immediate that the short form sign-extends (R230). -/
def Imm.sx : Imm → Word
  | .short v => v.signExtend 64
  | .long v  => sx32 v

/-- An immediate that the short form zero-extends (R230). -/
def Imm.zx : Imm → Word
  | .short v => v.zeroExtend 64
  | .long v  => sx32 v

/-- The byte displacement of a branch (R211, R233). -/
def Disp.bytes : Disp → Word
  | .short v => 4 * v.signExtend 64
  | .long v  => 4 * sx32 v

/-- The byte displacement of bz and bnz (R233). -/
def Imm.bytes : Imm → Word
  | .short v => 4 * v.signExtend 64
  | .long v  => 4 * sx32 v

namespace Machine

/-- The second operand of an R-format scalar instruction (R229). -/
def State.src2 (s : State) : Src2 → R Word
  | .reg b fb => s.src b fb
  | .imm v    => .ok (sx32 v)

/-- A register or the 32-bit immediate in its place, sign-extended. -/
def State.regOrImm (s : State) : RegOrImm → R Word
  | .reg a => s.srcR a
  | .imm v => .ok (sx32 v)

/-- A register or the 32-bit immediate in its place, zero-extended. -/
def State.regOrImmZ (s : State) : RegOrImm → R Word
  | .reg a => s.srcR a
  | .imm v => .ok (v.zeroExtend 64)

/-- A scalar register of a VR field (FE = 0), or IMM32 read unsigned. -/
def State.vidxZ (s : State) : VIdx → R Word
  | .reg b => s.src b false
  | .imm v => .ok (v.zeroExtend 64)

/-- A scalar register of a VR field (FE = 0), or IMM32 sign-extended. -/
def State.vidxS (s : State) : VIdx → R Word
  | .reg b => s.src b false
  | .imm v => .ok (sx32 v)

/-- The effective address of a scalar access (R228): the sum modulo 2^64. -/
def State.ea (s : State) (a : SrcR) : AddrM → R Word
  | .base    => s.srcR a
  | .off v   => do
    let x ← s.srcR a
    pure (x + sx32 v)
  | .index b => do
    let x ← s.srcR a
    let y ← s.srcR b
    pure (x + y)

/-- The effective address of an instruction with an optional 32-bit offset (R228). -/
def State.eaOff (s : State) (a : SrcR) (off : Option (BitVec 32)) : R Word := do
  let x ← s.srcR a
  pure (match off with
    | none   => x
    | some v => x + sx32 v)

end Machine
end Sys2Proof
end

