-- ==== Sys2Proof/Machine/Flags.lean ====
section
/-!
DEFINITION. Number formats: element tags (R33), exact values (R36, R37, R44, R55), rounding with the IEEE flags
(R38 to R42), saturation (R43), the sh8 encoding (R45), and the arithmetic of elements on exact values.
-/

namespace Sys2Proof
namespace Machine

/-! ## Tags (R33) -/

def tI4 : Nat := 0x01
def tI8 : Nat := 0x02
def tI16 : Nat := 0x03
def tI32 : Nat := 0x04
def tI64 : Nat := 0x05
def tN8 : Nat := 0x06
def tN16 : Nat := 0x07
def tN32 : Nat := 0x08
def tN64 : Nat := 0x09
def tF16 : Nat := 0x0A
def tBf16 : Nat := 0x0B
def tF32 : Nat := 0x0C
def tF64 : Nat := 0x0D
def tSh8 : Nat := 0x0E
def tCx4 : Nat := 0x0F
def tCx8 : Nat := 0x10
def tDv8 : Nat := 0x11
def tDv16 : Nat := 0x12

/-- The width of a tag in bits; 0 for no tag and for the reserved tags. -/
def tagW (t : Nat) : Nat :=
  match t with
  | 0x01 => 4
  | 0x02 => 8
  | 0x03 => 16
  | 0x04 => 32
  | 0x05 => 64
  | 0x06 => 8
  | 0x07 => 16
  | 0x08 => 32
  | 0x09 => 64
  | 0x0A => 16
  | 0x0B => 16
  | 0x0C => 32
  | 0x0D => 64
  | 0x0E => 8
  | 0x0F => 4
  | 0x10 => 8
  | 0x11 => 8
  | 0x12 => 16
  | _    => 0

/-- Whether an element can be read or written under a tag (R34). -/
def tagOk (t : Nat) : Bool := tagW t != 0

def isSigned (t : Nat) : Bool := 0x01 ≤ t && t ≤ 0x05
def isPlain (t : Nat) : Bool := 0x06 ≤ t && t ≤ 0x09
def isInt (t : Nat) : Bool := 0x01 ≤ t && t ≤ 0x09
def isFloat (t : Nat) : Bool := 0x0A ≤ t && t ≤ 0x0D
def isCx (t : Nat) : Bool := t == 0x0F || t == 0x10
def isDv (t : Nat) : Bool := t == 0x11 || t == 0x12

/-- Elements per group (R33). -/
def perGroup (w : Nat) : Nat := 4096 / w

/-- Element groups spanned by n elements of width w (R85). -/
def groups (n w : Nat) : Nat := ceilDiv n (perGroup w)

/-! ## Float formats (R37) -/

/-- Precision with the hidden bit. -/
def fPrec (t : Nat) : Nat :=
  match t with
  | 0x0A => 11
  | 0x0B => 8
  | 0x0C => 24
  | _    => 53

def fBias (t : Nat) : Nat :=
  match t with
  | 0x0A => 15
  | 0x0B => 127
  | 0x0C => 127
  | _    => 1023

def fFrac (t : Nat) : Nat := fPrec t - 1

/-- The exponent of the least significant bit of a subnormal. -/
def fLsb (t : Nat) : Int := 1 - (fBias t : Int) - (fFrac t : Int)

/-- The canonical quiet NaN (R37). -/
def fNaN (t : Nat) : Nat :=
  match t with
  | 0x0A => 0x7E00
  | 0x0B => 0x7FC0
  | 0x0C => 0x7FC00000
  | _    => 0x7FF8000000000000

/-- Flags of FFLG (R39). -/
def fNV : Nat := 16
def fDZ : Nat := 8
def fOF : Nat := 4
def fUF : Nat := 2
def fNX : Nat := 1

/-! ## Exact values -/

/-- An exact value: NaN, an infinity, or (−1)^neg · m · 2^e. A quotient or a root that is not exact carries one more
bit below its last, set, so that it rounds as the exact value does. -/
inductive Num where
  | nan
  | inf (neg : Bool)
  | fin (neg : Bool) (m : Nat) (e : Int)
  deriving DecidableEq, Repr

def Num.ofInt (x : Int) : Num := .fin (x < 0) x.natAbs 0

def Num.isZero : Num → Bool
  | .nan       => false
  | .inf _     => false
  | .fin _ m _ => m == 0

/-- m · 2^k for an integer exponent that is not negative. -/
def shl (m : Nat) (k : Int) : Nat := m * 2 ^ k.toNat

/-- Order of exact values: negative, zero or positive difference of finite values and infinities. -/
def Num.cmp : Num → Num → Int
  | .fin n1 m1 e1, .fin n2 m2 e2 =>
    let e := min e1 e2
    let a : Int := if n1 then -(shl m1 (e1 - e) : Int) else (shl m1 (e1 - e) : Int)
    let b : Int := if n2 then -(shl m2 (e2 - e) : Int) else (shl m2 (e2 - e) : Int)
    a - b
  | .inf n1, .inf n2 => if n1 == n2 then 0 else if n1 then -1 else 1
  | .inf n1, .fin _ _ _ => if n1 then -1 else 1
  | .fin _ _ _, .inf n2 => if n2 then 1 else -1
  | .nan, .nan => 0
  | .nan, .inf _ => 0
  | .nan, .fin _ _ _ => 0
  | .inf _, .nan => 0
  | .fin _ _ _, .nan => 0

def bitLen (m : Nat) : Nat := if m = 0 then 0 else Nat.log2 m + 1

/-- T of R44. -/
def sh8Term (c : Nat) : Int := if c = 7 then 0 else ((2 ^ c : Nat) : Int)

/-- The value of an sh8 element (R44). -/
def sh8Value (x : Nat) : Int :=
  (if bit x 7 then -sh8Term (bits x 6 4) else sh8Term (bits x 6 4)) +
  (if bit x 3 then -sh8Term (bits x 2 0) else sh8Term (bits x 2 0))

/-- A float as an exact value (R37). -/
def fDecode (t x : Nat) : Num :=
  let fr := fFrac t
  let ew := tagW t - fPrec t
  let neg := bit x (tagW t - 1)
  let ex := x / 2 ^ fr % 2 ^ ew
  let f := x % 2 ^ fr
  if ex = 2 ^ ew - 1 then (if f = 0 then .inf neg else .nan)
  else if ex = 0 then .fin neg f (fLsb t)
  else .fin neg (f + 2 ^ fr) (fLsb t + ((ex : Int) - 1))

/-- Value(tag, bits) of R55. -/
def valueOf (t x : Nat) : Num :=
  if isFloat t then fDecode t x
  else if t == tSh8 then .ofInt (sh8Value x)
  else if isSigned t || isDv t then .ofInt (signedOf (tagW t) x)
  else .fin false (x % 2 ^ tagW t) 0

/-- A signalling NaN: a NaN whose quiet bit is clear (R38). -/
def isSNaN (t x : Nat) : Bool := isFloat t && fDecode t x == .nan && !bit x (fFrac t - 1)

/-! ## Rounding (R38, R42) -/

/-- Whether the magnitude is rounded up, from the remainder rem of 2^s (s > 0), the sign and the mode (R39). -/
def roundUp (mode : Nat) (neg : Bool) (q rem s : Nat) : Bool :=
  match mode with
  | 0 => 2 ^ s < 2 * rem || (2 * rem == 2 ^ s && q % 2 == 1)
  | 1 => false
  | 2 => !neg && rem != 0
  | _ => neg && rem != 0

/-- m · 2^e rounded to a multiple of 2^q, as a count of 2^q, and whether that was inexact. -/
def roundAt (mode : Nat) (neg : Bool) (m : Nat) (e q : Int) : Nat × Bool :=
  if q ≤ e then (shl m (e - q), false)
  else
    let s := (q - e).toNat
    let d := m / 2 ^ s
    let r := m % 2 ^ s
    (if roundUp mode neg d r s then d + 1 else d, r != 0)

/-- The exponent of the last bit of m · 2^e in a format: precision p, never below lsb. -/
def lastBit (p : Nat) (lsb : Int) (m : Nat) (e : Int) : Int := max (e + (bitLen m : Int) - (p : Int)) lsb

/-- A rounded value with the flags it raised and its offender bit. -/
structure Rounded where
  bits  : Nat
  flags : Nat
  off   : Bool
  deriving DecidableEq, Repr

/-- The bits of ± m · 2^q in a float format, m below 2^p and not above the format's range. -/
def fEncode (t : Nat) (neg : Bool) (m : Nat) (q : Int) : Nat :=
  let fr := fFrac t
  let sg := if neg then 2 ^ (tagW t - 1) else 0
  if m < 2 ^ fr then sg + m
  else sg + (q - fLsb t + 1).toNat * 2 ^ fr + (m - 2 ^ fr)

def fInf (t : Nat) (neg : Bool) : Nat :=
  (if neg then 2 ^ (tagW t - 1) else 0) + (2 ^ (tagW t - fPrec t) - 1) * 2 ^ fFrac t

/-- The largest finite magnitude (R55). -/
def fMax (t : Nat) (neg : Bool) : Nat := fInf t neg - 1

/-- The exponent of the last bit of the largest finite value. -/
def fTop (t : Nat) : Int := (fBias t : Int) - (fFrac t : Int)

/-- Overflow in a mode: infinity or the largest finite value (IEEE 754, R38). -/
def fOver (t mode : Nat) (neg : Bool) : Nat :=
  match mode with
  | 0 => fInf t neg
  | 1 => fMax t neg
  | 2 => if neg then fMax t neg else fInf t neg
  | _ => if neg then fInf t neg else fMax t neg

/-- Whether ± m · 2^e is tiny after rounding in a mode: its rounding to the format's precision with an unbounded
exponent lies below the least normal magnitude (R38). -/
def fTiny (t mode : Nat) (neg : Bool) (m : Nat) (e : Int) : Bool :=
  let q := e + (bitLen m : Int) - (fPrec t : Int)
  let r := (roundAt mode neg m e q).1
  decide (q + (bitLen r : Int) ≤ fLsb t + (fFrac t : Int))

/-- An exact value rounded to a float tag (R38, R41): sat clamps finite overflow to the largest finite value and
counts it as an offender. -/
def fRound (t mode : Nat) (sat : Bool) (x : Num) : Rounded :=
  match x with
  | .nan   => { bits := fNaN t, flags := 0, off := false }
  | .inf n => { bits := fInf t n, flags := 0, off := false }
  | .fin n m e =>
    if m = 0 then { bits := if n then 2 ^ (tagW t - 1) else 0, flags := 0, off := false }
    else
      let q := lastBit (fPrec t) (fLsb t) m e
      let r := roundAt mode n m e q
      let m' := if r.1 = 2 ^ fPrec t then 2 ^ fFrac t else r.1
      let q' := if r.1 = 2 ^ fPrec t then q + 1 else q
      if fTop t < q' then
        { bits := if sat then fMax t n else fOver t mode n, flags := fOF + fNX, off := sat }
      else
        { bits := fEncode t n m' q', off := false,
          flags := if r.2 then fNX + (if fTiny t mode n m e then fUF else 0) else 0 }

/-- Limits of an integer tag; −128 and 128 for sh8 (R55). -/
def iMin (t : Nat) : Int :=
  if t == tSh8 then -128 else if isSigned t || isDv t then -((2 ^ (tagW t - 1) : Nat) : Int) else 0

def iMax (t : Nat) : Int :=
  if t == tSh8 then 128
  else if isSigned t || isDv t then ((2 ^ (tagW t - 1) : Nat) : Int) - 1
  else ((2 ^ tagW t : Nat) : Int) - 1

/-- The bits of an integer, wrapped to the tag's width (R36). -/
def iBits (t : Nat) (x : Int) : Nat := wrapTo (tagW t) x

/-- The canonical sh8 encoding of a representable value (R45); the rules in their order. -/
def sh8Encode (v : Int) : Nat :=
  let m := v.natAbs
  let s := v < 0
  let sg := if s then 1 else 0
  let ab := (List.range 7).flatMap fun a => (List.range a).map fun b => (a, b)
  if m = 0 then 0x77
  else match (List.range 7).find? fun a => m == 2 ^ a with
    | some a => sg * 128 + a * 16 + 7
    | none =>
      if m = 128 then (if s then 0xEE else 0x66)
      else match ab.find? fun p => m == 2 ^ p.1 + 2 ^ p.2 with
        | some p => sg * 128 + p.1 * 16 + sg * 8 + p.2
        | none => match ab.find? fun p => p.2 + 1 < p.1 && m == 2 ^ p.1 - 2 ^ p.2 with
          | some p => sg * 128 + p.1 * 16 + (1 - sg) * 8 + p.2
          | none   => 0x77

/-- Whether a magnitude is an sh8 value. -/
def sh8Rep (m : Nat) : Bool := m == 0 || sh8Encode (m : Int) != 0x77

/-- The largest sh8 magnitude not above m, for m up to 128. -/
def sh8Down : Nat → Nat
  | 0     => 0
  | m + 1 => if sh8Rep (m + 1) then m + 1 else sh8Down m

/-- The least sh8 magnitude above m. -/
def sh8Above (m : Nat) : Nat :=
  match (List.range 128).find? fun k => sh8Rep (m + 1 + k) with
  | some k => m + 1 + k
  | none   => 128

/-- An exact value converted to sh8 (R45). DEDUCED, log entry 61. -/
def sh8Round (mode : Nat) (fromFloat : Bool) (x : Num) : Rounded :=
  match x with
  | .nan   => { bits := 0x77, flags := fNV, off := true }
  | .inf n => { bits := if n then 0xEE else 0x66, flags := 0, off := true }
  | .fin n m e =>
    let nx := if fromFloat then fNX else 0
    if 0 < Num.cmp (.fin false m e) (.fin false 128 0) then
      { bits := if n then 0xEE else 0x66, off := true, flags := if (roundAt mode n m e 0).2 then nx else 0 }
    else
      let lo := sh8Down (roundAt 1 n m e 0).1
      if Num.cmp (.fin false lo 0) (.fin false m e) = 0 then
        { bits := sh8Encode (if n then -(lo : Int) else lo), flags := 0, off := false }
      else
        let hi := sh8Above lo
        -- nearest, ties to the smaller magnitude: twice the value against the sum of the neighbours
        let up := 0 < Num.cmp (.fin false m (e + 1)) (.fin false (lo + hi) 0)
        let v := if up then hi else lo
        { bits := sh8Encode (if n then -(v : Int) else v), flags := nx, off := false }

/-- An exact value rounded to an integer tag and saturated (R41, R43). -/
def iRound (t mode : Nat) (fromFloat : Bool) (x : Num) : Rounded :=
  match x with
  | .nan   => { bits := 0, flags := fNV, off := true }
  | .inf n => { bits := iBits t (if n then iMin t else iMax t), flags := 0, off := true }
  | .fin n m e =>
    let r := roundAt mode n m e 0
    let v : Int := if n then -(r.1 : Int) else r.1
    let fl := if r.2 && fromFloat then fNX else 0
    if v < iMin t then { bits := iBits t (iMin t), flags := fl, off := true }
    else if iMax t < v then { bits := iBits t (iMax t), flags := fl, off := true }
    else { bits := iBits t v, flags := fl, off := false }

/-- An exact integer wrapped to an integer tag (R36). -/
def iWrap (t : Nat) (x : Num) : Rounded :=
  match x with
  | .nan       => { bits := 0, flags := fNV, off := false }
  | .inf n     => { bits := iBits t (if n then iMin t else iMax t), flags := 0, off := false }
  | .fin n m e =>
    let r := (roundAt 1 n m e 0).1
    { bits := iBits t (if n then -(r : Int) else r), flags := 0, off := false }

/-- Round and SatNarrow into any tag (R41 to R45, R55). -/
def satRound (t mode : Nat) (fromFloat : Bool) (x : Num) : Rounded :=
  if isFloat t then fRound t mode true x
  else if t == tSh8 then sh8Round mode fromFloat x
  else iRound t mode fromFloat x

/-- Stochastic rounding (R42): lo and hi are the neighbours of the magnitude in steps of 2^q; for sh8 they are
neighbouring sh8 values, and a source outside −128 to 128 is an offender (R45). Tininess is that of the nearest-even
rounding, and an inexact integer source raises NX for sh8 too. DEDUCED, log entry 65. -/
def stochRound (t u : Nat) (fromFloat : Bool) (x : Num) : Rounded :=
  match x with
  | .nan   => satRound t 0 fromFloat .nan
  | .inf n => satRound t 0 fromFloat (.inf n)
  | .fin n m e =>
    let q : Int := if isFloat t then lastBit (fPrec t) (fLsb t) m e else 0
    let d := roundAt 1 n m e q
    let big := t == tSh8 && decide (0 < Num.cmp (.fin false m e) (.fin false 128 0))
    let lo := if t == tSh8 && !big then sh8Down d.1 else d.1
    let hi := if t == tSh8 && !big then sh8Above lo else lo + 1
    if m = 0 || Num.cmp (.fin false lo q) (.fin false m e) = 0 then satRound t 0 fromFloat x
    else
      -- the fraction in units of 2^-32: (|x| − lo) · 2^32 / (hi − lo), cut down
      let c := min e q
      let num := (shl m (e - c) - shl lo (q - c)) * 2 ^ 32
      let den := shl (hi - lo) (q - c)
      let f := num / den
      let v := if u % 2 ^ 32 < f then hi else lo
      let r := satRound t 0 false (.fin n v q)
      { r with off := r.off || big
               flags := (r.flags ||| fNX) ||| (if isFloat t && fTiny t 0 n m e then fUF else 0) }

/-! ## Exact arithmetic -/

/-- An exact result with the flags that the operation itself raised. -/
abbrev Exact := Num × Nat

/-- The sum; the sign of an exact zero follows the mode (IEEE 754). -/
def Num.add (mode : Nat) : Num → Num → Exact
  | .fin n1 m1 e1, .fin n2 m2 e2 =>
    let e := min e1 e2
    let a : Int := if n1 then -(shl m1 (e1 - e) : Int) else (shl m1 (e1 - e) : Int)
    let b : Int := if n2 then -(shl m2 (e2 - e) : Int) else (shl m2 (e2 - e) : Int)
    let c := a + b
    if c = 0 then
      (.fin (if m1 = 0 && m2 = 0 && n1 == n2 then n1 else mode == 3) 0 0, 0)
    else (.fin (c < 0) c.natAbs e, 0)
  | .inf n1, .inf n2    => if n1 == n2 then (.inf n1, 0) else (.nan, fNV)
  | .inf n1, .fin _ _ _ => (.inf n1, 0)
  | .fin _ _ _, .inf n2 => (.inf n2, 0)
  | .nan, .nan          => (.nan, 0)
  | .nan, .inf _        => (.nan, 0)
  | .nan, .fin _ _ _    => (.nan, 0)
  | .inf _, .nan        => (.nan, 0)
  | .fin _ _ _, .nan    => (.nan, 0)

def Num.neg : Num → Num
  | .nan       => .nan
  | .inf n     => .inf (!n)
  | .fin n m e => .fin (!n) m e

/-- An integer has no signed zero. -/
def Num.noNegZero : Num → Num
  | .nan       => .nan
  | .inf n     => .inf n
  | .fin n m e => .fin (n && m != 0) m e

def Num.sub (mode : Nat) (x y : Num) : Exact := Num.add mode x y.neg

def Num.isNaN : Num → Bool
  | .nan       => true
  | .inf _     => false
  | .fin _ _ _ => false

def Num.mul : Num → Num → Exact
  | .fin n1 m1 e1, .fin n2 m2 e2 => (.fin (n1 != n2) (m1 * m2) (e1 + e2), 0)
  | .inf n1, .inf n2             => (.inf (n1 != n2), 0)
  | .inf n1, .fin n2 m2 _        => if m2 = 0 then (.nan, fNV) else (.inf (n1 != n2), 0)
  | .fin n1 m1 _, .inf n2        => if m1 = 0 then (.nan, fNV) else (.inf (n1 != n2), 0)
  | .nan, .nan                   => (.nan, 0)
  | .nan, .inf _                 => (.nan, 0)
  | .nan, .fin _ _ _             => (.nan, 0)
  | .inf _, .nan                 => (.nan, 0)
  | .fin _ _ _, .nan             => (.nan, 0)

/-- a × b + c, rounded once by whoever rounds the result (R38). -/
def Num.fma (mode : Nat) (a b c : Num) : Exact :=
  let p := Num.mul a b
  let r := Num.add mode p.1 c
  (r.1, p.2 ||| r.2)

/-- The quotient of two magnitudes with 140 bits or more, of which at least two lie below 1, and a set last bit where
it is not exact. -/
def divSticky (n : Bool) (m1 : Nat) (e1 : Int) (m2 : Nat) (e2 : Int) : Num :=
  let k0 : Int := 140 + (bitLen m2 : Int) - (bitLen m1 : Int)
  let k := max k0 (e1 - e2 + 2)
  let k := k.toNat
  let d := m1 * 2 ^ k / m2
  let r := m1 * 2 ^ k % m2
  .fin n (2 * d + (if r = 0 then 0 else 1)) (e1 - e2 - (k : Int) - 1)

def Num.div : Num → Num → Exact
  | .fin n1 m1 e1, .fin n2 m2 e2 =>
    if m2 = 0 then (if m1 = 0 then (.nan, fNV) else (.inf (n1 != n2), fDZ))
    else if m1 = 0 then (.fin (n1 != n2) 0 0, 0)
    else (divSticky (n1 != n2) m1 e1 m2 e2, 0)
  | .inf _, .inf _       => (.nan, fNV)
  | .inf n1, .fin n2 _ _ => (.inf (n1 != n2), 0)
  | .fin n1 _ _, .inf n2 => (.fin (n1 != n2) 0 0, 0)
  | .nan, .nan           => (.nan, 0)
  | .nan, .inf _         => (.nan, 0)
  | .nan, .fin _ _ _     => (.nan, 0)
  | .inf _, .nan         => (.nan, 0)
  | .fin _ _ _, .nan     => (.nan, 0)

/-- The integer square root, bit by bit from bit k − 1. -/
def isqrtFrom (n : Nat) : Nat → Nat → Nat
  | 0, r     => r
  | k + 1, r => if (r + 2 ^ k) * (r + 2 ^ k) ≤ n then isqrtFrom n k (r + 2 ^ k) else isqrtFrom n k r

def isqrt (n : Nat) : Nat := isqrtFrom n (bitLen n / 2 + 1) 0

/-- The root of m · 2^e with 140 bits or more and a set last bit where it is not exact. -/
def sqrtSticky (m : Nat) (e : Int) : Num :=
  let odd := e % 2 != 0
  let m1 := if odd then 2 * m else m
  let e1 := if odd then e - 1 else e
  let k : Nat := 300
  let big := m1 * 2 ^ (2 * k)
  let r := isqrt big
  .fin false (2 * r + (if r * r = big then 0 else 1)) (e1 / 2 - (k : Int) - 1)

/-- Whether flags meet an enabled trap (R40); FCTL holds the enables in bits 12:8 in the order of FFLG. -/
def flagTraps (fctl flags : Nat) : Bool := (fctl / 2 ^ 8 % 32) &&& flags != 0

end Machine
end Sys2Proof
end

