-- ==== Sys2Proof/Machine/Stream.lean ====
section
/-!
DEFINITION. Buffer headers (R31, R32), the transform stages (R125, R126, R128) and the legality of a chain (R127), as
functions on lists of bytes. Apertures, engine cards and code fetch through an aperture use them.
-/

namespace Sys2Proof
namespace Machine

/-- The chunk size, 64 KiB (R122). -/
def chunkSize : Nat := 65536

/-- A byte inside a chain: its value, the bit offset in the chunk's input at which the token or code word that gave it begins, and the
offset up to which the input was read for it (R123). -/
structure Cell where
  b  : Byte
  lo : Nat
  hi : Nat
  deriving DecidableEq, Repr

/-- What passes from one stage to the next for one chunk: bytes, the fault (cause and bit offset) that whoever asks for more meets, none
where the input only ends, and the offset at which it stands. -/
structure Flow where
  cells : List Cell
  fault : Option (Nat × Nat)
  fin   : Nat
  deriving DecidableEq, Repr

def Flow.bytes (f : Flow) : List Byte := f.cells.map fun x => x.b

/-- A chunk's input. -/
def Flow.raw (bs : List Byte) : Flow :=
  { cells := bs.zipIdx.map fun p => { b := p.1, lo := 8 * p.2, hi := 8 * p.2 + 8 }, fault := none, fin := 8 * bs.length }

/-- The fault of a token at offset o whose input ends: that of the stage before, if it met one (R126). -/
def Flow.short (f : Flow) (o : Nat) : Nat × Nat := f.fault.getD (cSTREAM_CODE, o)

/-- The offset at which the next token begins. -/
def Flow.nextAt (f : Flow) (inp : List Cell) : Nat :=
  match inp with
  | []     => f.fin
  | x :: _ => x.lo

/-- A list cut into pieces of n; fuel bounds the pieces. -/
def splitAtEvery (n : Nat) : Nat → List α → List (List α)
  | 0, _         => []
  | fuel + 1, xs => match xs with
    | []      => []
    | _ :: _  => xs.take n :: splitAtEvery n fuel (xs.drop n)

def pieces (n : Nat) (xs : List α) : List (List α) := splitAtEvery n (xs.length + 1) xs

/-! ## LZ (R126) -/

/-- Why a sequence is no sequence: its input ends, or it is malformed. -/
inductive LzBad where
  | short
  | code
  deriving DecidableEq, Repr

/-- An extension number: at most three 7-bit groups, and the rest of the input. -/
def lzExt : Nat → Nat → List Cell → Except LzBad (Nat × List Cell)
  | 0, _, _          => .error .code
  | _ + 1, _, []     => .error .short
  | k + 1, sh, x :: r =>
    if x.b.toNat < 128 then .ok (x.b.toNat * 2 ^ sh, r)
    else (lzExt k (sh + 7) r).map fun y => ((x.b.toNat - 128) * 2 ^ sh + y.1, y.2)

/-- The fields of a sequence before its literals: literal count, match length, distance, and the rest of the input. -/
def lzHead : List Cell → Except LzBad (Nat × Nat × Nat × List Cell)
  | c0 :: c1 :: r0 => do
    let c := c0.b.toNat + 256 * c1.b.toNat
    let l ← if c % 32 = 31 then (lzExt 3 0 r0).map fun x => (31 + x.1, x.2) else .ok (c % 32, r0)
    let m ← if c / 32 % 32 = 31 then (lzExt 3 0 l.2).map fun x => (34 + x.1, x.2) else .ok (c / 32 % 32 + 3, l.2)
    if c / 1024 != 0 then .ok (l.1, m.1, c / 1024, m.2)
    else match m.2 with
      | d0 :: d1 :: r =>
        if d0.b.toNat + 256 * d1.b.toNat = 0 then .error .code else .ok (l.1, m.1, d0.b.toNat + 256 * d1.b.toNat, r)
      | _             => .error .short
  | _ => .error .short

/-- n bytes copied from d back, one at a time; out is the output in reverse. -/
def lzCopy (lo hi : Nat) : Nat → Nat → List Cell → List Cell
  | 0, _, out     => out
  | n + 1, d, out => lzCopy lo hi n d ({ b := (out.getD (d - 1) { b := 0, lo := 0, hi := 0 }).b, lo := lo, hi := hi } :: out)

/-- More bytes than a chunk's length, where it is known. -/
def past (limit : Option Nat) (n : Nat) : Bool :=
  match limit with
  | none   => false
  | some k => k < n

/-- The sequences of one chunk: limit is the chunk's length where it is known, out the output in reverse. The chunk ends with the
literals or the match that complete it. -/
def lzuGo (limit : Option Nat) (up : Flow) : Nat → List Cell → List Cell → Flow
  | 0, _, out          => { cells := out.reverse, fault := up.fault, fin := up.fin }
  | fuel + 1, inp, out =>
    let lo := up.nextAt inp
    let stop (out : List Cell) (f : Option (Nat × Nat)) : Flow := { cells := out.reverse, fault := f, fin := lo }
    if limit == some out.length then stop out none
    else if inp.isEmpty then stop out up.fault
    else match lzHead inp with
      | .error .short    => stop out (some (up.short lo))
      | .error .code     => stop out (some (cSTREAM_CODE, lo))
      | .ok (l, m, d, r) =>
        let hi := match (inp.take (inp.length - r.length + l)).getLast? with
          | none   => lo
          | some x => x.hi
        let out1 := ((r.take l).map fun x => ({ x with lo := lo, hi := hi } : Cell)).reverse ++ out
        if past limit (out.length + l) then stop out (some (cSTREAM_CODE, lo))
        else if r.length < l then stop out (some (up.short lo))
        else if limit == some out1.length then { cells := out1.reverse, fault := none, fin := hi }
        else if out1.length < d then stop out1 (some (cSTREAM_BACKREF, lo))
        else if past limit (out1.length + m) then stop out1 (some (cSTREAM_CODE, lo))
        else lzuGo limit up fuel (r.drop l) (lzCopy lo hi m d out1)

def lzu (limit : Option Nat) (f : Flow) : Flow := lzuGo limit f (f.cells.length + 1) f.cells []

/-- An extension number written in 7-bit groups. -/
def lzPutExt : Nat → Nat → List Byte
  | 0, _     => []
  | k + 1, v => if v < 128 then [BitVec.ofNat 8 v] else BitVec.ofNat 8 (128 + v % 128) :: lzPutExt k (v / 128)

/-- One sequence: literals and a match of m bytes from d back. -/
def lzSeq (lits : List Byte) (m d : Nat) : List Byte :=
  let l := lits.length
  let lc := min l 31
  let mc := min (m - 3) 31
  let ds := if d < 64 then d else 0
  leBytes 2 (ds * 1024 + mc * 32 + lc) ++ (if lc = 31 then lzPutExt 3 (l - 31) else []) ++
    (if mc = 31 then lzPutExt 3 (m - 34) else []) ++ (if ds = 0 then leBytes 2 d else []) ++ lits

/-- The encoder: at each position the open choice proposes a literal count, a distance and a match length; a proposal
that does not decode to the input ends the chunk with literals (R125, DESIGN CHOICE, log entry 14). Each sequence comes with the
position it begins at. -/
def lzpGo (inp : List Byte) : Nat → Nat → List (Nat × List Byte)
  | 0, pos        => [(pos, lzSeq (inp.drop pos) 3 1)]
  | fuel + 1, pos =>
    let c := Config.lzpChoice inp pos
    let l := c % 65536
    let d := c / 65536 % 65536
    let m := c / 2 ^ 32 % 65536
    let p := pos + l
    let ok := p < inp.length && 0 < d && d ≤ p && 3 ≤ m && p + m ≤ inp.length &&
      (List.range m).all fun i => inp.getD (p + i) 0 == inp.getD (p + i - d) 0
    if ok then (pos, lzSeq ((inp.drop pos).take l) m d) :: lzpGo inp fuel (p + m) else [(pos, lzSeq (inp.drop pos) 3 1)]

def lzp (f : Flow) : Flow :=
  let spot (p : Nat) : Nat × Nat := match f.cells[p]? with
    | none   => (f.fin, f.fin)
    | some x => (x.lo, x.hi)
  { f with cells := (lzpGo f.bytes (f.cells.length + 1) 0).flatMap fun q =>
      q.2.map fun b => { b := b, lo := (spot q.1).1, hi := (spot q.1).2 } }

/-! ## Huffman (R128) -/

def halfAt (tbl : List Byte) (i : Nat) : Nat := leNat ((tbl.drop (2 * i)).take 2)

def huffCounts (tbl : List Byte) : List Nat := (List.range 16).map (halfAt tbl)

/-- The table is legal (R128). -/
def huffOk (tbl : List Byte) : Bool :=
  let c := huffCounts tbl
  c.getD 0 0 == 0 && c.foldl (· + ·) 0 ≤ 256 &&
    ((List.range 16).foldl (fun a l => a + c.getD l 0 * 2 ^ (15 - l)) 0 - c.getD 0 0 * 2 ^ 15) ≤ 2 ^ 15

/-- The code words, as (length, code, symbol), from length l on; code is the first code of length l, sym the number
of symbols used. -/
def huffCodes (tbl : List Byte) : Nat → Nat → Nat → Nat → List (Nat × Nat × Nat)
  | 0, _, _, _            => []
  | fuel + 1, l, code, sym =>
    let n := halfAt tbl l
    ((List.range n).map fun i => (l, code + i, (tbl.getD (32 + sym + i) 0).toNat)) ++
      huffCodes tbl fuel (l + 1) ((code + n) * 2) (sym + n)

def huffTable (tbl : List Byte) : List (Nat × Nat × Nat) := huffCodes tbl 15 1 0 0

/-- A bit of a stream, with the offsets of a Cell. -/
structure BitCell where
  v  : Bool
  lo : Nat
  hi : Nat
  deriving DecidableEq, Repr

/-- The bits of bytes, each byte from bit 7 (R128); raw says that they are the chunk's own input. -/
def msbBits (raw : Bool) (xs : List Cell) : List BitCell :=
  xs.flatMap fun x => (List.range 8).map fun i =>
    { v := x.b.getMsbD i, lo := if raw then x.lo + i else x.lo, hi := if raw then x.lo + i + 1 else x.hi }

/-- One code word read from bits: its symbol and its length. -/
def huffOne (t : List (Nat × Nat × Nat)) : Nat → Nat → Nat → List BitCell → Option (Nat × Nat)
  | 0, _, _, _            => none
  | _ + 1, _, _, []       => none
  | fuel + 1, l, v, b :: r =>
    let v := 2 * v + (if b.v then 1 else 0)
    match t.find? fun x => x.1 == l + 1 && x.2.1 == v with
    | some x => some (x.2.2, l + 1)
    | none   => huffOne t fuel (l + 1) v r

def hufdGo (t : List (Nat × Nat × Nat)) (limit : Option Nat) (up : Flow) : Nat → List BitCell → List Cell → Flow
  | 0, _, out           => { cells := out.reverse, fault := up.fault, fin := up.fin }
  | fuel + 1, bits, out =>
    let lo := match bits with
      | []     => up.fin
      | b :: _ => b.lo
    let stop (f : Option (Nat × Nat)) : Flow := { cells := out.reverse, fault := f, fin := lo }
    if limit == some out.length then stop none
    else if bits.isEmpty then stop up.fault
    else match huffOne t 15 0 0 bits with
      | none        => stop (some (if bits.length < 15 then up.short lo else (cSTREAM_CODE, lo)))
      | some (s, l) =>
        let hi := match bits[l - 1]? with
          | none   => lo
          | some b => b.hi
        hufdGo t limit up fuel (bits.drop l) ({ b := BitVec.ofNat 8 s, lo := lo, hi := hi } :: out)

def hufd (tbl : List Byte) (raw : Bool) (limit : Option Nat) (f : Flow) : Flow :=
  hufdGo (huffTable tbl) limit f (8 * f.cells.length + 1) (msbBits raw f.cells) []

/-- The bits of one code word, most significant first. -/
def codeBits (l v : Nat) : List Bool := (List.range l).map fun i => bit v (l - 1 - i)

/-- Bits packed into bytes from bit 7, the last byte filled with zeros. -/
def packMsb (bs : List BitCell) : List Cell :=
  (pieces 8 bs).map fun p =>
    { b := BitVec.ofNat 8 ((List.range 8).foldl (fun a i => 2 * a + (match p[i]? with
        | none   => 0
        | some x => if x.v then 1 else 0)) 0)
      lo := match p.head? with
        | none   => 0
        | some x => x.lo
      hi := match p.getLast? with
        | none   => 0
        | some x => x.hi }

/-- Encoding; a symbol without a code word is a fault at its place. -/
def hufe (tbl : List Byte) (f : Flow) : Flow :=
  let t := huffTable tbl
  let word (x : Cell) : Option (Nat × Nat × Nat) := t.find? fun w => w.2.2 == x.b.toNat
  match f.fault, f.cells.find? fun x => (word x).isNone with
  | some e, _    => { f with fault := some e }
  | none, some x => { f with fault := some (cSTREAM_CODE, x.lo) }
  | none, none   =>
    { f with cells := packMsb (f.cells.flatMap fun x => match word x with
        | none   => []
        | some w => (codeBits w.1 w.2.1).map fun v => { v := v, lo := x.lo, hi := x.hi }) }

/-! ## Element stages -/

/-- Running sums modulo 2^w (R125 DLTD). -/
def dltdGo (w : Nat) : Nat → List Nat → List Nat
  | _, []        => []
  | acc, x :: xs => (acc + x) % 2 ^ w :: dltdGo w ((acc + x) % 2 ^ w) xs

/-- Differences modulo 2^w (R125 DLTE). -/
def dlteGo (w : Nat) : Nat → List Nat → List Nat
  | _, []         => []
  | prev, x :: xs => (x + 2 ^ w - prev) % 2 ^ w :: dlteGo w x xs

/-- Whole-byte elements of a list of bytes. -/
def elemsOf (w : Nat) (bs : List Byte) : List Nat := (pieces (w / 8) bs).map leNat

def ofElems (w : Nat) (xs : List Nat) : List Byte := xs.flatMap (leBytes (w / 8))

/-- Elements of any width, 4-bit ones two in a byte, low half first (R35). -/
def packElems (w : Nat) (xs : List Nat) : List Byte :=
  if w = 4 then (pieces 2 xs).map fun p => BitVec.ofNat 8 (p.getD 0 0 % 16 + 16 * (p.getD 1 0 % 16))
  else ofElems w xs

def unpackElems (w : Nat) (bs : List Byte) : List Nat :=
  if w = 4 then bs.flatMap fun b => [b.toNat % 16, b.toNat / 16] else elemsOf w bs

/-- Elements in row-major order cut into bit planes (R51): slices by row tile, K-step and plane. -/
def toPlanes (w k : Nat) (xs : List Nat) : List Byte :=
  let arr := xs.toArray
  (List.range (xs.length / (64 * k))).flatMap fun m =>
    (List.range (k / 16)).flatMap fun ks =>
      (List.range w).flatMap fun p =>
        (List.range 64).flatMap fun r =>
          leBytes 2 ((List.range 16).foldl (fun a c =>
            a + (if bit (arr.getD ((64 * m + r) * k + 16 * ks + c) 0) p then 2 ^ c else 0)) 0)

/-- The inverse of toPlanes. -/
def fromPlanes (w k : Nat) (bs : List Byte) : List Nat :=
  let arr := bs.toArray
  let half (i : Nat) : Nat := (arr.getD i 0).toNat + 256 * (arr.getD (i + 1) 0).toNat
  (List.range (8 * bs.length / w)).map fun e =>
    let row := e / k
    let col := e % k
    let base := (row / 64 * (k / 16) + col / 16) * w * 128
    (List.range w).foldl (fun a p => a + (if bit (half (base + p * 128 + 2 * (row % 64))) (col % 16) then 2 ^ p else 0)) 0

/-- The stride of the blocks of an anchored stream, from the FLAGS byte (R48); none for the reserved size code. -/
def blockStride (flags : Nat) : Option Nat :=
  let c := flags / 2 % 8
  if c = 7 then none else some (16 + ceilDiv (2 ^ (c + 2) * (if flags % 2 = 1 then 2 else 1)) 16 * 16)

/-- ANS on a group of whole blocks: all headers and then all deviation areas (R125). -/
def ansGroup (st : Nat) (bs : List Byte) : List Byte :=
  ((pieces st bs).flatMap fun b => b.take 16) ++ (pieces st bs).flatMap fun b => b.drop 16

/-- ANJ, the inverse of ANS. -/
def anjGroup (st : Nat) (bs : List Byte) : List Byte :=
  let n := bs.length / st
  let hs := pieces 16 (bs.take (16 * n))
  let ds := pieces (st - 16) (bs.drop (16 * n))
  (List.range n).flatMap fun i => hs.getD i [] ++ ds.getD i []

/-- CRC-32C, reflected, bit by bit (R125 CRC); v is the running value before the final XOR. -/
def crcBit : Nat → Nat → Nat
  | 0, v     => v
  | n + 1, v => crcBit n (if v % 2 = 1 then (v / 2).xor 0x82F63B78 else v / 2)

def crcRun : List Byte → Nat → Nat
  | [], v      => v
  | b :: bs, v => crcRun bs (crcBit 8 (v.xor b.toNat))

/-- The CRC over bytes that follow others whose CRC is crcv (0 for none). -/
def crc32c (crcv : Nat) (bs : List Byte) : Nat := (crcRun bs (crcv.xor 0xFFFFFFFF)).xor 0xFFFFFFFF

/-! ## Chains (R127) -/

/-- A chain with everything its stages need. -/
structure Chain where
  stages : List Nat
  ikind  : Nat
  okind  : Nat
  etag   : Nat
  rowk   : Nat
  cbx    : Bool
  xtag   : Nat
  tbl    : Option (List Byte)
  deriving DecidableEq, Repr

/-- The input kind of a stage: 0 byte, 1 element, 2 plane, 3 anchored, 4 any (R125). -/
def stageIn (id : Nat) : Nat :=
  match id with
  | 0x05 => 1
  | 0x06 => 1
  | 0x07 => 1
  | 0x08 => 2
  | 0x09 => 3
  | 0x0B => 4
  | _    => 0

def stageOut (id prev : Nat) : Nat :=
  match id with
  | 0x05 => 1
  | 0x06 => 1
  | 0x07 => 2
  | 0x08 => 1
  | 0x0A => 3
  | 0x0B => prev
  | _    => 0

/-- Byte and element streams match each other; plane and anchored streams match only themselves. -/
def kindsMatch (a b : Nat) : Bool := a == 4 || b == 4 || a == b || (a < 2 && b < 2)

def chainKinds : Nat → List Nat → Option Nat
  | k, []      => some k
  | k, i :: is => if kindsMatch k (stageIn i) then chainKinds (stageOut i k) is else none

def isDecode (i : Nat) : Bool := i == 0x01 || i == 0x03 || i == 0x05 || i == 0x08 || i == 0x0A
def isEncode (i : Nat) : Bool := i == 0x02 || i == 0x04 || i == 0x06 || i == 0x07 || i == 0x09
def isElemStage (i : Nat) : Bool := 0x05 ≤ i && i ≤ 0x08

/-- An encode chain (R127). -/
def Chain.encodes (c : Chain) : Bool := c.stages.any isEncode

/-- The legality of a chain but for its element count (R127). -/
def Chain.legal (c : Chain) : Bool :=
  c.stages.length ≤ 6 && c.stages.all (fun i => 0x01 ≤ i && i ≤ 0x0B) &&
  (match chainKinds c.ikind c.stages with
    | none   => false
    | some k => kindsMatch k c.okind) &&
  (c.stages.filter fun i => i == 0x0B).length ≤ 1 &&
  !(c.stages.any isDecode && c.stages.any isEncode) &&
  (c.stages.all fun i => !isElemStage i ||
    (if i == 0x07 || i == 0x08 then c.etag == tI4 || c.etag == tI8 || c.etag == tI16
     else (tI8 ≤ c.etag && c.etag ≤ tI64) || (tN8 ≤ c.etag && c.etag ≤ tN64))) &&
  (c.stages.all fun i => !(i == 0x03 || i == 0x04) || c.tbl.isSome) &&
  (if c.cbx then !c.encodes && isCx c.etag && 0x01 ≤ c.xtag && c.xtag ≤ 0x0E && c.okind == 1 && c.tbl.isSome
   else c.xtag == 0) &&
  (c.stages.all fun i => !(i == 0x07 || i == 0x08) || (c.rowk != 0 && c.rowk % 16 == 0))

/-- The tables of a legal chain are legal themselves (R128). -/
def Chain.tablesOk (c : Chain) : Bool :=
  c.stages.all fun i => !(i == 0x03 || i == 0x04) || (match c.tbl with
    | none   => false
    | some t => huffOk t)

/-- A PLN or UPLN stage needs a multiple of 64 rows (R127). -/
def Chain.countOk (c : Chain) (bytes : Nat) : Bool :=
  c.stages.all fun i => !(i == 0x07 || i == 0x08) || (8 * bytes / tagW c.etag) % (64 * c.rowk) == 0

def changesLen (i : Nat) : Bool := 1 ≤ i && i ≤ 4

/-- PLN, UPLN, ANS and ANJ, which rearrange groups of bytes that do not end where chunks do. -/
def isGroup (i : Nat) : Bool := 0x07 ≤ i && i ≤ 0x0A

/-- A group stage at the front of a chain: a legal one is UPLN or ANS, which take what no other stage gives. -/
def Chain.front (c : Chain) : Option Nat :=
  match c.stages.filter fun i => i != 0x0B with
  | []     => none
  | i :: _ => if i == 0x08 || i == 0x09 then some i else none

/-- A group stage at the back of a chain: a legal one is PLN or ANJ, which give what no other stage takes. -/
def Chain.back (c : Chain) : Option Nat :=
  match (c.stages.filter fun i => i != 0x0B).getLast? with
  | none   => none
  | some i => if i == 0x07 || i == 0x0A then some i else none

/-- The stages that work chunk by chunk. -/
def Chain.mid (c : Chain) : List Nat := c.stages.filter fun i => !isGroup i && i != 0x0B

/-- Where the CRC stage of a chain stands: before the front, after so many of the middle stages, or after the back. -/
inductive CrcAt where
  | absent
  | front
  | mid (n : Nat)
  | back
  deriving DecidableEq, Repr

def Chain.crcAt (c : Chain) : CrcAt :=
  let before := c.stages.takeWhile fun i => i != 0x0B
  if !c.stages.contains 0x0B then .absent
  else if c.front.isSome && before.isEmpty then .front
  else if c.back.isSome && before.any fun i => some i == c.back then .back
  else .mid (before.filter fun i => !isGroup i).length

/-- The values of whole elements replaced; a last piece that is no whole element keeps its length. -/
def mapElems (w : Nat) (g : List Nat → List Nat) (xs : List Cell) : List Cell :=
  xs.zipWith (fun x b => { x with b := b }) (ofElems w (g (elemsOf w (xs.map fun x => x.b))))

/-- One stage on one chunk; limit is the chunk's length when no later stage changes it, raw says that no earlier stage did. -/
def runStage (c : Chain) (i : Nat) (raw : Bool) (limit : Option Nat) (f : Flow) : Flow :=
  let w := tagW c.etag
  let tbl := c.tbl.getD []
  match i with
  | 0x01 => lzu limit f
  | 0x02 => lzp f
  | 0x03 => hufd tbl raw limit f
  | 0x04 => hufe tbl f
  | 0x05 => { f with cells := mapElems w (dltdGo w 0) f.cells }
  | 0x06 => { f with cells := mapElems w (dlteGo w 0) f.cells }
  | _    => f

/-- Stages run on one chunk. -/
def runStages (c : Chain) (limit : Option Nat) : Bool → List Nat → Flow → Flow
  | _, [], f        => f
  | raw, i :: is, f =>
    runStages c limit (raw && !changesLen i) is (runStage c i raw (if is.any changesLen then none else limit) f)

/-- A chunk's bytes, and those that passed the chain's CRC stage for it (R125). -/
structure ChunkData where
  out : List Byte
  crc : Option (List Byte)
  deriving DecidableEq, Repr

/-- The chunk-by-chunk stages of a chain: the flow, and what passed a CRC stage among them; of a chunk that is decoded, as far as the
stages after it used it. -/
def Chain.runMid (c : Chain) (limit : Option Nat) (f : Flow) : Flow × Option (List Byte) :=
  let g := runStages c limit true c.mid f
  match c.crcAt with
  | .mid n  =>
    let h := runStages c (if (c.mid.drop n).any changesLen then none else limit) true (c.mid.take n) f
    let used (x : Cell) : Bool := limit.isNone || !(c.mid.drop n).any changesLen || x.lo < g.fin
    (g, some ((h.cells.filter used).map fun x => x.b))
  | .absent => (g, none)
  | .front  => (g, none)
  | .back   => (g, none)

/-- A chunk of len bytes, or the fault that stands in its way, with its bit offset. -/
def Flow.exactly (f : Flow) (len : Nat) : Except (Nat × Nat) (List Byte) :=
  if len ≤ f.cells.length then .ok ((f.cells.take len).map fun x => x.b) else .error (f.short f.fin)

/-- Decoding one chunk whose length is known. -/
def Chain.decodeMid (c : Chain) (len : Nat) (f : Flow) : Except (Nat × Nat) ChunkData :=
  let g := c.runMid (some len) f
  (g.1.exactly len).map fun bs => { out := bs, crc := g.2 }

/-! ### Groups -/

/-- The bytes of a group of a group stage, given the start of its stream; none for a block header of the reserved size (R48, R51). -/
def Chain.groupSize (c : Chain) (i : Nat) (start : List Byte) : Option Nat :=
  if i == 0x07 || i == 0x08 then some (8 * c.rowk * tagW c.etag)
  else (blockStride (start.getD 9 0).toNat).map fun st => chunkSize / st * st

/-- A group rearranged. -/
def Chain.groupStage (c : Chain) (i : Nat) (start bs : List Byte) : List Byte :=
  let w := tagW c.etag
  let st := (blockStride (start.getD 9 0).toNat).getD 16
  if i == 0x07 then toPlanes w c.rowk (unpackElems w bs)
  else if i == 0x08 then packElems w (fromPlanes w c.rowk bs)
  else if i == 0x09 then ansGroup st bs
  else anjGroup st bs

/-- The bytes of a group stage's output in a range, of a stream of total bytes whose input is read by rd; none for a malformed stream. -/
def Chain.grouped [Monad m] (c : Chain) (i total lo len : Nat) (rd : Nat → Nat → m (List Byte)) : m (Option (List Byte)) := do
  let start ← if i == 0x07 || i == 0x08 then pure [] else rd 0 (min 10 total)
  match c.groupSize i start with
  | none   => pure none
  | some g =>
    if g = 0 then pure none
    else
      let a := lo / g * g
      let bs ← rd a (min total (ceilDiv (lo + len) g * g) - a)
      pure (some ((((pieces g bs).flatMap (c.groupStage i start)).drop (lo - a)).take len))

/-- A range of a stream that comes in chunks of a size. -/
def chunkRange [Monad m] (size lo len : Nat) (get : Nat → m (List Byte)) : m (List Byte) := do
  let j := lo / size
  let bs ← (List.range (ceilDiv (lo + len) size - j)).mapM fun i => get (j + i)
  pure (((bs.flatMap id).drop (lo - j * size)).take len)

/-- Codebook expansion of a card: every index replaced by its entry of the image, packed as XTAG (R125). -/
def cbxExpand (c : Chain) (bs : List Byte) : List Byte :=
  if c.cbx then
    let tbl := match c.tbl with
      | none   => []
      | some t => t
    packElems (tagW c.xtag) ((unpackElems (tagW c.etag) bs).map fun i => leNat ((tbl.drop (8 * i)).take 8))
  else bs

/-! ## Headers (R31) -/

/-- A header-described buffer: its fields and where its chunks lie. -/
structure Hdr where
  exp    : Nat
  kind   : Nat
  stages : List Nat
  chunks : Nat
  outlen : Nat
  inlen  : Nat
  deriving DecidableEq, Repr

/-- A header read from 32 bytes; none where its use raises STREAM_LEGAL (R31). Of FLAGS with a reserved bit set, and of CHUNKS that is
not what OUTLEN makes it, the manual states no fate: they are refused alike. DESIGN CHOICE, log entry 76. -/
def hdrOf (h : List Byte) : Option Hdr :=
  let at_ (o n : Nat) : Nat := leNat ((h.drop o).take n)
  let nst := at_ 3 1
  let stg := (h.drop 4).take 6
  if at_ 0 2 != 0xB2E8 || 6 < nst || at_ 2 1 / 16 != 0 || at_ 10 2 != 0 || !(stg.drop nst).all (fun b => b == 0) ||
      at_ 12 4 != ceilDiv (at_ 16 8) chunkSize then none
  else some { exp := at_ 2 1 % 4, kind := at_ 2 1 / 4 % 4, stages := (stg.take nst).map fun b => b.toNat,
              chunks := at_ 12 4, outlen := at_ 16 8, inlen := at_ 24 8 }

/-- The length of chunk k of an output. -/
def chunkLen (outlen k : Nat) : Nat := min chunkSize (outlen - k * chunkSize)

/-- The length of the input of chunk k from its chunk-index offset o: to the end of the payload where a stage says how much of it is
used, else as long as its output (R31, R126). -/
def Hdr.inputLen (h : Hdr) (k o : Nat) : Nat :=
  if h.stages.any changesLen then h.inlen - o else min (h.inlen - o) (chunkLen h.outlen k)

/-- The chain of a header for an aperture: no element tag and no table stand in a header (R29, R127). -/
def Hdr.chain (h : Hdr) : Chain :=
  { stages := h.stages, ikind := 0, okind := h.kind, etag := 0, rowk := 0, cbx := false, xtag := 0, tbl := none }

/-- A read of an aperture's expanded output (R29): a STREAM fault, or the bytes; bytes at and beyond OUTLEN are
zero. The fault names its chunk. -/
def State.aperRead (s : State) (n off len : Nat) : Except (Nat × Nat × Nat) (List Byte) :=
  let buf := s.apBuf n
  let rd (o k : Nat) : List Byte := Memory.readN s.mem (dramKey (buf + o)) k
  match hdrOf (rd 0 32) with
  | none   => .error (cSTREAM_LEGAL, 0, 0)
  | some h =>
    if !(h.chain.legal && !h.chain.encodes) then .error (cSTREAM_LEGAL, 0, 0)
    else if h.outlen ≤ off then .ok (List.replicate len 0)
    else
      let m := min len (h.outlen - off)
      let piece (k : Nat) : Except (Nat × Nat × Nat) (List Byte) :=
        let o := leNat (rd (32 + 8 * k) 8)
        match h.chain.decodeMid (chunkLen h.outlen k) (Flow.raw (rd (32 + 8 * h.chunks + o) (h.inputLen k o))) with
        | .error f => .error (f.1, k, f.2)
        | .ok d    => .ok d.out
      let mid (lo n : Nat) : Except (Nat × Nat × Nat) (List Byte) := chunkRange chunkSize lo n piece
      let all : Except (Nat × Nat × Nat) (List Byte) := match h.chain.back with
        | none   => mid off m
        | some i => match h.chain.grouped i h.outlen off m mid with
          | .error e       => .error e
          | .ok none       => .error (cSTREAM_LEGAL, off / chunkSize, 0)
          | .ok (some bs)  => .ok bs
      match all with
      | .error e => .error e
      | .ok bs   => .ok (bs ++ List.replicate (len - bs.length) 0)

end Machine
end Sys2Proof
end

