-- ==== Sys2Proof/Machine/Fetch.lean ====
section
/-!
DEFINITION. Fetching instruction words (R210, R216): each word is checked as an access with permission X, and the
words of a prefixed instruction are fetched together.
-/

namespace Sys2Proof
namespace Machine

/-- The trap of an aperture's stream fault (R30): layout S. -/
def trapS (f : Nat × Nat × Nat) : Trap := { code := f.1, info := info2 f.2.1 f.2.2 }

/-- The little-endian value of n bytes at a place that is memory or an aperture. -/
def State.readPlace (s : State) (p : Place) (n : Nat) : R (List Byte) :=
  match p with
  | .mem k      => .ok (Memory.readN s.mem k n)
  | .aper a off => match s.aperRead a off n with
    | .ok bs   => .ok bs
    | .error f => raise (trapS f)
  | .ctl _      => .ok (List.replicate n 0)
  | .peer _ _   => .ok (List.replicate n 0)

/-- The line of the code cache of the issuing core that holds an address (R76). -/
def State.codeLine (s : State) (addr : Word) : Option CodeLine :=
  s.me.icache.find? fun l => l.asid == s.me.asid.toNat && l.va == addr.toNat / 128 * 128

/-- One instruction word at an address (R210), from its line of the code cache where there is one (R76). -/
def State.fetchWord (s : State) (addr : Word) : R (List Byte) := do
  let p ← s.place (s.how .fetch true 4) addr
  match s.codeLine addr with
  | some l => pure ((l.bytes.drop (addr.toNat % 128)).take 4)
  | none   => s.readPlace p 4

/-- The lines a code cache holds: 32 KiB of 128 bytes (R76). -/
def codeLines : Nat := 256

/-- The line of a word that has been fetched is kept, with its translation (R17, R76): of a full cache it replaces a line that the
manual does not name, and an aperture's expanded bytes are not kept. DESIGN CHOICE, log entry 12. -/
def State.keepLine (s : State) (addr : Word) : State :=
  match s.codeLine addr, s.place (s.how .fetch true 4) addr with
  | none, .ok (.mem k) =>
    let c := s.me
    let line : CodeLine := { asid := c.asid.toNat, va := addr.toNat / 128 * 128, bytes := Memory.readN s.mem (k / 128 * 128) 128 }
    let kept := if c.icache.length < codeLines then c.icache
      else c.icache.eraseIdx ((Config.undef s.undefCtr).toNat % codeLines)
    ({ s.setMe { c with icache := line :: kept } with
       undefCtr := if c.icache.length < codeLines then s.undefCtr else s.undefCtr + 1 } : State).warmAddr addr
  | _, _ => s.warmAddr addr

/-- The bytes of the instruction at an address: one word, or three where the first is an EXT word (R215, R216). -/
def State.fetchAt (s : State) (addr : Word) : R (List Byte) := do
  let w ← s.fetchWord addr
  if leNat w / 2 ^ 26 == 0x3E then do
    let i ← s.fetchWord (addr + 4)
    let v ← s.fetchWord (addr + 8)
    pure (w ++ i ++ v)
  else pure w

/-- What fetching the instruction at an address leaves in the code cache. -/
def State.keepCode (s : State) (addr : Word) (bs : List Byte) : State :=
  (List.range (bs.length / 4)).foldl (fun s i => s.keepLine (addr + BitVec.ofNat 64 (4 * i))) s

/-- The address after the instruction at END: after the whole of it where END names an EXT word (R137, R216). -/
def State.afterEnd (s : State) (fin : Word) : Word :=
  match s.fetchWord fin with
  | .ok w    => if leNat w / 2 ^ 26 == 0x3E then fin + 12 else fin + 4
  | .error _ => fin + 4

end Machine
end Sys2Proof
end

