-- ==== Sys2Proof/Machine/Pending.lean ====
section
/-!
DEFINITION. The accesses that a core has issued and not yet performed (R77, R78, R84): which of them may be performed,
how one is performed, arrival words (R69), atomics (R253), the view of a deterministic task (R130, R131), and what an
access to a peer sends (R11, R12).
-/

namespace Sys2Proof
namespace Machine

/-! ## Atomics (R253) -/

/-- The new word of an atomic on old words of the tag; float sums round in a mode. -/
def amoNew (mode : Nat) (op : AmoOp) (tag old b c : Nat) : Nat :=
  let w := tagW tag
  let o := old % 2 ^ w
  let x := b % 2 ^ w
  let less := if isSigned tag then signedOf w o < signedOf w x else (o : Int) < x
  match op with
  | .add  => if isFloat tag then (fRound tag mode false (Num.add mode (fDecode tag o) (fDecode tag x)).1).bits
             else (o + x) % 2 ^ w
  | .and  => o.land x
  | .or   => o.lor x
  | .xor  => o.xor x
  | .min  => if less then o else x
  | .max  => if less then x else o
  | .swap => x
  | .cas  => if o = c % 2 ^ w then x else o

/-- The old value as written to the destination: sign-extended for i32, zero-extended otherwise. -/
def amoResult (tag old : Nat) : Word :=
  if tag = tI32 then BitVec.ofInt 64 (signedOf 32 old) else BitVec.ofNat 64 (old % 2 ^ tagW tag)

/-! ## The view of a deterministic task (R129 to R131) -/

/-- The task of a core whose launch is deterministic. -/
def State.detTask (s : State) (core : Nat) : Option Task :=
  match (s.core core).task with
  | none    => none
  | some id => match s.task id with
    | none   => none
    | some t => match t.launch with
      | none   => none
      | some l => match s.launches.find? fun x => x.id == l with
        | none   => none
        | some x => if x.det then some t else none

/-- One entry of a log applied to the eight bytes of a dword, as a task sees its own log: a plain write by its mask, an atomic as an
operation; that sums of floats round to nearest-even here too, as at the merge (R131), is the model's choice. DESIGN CHOICE, log entry 83. -/
def LogEnt.onDword (e : LogEnt) (dk : Nat) (bs : List Byte) : List Byte :=
  match e with
  | .plain k ms => if k = dk then bs.zipIdx.map fun p => match ms.getD p.2 none with
      | none   => p.1
      | some b => b
    else bs
  | .amo k size op tag b =>
    if k / 8 * 8 = dk then
      let o := k - dk
      let old := leNat ((bs.drop o).take size)
      bs.take o ++ leBytes size (amoNew 0 op tag.val old b.toNat 0) ++ bs.drop (o + size)
    else bs

/-- The base view of a task (R129): memory as it stood when its launch's interval began. -/
def State.baseView (s : State) (t : Task) : List Host.Cell :=
  match t.launch with
  | none   => s.mem
  | some l => match s.launches.find? fun x => x.id == l with
    | none   => s.mem
    | some x => x.base

/-- The bytes of a dword of device-virtual memory as a task sees it: the base view, then its spawner's entries, then
its own (R129). -/
def State.viewDword (s : State) (t : Task) (dk : Nat) : List Byte :=
  (t.prefixLog ++ t.log).foldl (fun bs e => e.onDword dk bs) (Memory.readN (s.baseView t) dk 8)

/-- One byte as a core's accesses see it. -/
def State.viewByte (s : State) (core k : Nat) : Byte :=
  match s.detTask core with
  | none   => Memory.read s.mem k
  | some t => if keyIsDram k then (s.viewDword t (k / 8 * 8)).getD (k % 8) 0 else Memory.read s.mem k

def State.viewRead (s : State) (core k n : Nat) : List Byte := (List.range n).map fun i => s.viewByte core (k + i)

/-- The dword that an entry is about. -/
def LogEnt.dword : LogEnt → Nat
  | .plain k _     => k
  | .amo k _ _ _ _ => k / 8 * 8

/-- One entry of a log applied to memory. -/
def LogEnt.onMem (e : LogEnt) (m : List Host.Cell) : List Host.Cell :=
  Memory.writeN m e.dword (e.onDword e.dword (Memory.readN m e.dword 8))

/-- The device as the accesses of a core see it: its memory is the view of a deterministic task (R130). -/
def State.viewAs (s : State) (core : Nat) : State :=
  match s.detTask core with
  | none   => s
  | some t =>
    let own := (s.mem.filter fun c => !keyIsDram c.1)
    { s with mem := (t.prefixLog ++ t.log).foldl (fun m e => e.onMem m) ((s.baseView t).filter fun c => keyIsDram c.1) ++ own }

/-- A mask with data over an earlier one of the same dword. -/
def overMask (old new : List (Option Byte)) : List (Option Byte) :=
  (List.range 8).map fun i => (new.getD i none).or (old.getD i none)

/-- A plain write joined to the latest entry of its dword, in a log given newest first; none when that is no plain write. -/
def joinLatest (dk : Nat) (ms : List (Option Byte)) : List LogEnt → Option (List LogEnt)
  | []      => none
  | e :: es =>
    if e.dword = dk then (match e with
      | .plain _ old     => some (.plain dk (overMask old ms) :: es)
      | .amo _ _ _ _ _   => none)
    else (joinLatest dk ms es).map fun r => e :: r

/-- A log with one dword's plain write added: it joins the last entry of that dword when that is plain. -/
def logPlain (log : List LogEnt) (dk : Nat) (ms : List (Option Byte)) : List LogEnt :=
  match joinLatest dk ms log.reverse with
  | some r => r.reverse
  | none   => log ++ [.plain dk ms]

/-- Bytes written to device-virtual memory by a deterministic task go to its log, one entry a dword. -/
def logBytes : List LogEnt → Nat → List Byte → List LogEnt
  | log, _, []      => log
  | log, k, b :: bs =>
    logBytes (logPlain log (k / 8 * 8) ((List.range 8).map fun i => if i = k % 8 then some b else none)) (k + 1) bs

/-- The largest number of entries a log holds (R130). -/
def logMax : Nat := 65536

/-- Bytes written as a core's access writes them: to memory, or to the log of its deterministic task. -/
def State.viewWrite (s : State) (core k : Nat) (bs : List Byte) : State :=
  match s.detTask core with
  | none   => { s with mem := Memory.writeN s.mem k bs }
  | some t => if keyIsDram k then s.setTask { t with log := logBytes t.log k bs }
              else { s with mem := Memory.writeN s.mem k bs }

/-- The spans of an access that are not performed. -/
def Access.open_ (x : Access) : List (Nat × Nat) :=
  (x.spans.zip x.ans).filterMap fun p => match p.2 with
    | none   => some p.1
    | some _ => none

/-- The dwords of device-virtual memory that spans reach. -/
def dramDwords (sp : List (Nat × Nat)) : List Nat :=
  (sp.filter fun p => keyIsDram p.1 && p.2 != 0).flatMap fun p =>
    (List.range ((p.1 + p.2 - 1) / 8 - p.1 / 8 + 1)).map fun i => (p.1 / 8 + i) * 8

/-- Whether the latest entry of a dword in a log is a plain write, which a further plain write joins. -/
def plainLatest (log : List LogEnt) (dk : Nat) : Bool :=
  match log.reverse.find? fun e => e.dword == dk with
  | some (.plain _ _)     => true
  | some (.amo _ _ _ _ _) => false
  | none                  => false

/-- The entries that a log will need for writes which are under way, one list of spans each; single says that each makes an entry
of its own, as an atomic does. -/
def logNeed (log : List LogEnt) (ws : List (Bool × List (Nat × Nat))) : Nat :=
  let dws := (ws.filter fun w => !w.1).flatMap fun w => dramDwords w.2
  ((dws.eraseDups).filter fun k => !plainLatest log k).length +
    ((ws.filter fun w => w.1).flatMap fun w => dramDwords w.2).length

/-- The writes of an access that are to be logged. -/
def Access.logged (x : Access) : Bool × List (Nat × Nat) :=
  match x.kind with
  | .writes _                => (false, x.open_)
  | .stab _ _ _ _ _ _        => (false, x.open_)
  | .stq _ _ form _          => ((match form with
    | .amo _ _ _ _ => true
    | .plain       => false
    | .row         => false
    | .planes _ _  => false
    | .app _ _     => false
    | .blocks _ _  => false), x.open_)
  | .amo _ _ _ _ _ _ _ _     => (true, x.open_)
  | .load _ _ _              => (false, [])
  | .fill _ _ _              => (false, [])
  | .arm _                   => (false, [])
  | .arrive _                => (false, [])
  | .await _ _ _             => (false, [])
  | .value _ _               => (false, [])

/-- A store to device-virtual memory for which its task's log has no room left, besides the writes of the task that are
under way, raises DET_CONFLICT (R130). -/
def State.logRoom (s : State) (core : Nat) (sp : List (Nat × Nat)) (single : Bool := false) : R Unit :=
  match s.detTask core with
  | none   => .ok ()
  | some t =>
    let ws := (t.cores.flatMap fun n => (s.core n).pend.map Access.logged) ++ [(single, sp)]
    orTrap ((dramDwords sp).isEmpty || t.log.length + logNeed t.log ws ≤ logMax)
      { code := cDET_CONFLICT, info := info2 t.cont.taskid.toNat t.cont.taskid.toNat }

/-! ## Arrival words (R68, R69) -/

/-- An arrival word. -/
structure ArrWord where
  target : Nat
  count  : Nat
  gen    : Nat
  flags  : Nat
  deriving DecidableEq, Repr

def State.arrRead (s : State) (k : Nat) : ArrWord :=
  { target := leNat (Memory.readN s.mem k 5), count := leNat (Memory.readN s.mem (k + 5) 5),
    gen := leNat (Memory.readN s.mem (k + 10) 4), flags := leNat (Memory.readN s.mem (k + 14) 2) }

def State.arrWrite (s : State) (k : Nat) (w : ArrWord) : State :=
  let bs := leBytes 5 w.target ++ leBytes 5 w.count ++ leBytes 4 w.gen ++ leBytes 2 w.flags
  { s with mem := Memory.writeN s.mem k bs }

/-- Settle of R69. -/
def ArrWord.settle (w : ArrWord) : ArrWord :=
  if w.target ≠ 0 ∧ w.target ≤ w.count then
    { w with gen := (w.gen + w.count / w.target) % 2 ^ 32, count := w.count % w.target }
  else w

/-- arm of R69; reserved flag bits are written as zero (R68). -/
def ArrWord.arm (w : ArrWord) (t : Nat) : ArrWord :=
  ({ w with target := t % 2 ^ 40, flags := w.flags % 2 } : ArrWord).settle

/-- arrive of R69: COUNT saturates and sets OVF. -/
def ArrWord.arrive (w : ArrWord) (n : Nat) : ArrWord :=
  let m := w.count + n % 2 ^ 40
  (if 2 ^ 40 - 1 < m then ({ w with count := 2 ^ 40 - 1, flags := 1 } : ArrWord)
   else { w with count := m, flags := w.flags % 2 }).settle

/-- The condition of await: the generation has passed ag (R70). -/
def ArrWord.passed (w : ArrWord) (ag : Nat) : Bool :=
  let d := (w.gen + 2 ^ 32 - ag) % 2 ^ 32
  1 ≤ d && d < 2 ^ 31

/-- An arrival of n bytes or events at the word of a key. -/
def State.arriveAt (s : State) (k n : Nat) : State := s.arrWrite k ((s.arrRead k).arrive n)

/-! ## Which pending access may be performed -/

/-- Two spans share a byte. -/
def overlaps (a b : Nat × Nat) : Bool := a.1 < b.1 + b.2 && b.1 < a.1 + a.2

def AccKind.isAcquire : AccKind → Bool
  | .amo _ _ _ _ _ acq _ _ => acq
  | .await _ _ _         => true
  | .load _ _ _          => false
  | .fill _ _ _          => false
  | .writes _            => false
  | .stq _ _ f _         => (match f with
    | .amo _ _ acq _ => acq
    | .plain         => false
    | .row           => false
    | .planes _ _    => false
    | .app _ _       => false
    | .blocks _ _    => false)
  | .stab _ _ _ _ _ _    => false
  | .arm _               => false
  | .arrive _            => false
  | .value _ _           => false

def AccKind.isRelease : AccKind → Bool
  | .amo _ _ _ _ _ _ rel _ => rel
  | .arrive _            => true
  | .await _ _ _         => false
  | .load _ _ _          => false
  | .fill _ _ _          => false
  | .writes _            => false
  | .stq _ _ _ _         => false
  | .stab _ _ _ _ _ _    => false
  | .arm _               => false
  | .value _ _           => false

/-- Whether an access writes memory at its spans. -/
def AccKind.isWrite : AccKind → Bool
  | .writes _            => true
  | .stq _ _ _ _         => true
  | .stab _ _ _ _ _ _    => true
  | .amo _ _ _ _ _ _ _ _ => true
  | .arm _               => true
  | .arrive _            => true
  | .await _ _ _         => false
  | .load _ _ _          => false
  | .fill _ _ _          => false
  | .value _ _           => false

/-- Whether every element of one access is performed in ascending order: atomics, and blocks. -/
def AccKind.inOrder : AccKind → Bool
  | .amo _ _ _ _ _ _ _ _ => true
  | .stab _ _ _ _ _ _    => true
  | .writes _            => false
  | .stq _ _ _ _         => false
  | .arm _               => false
  | .arrive _            => false
  | .await _ _ _         => false
  | .load _ _ _          => false
  | .fill _ _ _          => false
  | .value _ _           => false

def Access.done (x : Access) : Bool := x.ans.all fun a => a.isSome

/-- A scalar load that a stop abandoned and that has not been checked again (R82). -/
def Access.abandoned (x : Access) : Bool :=
  match x.kind with
  | .load _ _ _       => x.spans.isEmpty
  | .fill _ _ _       => false
  | .writes _         => false
  | .stq _ _ _ _      => false
  | .stab _ _ _ _ _ _ => false
  | .amo _ _ _ _ _ _ _ _ => false
  | .arm _            => false
  | .arrive _         => false
  | .await _ _ _      => false
  | .value _ _        => false

/-- An earlier access of the same A-side blocks a span: it reaches the same byte (R77, R84), it is an acquire, or the
later one is a release (R95); or it is to be checked again (R82); host-shared writes keep program order (R109). One without an element orders nothing (R25).
DEDUCED, log entries 23 and 69. -/
def Access.blocks (e x : Access) (sp : Nat × Nat) : Bool :=
  e.abandoned || (e.kind.isAcquire && !e.spans.isEmpty) || (x.kind.isRelease && !(e.spans.isEmpty && e.range.isEmpty)) || (e.open_.any fun q => overlaps q sp) ||
    (!e.open_.isEmpty && e.range.any fun r => overlaps r sp) ||
    (x.kind.isWrite && e.kind.isWrite && keyIsHost sp.1 && e.open_.any fun q => keyIsHost q.1)

/-- Bytes of deviations in a block of B (R48). -/
def devBytes (wide : Bool) (b : Nat) : Nat := if wide then 2 * b else b

/-- Spans of 16 bytes in a block of B: the header and the deviations (R48). -/
def blockUnits (wide : Bool) (b : Nat) : Nat := 1 + ceilDiv (devBytes wide b) 16

/-- The spans that performing span j begins to write: of blocks, those of the whole block at hand (R251). -/
def Access.reach (x : Access) (sp : Nat × Nat) : List (Nat × Nat) :=
  match x.kind with
  | .stab wide b _ _ blk _ => (x.spans.drop (blk * blockUnits wide b)).take (blockUnits wide b)
  | .load _ _ _            => [sp]
  | .fill _ _ _            => [sp]
  | .writes _              => [sp]
  | .stq _ _ _ _           => [sp]
  | .amo _ _ _ _ _ _ _ _   => [sp]
  | .arm _                 => [sp]
  | .arrive _              => [sp]
  | .await _ _ _           => [sp]
  | .value _ _             => [sp]

/-- An access without the spans that satisfy a condition. -/
def Access.without (x : Access) (f : Nat → Bool) : Access :=
  { x with ans := x.ans.zipIdx.map fun p => if f p.2 then some (p.1.getD []) else p.1 }

/-- The number that the next access had when span j was issued again after a restartable-partial fault or a stop (R19, R77). -/
def Access.lateAt (x : Access) (j : Nat) : Option Nat := (x.late.filter fun p => p.1 ≤ j).getLast?.map fun p => p.2

/-- The accesses that come before span j of x in program order (R77), from those before it and after it in the list: a span issued again
comes after what its side's handler issued, and before it stand no spans issued again later. -/
def Access.earlier (x : Access) (j : Nat) (es ys : List Access) : List Access :=
  let after (y : Access) (n : Nat) : Access := y.without fun i => match y.lateAt i with
    | none   => false
    | some m => n < m
  let front := es.map fun e => after e ((x.lateAt j).getD x.id)
  match x.lateAt j with
  | none   => front
  | some n => front ++ (ys.filter fun y => y.id < n).map fun y => after y n

/-- Whether span j of access x may be performed after the accesses es before it. -/
def mayPerform (es : List Access) (x : Access) (j : Nat) : Bool :=
  match x.spans[j]? with
  | none    => false
  | some sp => (es.all fun e => (x.reach sp).all fun q => !e.blocks x q) && (x.ans.getD j none).isNone &&
      (if x.kind.inOrder then (x.ans.take j).all fun a => a.isSome
       else if x.kind.isWrite then ((x.spans.zip x.ans).take j).all fun p => p.2.isSome ||
         !(overlaps p.1 sp || (keyIsHost p.1.1 && keyIsHost sp.1))
       else true)

/-- The n-th open span of the pending accesses that satisfies a condition: the accesses that come before it, its access,
and the index of the span in it. -/
def findOpen (ok : Access → Nat × Nat → Bool) : List Access → List Access → Nat → Option (List Access × Access × Nat)
  | _, [], _       => none
  | es, x :: xs, n =>
    let js := (List.range x.spans.length).filter fun j =>
      (x.ans.getD j none).isNone && ok x (x.spans.getD j (0, 0))
    match js[n]? with
    | some j => some (x.earlier j es xs, x, j)
    | none   => findOpen ok (es ++ [x]) xs (n - js.length)

/-- Whether a span leaves the pane of a core for another pane's DRAM (R100). -/
def crossesPane (core : Nat) (sp : Nat × Nat) : Bool := keyIsDram sp.1 && sp.1 / 2 ^ 35 != paneOf core

/-! ## Performing one span -/

def Core.mapPend (c : Core) (id : Nat) (f : Access → Access) : Core :=
  { c with pend := c.pend.map fun x => if x.id == id then f x else x }

def Core.dropPend (c : Core) (id : Nat) : Core := { c with pend := c.pend.filter fun x => x.id != id }

def Access.answer (x : Access) (j : Nat) (bs : List Byte) : Access := { x with ans := x.ans.set j (some bs) }

/-- A loaded scalar, extended (R237). -/
def extend (size : Nat) (sx : Bool) (bs : List Byte) : Word :=
  if sx then BitVec.ofInt 64 (signedOf (8 * size) (leNat bs)) else BitVec.ofNat 64 (leNat bs)

/-- MV.SEEN (R47). -/
def Core.seen (c : Core) : Core := { c with mv := c.mv ||| 1 }
/-- MV.STORED (R47). -/
def Core.stored (c : Core) : Core := { c with mv := c.mv ||| 2 }

/-- Bits that the A-side sets in MV stay when receives of X are unwound (R147). -/
def Core.markMv (c : Core) (m : Nat) : Core :=
  { c with mv := c.mv ||| m
           crecvs := c.crecvs.map fun w => { w with snap := { w.snap with mv := w.snap.mv ||| m } } }

/-- The stored bits of the value zero under a tag (R45, R47). -/
def zeroBits (tag : Nat) : Nat := if tag = tSh8 then 0x77 else 0

/-- A row's bytes in the order of its checks (R241), as the element bytes and the scale byte of each block of 32. -/
def rowBlocks (w : Nat) (bs : List Byte) : List (List Byte × Nat) :=
  (pieces (4 * w + 1) bs).map fun b => (b.take 1 ++ b.drop 2, match b[1]? with
    | none   => 0x80
    | some x => x.toNat)

/-- The elements of a row (R241, R243). -/
def rowElems (src : Fin 32) (scl : Fin 4) (tag : Nat) (bs : List Byte) : List Word × List Bool :=
  let blks := rowBlocks (tagW src.val) bs
  if scl.val = 2 then (blks.map fun b => BitVec.ofNat 64 b.2, blks.map fun b => b.2 != 0x80)
  else
    let val (sc x : Nat) : Word :=
      if sc = 0x80 then BitVec.ofNat 64 (zeroBits tag)
      else if scl.val = 0 then BitVec.ofNat 64 x
      else match valueOf src.val x with
        | .fin g m k => BitVec.ofNat 64 (fRound tF64 0 false (.fin g m (k + signedOf 8 sc))).bits
        | .nan       => 0
        | .inf _     => 0
    (blks.flatMap fun b => (unpackElems (tagW src.val) b.1).map (val b.2),
     blks.flatMap fun b => (unpackElems (tagW src.val) b.1).map fun _ => b.2 != 0x80)

/-- The elements of a plain fill. -/
def plainElems (tag : Nat) (bs : List Byte) : List Word × List Bool :=
  let xs := unpackElems (tagW tag) bs
  (xs.map (BitVec.ofNat 64), xs.map fun _ => true)

/-- The elements of a fill, from the bytes its spans gave in order (R240, R241, R243). -/
def fillElems (tag : Nat) (form : FillForm) (bs : List Byte) : List Word × List Bool :=
  match form with
  | .plain              => plainElems tag bs
  | .row src scl        => rowElems src scl tag bs
  | .upTo none n        => ((plainElems tag bs).1.take n, (plainElems tag bs).2.take n)
  | .upTo (some r) n    => ((rowElems r.1 r.2 tag bs).1.take n, (rowElems r.1 r.2 tag bs).2.take n)

/-- Which elements of a fill have a byte that a lost peer did not give (R107). -/
def lostElems (tag : Nat) (form : FillForm) (lost : List Bool) : List Bool :=
  let any (bs : List Bool) : Bool := bs.any id
  let elems (w : Nat) (bs : List Bool) : List Bool :=
    if w = 4 then bs.flatMap fun b => [b, b] else (pieces (w / 8) bs).map any
  let rows (src : Fin 32) (scl : Fin 4) : List Bool :=
    (pieces (4 * tagW src.val + 1) lost).flatMap fun b =>
      let sc := b.getD 1 false
      if scl.val = 2 then [sc] else (elems (tagW src.val) (b.take 1 ++ b.drop 2)).map fun x => x || sc
  match form with
  | .plain           => elems (tagW tag) lost
  | .row src scl     => rows src scl
  | .upTo none _     => elems (tagW tag) lost
  | .upTo (some r) _ => rows r.1 r.2

/-- The entry of a fill made ready: elements beyond those read are zero and invalid (R179), those that a lost peer did
not give too (R107). -/
def Core.readyEntry (c : Core) (q : Fin 4) (id : Nat) (form : FillForm) (bs : List Byte) (lost : List Bool) : Core :=
  let upd (e : Entry) : Entry :=
    if e.id == id then
      let r0 := fillElems e.tag.val form bs
      let bad := lostElems e.tag.val form lost
      let r := if lost.any fun b => b then
          ((r0.1.zip bad).map fun p => if p.2 then BitVec.ofNat 64 (zeroBits e.tag.val) else p.1,
           (r0.2.zip bad).map fun p => p.1 && !p.2)
        else r0
      let k := min e.n r.1.length
      { e with elems := r.1.take k ++ List.replicate (e.n - k) (BitVec.ofNat 64 (zeroBits e.tag.val)),
               valid := r.2.take k ++ List.replicate (e.n - k) false, ready := true, held := none }
    else e
  { c with lq := c.lq.set q.val { c.lq[q.val] with ents := c.lq[q.val].ents.map upd } }

/-- Whether the entry of a fill is held by a restartable-partial fault. -/
def Core.heldFill (c : Core) (q : Fin 4) (id : Nat) : Bool :=
  c.lq[q.val].ents.any fun e => e.id == id && e.held.isSome

/-- A late value of the A-side written (R81): what a younger pending await would restore has it too. -/
def Core.arriveLate (c : Core) (id : Nat) (d : RegNo) (v : Word) : Core :=
  let keep (y : Access) : Access := if id < y.id then
      { y with snap := y.snap.map fun p => if d = 0 then p else { p with a := p.a.set d.val v, aFull := p.aFull.set d.val true } }
    else y
  let c1 := c.arriveReg .A d v
  { c1 with pend := c1.pend.map keep }

/-- An access all of whose spans are performed leaves the list, with its late value or its entry. -/
def State.settleAccess (s : State) (core id : Nat) : State :=
  let c := s.core core
  match c.pend.find? fun x => x.id == id with
  | none   => s
  | some x =>
    if !x.done then s
    else
      let bs := x.ans.flatMap fun a => match a with
        | none   => []
        | some b => b
      match x.kind with
      | .load d size sx => s.setCore core ((c.dropPend id).arriveLate id d (extend size sx bs))
      | .fill q e form  =>
        if c.heldFill q e then s
        else
          let parts := x.spans.zip x.ans
          let got := parts.flatMap fun p => if p.2 == some [] then List.replicate p.1.2 0 else p.2.getD []
          let lost := parts.flatMap fun p => List.replicate p.1.2 (p.2 == some [])
          s.setCore core ((c.dropPend id).readyEntry q e form got lost)
      | .amo d _ tag _ _ _ _ _ =>
        if d = 0 then s.setCore core (c.dropPend id)
        else s.setCore core ((c.dropPend id).arriveLate id d (amoResult tag.val (leNat bs)))
      | .await d _ _    => s.setCore core ((c.dropPend id).arriveLate id d (BitVec.ofNat 64 (leNat bs)))
      | .writes _       => s.setCore core (c.dropPend id)
      | .stab _ _ _ _ _ _ => s.setCore core (c.dropPend id)
      | .arm _          => s.setCore core (c.dropPend id)
      | .arrive _       => s.setCore core (c.dropPend id)
      | .value d v      => s.setCore core ((c.dropPend id).arriveLate id d v)
      | .stq _ _ _ _    => s

/-- The span marked performed with the bytes it gave, and the access settled when that was its last. -/
def State.answerSpan (s : State) (core id j : Nat) (bs : List Byte) : State :=
  (s.setCore core ((s.core core).mapPend id fun x => x.answer j bs)).settleAccess core id

/-- An atomic performed at a span; a det atomic of a deterministic task on device-virtual memory is logged as an
operation (R131), another one there as a plain write of the value it leaves. DESIGN CHOICE, log entry 83. -/
def State.amoAt (s : State) (core k : Nat) (mode : Nat) (op : AmoOp) (tag : Nat) (b c : Word) (det : Bool) :
    State × List Byte :=
  let size := tagW tag / 8
  let old := s.viewRead core k size
  let new := leBytes size (amoNew mode op tag (leNat old) b.toNat c.toNat)
  match s.detTask core with
  | none   => (s.viewWrite core k new, old)
  | some t =>
    if det && keyIsDram k then
      (s.setTask { t with log := t.log ++ [.amo k size op (Fin.ofNat 32 tag) b] }, old)
    else (s.viewWrite core k new, old)

/-! ## Blocks written by stab (R251) -/

/-- The header of block blk as stab's last step leaves the dword at 0x8: STEP of the pushed header, FLAGS from the
instruction's format and B, the new GEN, zero in the reserved bytes. -/
def stabDword (wide : Bool) (b : Nat) (hi : Word) (gen : Nat) : List Byte :=
  [BitVec.ofNat 8 hi.toNat, BitVec.ofNat 8 ((if wide then 1 else 0) + 2 * (Nat.log2 b - 2))] ++
    leBytes 2 gen ++ [0, 0, 0, 0]

/-- The deviation word i, of 8 bytes, of a block that stab writes: the bytes there are data for, and zeros where the padding lies
(R251). -/
def stabWord (size : Nat) (mine : List Byte) (i : Nat) : List (Nat × List Byte) :=
  let part := (mine.drop (8 * i)).take (min 8 (size - 8 * i))
  let pad := List.replicate (8 * (i + 1) - max size (8 * i)) 0
  [(8 * i, part), (max size (8 * i), pad)]

/-- One step of stab on its current block, whose first unit is span j; a block without a pushed header is passed over.
Steps 0 to 3 are those of R251, step 4 waits after an odd GEN. The deviations are words of 8 bytes (R57): step 1 writes the first
and step 5 + i word i. -/
def State.stabStep (s : State) (core : Nat) (x : Access) (wide : Bool) (b : Nat) (hdrs : List (Word × Word))
    (devs : List Byte) (blk st : Nat) : State :=
  let u := blockUnits wide b
  let j := blk * u
  let hk := (x.spans.getD j (0, 0)).1
  let upd (s : State) (st : Nat) : State :=
    s.setCore core ((s.core core).mapPend x.id fun x => { x with kind := .stab wide b hdrs devs blk st })
  let close (s : State) : State :=
    (s.setCore core ((s.core core).mapPend x.id fun x =>
      { x with kind := .stab wide b hdrs devs (blk + 1) 0
               ans := x.ans.zipIdx.map fun p => if p.2 < j + u then some [] else p.1 })).settleAccess core x.id
  match hdrs[blk]? with
  | none   => close s
  | some h =>
    let gen := leNat (s.viewRead core (hk + 10) 2)
    match st with
    | 0 =>
      if gen % 2 = 1 then upd s 4
      else upd (s.viewWrite core (hk + 10) (leBytes 2 (gen + 1))) 1
    | 2 => upd (s.viewWrite core hk (leBytes 8 h.1.toNat)) 3
    | 3 => close (s.viewWrite core (hk + 8) (stabDword wide b h.2 (gen + 1)))
    | 4 => s
    | _ =>
      let i := if st = 1 then 0 else st - 5
      let size := devBytes wide b
      let mine := (devs.drop (blk * size)).take size
      let unit := (x.spans.getD (j + 1 + i / 2) (0, 0)).1
      let cut (t : State) (p : Nat × List Byte) : State := t.viewWrite core (unit + 8 * (i % 2) + (p.1 - 8 * i)) p.2
      upd ((stabWord size mine i).foldl cut s) (if i + 1 < 2 * (u - 1) then 6 + i else 2)

/-- One span of a pending access performed. -/
def State.performSpan (s : State) (core : Nat) (x : Access) (j : Nat) : State :=
  let sp := x.spans.getD j (0, 0)
  match x.kind with
  | .load _ _ _   => s.answerSpan core x.id j (s.viewRead core sp.1 sp.2)
  | .fill _ _ _   => s.answerSpan core x.id j (s.viewRead core sp.1 sp.2)
  | .writes data  => (s.viewWrite core sp.1 ((data.getD j []).take sp.2)).answerSpan core x.id j []
  | .amo _ op tag bs c _ _ det =>
    let r := s.amoAt core sp.1 x.rm op tag.val (bs.getD j 0) c det
    r.1.answerSpan core x.id j r.2
  | .arm t        => (s.arrWrite sp.1 ((s.arrRead sp.1).arm t)).answerSpan core x.id j []
  | .arrive n     => (s.arriveAt sp.1 n).answerSpan core x.id j []
  | .await _ ag _ =>
    let w := s.arrRead sp.1
    if w.passed ag.toNat then s.answerSpan core x.id j (leBytes 4 w.gen) else s
  | .value _ _    => s.answerSpan core x.id j []
  | .stq _ _ _ _  => s
  | .stab wide b hdrs devs blk st => s.stabStep core x wide b hdrs devs blk st

end Machine
end Sys2Proof
end

