-- ==== Sys2Proof/Machine/Queues.lean ====
section
/-!
DEFINITION. Queue loads and store-queue stores (R239 to R251, R254), strip-mining (R257 to R259), and the events by
which pending accesses are performed and entries are delivered (R79, R81, R84, R88, R98, R100, R246, R250, R251).
-/

namespace Sys2Proof
namespace Machine

/-! ## Issuing an access -/

/-- A new access of the issuing A-side, last in program order, with what its spans gave at issue. -/
def State.issueWith (s : State) (kind : AccKind) (spans : List (Nat × Nat)) (ans : List (Option (List Byte))) (ofX : Bool)
    (range : List (Nat × Nat)) (addr : Word) (snap : Option ASnap := none) (list : Option Word := none) : State :=
  s.setMe { s.me with
    nextId := s.me.nextId + 1
    pend := s.me.pend ++ [{ id := s.me.nextId, kind := kind, spans := spans, ans := ans, sent := [], ofX := ofX, range := range,
                            super := s.mySide.super, asid := s.me.asid.toNat, addr := addr, snap := snap, list := list, late := [],
                            rm := bits s.me.fctl 1 0 }] }

/-- A new access of which nothing is performed yet. -/
def State.issue (s : State) (kind : AccKind) (spans : List (Nat × Nat)) (range : List (Nat × Nat) := [])
    (addr : Word := 0) : State :=
  s.issueWith kind spans (spans.map fun _ => none) false range addr

/-- An access that reads bytes at issue waits while an earlier one of its A-side must be performed first (R77, R95). -/
def State.quiet (s : State) (spans : List (Nat × Nat)) : R Unit :=
  let rd : Access := { id := 0, kind := .load 0 8 false, spans := [], ans := [], sent := [], ofX := false, range := [],
                       super := false, asid := 0, addr := 0, snap := none, list := none, late := [], rm := 0 }
  orWait (s.me.pend.all fun e => spans.all fun sp => !e.blocks rd sp)

/-! ## What a pending await may take back (R123, R177) -/

/-- A field of a job card. -/
def cardFld (bs : List Byte) (o n : Nat) : Nat := leNat ((bs.drop o).take n)

def Card.fld (k : Card) (o n : Nat) : Nat := cardFld k.bytes o n

def Card.aw (k : Card) : Nat := k.fld 0x30 8

def Card.how (k : Card) (acc : Acc) : How :=
  { core := k.core, super := k.super, asid := k.asid, acc := acc, scalar := false, size := 1 }

/-- The key of the card's arrival word, checked when the card was issued (R328). -/
def State.awKey (s : State) (k : Card) : Option Nat :=
  if k.aw == 0 then none
  else match s.place { k.how .write with scalar := true, size := 16 } (BitVec.ofNat 64 k.aw) with
    | .ok p    => some (s.keyOf p)
    | .error _ => none

/-- A wait for an arrival word. -/
def AccKind.isAwait : AccKind → Bool
  | .await _ _ _      => true
  | .load _ _ _       => false
  | .fill _ _ _       => false
  | .writes _         => false
  | .stq _ _ _ _      => false
  | .stab _ _ _ _ _ _ => false
  | .amo _ _ _ _ _ _ _ _ => false
  | .arm _            => false
  | .arrive _         => false
  | .value _ _        => false

/-- The failure records kept against the context of a core (R123). -/
def State.failRecs (s : State) (core : Nat) : List FailRec :=
  match (s.core core).task with
  | none    => []
  | some id => match s.task id with
    | none   => []
    | some t => t.fails

/-- Whether a pending await of a core may yet raise a failure record, which takes back what the A-side has issued after it (R123, R177):
a card of its task that is older than operation id may fail, or has failed. DEDUCED, log entry 33. -/
def State.mayRetract (s : State) (core id : Nat) : Bool :=
  let c := s.core core
  !causeInh c.av.cause && c.pend.any fun x => x.kind.isAwait && x.id < id &&
    x.spans.any fun sp => ((s.failRecs core).any fun r => r.key == some sp.1) ||
      (s.pane (paneOf core)).cards.any fun k => k.task == c.task && (k.core != core || k.seq < id) && s.awKey k == some sp.1

/-- What cannot be taken back waits until no earlier await of its A-side may still raise a failure record (R123, R177). -/
def State.steady (s : State) : R Unit := orWait (!s.mayRetract s.cur.core s.me.nextId)

/-- VLMAX for a width (R141). -/
def Core.vlMaxW (c : Core) (w : Nat) : Nat := c.vlmax * 64 / w

/-- The codebook versions that a queue entry carries: the current version of each bank (R139, R299). -/
def Core.cbVers (c : Core) : BitVec 32 :=
  BitVec.ofNat 32 ((c.banks.toList.zipIdx).foldl (fun n p => n + p.1.cur.ver.val * 2 ^ (4 * p.2)) 0)

/-- One element of a vector access that is checked by itself: its element index, its address and its bytes. -/
structure Piece where
  idx  : Nat
  addr : Word
  size : Nat
  deriving DecidableEq, Repr

/-- The pieces of a unit-stride access of n elements of width w at ea (R239); i4 and cx4 elements go in pairs (R35). -/
def unitPieces (ea : Word) (n w : Nat) : List Piece :=
  if w = 4 then (List.range ((n + 1) / 2)).map fun j => { idx := 2 * j, addr := ea + BitVec.ofNat 64 j, size := 1 }
  else (List.range n).map fun e => { idx := e, addr := ea + BitVec.ofNat 64 (e * (w / 8)), size := w / 8 }

/-- The pieces of a block-scaled row (R241): the scale byte of block j is checked with element 32j. -/
def rowPieces (ea : Word) (n w : Nat) : List Piece :=
  let per := 4 * w
  (List.range (n / 32)).flatMap fun j =>
    let piece (i : Nat) : Piece := { idx := 32 * j + i * 8 / w, addr := ea + BitVec.ofNat 64 (j * per + i), size := 1 }
    piece 0 :: { idx := 32 * j, addr := ea + BitVec.ofNat 64 (n * w / 8 + j), size := 1 } ::
      (List.range (per - 1)).map fun i => piece (i + 1)

/-- The pieces checked in ascending order up to the first that fails (R19). -/
def State.pieces (s : State) (acc : Acc) : List Piece → List Place × Option (Nat × Stop)
  | []      => ([], none)
  | p :: ps => match s.place (s.how acc false p.size) p.addr with
    | .error e => ([], some (p.idx, e))
    | .ok q    => match s.pieces acc ps with
      | (qs, e) => (q :: qs, e)

/-- The spans of places. -/
def State.spansAt (s : State) (ps : List Place) (ds : List Piece) : List (Nat × Nat) :=
  (ps.zip ds).map fun p => (s.keyOf p.1, p.2.size)

/-- Translations that an access used are kept (R17). -/
def State.warmAll (s : State) (ds : List Piece) : State := ds.foldl (fun s p => s.warmAddr p.addr) s

/-- The i32 indices at an own-scratchpad address, read at issue (R240). -/
def State.indices (s : State) (b : Word) (n : Nat) : R (List Int) := do
  let ds := (List.range n).map fun e => ({ idx := e, addr := b + BitVec.ofNat 64 (4 * e), size := 4 } : Piece)
  orTrap (n == 0 || canonical b.toNat) (trapNonCan b)
  orTrap (n == 0 || b.toNat % 4 == 0) (trapA cALIGN b)
  orTrap (n == 0 || b.toNat / 2 ^ 56 == 1) (trapA cPROT b)
  match s.pieces .read ds with
  | (_, some (_, e)) => .error e
  | (ps, none) =>
    s.quiet (s.spansAt ps ds)
    pure (ps.map fun p => signedOf 32 (leNat (s.viewRead s.cur.core (s.keyOf p) 4)))

/-! ## Queue loads (R240) -/

/-- The entry at hand of a re-executed queue load (R19, R245): the access that its restartable-partial fault held, or the stop, which holds
a handler's after that of the trap (R21). -/
def State.heldAccess (s : State) : Option Access :=
  if s.atHeld then
    (if s.me.heldInh.isSome then s.me.pend.reverse else s.me.pend).find? fun x => match x.kind with
      | .fill q id _     => s.me.heldFill q id
      | .stq _ _ _ cut   => cut
      | .load _ _ _      => false
      | .writes _        => false
      | .stab _ _ _ _ _ _ => false
      | .amo _ _ _ _ _ _ _ _ => false
      | .arm _           => false
      | .arrive _        => false
      | .await _ _ _     => false
      | .value _ _       => false
  else none

/-- A restartable-partial trap at element e: VSTART is e and the access is held at this instruction (R19, R178). -/
def State.trapHeld (s : State) (e : Nat) (k : Trap) : State :=
  let s1 := s.setMySide { s.mySide with vstart := BitVec.ofNat 32 e }
  ((s1.setMe { s1.me with heldEpc := some s1.mySide.pc }).takeTrap { k with rp := true })

/-- The held mark of a queue entry. -/
def Core.holdEntry (c : Core) (q : Fin 4) (id : Nat) (h : Option Nat) : Core :=
  { c with lq := c.lq.set q.val { c.lq[q.val] with
      ents := c.lq[q.val].ents.map fun e => if e.id == id then { e with held := h } else e } }

/-- A vector access retires; one that was executed again holds nothing any more, and after one of a handler VSTART is again what the trap
left (R21). -/
def State.retireVec (s : State) (len : Nat) : State :=
  (if s.atHeld then (match s.me.heldInh with
    | some (_, v) => s.setMe { s.me with heldInh := none, av := { s.me.av with vstart := v } }
    | none        => s.setMe { s.me with heldEpc := none, av := { s.me.av with vstart := 0 } })
   else if s.mySide.resumes then s.setMe { s.me with heldEpc := none } else s).retireV len

/-- The bytes of places that are read at issue: an aperture's expanded bytes (R29), of the memory that the core sees (R130). -/
def State.apertureBytes (s : State) : List (Place × Piece) → List (Option (List Byte)) × Option (Nat × Stop)
  | []      => ([], none)
  | x :: xs => match x.1 with
    | .aper _ _ => (match (s.viewAs s.cur.core).readPlace x.1 x.2.size with
      | .error e => ([], some (x.2.idx, e))
      | .ok bs   => match s.apertureBytes xs with
        | (r, e) => (some bs :: r, e))
    | .mem _    => (match s.apertureBytes xs with
      | (r, e) => (none :: r, e))
    | .ctl _    => (match s.apertureBytes xs with
      | (r, e) => (none :: r, e))
    | .peer _ _ => (match s.apertureBytes xs with
      | (r, e) => (none :: r, e))

/-- The element groups that an entry of n elements spans (R85); headers are elements of 16 bytes (R250). -/
def EntryKind.groups (k : EntryKind) (n tag : Nat) : Nat :=
  match k with
  | .headers    => ceilDiv (16 * n) 512
  | .data       => Machine.groups n (tagW tag)
  | .deviations => Machine.groups n (tagW tag)
  | .spill      => Machine.groups n (tagW tag)

/-- A slot of a load queue claimed and stamped (R80, R85, R240). -/
def State.claimFill (s : State) (q : Fin 4) (n : Nat) (tag : Fin 32) (kind : EntryKind) : State :=
  let c := s.me
  let e : Entry := { id := c.nextId, n := n, tag := tag, base := c.lq[q.val].ctr, vers := c.cbVers, kind := kind,
                     elems := [], valid := [], ready := n == 0, delivered := false, held := none }
  s.setMe { c with nextId := c.nextId + 1
                   lq := c.lq.set q.val { ents := c.lq[q.val].ents ++ [e]
                                          ctr := c.lq[q.val].ctr + BitVec.ofNat 32 (groups n (tagW tag.val)) } }

/-- Whether n more slots of a load queue are free (R80). -/
def Core.lqRoom (c : Core) (q : Fin 4) (n : Nat) : Bool := c.lq[q.val].ents.length + n ≤ 8

/-- A span that no access is made for. -/
def absentSpan (size : Nat) : Nat × Nat := (0, size)

/-- The spans of a held or new access from piece k on: those below k are kept, and a piece below k that none was made for stands as
absent, so that piece i is span i (R179, R240, R245). The others of a held access come after what its side has issued meanwhile (R77). -/
def Core.placeSpans (c : Core) (id k : Nat) (ds : List Piece) (sp : List (Nat × Nat)) (an : List (Option (List Byte))) : Core :=
  c.mapPend id fun x =>
    let gap := ((ds.take k).drop x.spans.length).map fun p => absentSpan p.size
    { x with late := if c.pend.getLast?.all fun y => y.id == id then x.late else x.late ++ [(k, c.nextId)]
             spans := x.spans.take k ++ gap ++ sp, ans := x.ans.take k ++ (gap.map fun _ => some []) ++ an
             sent := x.sent.filter fun p => p.1 < k }

/-- The entry that an access fills, if it is a fill. -/
def Access.entryId (x : Access) : Nat :=
  match x.kind with
  | .fill _ e _    => e
  | .load _ _ _    => 0
  | .writes _      => 0
  | .stq _ _ _ _   => 0
  | .stab _ _ _ _ _ _ => 0
  | .amo _ _ _ _ _ _ _ _ => 0
  | .arm _         => 0
  | .arrive _      => 0
  | .await _ _ _   => 0
  | .value _ _     => 0

/-- The claim of a queue load undone: its entry and the groups it was stamped with. -/
def Core.unclaim (c : Core) (q : Fin 4) (id : Nat) : Core :=
  let old := c.lq[q.val]
  let gone := old.ents.filter fun e => e.id == id
  let new : Queue := { ents := old.ents.filter fun e => e.id != id
                       ctr := gone.foldl (fun n e => n - BitVec.ofNat 32 (e.kind.groups e.n e.tag.val)) old.ctr }
  { c with lq := c.lq.set q.val new }

/-- How many pieces come before the first that is performed from element v on (R194): a pair of 4-bit elements is performed for either. -/
def skipBelow (v : Nat) (ds : List Piece) (w : Nat) : Nat :=
  (ds.takeWhile fun p => p.idx < (if w = 4 then v / 2 * 2 else v)).length

/-- The fill of a queue load goes on from piece k (R19, R240). x is its access, when it has one: held at this instruction by a
restartable-partial fault when mine is set, else one whose lower elements a peer has answered. A stream fault is precise (R30): the
instruction leaves nothing. -/
def State.fillOn (s : State) (q : Fin 4) (n : Nat) (eTag : Fin 32) (form : FillForm) (all : List Piece) (len k : Nat)
    (x : Option Access) (mine : Bool) (list : Option Word) : R State := do
  let ds := all.drop k
  match s.pieces .read ds with
  | (_, some (_, .wait))       => waits
  | (_, some (_, .page fn pg w)) => .error (.page fn pg w)
  | (ps, fail) =>
    let pds := ps.zip ds
    orWait (!(pds.any fun p => match p.1 with
      | .aper _ _ => true
      | .mem _    => false
      | .ctl _    => false
      | .peer _ _ => false) || s.me.pend.all fun e => !e.kind.isAcquire)
    let (an, fail2) := s.apertureBytes pds
    match fail2, x with
    | some (_, .trap t), none   => raise t
    | some (_, .trap t), some x =>
      pure ((s.setMe (if mine then s.me else (s.me.dropPend x.id).unclaim q x.entryId)).takeTrap t)
    | some (_, e), _            => .error e
    | none, _ =>
      let sp := s.spansAt ps ds
      let s1 := s.warmAll (ds.take ps.length)
      let s2 := match x with
        | some x => s1.setMe (s1.me.placeSpans x.id k all sp an)
        | none   =>
          let s2 := s1.claimFill q n eTag .data
          if all.isEmpty then s2
          else
            let s3 := s2.issueWith (.fill q s1.me.nextId form) [] [] false [] 0 none list
            s3.setMe (s3.me.placeSpans (s1.me.nextId + 1) k all sp an)
      let id := match x with
        | some x => x.id
        | none   => s1.me.nextId + 1
      let eid := match x with
        | some x => x.entryId
        | none   => s1.me.nextId
      if sp.any fun p => keyIsPeer p.1 then
        let s3 := s2.setMe (s2.me.holdEntry q eid (some 0))
        pure (s3.setMe { s3.me with peerWait := some { id := id, fault := none, units := all.map fun d => (d.idx, d.addr) } })
      else match fail with
        | some (e, .trap t)        => pure ((s2.setMe (s2.me.holdEntry q eid (some e))).trapHeld e t)
        | some (_, .wait)          => waits
        | some (_, .page fn pg w)  => .error (.page fn pg w)
        | none =>
          if all.isEmpty then pure (s2.retireVec len)
          else pure (((s2.setMe (s2.me.holdEntry q eid none)).retireVec len).settleAccess s2.cur.core id)

/-- The common part of the queue loads after the checks of class P (R240): the slot, then the pieces from VSTART on; a
peer's elements are waited for (R12), and what is above them is attempted once they are there. n is the entry's length, eTag its tag,
w the width of an element in memory. -/
def State.fillFrom (s : State) (q : Fin 4) (n : Nat) (eTag : Fin 32) (form : FillForm) (ds : List Piece) (w len : Nat)
    (list : Option Word := none) : R State := do
  match s.me.peerWait with
  | some p =>
    match s.me.pend.find? fun x => x.id == p.id with
    | none   => pure ((s.setMe { s.me with peerWait := none }).retireVec len)
    | some x =>
      orWait (!((x.spans.zip x.ans).any fun a => keyIsPeer a.1.1 && a.2.isNone))
      let s1 := s.setMe { s.me with peerWait := none }
      match p.fault with
      | some (j, b) =>
        let u := p.units.getD j (0, 0)
        let s2 := s1.setMe ((s1.me.mapPend x.id fun x => { x with spans := x.spans.take j, ans := x.ans.take j }).holdEntry
          q x.entryId (some u.1))
        pure (s2.trapHeld u.1 (trapA (if b then cPROT else cXLATE) u.2 1))
      | none        => s1.fillOn q n eTag form ds len x.spans.length (some x) s.atHeld list
  | none =>
    let held := s.heldAccess
    orWait (held.isSome || s.me.lqRoom q 1)
    s.fillOn q n eTag form ds len (skipBelow s.resumeAt ds w) held held.isSome list

/-- The tag of a queue load's tag code (R239). -/
def tcTag (tc : Nat) : Fin 32 :=
  match tc with
  | 0 => 0x05
  | 1 => 0x04
  | 2 => 0x03
  | 3 => 0x02
  | 4 => 0x0D
  | 5 => 0x0C
  | 6 => 0x0A
  | _ => 0x0B

/-- VL of the issuing side. -/
def State.vl (s : State) : Nat := s.mySide.vl.toNat

/-- A length above VLMAX raises VL_RANGE; AUX is the length (R240). -/
def State.lengthOk (s : State) (n w : Nat) : R Unit := orTrap (n ≤ s.me.vlMaxW w) (trapE cVL_RANGE n)

def isRowTag (t : Nat) : Bool := t == tI4 || t == tSh8

/-- The checks of a row's shape (R241); one without an element raises nothing (R25). -/
def rowShape (ea : Word) (n : Nat) : R Unit := orTrap (n == 0 || (n % 32 == 0 && ea.toNat % 8 == 0)) (trapA cALIGN ea)

/-- ldq (R239 to R243). -/
def execLdq (f : LdqF) (s : State) : Host.Outcome State Fault Refusal :=
  s.finish do
    let (off, tg, scl) : Option (BitVec 32) × Fin 32 × Fin 4 := match f.ext with
      | none   => (none, tcTag f.tc.val, 0)
      | some x => (some x.off, if x.tg = 0 then tcTag f.tc.val else x.tg, x.scl)
    orTrap (scl = 0 || (scl != 3 && isRowTag tg.val)) (trapE cILLEGAL)
    s.onSide .A
    orTrap (tagOk tg.val) (trapE cILLEGAL_TAG)
    let ea ← s.eaOff f.a off
    let w := tagW tg.val
    let n := s.vl
    s.lengthOk n w
    let len := lenOf f.ext
    if isRowTag tg.val then
      orTrap (scl != 1 || n ≤ s.me.vlmax) (trapE cVL_RANGE n)
      rowShape ea n
      let eTag : Fin 32 := if scl = 1 then 0x0D else if scl = 2 then 0x02 else tg
      let en := if scl = 2 then n / 32 else n
      s.fillFrom f.q en eTag (.row tg scl) (rowPieces ea n w) w len
    else s.fillFrom f.q n tg .plain (unitPieces ea n w) w len

/-- The checks that ldqs, ldqx, stqs and stqx share (R240): the tag is none that is 4 bits wide or block-scaled. -/
def elemTag (tg : Fin 32) : R Unit := orTrap (tagOk tg.val && tagW tg.val != 4 && !isRowTag tg.val) (trapE cILLEGAL_TAG)

/-- The tag of ldqs and ldqx. -/
def LdqsF_tag (f : LdqsF) : Fin 32 :=
  match f.ext with
  | none    => tcTag f.tc.val
  | some tg => if tg = 0 then tcTag f.tc.val else tg

/-- Pieces at a byte stride (R239). -/
def stridePieces (a b : Word) (n w : Nat) : List Piece :=
  (List.range n).map fun e => { idx := e, addr := a + BitVec.ofNat 64 e * b, size := w / 8 }

/-- Pieces at indices (R239). -/
def indexPieces (a : Word) (idx : List Int) (w : Nat) : List Piece :=
  idx.zipIdx.map fun p => { idx := p.2, addr := a + BitVec.ofInt 64 (p.1 * ((w / 8 : Nat) : Int)), size := w / 8 }

/-- ldqs (R239, R240). -/
def execLdqs (f : LdqsF) (s : State) : Host.Outcome State Fault Refusal :=
  s.finish do
    s.onSide .A
    let tg := LdqsF_tag f
    elemTag tg
    let a ← s.srcR f.a
    let b ← s.srcR f.b
    s.lengthOk s.vl (tagW tg.val)
    s.fillFrom f.q s.vl tg .plain (stridePieces a b s.vl (tagW tg.val)) (tagW tg.val) (lenOf f.ext)

/-- ldqx (R239, R240). -/
def execLdqx (f : LdqsF) (s : State) : Host.Outcome State Fault Refusal :=
  s.finish do
    s.onSide .A
    let tg := LdqsF_tag f
    elemTag tg
    let a ← s.srcR f.a
    let b ← s.srcR f.b
    s.lengthOk s.vl (tagW tg.val)
    let idx ← s.indices b s.vl
    s.fillFrom f.q s.vl tg .plain (indexPieces a idx (tagW tg.val)) (tagW tg.val) (lenOf f.ext) (some a)

/-! ## Store-queue stores (R244 to R248) -/

/-- The common part of the store-queue stores (R245): the claim, then the pieces from VSTART on. w is the width of an element in
memory, and range what a scatter counts as reaching (R84). -/
def State.claimStore (s : State) (q : Fin 2) (tag : Fin 32) (acc : Acc) (form : StqForm) (range : List (Nat × Nat))
    (ds : List Piece) (w len : Nat) (list : Option Word := none) : R State := do
  let held := s.heldAccess
  let k := skipBelow s.resumeAt ds w
  match s.pieces acc (ds.drop k) with
  | (_, some (_, .wait))       => waits
  | (_, some (_, .page fn pg w)) => .error (.page fn pg w)
  | (ps, fail) =>
    let sp := s.spansAt ps (ds.drop k)
    s.logRoom s.cur.core sp (acc == .amo)
    let s1 := s.warmAll ((ds.drop k).take ps.length)
    let id := match held with
      | some x => x.id
      | none   => s1.me.nextId
    let s2 := match held with
      | some _ => s1
      | none   => s1.issueWith (.stq q tag form false) [] [] false [] 0 none list
    let grow (x : Access) : Access := { x with kind := .stq q tag form fail.isSome, range := x.range ++ range }
    let s3 := s2.setMe ((s2.me.placeSpans id k ds sp (sp.map fun _ => none)).mapPend id grow)
    match fail with
    | some (e, .trap k)     => pure (s3.trapHeld e k)
    | some (_, .wait)       => waits
    | some (_, .page fn pg w) => .error (.page fn pg w)
    | none                  => pure (s3.retireVec len)

/-- The bytes of memory in a range of addresses (R84), region by region of 64 KiB, the least page of memory, whatever may be done with
them; a region that is not mapped has none. -/
def State.rangeSpans (s : State) (lo size : Nat) : List (Nat × Nat) :=
  let h := { s.how .read false 1 with super := true }
  (List.range ((lo % 2 ^ 16 + size + 2 ^ 16 - 1) / 2 ^ 16)).filterMap fun i =>
    let a := max lo (lo / 2 ^ 16 * 2 ^ 16 + i * 2 ^ 16)
    let b := min (lo + size) (lo / 2 ^ 16 * 2 ^ 16 + (i + 1) * 2 ^ 16)
    if a / 2 ^ 56 == 4 then some (hostKey (a % 2 ^ 56), b - a)
    else match s.place h (BitVec.ofNat 64 a) with
    | .ok p    => some (s.keyOf p, b - a)
    | .error _ => none

/-- What a scatter can reach (R84): the address range that its index vector spans. -/
def scatterRange (s : State) (ds : List Piece) : List (Nat × Nat) :=
  match ds with
  | []      => []
  | x :: xs =>
    let lo := xs.foldl (fun m p => min m p.addr.toNat) x.addr.toNat
    let hi := xs.foldl (fun m p => max m (p.addr.toNat + p.size)) (x.addr.toNat + x.size)
    s.rangeSpans lo (hi - lo)

/-- The tag of a store-queue store: i64 when none is named (R244). -/
def stqTag (tg : Fin 32) : Fin 32 := if tg = 0 then 0x05 else tg

/-- stq (R244 to R246). -/
def execStq (f : StqF) (s : State) : Host.Outcome State Fault Refusal :=
  s.finish do
    s.onSide .A
    let (off, tg) : Option (BitVec 32) × Fin 32 := match f.ext with
      | none         => (none, 0x05)
      | some (v, tg) => (some v, stqTag tg)
    orTrap (tagOk tg.val) (trapE cILLEGAL_TAG)
    let ea ← s.eaOff f.a off
    let w := tagW tg.val
    s.lengthOk s.vl w
    if isRowTag tg.val then
      rowShape ea s.vl
      s.claimStore f.q tg .write .row [] (rowPieces ea s.vl w) w (lenOf f.ext)
    else s.claimStore f.q tg .write .plain [] (unitPieces ea s.vl w) w (lenOf f.ext)

/-- stqs (R244, R245). -/
def execStqs (f : StqsF) (s : State) : Host.Outcome State Fault Refusal :=
  s.finish do
    s.onSide .A
    let tg := stqTag (f.ext.getD 0)
    elemTag tg
    let a ← s.srcR f.a
    let b ← s.srcR f.b
    s.lengthOk s.vl (tagW tg.val)
    s.claimStore f.q tg .write .plain [] (stridePieces a b s.vl (tagW tg.val)) (tagW tg.val) (lenOf f.ext)

/-- stqx (R244, R245). -/
def execStqx (f : StqsF) (s : State) : Host.Outcome State Fault Refusal :=
  s.finish do
    s.onSide .A
    let tg := stqTag (f.ext.getD 0)
    elemTag tg
    let a ← s.srcR f.a
    let b ← s.srcR f.b
    s.lengthOk s.vl (tagW tg.val)
    let idx ← s.indices b s.vl
    let ds := indexPieces a idx (tagW tg.val)
    s.claimStore f.q tg .write .plain (scatterRange s ds) ds (tagW tg.val) (lenOf f.ext) (some a)

/-- stqp (R248): slices of 128 bytes, each written as its words of 8 (R57). The index that VSTART takes is a slice's. DEDUCED, log
entry 70. -/
def execStqp (f : StqpF) (s : State) : Host.Outcome State Fault Refusal :=
  s.finish do
    s.onSide .A
    let ea ← s.srcR f.a
    let b ← s.srcR f.b
    orTrap (1 ≤ b.toNat && b.toNat ≤ 16) (trapE cILLEGAL)
    let n := s.vl
    orTrap (n % 1024 == 0) (trapE cVL_RANGE n)
    orTrap (n == 0 || ea.toNat % 128 == 0) (trapA cALIGN ea)
    let ds := (List.range (n / 1024 * b.toNat * 16)).map fun j =>
      ({ idx := j / 16, addr := ea + BitVec.ofNat 64 (8 * j), size := 8 } : Piece)
    s.claimStore f.q 0x02 .write (.planes b.toNat n) [] ds 8 4

/-- The byte string of an entry (R246) and whether an invalid element was met: raw elements for a row, otherwise
invalid elements as their zero value. -/
def entryBytes (e : Entry) (raw : Bool) : List Byte :=
  let xs := (e.elems.zip e.valid).map fun p =>
    if p.2 || raw then p.1.toNat % 2 ^ tagW e.tag.val else zeroBits e.tag.val
  match e.kind with
  | .headers    => e.elems.flatMap fun x => leBytes 8 x.toNat
  | .spill      => packElems (tagW e.tag.val) xs
  | .data       => packElems (tagW e.tag.val) xs
  | .deviations => packElems (tagW e.tag.val) xs

def Entry.anyInvalid (e : Entry) : Bool := e.valid.any fun v => !v

/-- A byte string cut along spans; the last parts may be short or empty (R246). -/
def alongSpans : List (Nat × Nat) → List Byte → List (List Byte)
  | [], _        => []
  | p :: ps, bs  => bs.take p.2 :: alongSpans ps (bs.drop p.2)

/-- The data of a row along its spans (R241, R246): scale byte 0x80 for a block with an invalid element, else 0. -/
def rowData (e : Entry) (w n : Nat) : List (List Byte) :=
  let bs := entryBytes e true
  (List.range (n / 32)).flatMap fun j =>
    let blk := (bs.drop (4 * w * j)).take (4 * w)
    let bad := ((e.valid.drop (32 * j)).take 32).any fun v => !v
    let sc : List Byte := if blk.isEmpty then [] else [if bad then 0x80 else 0]
    blk.take 1 :: sc :: (List.range (4 * w - 1)).map fun i => (blk.drop (i + 1)).take 1

/-- The slice of K-step k and plane q of an entry's elements (R248, R51). -/
def planeSlice (e : Entry) (c k q : Nat) : List Byte :=
  let t := e.tag.val
  let bitOf (i : Nat) : Bool :=
    if e.valid.getD i false && (isInt t || t == tSh8) then
      match valueOf t (e.elems.getD i 0).toNat with
      | .fin g m x =>
        let v : Int := (if g then -1 else 1) * ((m * 2 ^ x.toNat : Nat) : Int)
        bit (wrapTo 64 v) q
      | .nan       => false
      | .inf _     => false
    else false
  (List.range 64).flatMap fun r =>
    leBytes 2 ((List.range 16).foldl (fun n j => n + if bitOf (r * 16 * c + 16 * k + j) then 2 ^ j else 0) 0)

/-- A claimed store takes its data (R246, R248, R251, R254). The headers of a stab are 16 bytes each of the entry's byte string, whatever its
kind (R288). -/
def takeData (x : Access) (tag : Fin 32) (form : StqForm) (e : Entry) (dev : Option Entry) : Access :=
  match form with
  | .plain      => { x with kind := .writes (alongSpans x.spans (entryBytes e false)), ofX := true }
  | .row        => { x with kind := .writes (rowData e (tagW tag.val) (x.spans.length / (4 * tagW tag.val + 1) * 32 + 32)), ofX := true }
  | .planes p n =>
    { x with kind := .writes ((List.range x.spans.length).map fun j =>
        ((planeSlice e (n / 1024) (j / 16 / p) (j / 16 % p)).drop (8 * (j % 16))).take 8), ofX := true }
  | .blocks wide b =>
    let bs := entryBytes e false
    let dword (i : Nat) : Word := BitVec.ofNat 64 (leNat ((bs.drop (8 * i)).take 8))
    let hs := (List.range (bs.length / 16)).map fun i => (dword (2 * i), dword (2 * i + 1))
    let ds := match dev with
      | none   => []
      | some d => entryBytes d false
    { x with kind := .stab wide b hs ds 0 0, ofX := true }
  | .app _ _    => x
  | .amo op at_ acq rel =>
    let bs := entryBytes e false
    let size := tagW at_.val / 8
    let k := bs.length / size
    let ops := (List.range x.spans.length).map fun j => BitVec.ofNat 64 (leNat ((bs.drop (j * size)).take size))
    { x with kind := .amo 0 op at_ ops 0 acq rel false, ofX := true
             spans := x.spans.take k, ans := x.ans.take k }

/-- The elements of a held store that passed their checks written by an access of their own, before the store, which keeps its entry
for the others (R19, R108, R245). -/
def Core.writeBelow (c : Core) (x : Access) (tag : Fin 32) (form : StqForm) (e : Entry) : Core :=
  let part : Access := { takeData x tag form e none with id := c.nextId }
  let rest : Access := { x with ans := x.ans.map fun _ => some [] }
  let c1 := { c with nextId := c.nextId + 1, pend := c.pend.flatMap fun y => if y.id == x.id then [part, rest] else [y] }
  if e.anyInvalid then c1.markMv 2 else c1

/-- The first k entries of a store queue cannot be unwound: X pushed them before its oldest pending receive (R147). -/
def Core.pushStands (c : Core) (q : Fin 2) (k : Nat) : Bool :=
  match c.crecvs with
  | []     => true
  | w :: _ => (c.sq[q.val].ents.take k).all fun e => e.id < w.snap.nextId || w.snap.kept.contains e.id

/-- The checks of a synchronisation word of n bytes (R68, R90): canonical, aligned, scratchpad, permitted. -/
def State.syncPlace (s : State) (acc : Acc) (addr : Word) (n : Nat) : R Nat := do
  orTrap (canonical addr.toNat) (trapNonCan addr)
  orTrap (addr.toNat % n == 0) (trapA cALIGN addr)
  orTrap (addr.toNat / 2 ^ 56 == 1 || addr.toNat / 2 ^ 56 == 2) (trapA cPROT addr)
  let p ← s.place (s.how acc true n) addr
  pure (s.keyOf p)

def isPow2 (n : Nat) : Bool := n != 0 && 2 ^ Nat.log2 n == n

/-- The A-side of the issuing core as it stands before an instruction (R177). -/
def State.aSnap (s : State) : ASnap :=
  { a := s.me.a, aFull := s.me.aFull, side := s.me.av, spsz := s.me.spsz, mcfg := s.me.mcfg }

/-- How many bytes from the base of a ring on may be written, of those that elements of 1, 2, 4 or 8 bytes would take (R63, R90). -/
def State.ringRoom (s : State) (base : Word) (cap : Nat) : Nat :=
  let h := s.how .write true 1
  let good (b : Nat) : Bool :=
    (base.toNat / 2 ^ 56 == 1 || base.toNat / 2 ^ 56 == 2) && base.toNat % 2 ^ 21 + cap * b ≤ 2 ^ 21 && (s.place h base).isOk &&
      (s.place h (if s.mySide.super then base else base + BitVec.ofNat 64 (cap * b - 1))).isOk
  cap * (([1, 2, 4, 8].filter good).foldl max 0)

/-- The bytes of a ring from a key on, round the end of its scratchpad. -/
def ringSpans (first size : Nat) : List (Nat × Nat) :=
  let room := 2 ^ 21 - first % 2 ^ 21
  if size ≤ room then [(first, size)] else [(first, room), (first / 2 ^ 21 * 2 ^ 21, size - room)]

/-- Slot j of a ring at a key for elements of w bits (R90). -/
def ringSlot (first cap w j : Nat) : Nat × Nat :=
  (first / 2 ^ 21 * 2 ^ 21 + (first % 2 ^ 21 + j % cap * (w / 8)) % 2 ^ 21, w / 8)

/-- stq.app (R84, R89, R90): it claims the oldest unclaimed entry and issues; the checks that need the entry's tag follow once X has pushed
it. What it can write is the whole ring. DEDUCED, log entry 71. -/
def execStqApp (q : Fin 2) (a : SrcR) (s : State) : Host.Outcome State Fault Refusal :=
  s.finish do
    s.onSide .A
    let aq ← s.srcR a
    orTrap (canonical aq.toNat) (trapNonCan aq)
    orTrap (aq.toNat / 2 ^ 56 == 1 || aq.toNat / 2 ^ 56 == 2) (trapA cPROT aq)
    let dk ← s.syncPlace .write aq 32
    s.quiet [(dk, 16)]
    let base := BitVec.ofNat 64 (leNat (Memory.readN s.mem dk 8))
    let cap := leNat (Memory.readN s.mem (dk + 8) 4)
    orTrap (isPow2 cap && 64 ≤ cap && cap ≤ 2 ^ 21 && base.toNat % 8 == 0) (trapA cALIGN aq)
    let room := s.ringRoom base cap
    let first := match s.place (s.how .write true 1) base with
      | .ok p    => s.keyOf p
      | .error _ => 0
    let s1 := s.issueWith (.stq q 0 (.app cap room) false) [(dk + 12, 4)] [none] false (ringSpans first room ++ [(dk + 16, 16)]) base
      (some s.aSnap)
    pure ((s1.setMe { s1.me with nextId := s1.me.nextId + 1 }).retire 4)

/-! ## Anchored blocks (R249 to R251) -/

/-- The checks of ldab and stab (R249): the number of blocks, and the 16-byte units of the footprint. -/
def State.blockChecks (s : State) (acc : Acc) (ea b : Word) (wide : Bool) : R (Nat × List Piece) := do
  let bn := b.toNat
  orTrap (isPow2 bn && 4 ≤ bn && bn ≤ 256) (trapE cILLEGAL)
  let n := s.vl
  orTrap (n % bn == 0 && n / bn ≤ 256) (trapE cVL_RANGE n)
  let u := blockUnits wide bn
  let ds := (List.range (n / bn * u)).map fun j => ({ idx := j, addr := ea + BitVec.ofNat 64 (16 * j), size := 16 } : Piece)
  orTrap (n == 0 || canonical ea.toNat) (trapNonCan ea)
  orTrap (n == 0 || ea.toNat % 16 == 0) (trapA cALIGN ea)
  orTrap (n == 0 || ea.toNat / 2 ^ 56 ≤ 2) (trapA cPROT ea)
  match s.pieces acc ds with
  | (_, some (_, e)) => .error e
  | (_, none)        => pure (n / bn, ds)

/-- stab (R249, R251). -/
def execStab (f : StabF) (s : State) : Host.Outcome State Fault Refusal :=
  s.finish do
    s.onSide .A
    let a ← s.srcR f.a
    let b ← s.srcR f.b
    let (_, ds) ← s.blockChecks .write a b f.wide
    let sp := s.spansAt (s.pieces .write ds).1 ds
    s.logRoom s.cur.core sp
    pure (((s.warmAll ds).issue (.stq f.q (if f.wide then 0x12 else 0x11) (.blocks f.wide b.toNat) false) sp).retire 4)

/-- A header as its bytes read (R48). -/
def headerOf (lo hi : Word) : Header :=
  { anchor := lo, step := hi.extractLsb' 0 8, flags := hi.extractLsb' 8 8, gen := hi.extractLsb' 16 16,
    rsv := hi.extractLsb' 32 32 }

/-- The second dword of a header. -/
def Header.dword (h : Header) : Word := h.rsv ++ h.gen ++ h.flags ++ h.step

/-- The block size of a header; none for the reserved code (R48). -/
def Header.size (h : Header) : Option Nat :=
  let c := bits h.flags.toNat 3 1
  if c = 7 then none else some (2 ^ (c + 2))

/-- A header that keeps R49: finite anchor, legal B code, reserved bits zero. -/
def Header.ok (h : Header) : Bool :=
  bits h.anchor.toNat 62 52 != 0x7FF && h.size.isSome && bits h.flags.toNat 7 4 == 0 && h.rsv == 0

/-- A dword as ldab reads it. -/
def State.blockWord (s : State) (p : Place) (half : Nat) : R (List Byte) :=
  match p with
  | .mem k    => .ok (s.viewRead s.cur.core (k + 8 * half) 8)
  | .aper n o => (s.viewAs s.cur.core).readPlace (.aper n (o + 8 * half)) 8
  | .ctl o    => s.readPlace (.ctl o) 8
  | .peer d v => s.readPlace (.peer d v) 8

/-- The bytes that one attempt of ldab reads for a block, in order: its header, its deviations, its header again (R250). -/
def attemptPlaces (wide : Bool) (b : Nat) (ps : List Place) : List Place := ps.take (blockUnits wide b) ++ ps.take 1

/-- What ldab makes of an attempt's bytes: the header and the deviations, none for those that are delivered invalid (R250). -/
def blockRead (wide : Bool) (b : Nat) (bs : List Byte) : List Byte × Option (List Byte) :=
  let h := bs.take 16
  let hd := headerOf (BitVec.ofNat 64 (leNat (h.take 8))) (BitVec.ofNat 64 (leNat (h.drop 8)))
  let good := hd.ok && hd.size == some b && bit hd.flags.toNat 0 == wide
  (h, if good then some ((bs.drop 16).take (devBytes wide b)) else none)

/-- One turn of ldab on its block (R250): it reads the next dword of its attempt, each a word access of its own (R57); an odd GEN, or
a header that has changed, ends the attempt. DEDUCED, log entry 72. -/
def LdabSt.turn (st : LdabSt) (wide : Bool) (b : Nat) (word : List Byte) : LdabSt :=
  let bs := st.bytes ++ word
  let failed : LdabSt := { st with attempt := st.attempt + 1, bytes := [], waiting := true }
  if bs.length = 16 && leNat ((bs.drop 10).take 2) % 2 = 1 then failed
  else if bs.length < 16 * (blockUnits wide b + 1) then { st with bytes := bs }
  else if bs.drop (16 * blockUnits wide b) == bs.take 16 then
    { blk := st.blk + 1, attempt := 0, bytes := [], got := st.got ++ [blockRead wide b bs], waiting := false }
  else failed

/-- The two entries of ldab (R250). -/
def State.pushBlocks (s : State) (q : Fin 4) (wide : Bool) (b : Nat) (got : List (List Byte × Option (List Byte))) : State :=
  let w := if wide then 16 else 8
  let tag : Fin 32 := if wide then 0x12 else 0x11
  let c := s.me
  let n := got.length * b
  let hs := got.flatMap fun g => [BitVec.ofNat 64 (leNat (g.1.take 8)), BitVec.ofNat 64 (leNat (g.1.drop 8))]
  let dvs := got.flatMap fun g => match g.2 with
    | none    => List.replicate b (0 : Word)
    | some bs => (unpackElems w bs).map (BitVec.ofNat 64)
  let val := got.flatMap fun g => List.replicate b g.2.isSome
  let mk (id n : Nat) (tag : Fin 32) (base : BitVec 32) (k : EntryKind) (xs : List Word) (v : List Bool) : Entry :=
    { id := id, n := n, tag := tag, base := base, vers := c.cbVers, kind := k, elems := xs, valid := v, ready := true,
      delivered := false, held := none }
  let ctr1 := c.lq[q.val].ctr + BitVec.ofNat 32 (ceilDiv (16 * got.length) 512)
  let e1 := mk c.nextId got.length 0 c.lq[q.val].ctr .headers hs (hs.map fun _ => true)
  let e2 := mk (c.nextId + 1) n tag ctr1 .deviations dvs val
  s.setMe { c with nextId := c.nextId + 2
                   lq := c.lq.set q.val { ents := c.lq[q.val].ents ++ [e1, e2]
                                          ctr := ctr1 + BitVec.ofNat 32 (groups n w) } }

/-- ldab (R249, R250): blocks are read in order, a dword a turn; after an attempt that failed it waits 64 clk, and after the fifth
raises ANCHOR_BUSY with the block in ELEM. -/
def execLdab (f : LdabF) (s : State) : Host.Outcome State Fault Refusal :=
  s.finish do
    s.onSide .A
    let a ← s.srcR f.a
    let b ← s.srcR f.b
    let (nb, ds) ← s.blockChecks .read a b f.wide
    orWait (s.me.lqRoom f.q 2)
    let ps := (s.pieces .read ds).1
    s.quiet (s.spansAt ps ds)
    let st := s.me.ldabTry.getD { blk := 0, attempt := 0, bytes := [], got := [], waiting := false }
    let ended := s.setMe { s.me with ldabTry := none }
    orWait (!st.waiting)
    if st.attempt = 5 then pure (ended.takeTrap (trapE cANCHOR_BUSY 0 st.blk))
    else if st.blk = nb then pure (((ended.warmAll ds).pushBlocks f.q f.wide b.toNat st.got).retire 4)
    else
      let i := st.bytes.length / 8
      match (attemptPlaces f.wide b.toNat (ps.drop (st.blk * blockUnits f.wide b.toNat)))[i / 2]? with
      | none   => waits
      | some p => match s.blockWord p (i % 2) with
        | .ok w           => pure (s.setMe { s.me with ldabTry := some (st.turn f.wide b.toNat w) })
        | .error (.trap t) => pure (ended.takeTrap t)
        | .error e        => .error e

/-- LDAB_RETRY (R250): the 64 clk are over; ldab reads again when it issues next. -/
def execLdabRetry (c : CoreId) (s : State) : Host.Outcome State Fault Refusal :=
  .next (match (s.core c.no).ldabTry with
    | none    => s
    | some st => s.setCore c.no { s.core c.no with ldabTry := some { st with waiting := false } })

/-! ## Atomics through a store queue (R254) -/

/-- The tag of an atomic: i64 when none is named; only 32- and 64-bit integers and floats (R252). -/
def amoTag (tg : Fin 32) : Fin 32 := if tg = 0 then 0x05 else tg

def amoTagOk (tg : Fin 32) (op : AmoOp) : Bool :=
  let t := tg.val
  (t == tI32 || t == tI64 || t == tN32 || t == tN64 || t == tF32 || t == tF64) &&
    (!isFloat t || op == .add || op == .swap || op == .cas)

/-- amoqx (R254). -/
def execAmoqx (f : AmoqxF) (s : State) : Host.Outcome State Fault Refusal :=
  s.finish do
    s.onSide .A
    let tg := amoTag f.tg
    orTrap (amoTagOk tg f.op) (trapE cILLEGAL_TAG)
    orTrap (f.op != .cas) (trapE cILLEGAL)
    let a ← s.srcR f.a
    let b ← s.srcR f.b
    s.lengthOk s.vl (tagW tg.val)
    let idx ← s.indices b s.vl
    let ds := indexPieces a idx (tagW tg.val)
    s.claimStore f.q tg .amo (.amo f.op tg f.acq f.rel) (scatterRange s ds) ds (tagW tg.val) 12 (some a)

/-! ## Events that perform accesses -/

/-- Loads, atomics with a destination and late values (R81). -/
def AccKind.isLate : AccKind → Bool
  | .load _ _ _  => true
  | .fill _ _ _  => true
  | .amo d _ _ _ _ _ _ _ => d != 0
  | .value _ _   => true
  | .writes _    => false
  | .stq _ _ _ _ => false
  | .stab _ _ _ _ _ _ => false
  | .arm _       => false
  | .arrive _    => false
  | .await _ _ _ => false

/-- An access that nothing but its performance delays: not an await, nor a store whose data X has yet to push. -/
def AccKind.underway : AccKind → Bool
  | .await _ _ _      => false
  | .stq _ _ _ _      => false
  | .load _ _ _       => true
  | .fill _ _ _       => true
  | .writes _         => true
  | .stab _ _ _ _ _ _ => true
  | .amo _ _ _ _ _ _ _ _ => true
  | .arm _            => true
  | .arrive _         => true
  | .value _ _        => true

/-- Stores, blocks with their data, atomics without a destination and arrivals (R78). -/
def AccKind.isPosted : AccKind → Bool
  | .writes _    => true
  | .stab _ _ _ _ _ st => st != 4
  | .amo d _ _ _ _ _ _ _ => d == 0
  | .arm _       => true
  | .arrive _    => true
  | .load _ _ _  => false
  | .fill _ _ _  => false
  | .value _ _   => false
  | .stq _ _ _ _ => false
  | .await _ _ _ => false

/-- The vector clock a cross-pane write carries: its pane's, with its own number for its own pane (R100). -/
def Pane.stamp (p : Pane) (own : Nat) : List Nat :=
  (List.range 8).map fun q => if q = own then (p.sentNo + 1) % 2 ^ 16 else p.clock.getD q 0

/-- Clock entries as numbers modulo 2^16: a has not passed b. -/
def clockLe (a b : Nat) : Bool := (b + 2 ^ 16 - a) % 2 ^ 16 < 2 ^ 15

/-- Every write that the clock of a pane's next write names as a predecessor has been applied (R100). -/
def State.clockReady (s : State) (src : Nat) : Bool :=
  (List.range 8).all fun q => q == src || clockLe (((s.pane src).stamp src).getD q 0) (s.pane q).sentNo

/-- A write of one pane to another's DRAM is stamped, and the clock of the pane it reaches takes its stamp in (R100). -/
def State.stampWrite (s : State) (src dst : Nat) : State :=
  let st := (s.pane src).stamp src
  let s1 := s.setPane src { s.pane src with sentNo := ((s.pane src).sentNo + 1) % 2 ^ 16, clock := st }
  let d := s1.pane dst
  let later (q : Nat) : Nat := if clockLe (d.clock.getD q 0) (st.getD q 0) then st.getD q 0 else d.clock.getD q 0
  s1.setPane dst { d with clock := (List.range 8).map later }

/-- A write of a pane to a byte of another pane's DRAM stamped (R100). -/
def State.stampOut (s : State) (src k : Nat) : State :=
  if keyIsDram k && k / 2 ^ 35 != src then s.stampWrite src (k / 2 ^ 35) else s

/-- A store of blocks is at a header whose GEN is odd: it writes nothing there yet (R251). -/
def State.findsOdd (s : State) (core : Nat) (x : Access) (sp : Nat × Nat) : Bool := match x.kind with
  | .stab _ _ _ _ _ st => st == 0 && leNat (s.viewRead core (sp.1 + 10) 2) % 2 == 1
  | .load _ _ _        => false
  | .fill _ _ _        => false
  | .writes _          => false
  | .stq _ _ _ _       => false
  | .amo _ _ _ _ _ _ _ _ => false
  | .arm _             => false
  | .arrive _          => false
  | .await _ _ _       => false
  | .value _ _         => false

/-- A write of a core, or an atomic, to another pane's DRAM stamped before it is performed (R100). -/
def State.stampSpan (s : State) (core : Nat) (x : Access) (sp : Nat × Nat) : State :=
  if x.kind.isWrite && !s.findsOdd core x sp then s.stampOut (paneOf core) sp.1 else s

/-- STAB_GEN_RETRY (R251): the n-th store of blocks that waits after an odd GEN tries its block again. -/
def execStabGenRetry (c : CoreId) (n : Nat) (s : State) : Host.Outcome State Fault Refusal :=
  .next <|
    let co := s.core c.no
    let waiting (x : Access) : Bool := match x.kind with
      | .stab _ _ _ _ _ st => st == 4
      | .load _ _ _        => false
      | .fill _ _ _        => false
      | .writes _          => false
      | .stq _ _ _ _       => false
      | .amo _ _ _ _ _ _ _ _ => false
      | .arm _             => false
      | .arrive _          => false
      | .await _ _ _       => false
      | .value _ _         => false
    match (co.pend.filter waiting)[n]? with
    | none   => s
    | some x => match x.kind with
      | .stab wide b hdrs devs blk _ =>
        let y : Access := { x with kind := .stab wide b hdrs devs blk 0 }
        (s.stampSpan c.no y (x.spans.getD (blk * blockUnits wide b) (0, 0))).stabStep c.no y wide b hdrs devs blk 0
      | .load _ _ _        => s
      | .fill _ _ _        => s
      | .writes _          => s
      | .stq _ _ _ _       => s
      | .amo _ _ _ _ _ _ _ _ => s
      | .arm _             => s
      | .arrive _          => s
      | .await _ _ _       => s
      | .value _ _         => s

/-- The n-th open span of a core that a condition admits is performed, if nothing earlier holds it back; one that writes another pane's
DRAM carries the clock (R100). -/
def State.performNth (s : State) (core n : Nat) (ok : Access → Nat × Nat → Bool) : State :=
  match findOpen ok [] (s.core core).pend n with
  | none           => s
  | some (es, x, j) =>
    let sp := x.spans.getD j (0, 0)
    if mayPerform es x j && (!(x.kind.isWrite && crossesPane core sp) || s.clockReady (paneOf core)) then
      (s.stampSpan core x sp).performSpan core x j
    else s

/-- An abandoned load is performed again (R82): it is checked under R20 once more; a failed one gives 0 and an asynchronous
trap. -/
def State.repeatLoad (s : State) (core : Nat) (x : Access) : State :=
  match x.kind with
  | .load d size _ =>
    let h : How := { core := core, super := x.super, asid := x.asid, acc := .read, scalar := true, size := size }
    (match s.place h x.addr with
      | .ok p                => s.setCore core ((s.core core).mapPend x.id fun y => { y with spans := [(s.keyOf p, size)], ans := [none] })
      | .error .wait         => s
      | .error (.page fn pg w) => s.askPage core fn pg w
      | .error (.trap k)     =>
        let c := ((s.core core).dropPend x.id).arriveLate x.id d 0
        let s1 := match k.pri with
          | none             => s
          | some (fn, pg, w) => s.heardPage core fn pg w
        s1.setCore core { c with av := { c.av with asyncs := c.av.asyncs ++ [.load (k.code == cPROT) (infoA x.addr 0)] } })
  | .fill _ _ _       => s
  | .writes _         => s
  | .stq _ _ _ _      => s
  | .stab _ _ _ _ _ _ => s
  | .amo _ _ _ _ _ _ _ _ => s
  | .arm _            => s
  | .arrive _         => s
  | .await _ _ _      => s
  | .value _ _        => s

/-- Every abandoned load of a core tried again. -/
def State.repeatLoads (s : State) (core : Nat) : State :=
  ((s.core core).pend.filter Access.abandoned).foldl (fun s x => s.repeatLoad core x) s

/-- LOAD_COMPLETE (R81, R82): the n-th open read of the A-side is performed; with its last byte the value is written. -/
def execLoadComplete (c : CoreId) (n : Nat) (s : State) : Host.Outcome State Fault Refusal :=
  .next ((s.repeatLoads c.no).performNth c.no n fun x sp => x.kind.isLate && !keyIsPeer sp.1)

/-- STORE_PERFORMED (R77, R78): the n-th open write of the A-side within its pane, to scratchpad or to the host is
performed. -/
def execStorePerformed (c : CoreId) (n : Nat) (s : State) : Host.Outcome State Fault Refusal :=
  .next (s.performNth c.no n fun x sp => x.kind.isPosted && !keyIsPeer sp.1 && !crossesPane c.no sp)

/-- CROSS_PANE_WRITE_APPLY (R100): the n-th write of the A-side to another pane's DRAM is stamped and applied, once
every write that its clock names as a predecessor has been applied. Every pane sees it then. DESIGN CHOICE, log entry 73. -/
def execCrossPaneWriteApply (c : CoreId) (n : Nat) (s : State) : Host.Outcome State Fault Refusal :=
  .next (s.performNth c.no n fun x sp => x.kind.isPosted && !keyIsPeer sp.1 && crossesPane c.no sp)

/-- QUEUE_ENTRY_DELIVERED (R79): the oldest undelivered entry of load queue n is delivered once all its elements are
read; an invalid element sets MV.SEEN (R243). -/
def execQueueEntryDelivered (c : CoreId) (n : Nat) (s : State) : Host.Outcome State Fault Refusal :=
  .next <|
    if h : n < 4 then
      let co := s.core c.no
      match co.lq[n].ents.find? fun e => !e.delivered with
      | none   => s
      | some e =>
        if e.ready && e.held.isNone then
          let ents := co.lq[n].ents.map fun x => if x.id == e.id then { x with delivered := true } else x
          let c1 := { co with lq := co.lq.set n { co.lq[n] with ents := ents } }
          s.setCore c.no (if e.anyInvalid then c1.markMv 1 else c1)
        else s
    else s

/-! ## Strip-mining (R257 to R259) -/

/-- spcfg (R258). -/
def execSpcfg (a : SrcR) (s : State) : Host.Outcome State Fault Refusal :=
  s.finish do
    s.onSide .A
    let v ← s.srcR a
    let n := v.toNat
    orTrap (n < 2 ^ 12 && (List.range 4).all fun i => bits n (3 * i + 2) (3 * i) != 7) (trapE cILLEGAL)
    pure ((s.setMe { s.me with spsz := n }).retire 4)

/-- The width that a strip size code stands for (R257). -/
def stripW (code : Nat) : Nat :=
  match code with
  | 1 => 8
  | 2 => 16
  | 3 => 32
  | 4 => 64
  | 5 => 4
  | 6 => 8
  | _ => 0

/-- The advance of a strip pointer (R257); half a byte for each element of code 5, rounded up once. -/
def stripStep (code vl : Nat) : Nat :=
  match code with
  | 1 => vl
  | 2 => 2 * vl
  | 3 => 4 * vl
  | 4 => 8 * vl
  | 5 => ceilDiv (vl + 2 * ceilDiv vl 32) 16 * 8
  | 6 => ceilDiv (vl + ceilDiv vl 32) 8 * 8
  | _ => 0

/-- Whether the task of a core runs in LONG mode (R150). -/
def State.isLong (s : State) (core : Nat) : Bool :=
  match (s.core core).task with
  | none    => false
  | some id => match s.task id with
    | none   => false
    | some t => t.long

/-- vsetl (R143, R151, R259). -/
def execVsetl (d : RegNo) (a : SrcR) (mask : Fin 16) (s : State) : Host.Outcome State Fault Refusal :=
  s.finish do
    s.onSide .A
    let areq ← s.srcR a
    s.dst d
    let named := (List.range 4).filter fun i => bit mask.val i
    let ptr (i : Nat) : RegNo := Fin.ofNat 32 (28 + i)
    orWait (named.all fun i => s.me.full .A (ptr i))
    orWait (s.me.cq.length < 16)
    let code (i : Nat) : Nat := bits s.me.spsz (3 * i + 2) (3 * i)
    let w := match named.map (fun i => stripW (code i)) |>.foldl max 0 with
      | 0 => 64
      | k => k
    let m := s.me.vlMaxW w
    let mine := if s.isLong s.cur.core then areq.toNat - s.me.gpos * m else areq.toNat
    let vl := min mine m
    let s1 := s.put d (BitVec.ofNat 64 vl)
    let s2 := s1.setMySide { s1.mySide with vl := BitVec.ofNat 32 vl }
    let s3 := named.foldl (fun s i => s.put (ptr i) (s.me.reg .A (ptr i) + BitVec.ofNat 64 (stripStep (code i) vl))) s2
    let c := s3.me
    let s4 := s3.setMe { c with
      nextId := c.nextId + 1
      cq := c.cq ++ [{ id := c.nextId, vl := BitVec.ofNat 32 vl, w := w, base := c.cqCtr }]
      cqCtr := c.cqCtr + BitVec.ofNat 32 (groups vl w) }
    pure (s4.retire 4)

end Machine
end Sys2Proof
end

