-- ==== Sys2Proof/Machine/Special.lean ====
section
/-!
DEFINITION. The special functions of floats (R39, R280, R281), computed by fixed-point intervals narrow enough that both
ends round alike.
-/

namespace Sys2Proof
namespace Machine

/-- Fraction bits of the fixed-point numbers. -/
def fixP : Nat := 400

/-- Sum of an odd power series t + t³/3 + t⁵/5 + … in fixed point: pw is the current power of t, k its exponent. -/
def atanhSum (t2 : Nat) : Nat → Nat → Nat → Nat
  | 0, _, _      => 0
  | n + 1, pw, k => pw / k + atanhSum t2 n (pw * t2 / 2 ^ fixP) (k + 2)

/-- ln 2 = 2 atanh(1/3) in fixed point. -/
def fixLn2 : Nat := 2 * atanhSum (2 ^ fixP / 9) 140 (2 ^ fixP / 3) 1

/-- Taylor sum of e^y in fixed point: tm is the current term, k its index. -/
def expSum (y : Nat) : Nat → Nat → Nat → Nat
  | 0, _, _      => 0
  | n + 1, tm, k => tm + expSum y n (tm * y / 2 ^ fixP / k) (k + 1)

/-- 2^f for a fixed-point f in [0, 1), within 2^12 units of the last place. -/
def fixExp2 (f : Nat) : Nat := expSum (f * fixLn2 / 2 ^ fixP) 110 (2 ^ fixP) 1

/-- An open interval between two fixed-point numbers scaled by 2^sh, as the exact values next to its ends. -/
structure Near where
  lo : Num
  hi : Num
  deriving DecidableEq, Repr

/-- The interval of radius 2^12 units around c, never reaching past the bounds lo and hi. -/
def around (neg : Bool) (c lo hi : Nat) (sh : Int) : Near :=
  let a := max (c - 4096) lo
  let b := min (c + 4096) hi
  { lo := .fin neg (2 * a + 1) (sh - (fixP : Int) - 1), hi := .fin neg (2 * b - 1) (sh - (fixP : Int) - 1) }

/-- The interval of 2^x for an x that is not an integer: x = k + f. -/
def nearExp2 (neg : Bool) (m : Nat) (e : Int) : Near :=
  -- floor of ±m·2^e times 2^fixP; e < 0 because x is no integer
  let d := 2 ^ (-e).toNat
  let whole := m / d
  let part := (m % d) * 2 ^ fixP / d
  let k : Int := if neg then -(whole : Int) - 1 else whole
  let f := if neg then 2 ^ fixP - 1 - part else part
  around false (fixExp2 f) (2 ^ fixP) (2 ^ (fixP + 1)) k

/-- The interval of log2 of m · 2^e, m no power of two. -/
def nearLog2 (m : Nat) (e : Int) : Near :=
  let b := bitLen m - 1
  let z := m * 2 ^ fixP / 2 ^ b                        -- in [1, 2)
  let t := (z - 2 ^ fixP) * 2 ^ fixP / (z + 2 ^ fixP)
  let ln := 2 * atanhSum (t * t / 2 ^ fixP) 140 t 1
  let fr := ln * 2 ^ fixP / fixLn2
  let k : Int := e + b
  if 0 ≤ k then
    let c := k.toNat * 2 ^ fixP + fr
    around false c (k.toNat * 2 ^ fixP) ((k.toNat + 1) * 2 ^ fixP) 0
  else
    let j := (-k).toNat
    around true (j * 2 ^ fixP - fr) ((j - 1) * 2 ^ fixP) (j * 2 ^ fixP) 0

/-- The interval of tanh of ±m · 2^e, m not 0. -/
def nearTanh (neg : Bool) (m : Nat) (e : Int) : Near :=
  let top := e + (bitLen m : Int)
  if top < -64 then
    -- between x − x³ and x
    { lo := .fin neg (m * 2 ^ 130 - m) (e - 130), hi := .fin neg (m * 2 ^ 130 - 1) (e - 130) }
  else if 8 < top then
    { lo := .fin neg (2 ^ 300 - 1) (-300), hi := .fin neg (2 ^ 301 - 1) (-301) }
  else
    -- u = e^(−2|x|) = 2^(−q), q = 2|x| / ln 2
    let x2 := if 0 ≤ e then m * 2 ^ (e.toNat + 1) * 2 ^ fixP else m * 2 ^ (fixP + 1) / 2 ^ (-e).toNat
    let q := x2 * 2 ^ fixP / fixLn2
    let k := q / 2 ^ fixP
    let f := q % 2 ^ fixP
    let u := if f = 0 then 2 ^ fixP / 2 ^ k else fixExp2 (2 ^ fixP - f) / 2 ^ (k + 1)
    around neg ((2 ^ fixP - u) * 2 ^ fixP / (2 ^ fixP + u)) 0 (2 ^ fixP) 0

/-- 1/√(m · 2^e), with a set last bit where it is not exact. -/
def rsqSticky (m : Nat) (e : Int) : Num :=
  let odd := e % 2 != 0
  let m1 := if odd then 2 * m else m
  let e1 := if odd then e - 1 else e
  let k := 300 + bitLen m1
  let r := isqrt (2 ^ (2 * k) / m1)
  .fin false (2 * r + (if r * r * m1 = 2 ^ (2 * k) then 0 else 1)) (-(e1 / 2) - (k : Int) - 1)

/-- An inexact value known by an interval, rounded: correctly for tags below f64; for f64 to one of the two values that
bracket it (R280), unless it overflows. DESIGN CHOICE, log entry 8. -/
def bracket (t mode sel x : Nat) (v : Near) : Rounded :=
  let r := fRound t mode false v.lo
  if t = tF64 then
    let a := fRound t 1 false v.lo
    let big := match v.lo with
      | .fin _ m e => decide (1023 < e + (bitLen m : Int) - 1)
      | .nan       => false
      | .inf _     => false
    let up := Config.f64Upper sel (BitVec.ofNat 64 x)
    let neg := match v.lo with
      | .fin n _ _ => n
      | .nan       => false
      | .inf _     => false
    if big then r
    else { bits := if up != neg then a.bits + 1 else a.bits, flags := r.flags ||| fNX, off := false }
  else { r with flags := r.flags ||| fNX }

/-- An exact value, or one with a set last bit, rounded. -/
def roundExact (t mode : Nat) (x : Num) : Rounded := fRound t mode false x

/-- The special functions by selector (R280): vrcp, vrsq, vsqrt, vex2, vlg2, vtanh on the bits x of float tag t. -/
def specialFn (sel t mode x : Nat) : Rounded :=
  let nan (fl : Nat) : Rounded := { bits := fNaN t, flags := fl, off := false }
  let inf (n : Bool) (fl : Nat) : Rounded := { bits := fInf t n, flags := fl, off := false }
  let one (n : Bool) : Rounded := fRound t 0 false (.fin n 1 0)
  let zero (n : Bool) : Rounded := { bits := if n then 2 ^ (tagW t - 1) else 0, flags := 0, off := false }
  match fDecode t x with
  | .nan   => nan (if isSNaN t x then fNV else 0)
  | .inf n => (match sel with
    | 0 => zero n
    | 1 => if n then nan fNV else zero false
    | 2 => if n then nan fNV else inf false 0
    | 3 => if n then zero false else inf false 0
    | 4 => if n then nan fNV else inf false 0
    | _ => one n)
  | .fin n m e =>
    if m = 0 then (match sel with
      | 0 => inf n fDZ
      | 1 => inf n fDZ
      | 2 => zero n
      | 3 => one false
      | 4 => inf true fDZ
      | _ => zero n)
    else match sel with
      | 0 => roundExact t mode (divSticky n 1 0 m e)
      | 1 => if n then nan fNV
             else
               let y := rsqSticky m e
               let r := roundExact t mode y
               if t = tF64 && bit r.flags 0 then bracket t mode 1 x { lo := y, hi := y } else r
      | 2 => if n then nan fNV else roundExact t mode (sqrtSticky m e)
      | 3 =>
        let whole := 0 ≤ e || m % 2 ^ (-e).toNat == 0
        if 20 < e + (bitLen m : Int) then
          -- beyond every format's exponents: overflow or total underflow
          roundExact t mode (.fin false 1 (if n then -(2 ^ 18) else 2 ^ 18))
        else if whole then
          let k : Int := if 0 ≤ e then (m * 2 ^ e.toNat : Nat) else (m / 2 ^ (-e).toNat : Nat)
          roundExact t mode (.fin false 1 (if n then -k else k))
        else bracket t mode 3 x (nearExp2 n m e)
      | 4 =>
        if n then nan fNV
        else if m = 2 ^ (bitLen m - 1) then
          let k := e + (bitLen m : Int) - 1
          roundExact t mode (Num.ofInt k)
        else bracket t mode 4 x (nearLog2 m e)
      | _ => bracket t mode 5 x (nearTanh n m e)

end Machine
end Sys2Proof
end

