-- ==== Sys2Proof/Machine/Lanes.lean ====
section
/-!
DEFINITION. The operand forms of vector instructions: vector registers and their tags (R33 to R35, R262), slices of a
LONG gang (R150, R151), pops and pushes of queues (R85, R213, R263), predicates (R222), codebook expansion (R304),
promotion (R225), and how a vector instruction's results, flags and offenders are written (R40, R43, R47, R262).
-/

namespace Sys2Proof

/-- The load queue that a source pops, if it does (R213). -/
def VSrc.queue : VSrc → Option (Fin 4)
  | .reg _ => none
  | .lq q  => some q

def VSrcB.queue : VSrcB → Option (Fin 4)
  | .reg _  => none
  | .lq q   => some q
  | .scal _ => none

namespace Machine

/-- The element source that an operand is, if it is no scalar. -/
def srcsOfB (b : VSrcB) : List VSrc :=
  match b with
  | .reg v  => [.reg v]
  | .lq q   => [.lq q]
  | .scal _ => []

/-- An element source as an operand. -/
def vsrcB (a : VSrc) : VSrcB :=
  match a with
  | .reg v => .reg v
  | .lq q  => .lq q

/-! ## Vector registers -/

/-- Dwords of a register as R35 lays elements of width w over lanes and groups. DEDUCED, log entry 6. -/
def packLanes (w : Nat) (xs : List Word) : List Nat :=
  (List.range (groups xs.length w * 64)).map fun d =>
    let g := d / 64
    (List.range (64 / w)).foldl (fun acc sub =>
      acc + (xs.getD (g * perGroup w + sub * 64 + d % 64) 0).toNat % 2 ^ w * 2 ^ (sub * w)) 0

/-- The elements of width w that dwords hold. -/
def unpackLanes (w : Nat) (ds : List Nat) : List Word :=
  (List.range (ds.length * 64 / w)).map fun e =>
    let r := e % perGroup w
    BitVec.ofNat 64 (ds.getD (e / perGroup w * 64 + r % 64) 0 / 2 ^ (r / 64 * w) % 2 ^ w)

/-- Element bits of one width read as elements of another (R265). -/
def reslice (w1 w2 : Nat) (xs : List Word) : List Word :=
  if w1 = w2 || w1 = 0 || w2 = 0 then xs else unpackLanes w2 (packLanes w1 xs)

/-- A list with some entries replaced; d stands for entries beyond it. -/
def overlay (d : α) : List (Option α) → List α → List α
  | [], xs               => xs
  | none :: us, []       => d :: overlay d us []
  | none :: us, x :: xs  => x :: overlay d us xs
  | some a :: us, []     => a :: overlay d us []
  | some a :: us, _ :: xs => a :: overlay d us xs

/-- A register written under a tag (R262): active elements replaced, the others kept under the new tag. -/
def VReg.write (v : VReg) (tag : Nat) (res : List (Option (Word × Bool))) (mark : Nat) : VReg :=
  { v with
    tag := Fin.ofNat 32 tag, mark := max v.mark mark,
    elems := overlay 0 (res.map fun r => r.map fun p => p.1) (reslice (tagW v.tag.val) (tagW tag) v.elems),
    valid := overlay true (res.map fun r => r.map fun p => p.2) v.valid }

/-- Elements of a register that exist at the core's shape (R140). -/
def Core.capW (c : Core) (w : Nat) : Nat := 16384 / c.vnreg * 64 / w

/-- An element and its validity. An element beyond the register's shape has no stated value: seed numbers an undefined
one (DESIGN CHOICE, log entry 7). -/
def VReg.at_ (v : VReg) (cap seed e : Nat) : Word × Bool :=
  if e < cap then (v.elems.getD e 0, v.valid.getD e true) else (Config.undef (seed + e), true)

/-! ## Slices of a gang -/

/-- The cores whose lanes an instruction of X drives: every member in a LONG gang, else its own (R150). -/
def State.members (s : State) : List Nat := if s.isLong s.cur.core then s.gang s.cur.core else [s.cur.core]

/-- In an SPMD gang, or alone, one member holds everything; in a LONG gang, VLMAX_w elements each (R151). -/
def State.sliceLen (s : State) (w : Nat) : Nat :=
  if 1 < s.members.length then s.me.vlMaxW w else 2 ^ 32

/-- The members with the range of gang-wide elements each holds, below n, for a width (R151): core, first element, count. DEDUCED, log
entry 82. -/
def State.slices (s : State) (w n : Nat) : List (Nat × Nat × Nat) :=
  let m := s.sliceLen w
  s.members.zipIdx.map fun p => (p.1, p.2 * m, min (n - p.2 * m) m)

/-! ## Sources -/

/-- A vector source read: its tag, element bits, validity, the versions that each member's part carries, binding. -/
structure VIn where
  tag   : Nat
  bits  : List Nat
  valid : List Bool
  vers  : List (BitVec 32)
  bind  : Binding
  deriving DecidableEq, Repr

/-- The versions that the part of the i-th member carries. -/
def VIn.versAt (x : VIn) (i : Nat) : BitVec 32 := x.vers.getD i 0

/-- A crecv that writes this destination is pending (R323). -/
def Core.awaits (c : Core) (d : VDst) : Bool := c.crecvs.any fun r => r.dst == d

/-- A named vector register must exist (R140), and one that a pending crecv writes is waited for (R323). -/
def State.vreg (s : State) (v : RegNo) : R Unit := do
  orTrap (v.val < s.me.vnreg) (trapE cILLEGAL)
  orWait (!s.me.awaits (.reg v))

/-- Checks of the names of a source, before any queue is looked at. -/
def State.srcName (s : State) : VSrc → R Unit
  | .reg v => s.vreg v
  | .lq _  => .ok ()

def State.srcNameB (s : State) : VSrcB → R Unit
  | .reg v  => s.vreg v
  | .lq _   => .ok ()
  | .scal _ => .ok ()

def State.dstName (s : State) : VDst → R Unit
  | .reg v => s.vreg v
  | .sq _  => .ok ()

/-- Member lengths form a prefix: none below the slice length is followed by a nonzero one (R151). -/
def isPrefix (m : Nat) : List Nat → Bool
  | []      => true
  | n :: ns => (n == m || ns.all fun k => k == 0) && isPrefix m ns

/-- The head entries of a load queue on every member (R80, R85, R151). Entries of headers have no element width, and the longest of them
counts as a full slice. DEDUCED, log entry 67. -/
def State.heads (s : State) (q : Fin 4) : R (List Entry) := do
  let es ← s.members.mapM fun g => match (s.core g).lq[q.val].ents with
    | []     => waits
    | e :: _ => if e.delivered && !s.mayRetract g e.id then Except.ok e else waits
  let w := match es with
    | []     => 64
    | e :: _ => tagW e.tag.val
  match es.find? fun e => w != 0 && s.me.vlMaxW w < e.n with
  | some e => raise (trapE cVL_RANGE e.n)
  | none   =>
    let full := if w == 0 then (es.map fun e => e.n).foldl max 0 else s.sliceLen w
    orTrap (isPrefix full (es.map fun e => e.n)) (trapE cVL_RANGE ((es.map fun e => e.n).foldl (· + ·) 0))
    pure es

/-- The length of an instruction: a popped entry's, else the X-side VL (R261). -/
def State.vlen (s : State) (q : Option (Fin 4)) : R Nat :=
  match q with
  | none   => .ok s.vl
  | some q => do
    let es ← s.heads q
    pure ((es.map fun e => e.n).foldl (· + ·) 0)

/-- A vector register as a source of a core: an instruction that a stop found in flight reads the copy kept of the register it also
replaces (R187, R275). -/
def State.srcReg (s : State) (g : Nat) (v : RegNo) : VReg :=
  match s.inFlight.bind fun f => f.old with
  | some (u, xs) => if u = v then xs.getD (s.members.idxOf g) (s.core g).vregs[v.val] else (s.core g).vregs[v.val]
  | none         => (s.core g).vregs[v.val]

/-- A register source at elements 0 to n − 1 (R261). -/
def State.readReg (s : State) (v : RegNo) (n : Nat) : VIn :=
  let r := s.srcReg s.cur.core v
  let w := tagW r.tag.val
  let seed := s.undefCtr + v.val * 2 ^ 17
  let xs := (s.slices w n).flatMap fun g =>
    (List.range g.2.2).map fun e => (s.srcReg g.1 v).at_ ((s.core g.1).capW w) (seed + g.2.1) e
  { tag := r.tag.val, bits := xs.map fun x => x.1.toNat % 2 ^ w, valid := xs.map fun x => x.2,
    vers := s.members.map fun g => (s.srcReg g v).vers, bind := r.bind }

/-- The entry popped from a load queue as a source (R85, R286). -/
def State.readHead (s : State) (q : Fin 4) : R VIn := do
  let es ← s.heads q
  match es with
  | []     => waits
  | e :: _ =>
    let w := tagW e.tag.val
    pure { tag := e.tag.val, bits := es.flatMap fun x => x.elems.map fun y => y.toNat % 2 ^ w,
           valid := es.flatMap fun x => x.valid, vers := es.map fun x => x.vers, bind := s.me.lqBind[q.val] }

/-- A source of length n, whatever its tag. -/
def State.vraw (s : State) (n : Nat) : VSrc → R VIn
  | .reg v => .ok (s.readReg v n)
  | .lq q  => s.readHead q

/-- A source whose elements are used: tag 0x00 and reserved tags raise ILLEGAL_TAG (R34). -/
def State.vin (s : State) (n : Nat) (v : VSrc) : R VIn := do
  let x ← s.vraw n v
  orTrap (tagOk x.tag) (trapE cILLEGAL_TAG)
  pure x

/-- The popped entry removed from every member's queue. -/
def State.popLq (s : State) (q : Option (Fin 4)) : State :=
  match q with
  | none   => s
  | some q => s.members.foldl (fun s g =>
      let c := s.core g
      let e := c.lq[q.val].ents.head?
      let id := match e with
        | none   => 0
        | some e => e.id
      s.setCore g { c with popMark := max c.popMark id
                           pops := if c.crecvs.isEmpty then c.pops else c.pops ++ (match e with
                             | none   => []
                             | some e => [.entry q e])
                           lq := c.lq.set q.val { c.lq[q.val] with ents := c.lq[q.val].ents.drop 1 } }) s

/-! ## Predicates and masks -/

/-- Bit e of a mask; m0 reads as all ones (R7). -/
def Core.maskBit (c : Core) (m : Fin 16) (e : Nat) : Bool := m == 0 || bit c.masks[m.val] e

/-- The active elements below n (R222); those below VSTART have been performed (R194). -/
def State.active (s : State) (p : Pred) (n : Nat) : List Bool :=
  (List.range n).map fun e => s.performs e && s.me.maskBit p.m e != p.pn

/-- One bit of a number written. -/
def setBit (m e : Nat) (b : Bool) : Nat :=
  if bit m e == b then m else if b then m + 2 ^ e else m - 2 ^ e

/-- Mask bits written where a value is given; a write to m0 is discarded (R262). -/
def Core.putMask (c : Core) (m : Fin 16) (bs : List (Option Bool)) : Core :=
  if m = 0 then c
  else
    let v := bs.zipIdx.foldl (fun v p => match p.1 with
      | none   => v
      | some b => setBit v p.2 b) c.masks[m.val]
    { c with masks := c.masks.set m.val v }

/-! ## Codebook expansion (R50, R299, R304) -/

/-- The version of a bank in a version vector (R139). -/
def versOf (v : BitVec 32) (cb : Fin 8) : Nat := bits v.toNat (4 * cb.val + 3) (4 * cb.val)

/-- The copy of a bank that holds a version; every entry is invalid where neither does (R304). -/
def Bank.copyAt (b : Bank) (v : Nat) : BankCopy :=
  if b.cur.ver.val = v then b.cur
  else if b.other.ver.val = v then b.other
  else { ver := Fin.ofNat 16 v, ents := [], valid := [], mode := b.cur.mode }

def modeTag (m : Nat) : Nat := m % 32
def modeShape (m : Nat) : Nat := bits m 7 5
def modeZero (m : Nat) : Bool := bit m 8
def modeMz (m : Nat) : Fin 16 := Fin.ofNat 16 (m / 2 ^ 9)
/-- Elements of an entry (R303, R306). -/
def modeCount (m : Nat) : Nat := 2 ^ modeShape m

/-- The elements of an entry under a mode (R50). -/
def entryElems (mode : Nat) (x : Word) : List Nat :=
  let w := tagW (modeTag mode)
  (List.range (modeCount mode)).map fun j => x.toNat / 2 ^ (j * w) % 2 ^ w

/-- What expanding element e gave: its elements, or the entry that is invalid. -/
structure Found where
  elems : List Nat
  bad   : Option Nat
  deriving DecidableEq, Repr

/-- Index i through a copy of a bank (R304): j is the entry read. -/
def BankCopy.expand (c : BankCopy) (j : Nat) : Found :=
  if c.valid.getD j false then { elems := entryElems c.mode (c.ents.getD j 0), bad := none }
  else { elems := List.replicate (modeCount c.mode) (zeroBits (modeTag c.mode)), bad := some j }

/-- A codebook source expanded at its active, valid elements, each part through the bank of the member that holds it, at the version that
the part carries (R151, R299): the elements of each entry in order, and the masks that the ZERO policy sets (R304). A part whose version is
still being loaded is waited for. -/
def State.expandAll (s : State) (act : List Bool) (x : VIn) : R (Nat × List (List Nat) × List (Fin 16 × Nat)) :=
  match x.bind with
  | .none         => raise (trapE cILLEGAL)
  | .anchor _ _   => raise (trapE cILLEGAL)
  | .codebook cb off => do
    let w := tagW x.tag
    let ver (i : Nat) : Nat := versOf (x.versAt i) cb
    let bank (i : Nat) : Bank := (s.core (s.members.getD i s.cur.core)).banks[cb.val]
    orWait ((List.range s.members.length).all fun i =>
      x.bits.length ≤ i * s.sliceLen w || !((bank i).busy && (bank i).cur.ver.val == ver i))
    let found := (x.bits.zip (x.valid.zip act)).zipIdx.map fun p =>
      let j := (if x.tag == tCx4 then off + p.1.1 else p.1.1) % 256
      let i := p.2 / s.sliceLen w
      let c := (bank i).copyAt (ver i)
      if p.1.2.1 && p.1.2.2 then (c.expand j, c.mode, p.2) else ({ elems := (c.expand j).elems, bad := none }, c.mode, p.2)
    match found.find? fun f => f.1.bad.isSome && !modeZero f.2.1 with
    | some f => raise (trapE cCBIDX (cb.val * 256 + f.1.bad.getD 0) f.2.2)
    | none   =>
      let mode := ((bank 0).copyAt (ver 0)).mode
      let sets := (found.filter fun f => f.1.bad.isSome && modeMz f.2.1 != 0).map fun f => (modeMz f.2.1, f.2.2)
      pure (mode, found.map fun f => f.1.elems, sets)

/-- A source after row 1 of R225: a codebook source becomes the scalar entries of its bank; a short-vector entry raises
ILLEGAL_TAG. -/
def State.scalarised (s : State) (act : List Bool) (x : VIn) : R (VIn × List (Fin 16 × Nat)) :=
  if !isCx x.tag then .ok (x, [])
  else do
    let (mode, es, sets) ← s.expandAll act x
    orTrap (modeShape mode == 0) (trapE cILLEGAL_TAG)
    pure ({ x with tag := modeTag mode, bits := es.map fun e => e.getD 0 0 }, sets)

/-- The masks that substitutions are recorded in, set (R304). -/
def Core.setMasks (c : Core) (sets : List (Fin 16 × Nat)) : Core :=
  sets.foldl (fun c p => { c with masks := c.masks.set p.1.val (setBit c.masks[p.1.val] p.2 true) }) c

/-! ## Promotion (R225) -/

/-- Row 2: sh8 counts as i16. -/
def row2 (t : Nat) : Nat := if t == tSh8 then tI16 else t

/-- The signed integer tag of a width. -/
def intTag (w : Nat) : Nat :=
  if w ≤ 4 then tI4 else if w ≤ 8 then tI8 else if w ≤ 16 then tI16 else if w ≤ 32 then tI32 else tI64

/-- An integer of width iw with a float (rows 11 to 13). -/
def intFloat (iw f : Nat) : Nat :=
  if iw = 64 || f == tF64 then tF64 else if iw = 32 then tF32 else f

/-- The promoted tag of two tags after rows 1 and 2; none for ILLEGAL_TAG (row 4). -/
def promote (x y : Nat) : Option Nat :=
  let wx := tagW x
  let wy := tagW y
  if isDv x || isDv y then (if x = y then some x else none)
  else if x = y then some x
  else if isSigned x && isSigned y then some (if wx < wy then y else x)
  else if isPlain x && isPlain y then some (if wx < wy then y else x)
  else if isSigned x && isPlain y then some (intTag (max wx (2 * wy)))
  else if isPlain x && isSigned y then some (intTag (max wy (2 * wx)))
  else if isFloat x && isFloat y then some (if wx = wy then tF32 else if wx < wy then y else x)
  else if isFloat y then some (intFloat wx y)
  else some (intFloat wy x)

/-- The value of a source element in the promoted tag: an integer wraps into it (R225), a float source is exact. -/
def promoted (p t x : Nat) : Num :=
  if isFloat p then valueOf t x
  else match valueOf t x with
    | .fin n m e => valueOf p (iBits p (if n then -((shl m e : Nat) : Int) else (shl m e : Nat)))
    | .nan       => .nan
    | .inf g     => .inf g

/-! ## Results -/

/-- The result of one active element. -/
structure ERes where
  bits  : Nat
  valid : Bool
  flags : Nat
  off   : Bool
  deriving DecidableEq, Repr

/-- The result of an active element with an invalid source: zero with validity 0 (R47). -/
def ERes.invalid (tag : Nat) : ERes := { bits := zeroBits tag, valid := false, flags := 0, off := false }

def Rounded.res (r : Rounded) : ERes := { bits := r.bits, valid := true, flags := r.flags, off := r.off }

/-- A value moved or computed without flags. -/
def ERes.plain (x : Nat) (v : Bool) : ERes := { bits := x, valid := v, flags := 0, off := false }

/-- Room for one more entry in a store queue of every member (R80). -/
def State.sqRoom (s : State) (q : Fin 2) (k : Nat) : R Unit :=
  orWait (!s.me.awaits (.sq q) && s.members.all fun g => (s.core g).sq[q.val].ents.length + k ≤ 8)

/-- An entry pushed into a store queue of one core, stamped (R85). -/
def Core.pushSq (c : Core) (q : Fin 2) (tag : Nat) (kind : EntryKind) (n : Nat) (xs : List Word) (v : List Bool)
    (vers : BitVec 32) : Core :=
  let e : Entry := { id := c.nextId, n := n, tag := Fin.ofNat 32 tag, base := c.sq[q.val].ctr, vers := vers, kind := kind,
                     elems := xs, valid := v, ready := true, delivered := true, held := none }
  { c with nextId := c.nextId + 1
           sq := c.sq.set q.val { ents := c.sq[q.val].ents ++ [e]
                                  ctr := c.sq[q.val].ctr + BitVec.ofNat 32 (kind.groups n tag) } }

/-- The version vector that an entry pushed by the i-th member carries: the current one, with the versions of the codebook sources (R263); of two sources of one
bank the later operand's. DEDUCED, log entry 84. -/
def pushVers (c : Core) (i : Nat) (srcs : List VIn) : BitVec 32 :=
  srcs.foldl (fun v x => match x.bind with
    | .codebook cb _ =>
      if isCx x.tag then
        let k := 4 * cb.val
        let n := v.toNat
        BitVec.ofNat 32 (n - bits n (k + 3) k * 2 ^ k + versOf (x.versAt i) cb * 2 ^ k)
      else v
    | .none          => v
    | .anchor _ _    => v) c.cbVers

/-- A vector destination can take its result: a push needs room in every member's queue (R80). -/
def State.destReady (s : State) : VDst → R Unit
  | .reg _ => .ok ()
  | .sq q  => s.sqRoom q 1

/-- The slice g of a result written to register v of the member that holds it (R262). -/
def State.vputReg (s : State) (v : RegNo) (tag : Nat) (res : List (Option ERes)) (srcs : List VIn)
    (g : Nat × Nat × Nat) : State :=
  let c := s.core g.1
  let mine := ((res.drop g.2.1).take g.2.2).map fun r => r.map fun x => (BitVec.ofNat 64 x.bits, x.valid)
  let r := (c.vregs[v.val]).write tag (mine.take (c.capW (tagW tag))) g.2.2
  let r := match isCx tag, srcs with
    | true, x :: _ => { r with vers := x.versAt (s.members.idxOf g.1) }
    | true, []     => r
    | false, _     => r
  s.setCore g.1 { c with vregs := c.vregs.set v.val r }

/-- What a member had made of the entry that the instruction at hand pushes, when a stop found it in flight (R183). -/
def State.madeBefore (s : State) (g : Nat) : List (Word × Bool) :=
  match s.inFlight with
  | none   => []
  | some f => f.pushed.getD (s.members.idxOf g) []

/-- The slice g of a result pushed by the member that holds it (R263): an inactive element is zero with validity 1. -/
def State.vputSq (s : State) (q : Fin 2) (tag : Nat) (res : List (Option ERes)) (srcs : List VIn)
    (g : Nat × Nat × Nat) : State :=
  let mine := ((res.drop g.2.1).take g.2.2).map fun r => match r with
    | none   => (BitVec.ofNat 64 (zeroBits tag), true)
    | some x => (BitVec.ofNat 64 x.bits, x.valid)
  let made := s.madeBefore g.1
  let mine := made ++ mine.drop made.length
  s.setCore g.1 ((s.core g.1).pushSq q tag .data g.2.2 (mine.map fun x => x.1) (mine.map fun x => x.2)
    (pushVers (s.core g.1) (s.members.idxOf g.1) srcs))

/-- A vector destination written (R262, R263): res has one entry per element below n, none for an inactive one. srcs are
the sources, for the versions carried. -/
def State.vputTo (s : State) (d : VDst) (tag n : Nat) (res : List (Option ERes)) (srcs : List VIn) : State :=
  match d with
  | .reg v => (s.slices (tagW tag) n).foldl (fun t g => t.vputReg v tag res srcs g) s
  | .sq q  => (s.slices (tagW tag) n).foldl (fun t g => t.vputSq q tag res srcs g) s

/-- The same, once the destination can take the result. -/
def State.vput (s : State) (d : VDst) (tag n : Nat) (res : List (Option ERes)) (srcs : List VIn) : R State := do
  s.destReady d
  pure (s.vputTo d tag n res srcs)

/-- The lowest element that raises an enabled flag raises FP (R40). -/
def State.flagCheck (s : State) (res : List (Option ERes)) : R Unit :=
  match res.zipIdx.find? fun p => match p.1 with
      | none   => false
      | some r => flagTraps s.me.fctl r.flags with
  | none   => .ok ()
  | some p => raise (trapE cFP ((p.1.map fun r => r.flags).getD 0) p.2)

/-- FFLG and MV.SEEN after a result (R40, R47), and the undefined values used up by reads beyond a shape. -/
def State.vflags (s : State) (res : List (Option ERes)) : State :=
  let fl := res.foldl (fun f r => match r with
    | none   => f
    | some x => f ||| x.flags) 0
  let bad := res.any fun r => match r with
    | none   => false
    | some x => !x.valid
  let c := s.me
  let c1 := { c with fflg := c.fflg ||| fl }
  { s.setMe (if bad then c1.seen else c1) with undefCtr := s.undefCtr + 2 ^ 23 }

/-- How an instruction writes its offender mask: not at all, or at every active element (R43). -/
def offMask (ms : Fin 16) (write : Bool) (res : List (Option ERes)) (c : Core) : Core :=
  if write then c.putMask ms (res.map fun r => r.map fun x => x.off) else c

/-- What the end of an element-wise instruction leaves: result, flags, offenders, substitution masks, pop, retirement. -/
def State.vdoneTo (s : State) (d : VDst) (tag n : Nat) (res : List (Option ERes)) (srcs : List VIn)
    (off : Option (Fin 16)) (sets : List (Fin 16 × Nat)) (q : Option (Fin 4)) (len : Nat) : State :=
  let s2 := (s.vputTo d tag n res srcs).vflags res
  let c := match off with
    | none   => s2.me
    | some m => offMask m true res s2.me
  ((s2.setMe (c.setMasks sets)).popLq q).retireV len

/-- The end of an element-wise instruction: an enabled flag traps, a push waits for room. -/
def State.vdone (s : State) (d : VDst) (tag n : Nat) (res : List (Option ERes)) (srcs : List VIn)
    (off : Option (Fin 16)) (sets : List (Fin 16 × Nat)) (q : Option (Fin 4)) (len : Nat) : R State := do
  s.flagCheck res
  s.destReady d
  pure (s.vdoneTo d tag n res srcs off sets q len)

/-- Whether a result tag is a narrowing of the promoted tag: narrower, of the other kind, or sh8 (R36, R264). -/
def narrows (p r : Nat) : Bool :=
  r != p && (r == tSh8 || tagW r < tagW p || isFloat r != isFloat p)

/-- An exact result in the promoted tag p written under the result tag r (R36, R39, R41, R43, R264). DEDUCED, log entry 58. -/
def encodeResult (p r mode : Nat) (sat : Bool) (x : Exact) : ERes :=
  let v := if isFloat p then x.1 else x.1.noNegZero
  let y : Rounded :=
    if narrows p r then satRound r mode (isFloat p) v
    else if isFloat r then fRound r mode false v
    else if sat then iRound r mode (isFloat p) v
    else iWrap r v
  let z := y.res
  { z with flags := z.flags ||| x.2 }

end Machine
end Sys2Proof
end

