-- ==== Sys2Proof/Machine/Port.lean ====
section
/-!
DEFINITION. The registers of the fabric port, what they say about channels and peers, and the queueing of a packet
(R345 to R348, R352, R353, R357, R359).
-/

namespace Sys2Proof
namespace Machine

/-! ## Registers of the lattice -/

def ctlLambda (f : Nat) : Nat := 0x80000 + 8 * f
def ctlRing (f : Nat) : Nat := 0x80800 + 8 * f
def ctlFabctl : Nat := 0x82000
def ctlFabcfg : Nat := 0x82008
def ctlReach : Nat := 0x82010
def ctlClsmap : Nat := 0x82018
def ctlPeerst (d : Nat) : Nat := 0x82100 + 8 * d

/-- FABCTL.MODE (R357): 0 RUN, 1 DRAIN, 2 DARK, 3 RELOCK. -/
def State.fabMode (s : State) : Nat := (s.ctlGet ctlFabctl).toNat % 4

def State.peer (s : State) (d : Nat) : Peer :=
  match nget s.peers d with
  | some p => p
  | none   => Peer.reset

def State.setPeer (s : State) (d : Nat) (p : Peer) : State := { s with peers := nset s.peers d p }

def State.reaches (s : State) (d : Nat) : Bool := bit s.reach.toNat d

/-- The octet that class c reaches (R345): what CLSMAP named when the port last left DARK (R358). -/
def State.octetOf (s : State) (c : Nat) : Nat := bits s.octets.toNat (3 * c + 2) (3 * c)

/-- The peer that a channel reaches (R345). -/
def State.peerOf (s : State) (f lam : Nat) : Nat := 8 * s.octetOf (f / 32) + (s.dev % 8 + lam) % 8

/-- The wavelength by which this device reaches peer d (R345). -/
def State.lamTo (s : State) (d : Nat) : Nat := (d + 64 - s.dev) % 8

/-- The fibres of the classes that reach a peer's octet (R345). -/
def State.fibresTo (s : State) (d : Nat) : List Nat := (List.range 256).filter fun f => s.octetOf (f / 32) == d / 8

/-- Fields of LAMBDA_EN (R353), by their lowest bits: ON 0, HOME 8, WAKING 16, LIT 24, FAILED 32. -/
def State.lamBit (s : State) (f lo lam : Nat) : Bool := bit (s.ctlGet (ctlLambda f)).toNat (lo + lam)

def State.setLam (s : State) (f lo lam : Nat) (b : Bool) : State :=
  let w := s.ctlGet (ctlLambda f)
  let m : Word := BitVec.ofNat 64 (2 ^ (lo + lam))
  s.ctlSet (ctlLambda f) (if b then w ||| m else w &&& ~~~m)

/-- The fibres of the lit channels that serve a peer, ascending (R348). -/
def State.litTo (s : State) (d : Nat) : List Nat := (s.fibresTo d).filter fun f => s.lamBit f 24 (s.lamTo d)

/-! ## Packets and flits (R347) -/

/-- Bits 31:0 of a framing dword (R347). -/
def flitFrame (f : Flit) : Nat :=
  f.seq % 2 ^ 16 + (if f.crit then 2 ^ 16 else 0) + (if f.hdr then 2 ^ 17 else 0) + f.npay % 32 * 2 ^ 18 + f.rsv % 2 ^ 9 * 2 ^ 23

/-- The CRC of a flit, over its payload and bits 31:0 of its framing (R347). -/
def flitCrc (f : Flit) : BitVec 32 := BitVec.ofNat 32 (crc32c 0 (f.bytes ++ leBytes 4 (flitFrame f)))

/-- A flit that is not discarded: its CRC is right and its reserved bits are zero (R347). -/
def flitGood (f : Flit) : Bool := f.rsv == 0 && f.crc == flitCrc f

/-- A flit as it is sent. -/
def mkFlit (seq : Nat) (crit hdr : Bool) (npay : Nat) (bytes : List Byte) (c : Cargo) : Flit :=
  let f : Flit := { seq := seq % 2 ^ 16, crit := crit, hdr := hdr, npay := npay, rsv := 0, bytes := bytes, crc := 0, cargo := c }
  { f with crc := flitCrc f }

/-- The operand bytes that an access carries to its peer. -/
def opData : PeerOp → List Byte
  | .load _        => []
  | .store bs      => bs
  | .amo _ t b _ _ => leBytes (tagW t.val / 8) b.toNat

/-- The payload of a message (R321). -/
def msgBytes (tag : Fin 32) (xs : List Word) : List Byte := packElems (tagW tag.val) (xs.map BitVec.toNat)

/-- The payload bytes of a packet (R347, R351): the data of its elements, in an index-list packet after the indices of four bytes each. -/
def cargoPayload : Cargo → List Byte
  | .access a        => opData a.op
  | .accesses xs     => xs.flatMap fun a => opData a.op
  | .indexed l       => (l.elems.flatMap fun e => leBytes 4 e.1.toNat) ++ l.elems.flatMap fun e => opData e.2
  | .answer _ (.data bs) => bs
  | .answer _ _      => []
  | .request _ r     => match r.req with
    | .send _ _ _ tag xs _ => msgBytes tag xs
    | .join _   => []
    | .leave _  => []
    | .deleg _ _ => []
    | .state    => []
  | .deliver _ _ _ m => msgBytes m.tag m.elems
  | .giveBack _ _ m  => msgBytes m.tag m.elems
  | .reply _ _ _     => []
  | .unbind _ _ _    => []
  | .ended _ _ _ _   => []
  | .rebound _ _ _   => []
  | .popped _ _ _    => []
  | .unbound _ _ _   => []
  | .park _ _ _      => []
  | .rebind _ _ _ _  => []
  | .resend _ _ _    => []
  | .marker _ _      => []
  | .markerAck _ _   => []
  | .probe           => []
  | .probeAck        => []
  | .handshake _     => []
  | .handshakeAck _  => []
  | .filler          => []

/-- The flits of a packet: a header flit and npay payload flits, numbered on from a SEQ. -/
def packetFlits (base : Nat) (crit : Bool) (npay : Nat) (c : Cargo) : List Flit :=
  let pay (i : Nat) : List Byte :=
    let bs := ((cargoPayload c).drop (64 * i)).take 64
    bs ++ List.replicate (64 - bs.length) 0
  mkFlit base crit true npay (Config.headFlit c).toList c ::
    (List.range npay).map fun i => mkFlit (base + 1 + i) crit false 0 (pay i) .filler

/-- A packet queued at the egress of a peer. -/
def Peer.enqueue (p : Peer) (crit : Bool) (npay : Nat) (c : Cargo) : Peer :=
  if crit then { p with seqC := (p.seqC + 1 + npay) % 2 ^ 16, egressC := p.egressC ++ packetFlits p.seqC true npay c }
  else { p with seqD := (p.seqD + 1 + npay) % 2 ^ 16, egress := p.egress ++ packetFlits p.seqD false npay c }

/-- A packet queued at the egress of a peer: a header flit and npay payload flits, numbered per class. -/
def State.sendCargo (s : State) (d : Nat) (crit : Bool) (npay : Nat) (c : Cargo) : State :=
  s.setPeer d ((s.peer d).enqueue crit npay c)

end Machine
end Sys2Proof
end

