-- ==== Sys2Proof/Machine/Roles.lean ====
section
/-!
DEFINITION. What a conversation's home holds, the role registers of parties, and how the two change without a request:
messages popped, given back and delivered, roles parked and bound again, conversations that end (R202, R205 to R207,
R323, R327).
-/

namespace Sys2Proof
namespace Machine

/-! ## The home (R202) -/

def State.conv (s : State) (i : Nat) : Conv :=
  match nget s.convs i with
  | some c => c
  | none   => Conv.reset

def State.setConv (s : State) (i : Nat) (c : Conv) : State := { s with convs := nset s.convs i c }

/-- CVD of conversation i (R202). -/
def ctlCvd (i : Nat) : Nat := 0x40000 + 8 * i
def State.cvd (s : State) (i : Nat) : Nat := (s.ctlGet (ctlCvd i)).toNat
def cvdEn (w : Nat) : Bool := bit w 63
def cvdTerm (w : Nat) : Bool := bit w 62
def cvdState (w : Nat) : Nat := bits w 61 56
def cvdSlot (w : Nat) : Nat := bits w 55 50
def cvdAsid (w : Nat) : Nat := bits w 47 40

/-- A descriptor's dword from its fields. -/
def cvdWord (en term : Bool) (st slot asid : Nat) : Word :=
  BitVec.ofNat 64 ((if en then 2 ^ 63 else 0) + (if term then 2 ^ 62 else 0) + st % 64 * 2 ^ 56 + slot % 64 * 2 ^ 50 +
    asid % 256 * 2 ^ 40)

def Conv.role (c : Conv) (r : Nat) : RoleSt := c.roles.getD r .unbound
def Conv.queue (c : Conv) (r : Nat) : List Msg := c.queues.getD r []
def Conv.awayOf (c : Conv) (r : Nat) : Nat := c.away.getD r 0

def Conv.setRole (c : Conv) (r : Nat) (x : RoleSt) : Conv :=
  { c with roles := (List.range 16).map fun k => if k = r then x else c.role k }

def Conv.setQueue (c : Conv) (r : Nat) (q : List Msg) : Conv :=
  { c with queues := (List.range 16).map fun k => if k = r then q else c.queue k }

def Conv.setAway (c : Conv) (r n : Nat) : Conv :=
  { c with away := (List.range 16).map fun k => if k = r then n else c.awayOf k }

/-- Message slots that a conversation holds (R205): messages at the home and messages forwarded and not popped. -/
def Conv.slots (c : Conv) : Nat :=
  (c.queues.foldl (fun n q => n + q.length) 0) + c.away.foldl (· + ·) 0

/-- The full id of a conversation of this home (R202). -/
def State.convId (s : State) (i : Nat) : Nat := s.dev * 2 ^ 14 + i % 2 ^ 14

/-- A message placed by its number, ahead of later ones (R207). -/
def insertMsg (m : Msg) : List Msg → List Msg
  | []      => [m]
  | x :: xs => if m.no < x.no then m :: x :: xs else x :: insertMsg m xs

/-- A party has popped a message: its slot is free (R205); one of a conversation that was closed since changes nothing. -/
def State.homePopped (s : State) (i : Nat) (r : Fin 16) (no : Nat) : State :=
  let c := s.conv i
  if no < c.base then s else s.setConv i (c.setAway r.val (c.awayOf r.val - 1))

/-- A role is this party's: bound to it, parked while it is saved, or on its way back to it (R207). -/
def RoleSt.isOf (x : RoleSt) (p : Party) : Bool := x == .bound p || x == .parked p || x == .moving p

/-- A role bound to a party changes; anything else stays. -/
def State.homeRole (s : State) (i : Nat) (r : Fin 16) (p : Party) (x : RoleSt) : State :=
  let c := s.conv i
  if (c.role r.val).isOf p then s.setConv i (c.setRole r.val x) else s

/-- A party gives up a role (R207): at once, or after the requests of its own that reached the home before (R203). -/
def State.homeLeave (s : State) (i : Nat) (r : Fin 16) (p : Party) : State :=
  if s.homeIn.any fun h => h.r.conv % 2 ^ 14 == i && h.r.party == p then
    { s with homeIn := s.homeIn ++ [{ r := { conv := i, party := p, req := .leave r }, src := 0, here := true, rid := 0 }] }
  else s.homeRole i r p .unbound

/-! ## Parties -/

/-- A core of this device as a party (R202). -/
def State.partyOf (s : State) (core : Nat) : Party :=
  { dev := Fin.ofNat 64 s.dev, src := srcOf core, asid := (s.core core).asid.toNat }

/-- The core of a source number (R174). -/
def coreOfSrc (src : Nat) : Nat := src / 2 ^ 13 * 256 + src % 256

/-- A core has the role of a conversation bound. -/
def Core.hasRole (c : Core) (conv : Nat) (r : Fin 16) : Bool :=
  c.roles.toList.any fun x => match x with
    | none   => false
    | some y => y.conv == conv && y.role == r

/-- Where a party's role register stands: on its core, or in a context of its ASID that is saved. -/
def State.holder (s : State) (p : Party) (conv : Nat) (r : Fin 16) : Option Nat :=
  (s.cores.find? fun q => (q.1 == coreOfSrc p.src || 2048 ≤ q.1) && q.2.asid.toNat == p.asid && q.2.hasRole conv r).map fun q => q.1

/-- The role register that holds a role changed. -/
def Core.mapRole (c : Core) (conv : Nat) (r : Fin 16) (f : Role → Option Role) : Core :=
  { c with roles := c.roles.map fun x => match x with
      | none   => none
      | some y => if y.conv == conv && y.role == r then f y else some y }

/-- A message stands in the delivery buffer of its role (R206). -/
def Core.deliver (c : Core) (conv : Nat) (r : Fin 16) (m : Msg) : Core :=
  c.mapRole conv r fun y => some { y with buf := y.buf ++ [m] }

/-- The conversation has ended and no message for the role is left at the home (R323): old news where the home has not bound the role
again yet. -/
def Core.sawEnd (c : Core) (conv : Nat) (r : Fin 16) (st : Fin 64) : Core :=
  c.mapRole conv r fun y => some (if y.waits then y else { y with ended := some st })

/-- A message may be delivered to a core of the party it is addressed to: not while the home has not bound the role again (R207,
R208). -/
def Core.mayDeliver (c : Core) (p : Party) (conv : Nat) (r : Fin 16) : Bool :=
  c.asid.toNat == p.asid && c.hasRole conv r && c.roles.toList.all fun x => match x with
    | none   => true
    | some y => !(y.conv == conv && y.role == r) || !y.waits

/-- Whether a register holds a role. -/
def Core.holdsRole (c : Core) (cv : Fin 4) (conv : Nat) (r : Fin 16) : Bool :=
  match c.roles[cv.val] with
  | none   => false
  | some y => y.conv == conv && y.role == r

/-- The home has closed the conversation: the register becomes unbound, its buffer is emptied, and receives that wait
on it are marked (R323, R327). -/
def Core.unbind (c : Core) (conv : Nat) (r : Fin 16) : Core :=
  { c.mapRole conv r fun _ => none with
    crecvs := c.crecvs.map fun w => if c.holdsRole w.cv conv r then { w with gone := true } else w }

def State.partyUnbind (s : State) (p : Party) (conv : Nat) (r : Fin 16) : State :=
  match s.holder p conv r with
  | none   => s
  | some n => s.setCore n ((s.core n).unbind conv r)

def State.partyEnd (s : State) (p : Party) (conv : Nat) (r : Fin 16) (st : Fin 64) : State :=
  match s.holder p conv r with
  | none   => s
  | some n => s.setCore n ((s.core n).sawEnd conv r st)

/-- The home has bound the role of a restored context again: what it forwards from now on may be delivered (R207). -/
def State.partyRebound (s : State) (p : Party) (conv : Nat) (r : Fin 16) : State :=
  match s.holder p conv r with
  | none   => s
  | some n => s.setCore n ((s.core n).mapRole conv r fun y => some { y with waits := false })

/-- The party of a role learns that the conversation has ended, once no message for it is left at the home (R323). -/
def State.tellEnd (s : State) (i : Nat) (r : Nat) : State :=
  let w := s.cvd i
  let c := s.conv i
  if cvdEn w && cvdTerm w && (c.queue r).isEmpty then
    match c.role r with
    | .bound p   =>
      let st : Fin 64 := Fin.ofNat 64 (cvdState w)
      if p.dev.val == s.dev then s.partyEnd p (s.convId i) (Fin.ofNat 16 r) st
      else s.sendCargo p.dev.val true 0 (.ended p (s.convId i) (Fin.ofNat 16 r) st)
    | .parked _  => s
    | .moving _  => s
    | .offered _ => s
    | .unbound   => s
  else s

/-- A role is bound to the core that its context was restored on, and the party learns of it (R207). -/
def State.homeBinds (s : State) (i : Nat) (r : Fin 16) (p : Party) : State :=
  let s1 := s.setConv i ((s.conv i).setRole r.val (.bound p))
  let s2 := if p.dev.val == s.dev then s1.partyRebound p (s.convId i) r else s1.sendCargo p.dev.val true 0 (.rebound p (s.convId i) r)
  s2.tellEnd i r.val

/-- A role bound to a saved context is bound to the core it was restored on, once every message that was on its way when the context
stopped has returned (R207, R208). -/
def State.homeRebind (s : State) (i : Nat) (r : Fin 16) (old new : Party) : State :=
  let c := s.conv i
  if !(c.role r.val).isOf old then s
  else if c.awayOf r.val = 0 then s.homeBinds i r new
  else s.setConv i (c.setRole r.val (.moving new))

/-- A buffered message has returned (R207); one of a closed conversation is discarded. The last one that a restored context's role waited
for binds it. -/
def State.homeGiveBack (s : State) (i : Nat) (r : Fin 16) (m : Msg) : State :=
  let c := s.conv i
  if !cvdEn (s.cvd i) || m.no < c.base then s
  else
    let s1 := s.setConv i ((c.setAway r.val (c.awayOf r.val - 1)).setQueue r.val (insertMsg m (c.queue r.val)))
    match c.role r.val with
    | .moving p  => if c.awayOf r.val ≤ 1 then s1.homeBinds i r p else s1
    | .bound _   => s1
    | .parked _  => s1
    | .offered _ => s1
    | .unbound   => s1

/-- A message returns to its home. -/
def State.giveBack (s : State) (conv : Nat) (r : Fin 16) (m : Msg) : State :=
  if conv / 2 ^ 14 == s.dev then s.homeGiveBack (conv % 2 ^ 14) r m
  else s.sendCargo (conv / 2 ^ 14) true (if m.elems.isEmpty then 0 else 1) (.giveBack conv r m)

/-- A message from a home: it is delivered to the register of the party it is addressed to, or goes back where that one may not take it
(R206, R207). -/
def State.partyDeliver (s : State) (p : Party) (conv : Nat) (r : Fin 16) (m : Msg) : State :=
  let n := coreOfSrc p.src
  if (s.core n).mayDeliver p conv r then s.setCore n ((s.core n).deliver conv r m) else s.giveBack conv r m

/-! ## Buffered messages that return, and roles given up (R207) -/

/-- The messages of a role register return to its home, in order. -/
def State.giveBackAll (s : State) (y : Role) : State :=
  y.buf.foldl (fun s m => s.giveBack y.conv y.role m) s

/-- The home learns that a party stops, leaves or is bound again. -/
def State.tellHome (s : State) (y : Role) (here : State → State) (c : Cargo) : State :=
  if y.conv / 2 ^ 14 == s.dev then here s else s.sendCargo (y.conv / 2 ^ 14) true 0 c

/-- Roles of a party given up (R207): the messages return and the roles are unbound; where the home lies outside REACH
everything is discarded and a kind 12 event is logged. -/
def State.unbindRoles (s : State) (p : Party) (src taskId : Nat) (ys : List Role) : State :=
  ys.foldl (fun s y =>
    if s.reaches (y.conv / 2 ^ 14) then
      (s.giveBackAll y).tellHome y (fun s => s.homeLeave (y.conv % 2 ^ 14) y.role p) (.unbound y.conv y.role p)
    else s.logEvent 12 src 0xFF noElem y.conv taskId 0) s

/-- The role registers of a core at done or removal (R207, R332). -/
def State.dropRoles (s : State) (core taskId : Nat) : State :=
  let c := s.core core
  let s1 := s.unbindRoles (s.partyOf core) (srcOf core) taskId (c.roles.toList.filterMap id ++ c.leaving)
  s1.setCore core { s1.core core with roles := Vector.replicate 4 none, leaving := [] }

/-- A core is freed: a join of its task that is still out is remembered, so that the role can be given up if the home grants it (R205). -/
def State.letGo (s : State) (core : Nat) : State :=
  let c := s.core core
  let keep (i : ConvOp) (k : Nat) : State := match i with
    | .join _ role _ => { s with strays := s.strays ++ [{ no := c.reqNo, conv := k, role := role, party := s.partyOf core }] }
    | .send _ _ _    => s
    | .choose _ _    => s
    | .deleg _       => s
    | .leave _       => s
    | .state _ _     => s
  match c.conv with
  | some (.sent i k)      => keep i k
  | some (.void i k)      => keep i k
  | some (.replied _ _ _) => s
  | some (.again _ _)     => s
  | some (.release _)     => s
  | none                  => s

/-- The homes of roles that a removal has unbound are told (R207). DESIGN CHOICE, log entry 34. -/
def State.tellLeaving (s : State) : State :=
  s.cores.foldl (fun s q =>
    if q.2.leaving.isEmpty then s
    else
      let id := match q.2.task.bind s.task with
        | none   => 0
        | some t => t.cont.taskid.toNat
      let s1 := s.unbindRoles (s.partyOf q.1) (srcOf q.1) id q.2.leaving
      s1.setCore q.1 { s1.core q.1 with leaving := [] }) s

end Machine
end Sys2Proof
end

