-- ==== Sys2Proof/Machine/Lattice.lean ====
section
/-!
DEFINITION. The fabric port: packets and flits, sending and receiving, accesses of and to peers, lost peers, channels
that are lit, parked and woken, and the modes of the port (R11, R12, R102, R107, R345 to R359, R401, R402).
-/

namespace Sys2Proof
namespace Machine

/-! ## Accesses sent to peers -/

/-- What an access asks of a peer at one of its spans (R11, R351). -/
def Access.ask (x : Access) (j : Nat) : Option PeerOp :=
  let size := (x.spans.getD j (0, 0)).2
  match x.kind with
  | .load _ _ _   => some (.load size)
  | .fill _ _ _   => some (.load size)
  | .writes data  => some (.store ((data.getD j []).take size))
  | .amo _ op tag bs c _ _ _ => some (.amo op tag (bs.getD j 0) c x.rm)
  | .stq _ _ _ _  => none
  | .stab _ _ _ _ _ _ => none
  | .arm _        => none
  | .arrive _     => none
  | .await _ _ _  => none
  | .value _ _    => none

def opFlits : PeerOp → Nat
  | .load _      => 0
  | .store bs    => ceilDiv bs.length 64
  | .amo _ _ _ _ _ => 1

/-- The payload bytes of one span's element in a packet: its data, and its index in an index-list packet (R351). -/
def Access.payload (x : Access) (j : Nat) : Nat :=
  let size := (x.spans.getD j (0, 0)).2
  let data := match x.ask j with
    | some (.load _)      => 0
    | some (.store bs)    => bs.length
    | some (.amo _ _ _ _ _) => size
    | none                => 0
  data + if x.list.isSome then 4 else 0

/-- A span joins a packet that holds others (R347, R348, R351): at most 1 KiB of payload, at most 256 elements of an index list, and
within one 1 KiB of addresses. -/
def Access.joins (x : Access) (js : List Nat) (j : Nat) : Bool :=
  let block (i : Nat) : Nat := (x.spans.getD i (0, 0)).1 / 1024
  ((js ++ [j]).map x.payload).sum ≤ 1024 && js.all fun i => block i == block j

/-- The spans of an access cut into packets, in ascending order (R351). -/
def Access.packets (x : Access) (js : List Nat) : List (List Nat) :=
  (js.foldl (fun (r : List (List Nat)) j => match r with
    | []      => [[j]]
    | p :: ps => if x.joins p j then (p ++ [j]) :: ps else [j] :: p :: ps) []).reverse

/-- The index of an element of an index list: how many elements its address lies from the base (R239, R351). -/
def indexOf (base va size : Nat) : BitVec 32 := BitVec.ofInt 32 (signedOf 56 ((va + 2 ^ 56 - base % 2 ^ 56) % 2 ^ 56) / (size : Int))

/-- The accesses that an index-list packet asks for (R351). -/
def listAccesses (l : IndexList) : List PeerAccess :=
  l.elems.zipIdx.map fun e =>
    { sender := l.sender, asid := l.asid, super := l.super, va := (Int.emod ((l.base : Int) + e.1.1.toInt * (l.size : Int)) (2 ^ 56)).toNat,
      tag := l.tag + e.2, op := e.1.2 }

/-- Spans of an access sent to their peer as one packet (R351). -/
def State.sendPacket (s : State) (core d : Nat) (x : Access) (js : List Nat) : State :=
  let p := s.peer d
  let va (j : Nat) : Nat := (x.spans.getD j (0, 0)).1 % 2 ^ 56
  let size := (x.spans.getD (js.headD 0) (0, 0)).2
  let one (q : Nat × Nat) : Option PeerAccess := (x.ask q.1).map fun op =>
    { sender := Fin.ofNat 64 s.dev, asid := x.asid, super := x.super, va := va q.1, tag := p.nextTag + q.2, op := op }
  let cargo : Cargo := match x.list with
    | some b => .indexed { sender := Fin.ofNat 64 s.dev, asid := x.asid, super := x.super, base := b.toNat % 2 ^ 56, size := size,
                           tag := p.nextTag,
                           elems := js.filterMap fun j => (x.ask j).map fun op => (indexOf b.toNat (va j) size, op) }
    | none   => match js.zipIdx.filterMap one with
      | [a] => .access a
      | xs  => .accesses xs
  let s1 := (s.setPeer d { p with nextTag := p.nextTag + js.length }).sendCargo d false (ceilDiv (js.map x.payload).sum 64) cargo
  s1.setCore core ((s1.core core).mapPend x.id fun y => { y with sent := y.sent ++ js.zipIdx.map fun q => (q.1, p.nextTag + q.2) })

/-- The spans that were sent to a peer count as performed for what follows them to that peer: packets of one sender are
performed in order (R102, R348). -/
def Access.assumeSent (x : Access) (d : Nat) : Access :=
  { x with ans := x.ans.zipIdx.map fun p =>
      if p.1.isNone && (x.sent.any fun q => q.1 == p.2) && peerOfKey (x.spans.getD p.2 (0, 0)).1 == d then some [] else p.1 }

/-- The spans of one access that may be sent to a peer, with the accesses es before it and ys after it in the list, in ascending order. -/
def Access.sendable (x : Access) (d : Nat) (es ys : List Access) : List Nat :=
  ((List.range x.spans.length).foldl (fun (r : Access × List Nat) j =>
    let k := (x.spans.getD j (0, 0)).1
    if keyIsPeer k && peerOfKey k == d && (x.ask j).isSome && mayPerform (x.earlier j es ys) (r.1.assumeSent d) j then
      ({ r.1 with sent := r.1.sent ++ [(j, 0)] }, r.2 ++ [j])
    else r) (x, [])).2

/-- These spans sent, packet by packet. -/
def State.packAccess (s : State) (core d : Nat) (es : List Access) (x : Access) : State × Access :=
  let js := x.sendable d es (((s.core core).pend.dropWhile fun y => y.id != x.id).drop 1)
  ((x.packets js).foldl (fun s p => s.sendPacket core d x p) s, { x with sent := x.sent ++ js.map fun j => (j, 0) })

/-- Every access of the device whose order allows it is queued at the egress of a peer, core by core, in program
order. -/
def State.pack (s : State) (d : Nat) : State :=
  s.cores.foldl (fun s q =>
    (q.2.pend.foldl (fun (r : State × List Access) x =>
      match r.1.packAccess q.1 d r.2 x with
      | (s1, y) => (s1, r.2 ++ [y.assumeSent d])) (s, [])).1) s

/-! ## Answers of peers (R12) -/

/-- Whether a fault at a peer is taken by the access itself: reads, and atomics that keep a result. -/
def AccKind.takesFault (k : AccKind) : Bool := k.isLate

/-- A peer's answer to the packet of one span (R12): data and acknowledgements perform it; a fault of a read is kept for
the instruction that waits, a fault of a store is recorded for the next system fence. -/
def State.answerPeer (s : State) (core : Nat) (x : Access) (j : Nat) (a : PeerAns) : State :=
  let size := (x.spans.getD j (0, 0)).2
  let c := s.core core
  match a with
  | .data bs    => s.answerSpan core x.id j (bs.take size ++ List.replicate (size - bs.length) 0)
  | .ack        => s.answerSpan core x.id j []
  | .fault prot =>
    if x.kind.takesFault then
      let upd (w : PeerWait) : PeerWait :=
        if w.id == x.id && (match w.fault with
          | none   => true
          | some f => j < f.1) then { w with fault := some (j, prot) } else w
      let c1 := { c with peerWait := c.peerWait.map upd }
      match x.kind with
      | .fill _ _ _       => (s.setCore core c1).answerSpan core x.id j (List.replicate size 0)
      | .load _ _ _       => s.setCore core (c1.dropPend x.id)
      | .amo _ _ _ _ _ _ _ _ => s.setCore core (c1.dropPend x.id)
      | .writes _         => s.setCore core c1
      | .stq _ _ _ _      => s.setCore core c1
      | .stab _ _ _ _ _ _ => s.setCore core c1
      | .arm _            => s.setCore core c1
      | .arrive _         => s.setCore core c1
      | .await _ _ _      => s.setCore core c1
      | .value _ _        => s.setCore core c1
    else
      let k := (x.spans.getD j (0, 0)).1
      let f : PeerFault := { peer := peerOfKey k, id := x.id, elem := j, addr := BitVec.ofNat 64 k, prot := prot }
      (s.setCore core { c with peerFaults := c.peerFaults ++ [f] }).answerSpan core x.id j []

/-- Every open span of the device that was sent to a peer: core, access, span and packet tag. -/
def State.outstanding (s : State) (d : Nat) : List (Nat × Access × Nat × Nat) :=
  s.cores.flatMap fun q => q.2.pend.flatMap fun x => x.sent.filterMap fun p =>
    if peerOfKey (x.spans.getD p.1 (0, 0)).1 == d && (x.ans.getD p.1 none).isNone then some (q.1, x, p.1, p.2) else none

/-- The cards of every pane changed. -/
def State.mapCards (s : State) (f : Card → Card) : State :=
  { s with panes := s.panes.map fun p => { p with cards := p.cards.map f } }

/-- An answer for an engine. -/
def Card.hear (k : Card) (d tag : Nat) (a : PeerAns) : Card :=
  { k with asked := k.asked.map fun q => if q.peer == d && q.tag == tag then (match a with
      | .data bs    => { q with got := some bs }
      | .ack        => { q with got := some [] }
      | .fault prot => { q with fault := some prot }) else q }

/-- A peer's answer reaches whatever asked (R12): an access of a core, or an engine. -/
def State.hearPeer (s : State) (d tag : Nat) (a : PeerAns) : State :=
  match (s.outstanding d).find? fun q => q.2.2.2 == tag with
  | some (core, x, j, _) => s.answerPeer core x j a
  | none                 => s.mapCards fun k => k.hear d tag a

/-- PEER_RESPONSE (R12). -/
def execPeerResponse (d : Fin 64) (tag : Nat) (a : PeerAns) (s : State) : Host.Outcome State Fault Refusal :=
  .next (s.hearPeer d.val tag a)

/-! ## Accesses of peers (R11, R12) -/

/-- A peer's access translated by this device's tables under the ASID of the same number and performed in full: the
state after it and the answer. A stream fault of an aperture read is answered as PROT. DESIGN CHOICE, log entry 77. -/
def State.servePeer (s : State) (a : PeerAccess) : State × PeerAns :=
  let size := match a.op with
    | .load n        => n
    | .store bs      => bs.length
    | .amo _ t _ _ _ => tagW t.val / 8
  let acc : Acc := match a.op with
    | .load _        => .read
    | .store _       => .write
    | .amo _ _ _ _ _ => .amo
  let h : How := { core := 0, super := a.super, asid := a.asid, acc := acc, scalar := true, size := size }
  match s.virtPlace h (BitVec.ofNat 64 a.va) with
  | .error (.trap t) => (s, .fault (t.code == cPROT))
  | .error .wait     => (s, .fault false)
  | .error (.page _ _ _) => (s, .fault false)
  | .ok p =>
    match a.op, p with
    | .load n, _        => (match s.readPlace p n with
      | .ok bs   => (s, .data bs)
      | .error _ => (s, .fault true))
    | .store bs, .mem k => ({ s with mem := Memory.writeN s.mem k bs }, .ack)
    | .store _, _       => (s, .fault true)
    | .amo op t b c rm, .mem k =>
      let old := Memory.readN s.mem k size
      let new := leBytes size (amoNew rm op t.val (leNat old) b.toNat c.toNat)
      ({ s with mem := Memory.writeN s.mem k new }, .data old)
    | .amo _ _ _ _ _, _ => (s, .fault true)

/-- Whether a packet's operation is a store. -/
def opStores : PeerOp → Bool
  | .store _       => true
  | .load _        => false
  | .amo _ _ _ _ _ => false

/-- A peer's access performed and answered (R12); an answer with data carries it as payload, element by element, and what a fence waits
for, the acknowledgement or the fault acknowledgement of a store, is critical (R350). DEDUCED, log entry 81. -/
def State.peerArrives (s : State) (a : PeerAccess) : State :=
  match s.servePeer a with
  | (s1, r) =>
    let n := match r with
      | .data bs => ceilDiv bs.length 64
      | .ack     => 0
      | .fault _ => 0
    s1.sendCargo a.sender.val (opStores a.op) n (.answer a.tag r)

/-- PEER_ACCESS_ARRIVAL (R11, R12). DESIGN CHOICE, log entry 1. -/
def execPeerAccessArrival (a : PeerAccess) (s : State) : Host.Outcome State Fault Refusal := .next (s.peerArrives a)

/-! ## Sending (R348, R350) -/

/-- The first lit channel after the one that carried the peer's previous flit (R348). -/
def nextFibre (lit : List Nat) (pos : Nat) : Option Nat :=
  match lit.find? fun f => pos ≤ f with
  | some f => some f
  | none   => lit.head?

/-- The lit channel that carries a copy of a critical flit (R350): the first copy goes on plane 0 and the second on plane 1, both on one
plane where the other has none lit; a drain marker goes on the channel that it names (R357). Which lit channel of a plane it is, the manual
leaves open: the lowest. DESIGN CHOICE, log entry 81. -/
def State.critFibre (s : State) (d : Nat) (f : Flit) (second : Bool) : Option Nat :=
  let lit := s.litTo d
  let on (n : Nat) : Option Nat := lit.find? fun k => k / 16 % 2 == n
  let any := if second then (on 1).or (on 0) else (on 0).or (on 1)
  match f.cargo with
  | .marker _ ch => if lit.contains ch.fibre.val then some ch.fibre.val else any
  | _            => any

/-- A flit that is sent once (R357): a drain marker, which belongs to its channel. -/
def sentOnce (f : Flit) : Bool :=
  match f.cargo with
  | .marker _ _ => true
  | _           => false

/-- A flit that restarts the numbers, or answers one that did: no SEQ orders it (R352). -/
def unordered (f : Flit) : Bool :=
  match f.cargo with
  | .handshake _    => true
  | .handshakeAck _ => true
  | _               => false

/-- A flit stays in the window until it is acknowledged (R349), but for those that restart the numbers, and a marker that no one
awaits (R357). -/
def State.windowed (s : State) (d : Nat) (f : Flit) : Bool :=
  !unordered f && d != s.dev && match f.cargo with
    | .marker _ ch => s.markers.contains ch
    | _            => true

/-- Flits of a class in the window of a peer. -/
def Peer.waiting (p : Peer) (crit : Bool) : List Flit := p.window.filter fun f => f.crit == crit

/-- Whether the port sends the next flit of a class to a peer (R349, R357, R352), or the acknowledgements that it owes. -/
def State.mayTransmit (s : State) (d : Nat) (crit : Bool) : Bool :=
  let p := s.peer d
  let lit := !(s.litTo d).isEmpty
  match s.fabMode, crit with
  | 2, _     => false
  | _, true  => lit && (!p.egressC.isEmpty || !p.acks.isEmpty)
  | 3, false => false
  | m, false => lit && p.shake.isNone && (!p.again.isEmpty || ((p.waiting false).length < 4096 && p.allow < 512 &&
    (match p.egress with
      | []     => false
      | f :: _ => m == 0 || !f.hdr)))

/-- The silence timer of a peer starts when traffic becomes outstanding after none was (R107). -/
def Peer.startTimer (p : Peer) (now : Word) : Peer :=
  { p with outSince := match p.outSince with
      | none   => some now
      | some t => some t }

/-- The silence timer of a peer runs: the port is in RUN or DRAIN and the peer has a lit channel (R107, R355, R358). -/
def State.timed (s : State) (d : Nat) : Bool := s.fabMode < 2 && !(s.litTo d).isEmpty

/-- A good flit of a peer, or its acknowledgement: a probe ends, and the timer, where it runs, starts from zero (R107). -/
def Peer.heard (p : Peer) (now : Word) (runs : Bool) : Peer :=
  { p with lastGood := now, probeAt := none, outSince := if p.window.isEmpty || !runs then none else some now }

/-! ## Lost peers (R107) -/

/-- A store-queue store whose data X has yet to push. -/
def AccKind.isClaim : AccKind → Bool
  | .stq _ _ _ _      => true
  | .load _ _ _       => false
  | .fill _ _ _       => false
  | .writes _         => false
  | .stab _ _ _ _ _ _ => false
  | .amo _ _ _ _ _ _ _ _ => false
  | .arm _            => false
  | .arrive _         => false
  | .await _ _ _      => false
  | .value _ _        => false

/-- What declaring a peer lost does (R107): its REACH bit and its window are cleared, every access outstanding to it
completes with zeros, invalid in a load queue, and enters the pending loss set, a claimed store too (R106); a conversation instruction that waits
for that home gets PEER_LOST (R205). -/
def State.declareLost (s : State) (d : Nat) : State :=
  let p := s.peer d
  let s1 := { s.setPeer d { p with lost := true, window := [], again := [], egress := [], egressC := [], allow := 0, outSince := none,
                                   probeAt := none, shake := none, ingress := [], heldC := [], trimmed := [], acks := [], copy := none } with
    reach := s.reach &&& ~~~(BitVec.ofNat 64 (2 ^ d))
    markers := s.markers.filter fun ch => s.peerOf ch.fibre.val ch.lam.val != d
    strays := s.strays.filter fun x => x.conv / 2 ^ 14 != d }
  let todo := s1.cores.flatMap fun q => q.2.pend.flatMap fun x => (List.range x.spans.length).filterMap fun j =>
    let k := (x.spans.getD j (0, 0)).1
    if keyIsPeer k && peerOfKey k == d && (x.ans.getD j none).isNone && ((x.ask j).isSome || x.kind.isClaim) then some (q.1, x, j) else none
  let zero (x : Access) (j : Nat) : List Byte :=
    match x.kind with
    | .load _ _ _   => List.replicate (x.spans.getD j (0, 0)).2 0
    | .amo _ _ _ _ _ _ _ _ => List.replicate (x.spans.getD j (0, 0)).2 0
    | .fill _ _ _   => []
    | .writes _     => []
    | .stq _ _ _ _  => []
    | .stab _ _ _ _ _ _ => []
    | .arm _        => []
    | .arrive _     => []
    | .await _ _ _  => []
    | .value _ _    => []
  let s2 := todo.foldl (fun s q =>
    let c := s.core q.1
    let m : Word := BitVec.ofNat 64 (2 ^ d)
    let s' := s.setCore q.1 { c with lossSet := c.lossSet ||| m
                                     lostStores := if q.2.1.kind.takesFault then c.lostStores else c.lostStores ++ [(q.2.1.id, d)] }
    s'.answerSpan q.1 q.2.1.id q.2.2 (zero q.2.1 q.2.2)) s1
  let asking := s2.panes.toList.flatMap fun p => (p.cards.filter fun k => k.asked.any fun q => q.peer == d && q.got.isNone && q.fault.isNone).map
    fun k => k.core
  let lose (s : State) (n : Nat) : State := s.setCore n { s.core n with lossSet := (s.core n).lossSet ||| BitVec.ofNat 64 (2 ^ d) }
  let s3 := (asking.foldl lose s2).mapCards fun k => { k with asked := k.asked.filter fun q => q.peer != d }
  { s3 with cores := s3.cores.map fun q =>
      (q.1, match q.2.conv with
        | some (.sent i k)      => if k / 2 ^ 14 == d then { q.2 with conv := some (.replied i k .lost) } else q.2
        | some (.void _ k)      => if k / 2 ^ 14 == d then { q.2 with conv := none } else q.2
        | some (.replied _ _ _) => q.2
        | some (.again _ _)     => q.2
        | some (.release _)     => q.2
        | none                  => q.2) }

/-- PEER_SILENCE_TIMEOUT (R107): after 16 µs of silence a probe is sent on both planes. -/
def execPeerSilenceTimeout (d : Fin 64) (s : State) : Host.Outcome State Fault Refusal :=
  .next <|
    let p := s.peer d.val
    match p.outSince with
    | none   => s
    | some t =>
      if p.probeAt.isNone && t.toNat + 16000 ≤ s.gts.toNat && s.fabMode < 2 && !(s.litTo d.val).isEmpty then
        (s.setPeer d.val { p with probeAt := some s.gts }).sendCargo d.val true 0 .probe
      else s

/-- PEER_LOST_DECLARED (R107): a probe unanswered for 4 µs declares the peer lost. -/
def execPeerLostDeclared (d : Fin 64) (s : State) : Host.Outcome State Fault Refusal :=
  .next (match (s.peer d.val).probeAt with
    | none   => s
    | some t => if t.toNat + 4000 ≤ s.gts.toNat then s.declareLost d.val else s)

/-! ## The handshake of a peer that REACH takes back (R352) -/

/-- The packets of a class that a peer has not acknowledged or that are still to leave, but for handshakes. -/
def Peer.packetsOf (p : Peer) (crit : Bool) : List Flit :=
  (p.waiting crit ++ if crit then p.egressC else p.egress).filter fun f => f.hdr && !unordered f

/-- Sequence numbers, allowance and window of a peer start again, on either side of a handshake (R352): what is first sent is the handshake
or its answer, and then what was not acknowledged or had not left, as new packets. DESIGN CHOICE, log entry 91. -/
def Peer.restart (p : Peer) (first : Cargo) : Peer :=
  let q : Peer := { p with seqD := 0, seqC := 0, expD := 0, expC := 0, pos := 0, egress := [], egressC := [], window := [], again := [],
                           allow := 0, ingress := [], heldC := [], trimmed := [], acks := [], copy := none, outSince := none,
                           probeAt := none }
  let send (crit : Bool) (q : Peer) (f : Flit) : Peer := q.enqueue crit f.npay f.cargo
  (p.packetsOf false).foldl (send false) ((p.packetsOf true).foldl (send true) (q.enqueue true 0 first))

/-- A write of REACH (R352): a bit set for a lost peer first runs the handshake. -/
def State.writeReach (s : State) (v : Word) : State :=
  let s1 := { s with reach := v }
  (List.range 64).foldl (fun s d =>
    let p := s.peer d
    if bit v.toNat d && p.lost then
      s.setPeer d { p.restart (.handshake (p.shakeNo + 1)) with lost := false, shake := some s.gts, shakeNo := p.shakeNo + 1 }
    else s) s1

/-- REACH_WRITE (R352). -/
def execReachWrite (v : Word) (s : State) : Host.Outcome State Fault Refusal := .next (s.writeReach v)

/-- The handshake of a peer has been answered (R352). -/
def State.shaken (s : State) (d : Nat) : State :=
  match (s.peer d).shake with
  | none   => s
  | some _ => s.setPeer d { s.peer d with shake := none }

/-- REACH_HANDSHAKE_COMPLETE (R352). -/
def execReachHandshakeComplete (d : Fin 64) (s : State) : Host.Outcome State Fault Refusal := .next (s.shaken d.val)

/-- REACH_HANDSHAKE_TIMEOUT (R352): a handshake unanswered for 20 µs declares the peer lost again. -/
def execReachHandshakeTimeout (d : Fin 64) (s : State) : Host.Outcome State Fault Refusal :=
  .next (match (s.peer d.val).shake with
    | none   => s
    | some t => if t.toNat + 20000 ≤ s.gts.toNat then s.declareLost d.val else s)

/-! ## Receiving (R347 to R350) -/

/-- FABCFG.TRIM; 0 is taken as 1 (R359). -/
def State.trimAt (s : State) : Nat := max 1 (bits (s.ctlGet ctlFabcfg).toNat 24 16)

/-- A join that nobody waits for any more was granted (R205): the role is given up for the party it was made for. -/
def State.dropStray (s : State) (no : Nat) (granted : Bool) : State :=
  match s.strays.find? fun x => x.no == no with
  | none   => s
  | some x =>
    let s1 := { s with strays := s.strays.filter fun y => y.no != no }
    if !granted then s1
    else if x.conv / 2 ^ 14 == s.dev then s1.homeLeave (x.conv % 2 ^ 14) x.role x.party
    else s1.sendCargo (x.conv / 2 ^ 14) true 0 (.unbound x.conv x.role x.party)

/-- A home's reply to a request reaches the core whose instruction waits (R205); a join that it grants binds the register at once, so
that nothing the home sends next is missed. Where the instruction is gone, the reply changes nothing, and a role that was granted is given
up. -/
def State.replyTo (s : State) (core no : Nat) (r : HomeReply) : State :=
  let c := s.core core
  let bound (k : Nat) (role : Fin 16) : Role := { conv := k, role := role, buf := [], ended := none, waits := false }
  if c.reqNo != no then s.dropStray no (r == .accepted)
  else match c.conv with
  | some (.sent i k)      =>
    let c1 := { c with conv := some (.replied i k r) }
    s.setCore core (match i, r with
      | .join cv role _, .accepted => { c1 with roles := c1.roles.set cv.val (some (bound k role)) }
      | _, _                       => c1)
  | some (.void i k)      =>
    let c1 := { c with conv := none }
    s.setCore core (match i, r with
      | .join _ role _, .accepted => { c1 with leaving := c1.leaving ++ [bound k role] }
      | _, _                      => c1)
  | some (.replied _ _ _) => s.dropStray no (r == .accepted)
  | some (.again _ _)     => s.dropStray no (r == .accepted)
  | some (.release _)     => s.dropStray no (r == .accepted)
  | none                  => s.dropStray no (r == .accepted)

/-- The drain marker of a channel has been acknowledged (R357): one of an earlier drain counts for nothing. -/
def State.markerDone (s : State) (no : Nat) (ch : Channel) : State :=
  if no == s.drainNo then { s with markers := s.markers.filter fun c => !(c == ch) } else s

/-- Flits of the window to a peer are to be sent again (R349): n of a class from a SEQ on. -/
def State.resend (s : State) (d : Nat) (crit : Bool) (seq n : Nat) : State :=
  let p := s.peer d
  let fs := (p.waiting crit).filter fun f => (f.seq + 2 ^ 16 - seq) % 2 ^ 16 < n
  s.setPeer d (if crit then { p with egressC := p.egressC ++ fs } else { p with again := p.again ++ fs.filter fun f => !p.again.contains f })

/-- A handshake of a peer (R352): everything starts again on this side too, and it is answered; the other copy of it changes nothing. Whether
this device holds the peer lost, or awaits an answer of its own, stays as it is. -/
def State.shakeIn (s : State) (d no : Nat) : State :=
  let p := s.peer d
  if p.shookNo == some no then s else s.setPeer d { p.restart (.handshakeAck no) with shookNo := some no }

/-- The answer to this device's handshake (R352): what the peer sends is numbered anew from it on. -/
def State.shakeAck (s : State) (d no : Nat) : State :=
  let p := s.peer d
  if p.shake.isSome && p.shakeNo == no then
    (s.setPeer d { p with expD := 0, ingress := [], heldC := [], trimmed := [], acks := [] }).shaken d
  else s

/-- The effect of a packet that is complete and in its turn. -/
def State.cargoIn (s : State) (d : Nat) (c : Cargo) : State :=
  match c with
  | .access a        => s.peerArrives a
  | .accesses xs     => xs.foldl (fun s a => s.peerArrives a) s
  | .indexed l       => (listAccesses l).foldl (fun s a => s.peerArrives a) s
  | .answer tag a    => s.hearPeer d tag a
  | .request no r    => { s with homeIn := s.homeIn ++ [{ r := r, src := d, here := false, rid := no }] }
  | .reply p no r    => s.replyTo (coreOfSrc p.src) no r
  | .deliver p cv r m => s.partyDeliver p cv r m
  | .unbind p cv r   => s.partyUnbind p cv r
  | .ended p cv r st => s.partyEnd p cv r st
  | .rebound p cv r  => s.partyRebound p cv r
  | .popped cv r no  => s.homePopped (cv % 2 ^ 14) r no
  | .giveBack cv r m => s.homeGiveBack (cv % 2 ^ 14) r m
  | .unbound cv r p  => s.homeLeave (cv % 2 ^ 14) r p
  | .park cv r p     => s.homeRole (cv % 2 ^ 14) r p (.parked p)
  | .rebind cv r p q => s.homeRebind (cv % 2 ^ 14) r p q
  | .resend crit seq n => s.resend d crit seq n
  | .marker no ch    => if s.fabMode == 2 then s else s.sendCargo d true 0 (.markerAck no ch)
  | .markerAck no ch => s.markerDone no ch
  | .probe           => s.sendCargo d true 0 .probeAck
  | .probeAck        => s
  | .handshake no    => s.shakeIn d no
  | .handshakeAck no => s.shakeAck d no
  | .filler          => s

/-- The flits of a class that a peer's receiver holds for their order, and the SEQ of the next one. -/
def Peer.heldOf (p : Peer) (crit : Bool) : List Flit := if crit then p.heldC else p.ingress
def Peer.nextOf (p : Peer) (crit : Bool) : Nat := if crit then p.expC else p.expD

/-- How far a SEQ lies ahead of the next one of its class. -/
def Peer.ahead (p : Peer) (crit : Bool) (seq : Nat) : Nat := (seq + 2 ^ 16 - p.nextOf crit) % 2 ^ 16

/-- The packets of a peer that are whole and next in order are performed, class by class (R348); fuel bounds them. -/
def State.drainClass (d : Nat) (crit : Bool) : Nat → State → State
  | 0, s        => s
  | fuel + 1, s =>
    let p := s.peer d
    match (p.heldOf crit).find? fun f => p.ahead crit f.seq == 0 with
    | none   => s
    | some f =>
      let n := if f.hdr then f.npay else 0
      let whole := (List.range n).all fun i => (p.heldOf crit).any fun g => p.ahead crit g.seq == i + 1
      if !whole then s
      else
        let next := (p.nextOf crit + n + 1) % 2 ^ 16
        let rest := (p.heldOf crit).filter fun g => n < p.ahead crit g.seq
        let p1 := if crit then { p with expC := next, heldC := rest } else { p with expD := next, ingress := rest }
        State.drainClass d crit fuel ((s.setPeer d p1).cargoIn d f.cargo)

/-- A good flit is acknowledged (R402). -/
def Peer.owe (p : Peer) (f : Flit) : Peer := { p with acks := p.acks ++ [(f.crit, f.seq)] }

/-- The flits of a peer's data class that stand in its buffer: the bare header of a trimmed packet does not (R349). -/
def Peer.occupied (p : Peer) : Nat := (p.ingress.filter fun f => !(p.trimmed.any fun t => t.1 == f.seq)).length

/-- A payload flit belongs to one of the packets, each named by the SEQ of its header and its length. -/
def inPacket (ps : List (Nat × Nat)) (seq : Nat) : Bool :=
  ps.any fun t => let k := (seq + 2 ^ 16 - t.1) % 2 ^ 16; 1 ≤ k && k ≤ t.2

/-- A good data flit (R347 to R349): one already performed or held changes nothing; from FABCFG.TRIM on, a further packet keeps its
header only. What is dropped is not acknowledged, so that the sender still has it. -/
def State.dataIn (s : State) (d : Nat) (f : Flit) : State :=
  let p := s.peer d
  let full := s.trimAt ≤ p.occupied
  let heads := (p.ingress.filter fun g => g.hdr).map fun g => (g.seq, g.npay)
  if 2 ^ 15 ≤ p.ahead false f.seq || p.ingress.any fun g => g.seq == f.seq then s.setPeer d (p.owe f)
  else if f.hdr then
    let begun := p.ingress.any fun g => inPacket [(f.seq, f.npay)] g.seq
    let p1 := { p.owe f with ingress := p.ingress ++ [f] }
    let p2 := if 0 < f.npay && full && !begun then { p1 with trimmed := p1.trimmed ++ [(f.seq, f.npay)] } else p1
    State.drainClass d false 520 (s.setPeer d p2)
  else if inPacket p.trimmed f.seq || 512 ≤ p.occupied || (full && !inPacket heads f.seq) then s
  else State.drainClass d false 520 (s.setPeer d { p.owe f with ingress := p.ingress ++ [f] })

/-- A good critical flit (R348, R350): the other copy of one that came is discarded, one that is ahead is held for its turn. -/
def State.critIn (s : State) (d : Nat) (f : Flit) : State :=
  let p := s.peer d
  if unordered f then
    let s1 := s.cargoIn d f.cargo
    let p1 := s1.peer d
    s1.setPeer d { p1 with expC := max p1.expC ((f.seq + 1) % 2 ^ 16) }
  else if 2 ^ 15 ≤ p.ahead true f.seq || p.heldC.any fun g => g.seq == f.seq then s.setPeer d (p.owe f)
  else State.drainClass d true 520 (s.setPeer d { p.owe f with heldC := p.heldC ++ [f] })

/-- A flit that a channel delivered intact. While this device awaits the answer to a handshake, what the peer sent before it is not
heard. -/
def State.takeFlit (s : State) (d : Nat) (f : Flit) : State :=
  let s1 := s.setPeer d ((s.peer d).heard s.gts (s.timed d))
  if (s.peer d).shake.isSome && !unordered f then s1 else if f.crit then s1.critIn d f else s1.dataIn d f

/-- A flit of a peer (R347, R350): a bad one is discarded. -/
def State.flitIn (s : State) (d : Nat) (f : Flit) : State := if flitGood f then s.takeFlit d f else s

/-- FLIT_RECEIVE (R347 to R350, R402). -/
def execFlitReceive (d : Fin 64) (f : Flit) (s : State) : Host.Outcome State Fault Refusal := .next (s.flitIn d.val f)

/-- PEERST.DEPTH: flits queued at egress for a peer. -/
def State.depth (s : State) (d : Nat) : Nat := ((s.pack d).peer d).egress.length + (s.peer d).egressC.length

/-- A channel's wake sequence starts (R354). -/
def State.startWake (s : State) (f lam : Nat) : State :=
  if s.lamBit f 24 lam || s.lamBit f 16 lam || s.lamBit f 32 lam then s
  else
    let s1 := s.setLam f 16 lam true
    { s1 with wakes := s1.wakes ++ [{ ch := { fibre := Fin.ofNat 256 f, lam := Fin.ofNat 8 lam }, since := s.gts }] }

/-- The evaluation that a change of a peer's egress depth brings (R355, R401): from depth FABCFG.WAKE on, the parked wavelengths of HOME
that reach the peer are switched on. -/
def State.wakeFor (s : State) (d : Nat) : State :=
  let p := s.peer d
  let depth := s.depth d
  if depth == p.depthWas then s
  else
    let s1 := s.setPeer d { p with depthWas := depth }
    let cfg := (s.ctlGet ctlFabcfg).toNat
    if bit cfg 63 && s.reaches d && bits cfg 15 0 ≤ depth then
      let lam := s.lamTo d
      (s.fibresTo d).foldl (fun s f =>
        if s.lamBit f 8 lam && !s.lamBit f 0 lam && !s.lamBit f 32 lam then
          let s2 := s.setLam f 0 lam true
          if s.fabMode == 1 || s.fabMode == 2 then s2 else s2.startWake f lam
        else s) s1
    else s1

/-- A critical flit leaves (R350): its first copy, or the second one, with which it is gone; on the device's own number each copy comes
straight back (R11). The acknowledgements that are owed leave with it. -/
def State.sendCrit (s : State) (d : Nat) : State :=
  let p := { s.peer d with acks := [] }
  let back (s : State) (f : Flit) : State := if d == s.dev then s.takeFlit d f else s
  match p.egressC with
  | []      => s.setPeer d p
  | f :: fs =>
    let k := s.critFibre d f p.copy.isSome
    let p1 := { p with beam := k.map fun n => (n, f) }
    if p.copy.isNone && !sentOnce f then back (s.setPeer d { p1 with copy := k }) f
    else
      let p2 := { p1 with egressC := fs, copy := none }
      back (s.setPeer d (if s.windowed d f && !p.window.contains f then ({ p2 with window := p2.window ++ [f] } : Peer).startTimer s.gts else p2)) f

/-- A data flit leaves (R348, R349): one that is to be sent again, or the next one, which stays in the window until it is acknowledged; on
the device's own number it comes straight back (R11). -/
def State.sendData (s : State) (d : Nat) : State :=
  let p := s.peer d
  let k := nextFibre (s.litTo d) p.pos
  let pos := match k with
    | none   => p.pos
    | some n => n + 1
  let by_ (f : Flit) : Peer := { p with pos := pos, beam := k.map fun n => (n, f) }
  match p.again, p.egress with
  | g :: gs, _   => s.setPeer d { by_ g with again := gs }
  | [], []       => s
  | [], f :: fs  =>
    let p1 := { by_ f with egress := fs }
    if d == s.dev then (s.setPeer d p1).takeFlit d f
    else s.setPeer d (({ p1 with window := p.window ++ [f], allow := p.allow + 1 } : Peer).startTimer s.gts)

/-- FLIT_TRANSMIT (R348, R350, R355): the next flit of a class leaves for a peer; the change of the egress depth is evaluated before and
after. -/
def execFlitTransmit (d : Fin 64) (crit : Bool) (s : State) : Host.Outcome State Fault Refusal :=
  .next <|
    let s := (s.pack d.val).wakeFor d.val
    if !s.mayTransmit d.val crit then s
    else (if crit then s.sendCrit d.val else s.sendData d.val).wakeFor d.val

/-- FLIT_ACKNOWLEDGE (R349, R402): the n oldest flits leave the window. -/
def execFlitAcknowledge (d : Fin 64) (n : Nat) (s : State) : Host.Outcome State Fault Refusal :=
  .next <|
    let p := s.peer d.val
    let data := ((p.window.take n).filter fun f => !f.crit).length
    s.setPeer d.val (({ p with window := p.window.drop n, allow := p.allow - data } : Peer).heard s.gts (s.timed d.val))

/-- The first SEQ of a class that a flit held here shows to be missing, but for the payload of trimmed packets. -/
def Peer.gap (p : Peer) (crit : Bool) : Option Nat :=
  let held := p.heldOf crit
  let top := held.foldl (fun m g => max m (p.ahead crit g.seq + 1 + (if g.hdr then g.npay else 0))) 0
  ((List.range top).map fun i => (p.nextOf crit + i) % 2 ^ 16).find? fun q =>
    (held.all fun g => g.seq != q) && (crit || !inPacket p.trimmed q)

/-- RESEND_REQUEST (R347, R349): once there is room, the payload of the oldest trimmed packet is asked for, or else the flit that is missing
among those held. -/
def execResendRequest (d : Fin 64) (s : State) : Host.Outcome State Fault Refusal :=
  .next <|
    let p := s.peer d.val
    let miss : State := match p.gap false, p.gap true with
      | some q, _    => s.sendCargo d.val true 0 (.resend false q 1)
      | none, some q => s.sendCargo d.val true 0 (.resend true q 1)
      | none, none   => s
    match p.trimmed with
    | t :: ts =>
      if p.occupied < s.trimAt || p.occupied + t.2 ≤ 512 then
        (s.setPeer d.val { p with trimmed := ts }).sendCargo d.val true 0 (.resend false ((t.1 + 1) % 2 ^ 16) t.2)
      else miss
    | []      => miss

/-! ## Lighting, parking and waking (R353 to R356, R401) -/

/-- A channel leaves striping, or its wake is aborted (R354). -/
def State.shutter (s : State) (f lam : Nat) : State :=
  let s1 := (s.setLam f 24 lam false).setLam f 16 lam false
  { s1 with wakes := s1.wakes.filter fun w => !(w.ch.fibre.val == f && w.ch.lam.val == lam) }

/-- What ON asks of a channel of a fibre takes effect (R354). -/
def State.applyOn (s : State) (f : Nat) : State :=
  (List.range 8).foldl (fun s lam => if s.lamBit f 0 lam then s.startWake f lam else s.shutter f lam) s

def State.applyAll (s : State) : State := (List.range 256).foldl (fun s f => s.applyOn f) s

/-- A peer's timer stops with its last lit channel and in DARK and RELOCK, and starts from zero when that is over (R107). -/
def State.settleTimers (s : State) : State :=
  { s with peers := s.peers.map fun q =>
      let p := q.2
      (q.1, if p.window.isEmpty then p
            else if !s.timed q.1 then { p with outSince := none, probeAt := none }
            else match p.outSince with
              | some _ => p
              | none   => { p with outSince := some s.gts }) }

/-- A write of LAMBDA_EN (R353, R354): ON and HOME are written, a bit in FAILED is not set; in DRAIN and DARK the effect
waits. -/
def State.writeLambda (s : State) (f : Nat) (v : Word) : State :=
  let w := (s.ctlGet (ctlLambda f)).toNat
  let failed := bits w 39 32
  let on := (List.range 8).foldl (fun n i => n + if bit v.toNat i && !bit failed i then 2 ^ i else 0) 0
  let s1 := s.ctlSet (ctlLambda f) (BitVec.ofNat 64 (w / 2 ^ 16 * 2 ^ 16 + bits v.toNat 15 8 * 2 ^ 8 + on))
  if s.fabMode == 1 || s.fabMode == 2 then s1 else (s1.applyOn f).settleTimers

/-- LAMBDA_EN_WRITE (R353, R354, R401). -/
def execLambdaEnWrite (f : Fin 256) (v : Word) (s : State) : Host.Outcome State Fault Refusal := .next (s.writeLambda f.val v)

/-- WAKE_COMPLETE (R354): 3.2 µs after its wake started the channel is lit. -/
def execWakeComplete (ch : Channel) (s : State) : Host.Outcome State Fault Refusal :=
  .next (match s.wakes.find? fun w => w.ch == ch with
    | none   => s
    | some w =>
      if s.gts.toNat < w.since.toNat + 3200 then s
      else
        let s1 := (s.setLam ch.fibre.val 16 ch.lam.val false).setLam ch.fibre.val 24 ch.lam.val true
        ({ s1 with wakes := s1.wakes.filter fun x => !(x.ch == ch) } : State).settleTimers)

/-- AUTO_WAKE (R355, R401): a change of a peer's egress depth is evaluated. -/
def execAutoWake (d : Fin 64) (s : State) : Host.Outcome State Fault Refusal := .next (s.wakeFor d.val)

/-- RING_MOVE (R356): the ring of a channel saturates; its wavelength moves to the lowest free spare ring and wakes
there, in DARK once the port relocks, or fails. The event's kind is not in the manual's list (DESIGN CHOICE, log entry 16). -/
def execRingMove (ch : Channel) (s : State) : Host.Outcome State Fault Refusal :=
  .next <|
    let f := ch.fibre.val
    let lam := ch.lam.val
    let w := (s.ctlGet (ctlRing f)).toNat
    let ringOf (l : Nat) : Nat := bits w (4 * l + 3) (4 * l)
    let old := ringOf lam
    let w1 := if bit w (32 + old) then w else w + 2 ^ (32 + old)
    let used (r : Nat) : Bool := (List.range 8).any fun l => ringOf l == r
    let free := (List.range 10).find? fun r => !used r && !bit w1 (32 + r) && !bit w1 (42 + r)
    let s0 := s.shutter f lam
    match free with
    | some r =>
      let w2 := w1 - old * 2 ^ (4 * lam) + r * 2 ^ (4 * lam)
      let s1 := s0.ctlSet (ctlRing f) (BitVec.ofNat 64 w2)
      let s2 := if s.lamBit f 0 lam && s.fabMode != 2 then s1.startWake f lam else s1
      match s2.fresh with
      | (k, s3) => (s3.logEvent (k.toNat % 256) 0xFFFF 0xFF noElem f 0 0).settleTimers
    | none =>
      let s1 := s0.ctlSet (ctlRing f) (BitVec.ofNat 64 w1)
      ((s1.setLam f 32 lam true).setLam f 0 lam false).settleTimers

/-! ## The modes of the port (R357, R358) -/

/-- FABCTL.DONE (R357). -/
def State.fabDone (s : State) : Bool :=
  match s.fabMode with
  | 1 => s.markers.isEmpty && s.peers.all fun q => q.2.window.isEmpty || q.2.lost
  | 3 => (List.range 256).all fun f => (List.range 8).all fun lam => !s.lamBit f 0 lam || s.lamBit f 24 lam || s.lamBit f 32 lam
  | _ => true

/-- Which transitions of MODE are permitted (R357). -/
def modeOk (a b : Nat) (done : Bool) : Bool :=
  match a, b with
  | 0, 1 => true
  | 1, 0 => true
  | 1, 2 => done
  | 2, 3 => true
  | 3, 0 => done
  | _, _ => false

def State.litAll (s : State) : List Channel :=
  (List.range 256).flatMap fun f => (List.range 8).filterMap fun l =>
    if s.lamBit f 24 l then some { fibre := Fin.ofNat 256 f, lam := Fin.ofNat 8 l } else none

/-- What the port does on entry to a mode (R354, R357, R358): DRAIN sends markers and awaits those of reachable peers,
DARK gates every channel and stops the timers, RELOCK relocks what ON asks for and takes CLSMAP into force, RUN lets what waited take
effect. -/
def State.enterMode (s : State) (m : Nat) : State :=
  match m with
  | 1 =>
    let chs := s.litAll
    let n := s.drainNo + 1
    let s1 := chs.foldl (fun s ch => s.sendCargo (s.peerOf ch.fibre.val ch.lam.val) true 0 (.marker n ch)) s
    { s1 with drainNo := n, markers := chs.filter fun ch =>
        let d := s.peerOf ch.fibre.val ch.lam.val
        d == s.dev || (s.reaches d && !(s.peer d).lost) }
  | 2 =>
    let dark := (List.range 256).foldl (fun s f => (List.range 8).foldl (fun s l => s.shutter f l) s) s
    { dark with peers := dark.peers.map fun q => (q.1, { q.2 with outSince := none, probeAt := none }), markers := [] }
  | 3 => ({ s with octets := s.ctlGet ctlClsmap } : State).applyAll
  | _ =>
    ({ s.applyAll with markers := [] } : State).settleTimers

/-- A write of FABCTL.MODE (R357): the mode in force changes nothing, a transition that is not permitted sets ERR. -/
def State.writeMode (s : State) (m : Nat) : State :=
  let old := s.fabMode
  if m == old then s
  else if modeOk old m s.fabDone then (s.ctlSet ctlFabctl (BitVec.ofNat 64 m)).enterMode m
  else s.ctlSet ctlFabctl (BitVec.ofNat 64 (2 ^ 63 + old))

/-- FABCTL_RUN (R357, R358). -/
def execFabctlRun (s : State) : Host.Outcome State Fault Refusal := .next (s.writeMode 0)

/-- FABCTL_DRAIN (R357). -/
def execFabctlDrain (s : State) : Host.Outcome State Fault Refusal := .next (s.writeMode 1)

/-- FABCTL_DARK (R357, R358). -/
def execFabctlDark (s : State) : Host.Outcome State Fault Refusal := .next (s.writeMode 2)

/-- FABCTL_RELOCK (R354, R357). -/
def execFabctlRelock (s : State) : Host.Outcome State Fault Refusal := .next (s.writeMode 3)

/-- DRAIN_MARKER_ACK (R357): the marker of a channel is awaited no longer. -/
def execDrainMarkerAck (ch : Channel) (s : State) : Host.Outcome State Fault Refusal :=
  .next { s with markers := s.markers.filter fun c => !(c == ch) }

/-- PEERST (R359). -/
def State.peerst (s : State) (d : Nat) : Word :=
  let p := s.peer d
  let waking := (s.fibresTo d).any fun f => s.lamBit f 16 (s.lamTo d)
  BitVec.ofNat 64 ((if p.lost then 2 ^ 63 else 0) + (if waking then 2 ^ 62 else 0) +
    (s.litTo d).length / 2 % 256 * 2 ^ 32 + p.window.length % 2 ^ 13 * 2 ^ 16 + min (s.depth d) 0xFFFF)

/-- FABCTL as it reads: ERR, DONE, MODE (R359). -/
def State.fabctl (s : State) : Word :=
  BitVec.ofNat 64 ((s.ctlGet ctlFabctl).toNat / 2 ^ 63 * 2 ^ 63 + (if s.fabDone then 2 ^ 62 else 0) + s.fabMode)

end Machine
end Sys2Proof
end

