-- ==== Sys2Proof/Machine/Conversations.lean ====
section
/-!
DEFINITION. Conversations: protocol images (R199 to R201, R326), the home's decisions (R202 to R205, R209, R327), the
forwarding of messages (R206), and the conversation instructions of X (R319 to R325).
-/

namespace Sys2Proof
namespace Machine

/-! ## Protocol images (R199 to R201) -/

/-- Size of a protocol image. -/
def protoSize : Nat := 4112

def protoByte (p : List Byte) (i : Nat) : Nat := (p.getD i 0).toNat
def protoNState (p : List Byte) : Nat := protoByte p 2
def protoNRole (p : List Byte) : Nat := protoByte p 3
def protoNKind (p : List Byte) : Nat := protoByte p 4
def protoInit (p : List Byte) : Nat := protoByte p 5

/-- The transition entry of a state and a kind (R199, R200). -/
def protoEntry (p : List Byte) (st kind : Nat) : Nat := leNat ((p.drop (16 + 4 * (16 * st + kind))).take 4)

def entNext (e : Nat) : Nat := bits e 31 26
def entSnd (e : Nat) : Nat := bits e 25 22
def entRcv (e : Nat) : Nat := bits e 21 6
def entB (e : Nat) : Bool := bit e 5
def entT (e : Nat) : Bool := bit e 4

/-- One entry checked (R201): zero, or in range with its reserved bits zero. -/
def entryOk (p : List Byte) (st kind : Nat) : Bool :=
  let e := protoEntry p st kind
  e == 0 || (st < protoNState p && kind < protoNKind p && bits e 3 0 == 0 && entNext e < protoNState p &&
    entSnd e < protoNRole p && entRcv e / 2 ^ protoNRole p == 0)

/-- A branch state holds branch arms only (R200, R201). -/
def branchOk (p : List Byte) (st : Nat) : Bool :=
  let es := ((List.range 16).map fun k => protoEntry p st k).filter fun e => e != 0
  (es.all fun e => !entB e) || es.all entB

/-- The checks of an image that look at the image alone (R201). -/
def protoOk (p : List Byte) : Bool :=
  leNat (p.take 2) == 0xC0A5 && 1 ≤ protoNState p && protoNState p ≤ 64 && 1 ≤ protoNRole p && protoNRole p ≤ 16 &&
    1 ≤ protoNKind p && protoNKind p ≤ 16 && protoInit p < protoNState p && ((p.drop 6).take 10).all (fun b => b == 0) &&
    (List.range 64).all fun st => branchOk p st && (List.range 16).all fun k => entryOk p st k

/-- An enabled conversation of this device names a slot (R201). -/
def State.slotInUse (s : State) (slot : Nat) : Bool :=
  s.ctl.any fun q => ctlCvd 0 ≤ q.1 && q.1 < ctlCvd 16384 && cvdEn q.2.toNat && cvdSlot q.2.toNat == slot

/-- The image that a conversation runs. -/
def State.protoOf (s : State) (i : Nat) : List Byte := (nget s.protos (cvdSlot (s.cvd i))).getD []

/-! ## Decisions of the home (R203, R204, R209) -/

/-- The n-th request that waits at this home, unless an earlier one asks about the same conversation (R203). -/
def State.homeNth (s : State) (n : Nat) : Option HomeIn :=
  match s.homeIn[n]? with
  | none   => none
  | some h => if (s.homeIn.take n).any fun g => g.r.conv == h.r.conv then none else some h

/-- A request answered: it leaves the home, and the reply, if one is awaited, goes to the core or the device that asked. -/
def State.homeAnswer (s : State) (n : Nat) (h : HomeIn) (r : HomeReply) : State :=
  let s1 := { s with homeIn := s.homeIn.eraseIdx n }
  if h.rid = 0 then s1
  else if h.here then s1.replyTo h.src h.rid r else s1.sendCargo h.src true 0 (.reply h.r.party h.rid r)

/-- Message slots in use at this home (R205). -/
def State.slotsUsed (s : State) : Nat := s.convs.foldl (fun n q => n + q.2.slots) 0

/-- Free message slots for a conversation: of the home's 8192 and of its own 64 (R205). -/
def State.freeSlots (s : State) (i : Nat) : Nat := min (8192 - s.slotsUsed) (64 - (s.conv i).slots)

def popcount (n w : Nat) : Nat := ((List.range w).filter fun i => bit n i).length

/-- Whether a conversation is enabled for an ASID. -/
def State.openFor (s : State) (i asid : Nat) : Bool := cvdEn (s.cvd i) && cvdAsid (s.cvd i) == asid

/-- STATE and TERM advanced by an accepted message (R204). -/
def State.advanceConv (s : State) (i st : Nat) (term : Bool) : State :=
  let w := s.cvd i
  s.ctlSet (ctlCvd i) (cvdWord true term st (cvdSlot w) (cvdAsid w))

/-- A message appended to the queue of every role of a receiver mask. -/
def Conv.enqueue (c : Conv) (rcv : Nat) (m : Msg) : Conv :=
  (List.range 16).foldl (fun c r => if bit rcv r then c.setQueue r (c.queue r ++ [m]) else c) { c with next := c.next + 1 }

/-- The parties of a conversation learn of its end (R323). -/
def State.tellEnds (s : State) (i : Nat) : State := (List.range 16).foldl (fun s r => s.tellEnd i r) s

/-- HomeSend (R204): the reply, and the state after it. -/
def State.homeSend (s : State) (i : Nat) (p : Party) (role kind : Fin 16) (isChoice : Bool) (tag : Fin 32)
    (elems : List Word) (valid : List Bool) : HomeReply × State :=
  let w := s.cvd i
  let st : Fin 64 := Fin.ofNat 64 (cvdState w)
  let x := protoEntry (s.protoOf i) (cvdState w) kind.val
  if !s.openFor i p.asid || (s.conv i).role role.val != .bound p then (.convRole, s)
  else if cvdTerm w then (.convEnd st, s)
  else if x == 0 || entSnd x != role.val || entB x != isChoice then (.oot st kind role, s)
  else if s.freeSlots i < popcount (entRcv x) 16 then (.retry, s)
  else
    let m : Msg := { no := (s.conv i).next, kind := kind, state := Fin.ofNat 64 (entNext x), sender := role, term := entT x,
                     branch := entB x, tag := tag, elems := elems, valid := valid }
    let s1 := s.advanceConv i (entNext x) (entT x)
    (.accepted, (s1.setConv i ((s1.conv i).enqueue (entRcv x) m)))

/-- A party's role is on its way back to it: what it asks of that role waits until it is bound again (R207). -/
def State.roleMoves (s : State) (i : Nat) (role : Fin 16) (p : Party) : Bool := (s.conv i).role role.val == .moving p

/-- What the n-th request does at the home. A role that another party gave up is bound once its messages have returned. A leave that comes
after the close is refused, as every request is (R203, R327). DEDUCED, log entry 54. -/
def State.homeStep (s : State) (n : Nat) : State :=
  match s.homeNth n with
  | none   => s
  | some h =>
    let i := h.r.conv % 2 ^ 14
    let p := h.r.party
    match h.r.req with
    | .send role kind ch tag xs vs =>
      if s.roleMoves i role p then s
      else
        let r := s.homeSend i p role kind ch tag xs vs
        (r.2.homeAnswer n h r.1).tellEnds i
    | .join role =>
      let c := s.conv i
      let free := c.role role.val == .unbound || c.role role.val == .offered p
      if s.openFor i p.asid && role.val < protoNRole (s.protoOf i) && free then
        if c.awayOf role.val != 0 then s
        else ((s.setConv i (c.setRole role.val (.bound p))).homeAnswer n h .accepted).tellEnd i role.val
      else s.homeAnswer n h .convRole
    | .leave role =>
      if cvdEn (s.cvd i) && ((s.conv i).role role.val).isOf p then (s.homeRole i role p .unbound).homeAnswer n h .accepted
      else s.homeAnswer n h .convRole
    | .deleg role dest =>
      if s.roleMoves i role p then s
      else if s.openFor i dest.asid && (s.conv i).role role.val == .bound p then
        (s.homeRole i role p (.offered dest)).homeAnswer n h .accepted
      else s.homeAnswer n h .convRole
    | .state =>
      if cvdEn (s.cvd i) then s.homeAnswer n h (.state (Fin.ofNat 64 (cvdState (s.cvd i))) (cvdTerm (s.cvd i)))
      else s.homeAnswer n h .convRole

/-- Whether the n-th request is of a kind. -/
def State.homeIs (s : State) (n : Nat) (f : ReqKind → Bool) : Bool :=
  match s.homeIn[n]? with
  | none   => false
  | some h => f h.r.req

def ReqKind.isSend : ReqKind → Bool
  | .send _ _ _ _ _ _ => true
  | .join _           => false
  | .leave _          => false
  | .deleg _ _        => false
  | .state            => false

def ReqKind.isJoin : ReqKind → Bool
  | .join _           => true
  | .send _ _ _ _ _ _ => false
  | .leave _          => false
  | .deleg _ _        => false
  | .state            => false

def ReqKind.isDeleg : ReqKind → Bool
  | .deleg _ _        => true
  | .send _ _ _ _ _ _ => false
  | .join _           => false
  | .leave _          => false
  | .state            => false

def ReqKind.isLeave : ReqKind → Bool
  | .leave _          => true
  | .send _ _ _ _ _ _ => false
  | .join _           => false
  | .deleg _ _        => false
  | .state            => false

def ReqKind.isState : ReqKind → Bool
  | .state            => true
  | .send _ _ _ _ _ _ => false
  | .join _           => false
  | .leave _          => false
  | .deleg _ _        => false

/-- HOME_SEND (R203, R204): the n-th request, a send or a choice, is decided. -/
def execHomeSend (n : Nat) (s : State) : Host.Outcome State Fault Refusal :=
  .next (if s.homeIs n ReqKind.isSend then s.homeStep n else s)

/-- HOME_JOIN (R209). -/
def execHomeJoin (n : Nat) (s : State) : Host.Outcome State Fault Refusal :=
  .next (if s.homeIs n ReqKind.isJoin then s.homeStep n else s)

/-- HOME_DELEGATE (R209, R324). -/
def execHomeDelegate (n : Nat) (s : State) : Host.Outcome State Fault Refusal :=
  .next (if s.homeIs n ReqKind.isDeleg then s.homeStep n else s)

/-- HOME_LEAVE (R324). -/
def execHomeLeave (n : Nat) (s : State) : Host.Outcome State Fault Refusal :=
  .next (if s.homeIs n ReqKind.isLeave then s.homeStep n else s)

/-- HOME_STATE_READ (R209, R325). -/
def execHomeStateRead (n : Nat) (s : State) : Host.Outcome State Fault Refusal :=
  .next (if s.homeIs n ReqKind.isState then s.homeStep n else s)

/-! ## Opening and closing (R202, R327) -/

/-- The requests of a conversation that have reached the home are decided, oldest first; fuel bounds them. -/
def State.homeFlush (i : Nat) : Nat → State → State
  | 0, s        => s
  | fuel + 1, s =>
    match s.homeIn.findIdx? fun h => h.r.conv % 2 ^ 14 == i with
    | none   => s
    | some n => State.homeFlush i fuel (s.homeStep n)

/-- A closed conversation's role register becomes unbound at its party, here or on another device. -/
def State.closeRole (s : State) (i : Nat) (role : Fin 16) : State :=
  let tell (p : Party) : State :=
    if p.dev.val == s.dev then s.partyUnbind p (s.convId i) role
    else s.sendCargo p.dev.val true 0 (.unbind p (s.convId i) role)
  match (s.conv i).role role.val with
  | .bound p   => tell p
  | .parked p  => tell p
  | .moving p  => tell p
  | .offered _ => s
  | .unbound   => s

/-- A conversation closed (R327): what reached the home first is decided first; STATE, TERM, PSLOT and ASID stay. -/
def State.closeConv (s : State) (i : Nat) : State :=
  let s1 := State.homeFlush i s.homeIn.length s
  let w := s1.cvd i
  let s2 := (List.finRange 16).foldl (fun s r => s.closeRole i r) s1
  (s2.setConv i { Conv.reset with next := (s2.conv i).next, base := (s2.conv i).next }).ctlSet (ctlCvd i)
    (cvdWord false (cvdTerm w) (cvdState w) (cvdSlot w) (cvdAsid w))

/-- The opening write (R202): it is ignored where the slot is empty or its STSET state is not below NSTATE. -/
def State.openConv (s : State) (i v : Nat) : State :=
  match nget s.protos (cvdSlot v) with
  | none   => s
  | some p =>
    let stset := bit v 48
    if stset && protoNState p ≤ cvdState v then s
    else
      let st := if stset then cvdState v else protoInit p
      (s.setConv i { Conv.reset with next := (s.conv i).next, base := (s.conv i).next }).ctlSet (ctlCvd i)
        (cvdWord true false st (cvdSlot v) (cvdAsid v))

/-- A write of CVD[i] (R202): PSLOT and ASID are writable while EN = 0, STATE and TERM are not. -/
def State.writeCvd (s : State) (i : Nat) (v : Word) : State :=
  let w := s.cvd i
  if cvdEn w then (if cvdEn v.toNat then s else s.closeConv i)
  else if cvdEn v.toNat then s.openConv i v.toNat
  else s.ctlSet (ctlCvd i) (cvdWord false (cvdTerm w) (cvdState w) (cvdSlot v.toNat) (cvdAsid v.toNat))

/-- CONVERSATION_OPEN (R202). -/
def execConversationOpen (i : Fin 16384) (v : Word) (s : State) : Host.Outcome State Fault Refusal :=
  .next (if !cvdEn (s.cvd i.val) && cvdEn v.toNat then s.writeCvd i.val v else s)

/-- CONVERSATION_CLOSE (R202, R327). -/
def execConversationClose (i : Fin 16384) (s : State) : Host.Outcome State Fault Refusal :=
  .next (if cvdEn (s.cvd i.val) then s.writeCvd i.val 0 else s)

/-! ## Forwarding (R206) -/

/-- Messages of a delivery buffer. -/
def bufferSize : Nat := 4

/-- The oldest message that this home holds for a bound role goes to its party, when the buffer has room. -/
def State.forward (s : State) (i : Nat) (role : Fin 16) : State :=
  let c := s.conv i
  match c.role role.val, c.queue role.val with
  | .bound p, m :: ms =>
    if c.awayOf role.val < bufferSize then
      let s1 := s.setConv i ((c.setQueue role.val ms).setAway role.val (c.awayOf role.val + 1))
      let s2 := if p.dev.val == s.dev then s1.partyDeliver p (s.convId i) role m
                else s1.sendCargo p.dev.val true (if m.elems.isEmpty then 0 else 1) (.deliver p (s.convId i) role m)
      s2.tellEnd i role.val
    else s
  | .bound _, []   => s
  | .unbound, _    => s
  | .parked _, _   => s
  | .moving _, _   => s
  | .offered _, _  => s

/-- MESSAGE_FORWARD (R104, R206). -/
def execMessageForward (f : ForwardF) (s : State) : Host.Outcome State Fault Refusal :=
  .next (match f with
    | .home i role    => s.forward (i % 2 ^ 14) role
    | .remote c cv m  =>
      match (s.core c.no).roles[cv.val] with
      | none   => s
      | some y =>
        if y.conv / 2 ^ 14 != s.dev && y.buf.length < bufferSize then s.partyDeliver (s.partyOf c.no) y.conv y.role m else s)

/-! ## Requests of X (R204, R205) -/

/-- A home outside REACH (R204). -/
def unreachable (d : Nat) : Trap := trapA cPEER_UNREACHABLE (BitVec.ofNat 64 ((0x80 + d) * 2 ^ 56))

/-- The lowest bit that is set. -/
def lowBit (w : Word) : Nat := ((List.range 64).find? fun i => bit w.toNat i).getD 0

/-- The bound role register that an instruction names; an unbound one raises CONV_ROLE (R204). -/
def State.boundRole (s : State) (cv : Fin 4) : R Role :=
  match s.me.roles[cv.val] with
  | none   => raise (trapE cCONV_ROLE cv.val)
  | some y => .ok y

/-- The home of a conversation must lie in REACH (R204). -/
def State.homeReach (s : State) (conv : Nat) : R Unit := orTrap (s.reaches (conv / 2 ^ 14)) (unreachable (conv / 2 ^ 14))

/-- A request leaves for its home under a number of its own; the instruction waits for the reply (R205). DEDUCED, log entry 21. -/
def State.request (s : State) (op : ConvOp) (conv npay : Nat) (rk : ReqKind) : State :=
  let r : HomeReq := { conv := conv % 2 ^ 14, party := s.partyOf s.cur.core, req := rk }
  let s1 := ({ s with nextReq := s.nextReq + 1 } : State).setMe { s.me with conv := some (.sent op conv), reqNo := s.nextReq }
  if conv / 2 ^ 14 == s.dev then
    { s1 with homeIn := s1.homeIn ++ [{ r := r, src := s.cur.core, here := true, rid := s.nextReq }] }
  else s1.sendCargo (conv / 2 ^ 14) true npay (.request s.nextReq r)

/-- An instruction whose request is out, or that is before a further attempt, waits (R205). -/
def State.convIdle (s : State) : R Unit :=
  match s.me.conv with
  | some (.sent _ _)      => waits
  | some (.void _ _)      => waits
  | some (.replied _ _ _) => waits
  | some (.again _ _)     => waits
  | some (.release _)     => .ok ()
  | none                  => .ok ()

/-- The release of R103 is complete: every access of the A-sides that X drives issued before it, but awaits and stores without data,
and every entry X pushed is performed. -/
def State.releaseDone (s : State) (upTo : Nat) : Bool :=
  s.members.all fun g =>
    ((s.core g).pend.all fun x => !x.kind.underway || !(x.id < upTo || x.ofX || g != s.cur.core)) &&
      (s.core g).sq.toList.all fun q => q.ents.isEmpty

/-- The id that bounds the accesses a release covers: it is kept while the release lasts. DEDUCED, log entry 18. -/
def State.releaseBound (s : State) : Nat :=
  match s.me.conv with
  | some (.release k)     => k
  | some (.sent _ _)      => s.me.nextId
  | some (.void _ _)      => s.me.nextId
  | some (.replied _ _ _) => s.me.nextId
  | some (.again _ _)     => s.me.nextId
  | none                  => s.me.nextId

/-- The release phase, and what follows it (R103, R205): a covered store to a lost peer raises PEER_LOST; nothing is sent
to another device while the port is dark. -/
def State.afterRelease (s : State) (home : Nat) (go : R State) : R State :=
  let k := s.releaseBound
  let lost := s.members.flatMap fun g => ((s.core g).lostStores.filter fun p => p.1 < k || g != s.cur.core).map fun p => p.2
  if !lost.isEmpty then raise (trapE cPEER_LOST (lost.foldl min 63))
  else if s.releaseDone k && (home == s.dev || s.fabMode != 2) then go
  else .ok (s.setMe { s.me with conv := some (.release k) })

/-- The length, tag, elements and validity of a payload (R321). -/
def State.payload (s : State) (a : VSrc) : R (Fin 32 × List Word × List Bool) := do
  s.srcName a
  let n ← s.vlen a.queue
  let x ← s.vraw n a
  orTrap (tagOk x.tag && !isCx x.tag) (trapE cILLEGAL_TAG)
  orTrap (n * tagW x.tag ≤ 512) (trapE cVL_RANGE n)
  pure (Fin.ofNat 32 x.tag, x.bits.map (BitVec.ofNat 64), x.valid)

/-- A message that X sends behind a pending receive keeps the next one back: each retires before the next issues (R208). -/
def State.sendTurn (s : State) : R Unit := orWait (!s.me.crecvs.any fun w => w.sent)

/-- csend (R204, R321). -/
def execCsend (cv : Fin 4) (a : VSrc) (kind : Fin 16) (s : State) : Host.Outcome State Fault Refusal :=
  s.finish do
    s.onSide .X
    s.convIdle
    s.sendTurn
    let y ← s.boundRole cv
    s.homeReach y.conv
    let (tag, xs, vs) ← s.payload a
    s.afterRelease (y.conv / 2 ^ 14) <| .ok <|
      s.request (.send cv a kind) y.conv (if xs.isEmpty then 0 else 1) (.send y.role kind false tag xs vs)

/-- cchoose (R204, R322): the message delivers zero bytes with tag n8. -/
def execCchoose (cv : Fin 4) (kind : Fin 16) (s : State) : Host.Outcome State Fault Refusal :=
  s.finish do
    s.onSide .X
    s.convIdle
    s.sendTurn
    let y ← s.boundRole cv
    s.homeReach y.conv
    s.afterRelease (y.conv / 2 ^ 14) <| .ok <|
      s.request (.choose cv kind) y.conv 0 (.send y.role kind true (Fin.ofNat 32 tN8) [] [])

/-- cjoin (R209, R320). -/
def execCjoin (cv : Fin 4) (src : CjoinSrc) (s : State) : Host.Outcome State Fault Refusal :=
  s.finish do
    s.onSide .X
    s.convIdle
    let (id, role, len) ← (match src with
      | .imm v    => (.ok (v.toNat % 2 ^ 20, bits v.toNat 23 20, 12) : R (Nat × Nat × Nat))
      | .regs a b => do
        let x ← s.srcR a
        let y ← s.srcR b
        pure (x.toNat, y.toNat, 4))
    orTrap s.me.roles[cv.val].isNone (trapE cCONV_ROLE cv.val)
    orTrap (id < 2 ^ 20 && role ≤ 15) (trapE cILLEGAL)
    s.homeReach id
    pure (s.request (.join cv (Fin.ofNat 16 role) len) id 0 (.join (Fin.ofNat 16 role)))

/-- A delegation or a leave waits for every earlier receive on its register (R324). -/
def State.receivesDone (s : State) (cv : Fin 4) : R Unit := orWait (!s.me.crecvs.any fun w => w.cv == cv)

/-- The home of a delegation or a leave: lost, or outside REACH (R324). -/
def State.homeAlive (s : State) (conv : Nat) : R Unit := do
  orTrap (!(s.peer (conv / 2 ^ 14)).lost) (trapE cPEER_LOST (conv / 2 ^ 14))
  s.homeReach conv

/-- The party word of cdeleg (R324). -/
def partyWord (v : Word) : Option Party :=
  let n := v.toNat
  if bits n 15 6 != 0 || bit n 28 || bits n 63 40 != 0 then none
  else some { dev := Fin.ofNat 64 n, src := bits n 31 16, asid := bits n 39 32 }

/-- cdeleg (R209, R324): an offer cannot be taken back, so behind a pending receive it waits for the last one (DEDUCED, log entry 31).
DEDUCED, log entry 53. -/
def execCdeleg (cv : Fin 4) (a : SrcR) (s : State) : Host.Outcome State Fault Refusal :=
  s.finish do
    s.onSide .X
    s.convIdle
    let v ← s.srcR a
    match partyWord v with
    | none   => raise (trapE cILLEGAL)
    | some p =>
      s.receivesDone cv
      let y ← s.boundRole cv
      s.homeAlive y.conv
      orWait s.me.crecvs.isEmpty
      pure (s.request (.deleg cv) y.conv 0 (.deleg y.role p))

/-- cleave (R207, R324): on an unbound register it retires at once. -/
def execCleave (cv : Fin 4) (s : State) : Host.Outcome State Fault Refusal :=
  s.finish do
    s.onSide .X
    s.convIdle
    s.receivesDone cv
    match s.me.roles[cv.val] with
    | none   => pure (s.retire 4)
    | some y =>
      s.homeAlive y.conv
      pure (s.request (.leave cv) y.conv 0 (.leave y.role))

/-- cstate (R209, R325). -/
def execCstate (d : RegNo) (cv : Fin 4) (s : State) : Host.Outcome State Fault Refusal :=
  s.finish do
    s.onSide .X
    s.convIdle
    let y ← s.boundRole cv
    s.homeReach y.conv
    s.dst d
    pure (s.request (.state d cv) y.conv 0 .state)

/-! ## Replies (R205) -/

/-- The role register given up after a delegation or a leave: its messages return, in order (R207, R209). -/
def State.giveUp (s : State) (cv : Fin 4) : State :=
  match s.me.roles[cv.val] with
  | none   => s
  | some y =>
    let s1 := s.giveBackAll y
    s1.setMe { s1.me with roles := s1.me.roles.set cv.val none }

/-- A send accepted behind a pending receive is noted at the youngest one. -/
def Core.noteSent (c : Core) : Core :=
  { c with crecvs := c.crecvs.zipIdx.map fun p => if p.2 + 1 = c.crecvs.length then { p.1 with sent := true } else p.1 }

/-- The role register that an operation names. -/
def ConvOp.cv : ConvOp → Fin 4
  | .join cv _ _ => cv
  | .send cv _ _ => cv
  | .choose cv _ => cv
  | .deleg cv    => cv
  | .leave cv    => cv
  | .state _ cv  => cv

/-- What the waiting instruction does with its reply (R204, R205, R209, R325). -/
def State.reply (s : State) (op : ConvOp) (conv : Nat) (r : HomeReply) : R State :=
  let s1 := s.setMe { s.me with conv := none }
  match r with
  | .retry     => .ok (s.setMe { s.me with conv := some (.again op s.gts) })
  | .convRole  => raise (trapE cCONV_ROLE op.cv.val)
  | .convEnd st => raise (trapE cCONV_END st.val)
  | .oot st k role => raise (trapE cOOT (st.val * 2 ^ 24 + k.val * 2 ^ 20 + role.val * 2 ^ 16))
  | .lost      => raise (trapE cPEER_LOST (conv / 2 ^ 14))
  | .state st term =>
    match op with
    | .state d _ => .ok ((s1.put d (BitVec.ofNat 64 (st.val + if term then 64 else 0))).retire 4)
    | _          => .ok s
  | .accepted =>
    match op with
    | .join _ _ len => .ok (s1.retire len)
    | .send _ a _   => .ok (((s1.setMe s1.me.noteSent).popLq a.queue).retire 4)
    | .choose _ _   => .ok ((s1.setMe s1.me.noteSent).retire 4)
    | .deleg cv     => .ok ((s1.giveUp cv).retire 4)
    | .leave cv     => .ok ((s1.giveUp cv).retire 4)
    | .state _ _    => .ok s

/-- HOME_REPLY (R205): a reply that has arrived, or with r one of a home on another device, ends the wait of X. -/
def execHomeReply (c : CoreId) (r : Option HomeReply) (s : State) : Host.Outcome State Fault Refusal :=
  .next <|
    let s1 := match r, (s.core c.no).conv with
      | some a, some (.sent _ k) => if k / 2 ^ 14 != s.dev then s.replyTo c.no (s.core c.no).reqNo a else s
      | some a, some (.void _ k) => if k / 2 ^ 14 != s.dev then s.replyTo c.no (s.core c.no).reqNo a else s
      | _, _                     => s
    match (s1.core c.no).conv with
    | some (.replied op k a) => s1.onBehalf c.no .X fun t => t.reply op k a
    | some (.sent _ _)       => s1
    | some (.void _ _)       => s1
    | some (.again _ _)      => s1
    | some (.release _)      => s1
    | none                   => s1

/-- SEND_RETRY (R205): 1 µs after a RETRY reply the send or the choice is back in its release phase and attempts again
when it issues. -/
def execSendRetry (c : CoreId) (s : State) : Host.Outcome State Fault Refusal :=
  .next (match (s.core c.no).conv with
    | some (.again _ t)      =>
      if t.toNat + 1000 ≤ s.gts.toNat then
        s.setCore c.no { s.core c.no with conv := some (.release (s.core c.no).nextId) }
      else s
    | some (.sent _ _)       => s
    | some (.void _ _)       => s
    | some (.replied _ _ _)  => s
    | some (.release _)      => s
    | none                   => s)

/-! ## Receiving (R147, R206, R323) -/

/-- What unwinding to an instruction restores: the state of X as that instruction found it (R147). -/
def Core.snapshot (c : Core) : XSnap :=
  { s := c.s, sFull := c.sFull, side := c.xv, vregs := c.vregs, masks := c.masks, anchors := c.anchors, lqBind := c.lqBind,
    fflg := c.fflg, mv := c.mv, rstate := c.rstate, pops := c.pops.length, popMark := c.popMark, nextId := c.nextId, kept := [],
    roles := c.roles.toList.map fun x => x.map fun y => (y.conv, y.role) }

/-- crecv (R206, R323): it marks its status register empty and goes into flight; in a LONG gang every member keeps what it would be taken
back to. -/
def execCrecv (d : VDst) (cv : Fin 4) (b : RegNo) (s : State) : Host.Outcome State Fault Refusal :=
  s.finish do
    s.onSide .X
    s.dstName d
    s.dst b
    (match d with
      | .reg _ => .ok ()
      | .sq _  => orWait s.me.crecvs.isEmpty)
    let _ ← s.boundRole cv
    let add (c : Core) : Core :=
      { c with crecvs := c.crecvs ++ [{ cv := cv, dst := d, b := b, snap := c.snapshot, young := 0, sent := false, gone := false }] }
    let s1 := s.members.foldl (fun s g => s.setCore g (add (s.core g))) s
    pure ((s1.setMe (s1.me.setFull .X b false)).retire 4)

/-- The status word of a message (R206). -/
def msgWord (m : Msg) : Word :=
  BitVec.ofNat 64 (m.kind.val + m.state.val * 2 ^ 4 + m.sender.val * 2 ^ 10 + (if m.term then 2 ^ 14 else 0) +
    (if m.branch then 2 ^ 15 else 0) + (ceilDiv (m.elems.length * tagW m.tag.val) 8) % 128 * 2 ^ 16)

/-- A vector register as a message leaves it: its binding and its carried versions stay (R206, R323). -/
def VReg.receive (r : VReg) (tag : Fin 32) (xs : List Word) (vs : List Bool) : VReg :=
  { r with tag := tag, mark := xs.length, elems := xs, valid := vs }

/-- What a completed receive writes, in a register state of X: status word and vector register, or the entry of a number that it pushed; the
payload is the lead's. -/
def XSnap.receive (p : XSnap) (w : CrecvSt) (m : Msg) (lead : Bool) (id : Nat) : XSnap :=
  let p1 := if w.b = 0 then p else { p with s := p.s.set w.b.val (msgWord m), sFull := p.sFull.set w.b.val true }
  match w.dst with
  | .sq _  => { p1 with kept := p1.kept ++ [id] }
  | .reg v =>
    let r := (p1.vregs[v.val]).receive m.tag (if lead then m.elems else []) (if lead then m.valid else [])
    { p1 with vregs := p1.vregs.set v.val r }

/-- The vector destination of a received message, on every member (R150, R323). -/
def State.receiveInto (s : State) (d : VDst) (m : Msg) : State :=
  let lead := s.cur.core
  s.members.foldl (fun s g =>
    let c := s.core g
    let xs := if g = lead then m.elems else []
    let vs := if g = lead then m.valid else []
    s.setCore g (match d with
      | .reg v => { c with vregs := c.vregs.set v.val ((c.vregs[v.val]).receive m.tag xs vs) }
      | .sq q  => c.pushSq q m.tag.val .data xs.length xs vs c.cbVers)) s

/-- The oldest receive completes with a message (R323); later ones find the values it wrote. -/
def State.receive (s : State) (w : CrecvSt) (y : Role) (m : Msg) (ms : List Msg) : State :=
  let s1 := s.receiveInto w.dst m
  let ends (c : Core) (lead : Bool) (id : Nat) : Core :=
    let rest := (c.crecvs.drop 1).map fun v => { v with snap := v.snap.receive w m lead id }
    { c with crecvs := rest, pops := if rest.isEmpty then [] else c.pops }
  let s2 := s.members.foldl (fun t g => t.setCore g (ends (t.core g) (g == s.cur.core) (s.core g).nextId)) s1
  let c := s2.me.arriveReg .X w.b (msgWord m)
  let s3 := s2.setMe { c with roles := c.roles.set w.cv.val (some { y with buf := ms }) }
  if y.conv / 2 ^ 14 == s.dev then s3.homePopped (y.conv % 2 ^ 14) y.role m.no
  else s3.sendCargo (y.conv / 2 ^ 14) true 0 (.popped y.conv y.role m.no)

/-- What X popped goes back to the head of its queue. -/
def Core.unpop (c : Core) : Pop → Core
  | .entry q e => { c with lq := c.lq.set q.val { c.lq[q.val] with ents := e :: c.lq[q.val].ents } }
  | .token k   => { c with cq := k :: c.cq }

/-- A store queue without the entries that X pushed from a number on, but for those of older receives. -/
def Queue.unpush (q : Queue) (id : Nat) (kept : List Nat) : Queue :=
  let stays (e : Entry) : Bool := e.id < id || kept.contains e.id
  let gone := q.ents.filter fun e => !stays e
  { ents := q.ents.filter stays
    ctr := gone.foldl (fun n e => n - BitVec.ofNat 32 (e.kind.groups e.n e.tag.val)) q.ctr }

/-- The role registers of X unwound: one that a younger join has bound is unbound again, and its home is told; one that was given up
stays unbound. DEDUCED, log entry 31. -/
def Core.unjoin (c : Core) (p : XSnap) : Core :=
  let joined := (c.roles.toList.zip p.roles).filterMap fun q => match q.1 with
    | none   => none
    | some y => if q.2 == some (y.conv, y.role) then none else some y
  { c with leaving := c.leaving ++ joined, roles := c.roles.map fun x => x.filter fun y => !joined.contains y }

/-- A receive and every younger instruction of X unwound (R147, R323): no store has taken an entry of theirs, and a message that
was accepted stands (DEDUCED, log entry 31). -/
def Core.unwind (c : Core) (w : CrecvSt) : Core :=
  let p := w.snap
  let c1 := ((c.pops.drop p.pops).reverse.foldl Core.unpop c).unjoin p
  { c1 with
    s := p.s, sFull := p.sFull, xv := p.side, vregs := p.vregs, masks := p.masks, anchors := p.anchors, lqBind := p.lqBind,
    fflg := p.fflg, mv := p.mv, rstate := p.rstate, popMark := p.popMark, sq := c1.sq.map fun q => q.unpush p.nextId p.kept,
    crecvs := [], pops := [], conv := none, emptyRead := none }

/-- Every member of X's gang taken back to its oldest receive. -/
def State.unwindAll (s : State) : State :=
  s.members.foldl (fun s g => match (s.core g).crecvs with
    | []     => s
    | w :: _ => s.setCore g ((s.core g).unwind w)) s

/-- A receive, the oldest, ends with a trap (R323), once no request of a younger instruction is out or granted. -/
def State.failReceive (s : State) (k : Trap) : State :=
  match s.me.conv with
  | some (.sent _ _)      => s
  | some (.void _ _)      => s
  | some (.replied _ _ .accepted) => s
  | some (.replied _ _ _) => s.unwindAll.takeTrap k
  | some (.again _ _)     => s.unwindAll.takeTrap k
  | some (.release _)     => s.unwindAll.takeTrap k
  | none                  => s.unwindAll.takeTrap k

/-- The oldest receive completes, traps, or goes on waiting. -/
def State.tryReceive (s : State) (w : CrecvSt) : State :=
  match s.me.roles[w.cv.val], w.gone with
  | none, _        => s.failReceive (trapE cCONV_ROLE w.cv.val)
  | some _, true   => s.failReceive (trapE cCONV_ROLE w.cv.val)
  | some y, false  =>
    match y.buf with
    | m :: ms =>
      let room := match w.dst with
        | .reg _ => true
        | .sq q  => s.members.all fun g => (s.core g).sq[q.val].ents.length < 8
      if room then s.receive w y m ms else s
    | []      => match y.ended with
      | none    => s
      | some st => s.failReceive (trapE cCONV_END st.val)

/-- CRECV_COMPLETE (R206, R323): receives retire in order, so only the oldest can complete. -/
def execCrecvComplete (c : CoreId) (n : Nat) (s : State) : Host.Outcome State Fault Refusal :=
  .next (match (s.core c.no).crecvs, n with
    | w :: _, 0     => { ({ s with cur := { core := c.no, side := .X } } : State).tryReceive w with cur := s.cur }
    | _ :: _, _ + 1 => s
    | [], _         => s)

/-! ## Loading a protocol (R326) -/

/-- The bytes of a protocol image, read by the store's loader in pieces of 16 bytes. -/
def State.readProto (s : State) (a : Word) : List Nat → R (List Byte)
  | []      => .ok []
  | j :: js => do
    let p ← s.place (s.how .read false 16) (a + BitVec.ofNat 64 (16 * j))
    let bs ← s.readPlace p 16
    let rest ← s.readProto a js
    pure (bs ++ rest)

/-- cprot (R201, R326). -/
def execCprot (a b : SrcR) (s : State) : Host.Outcome State Fault Refusal :=
  s.finish do
    s.onSide .X
    s.inS
    let x ← s.srcR a
    let y ← s.srcR b
    orWait s.me.crecvs.isEmpty
    let bad := trapE cILLEGAL (y.toNat % 2 ^ 28)
    orTrap (y.toNat ≤ 63) bad
    orTrap (x.toNat / 2 ^ 56 == 0) (trapA cPROT x)
    orTrap (x.toNat % 16 == 0) (trapA cALIGN x)
    let img ← s.readProto x (List.range (protoSize / 16))
    if s.releaseDone s.releaseBound then do
      orTrap (protoOk img && !s.slotInUse y.toNat) bad
      let s1 := s.setMe { s.me with conv := none }
      pure ({ s1 with protos := nset s1.protos y.toNat img }.retire 4)
    else pure (s.setMe { s.me with conv := some (.release s.releaseBound) })

end Machine
end Sys2Proof
end

