-- ==== Sys2Proof/Machine/Translate.lean ====
section
/-!
DEFINITION. Translation buffers: walks, invalidation, and the translations and page requests of host-shared memory (R17,
R18, R22 to R24); invalidation of code-cache lines (R76).
-/

namespace Sys2Proof
namespace Machine

/-! ## Walks -/

/-- PAGE_WALK_COMPLETE (R18): a walk installs the leaf it finds, and nothing where it finds a fault. -/
def execPageWalkComplete (pane : Fin 8) (asid : Fin 256) (va : Nat) (s : State) : Host.Outcome State Fault Refusal :=
  .next (s.warm pane.val asid.val (va % 2 ^ 52))

/-! ## Invalidation (R22, R76) -/

def ctlXinva : Nat := 0x1000
def ctlXinvc : Nat := 0x1008
def ctlCcinv : Nat := 0x3000

/-- The fields KIND and ASID of a written command. -/
def commandWord (v : Word) : Word := BitVec.ofNat 64 (bits v.toNat 11 10 * 2 ^ 10 + v.toNat % 256)

/-- A write of XINVC: with GO while BUSY it is ignored; KIND 3 starts nothing (R22). -/
def State.writeXinvc (s : State) (v : Word) : State :=
  let go := bit v.toNat 63
  if go && s.inval.isSome then s
  else
    let s1 := s.ctlSet ctlXinvc (commandWord v)
    let kind := bits v.toNat 11 10
    if go && kind < 3 then
      { s1 with inval := some (kind, v.toNat % 256, bits (s.ctlGet ctlXinva).toNat 51 16 * 2 ^ 16) }
    else s1

/-- XINVC as it reads. -/
def State.xinvc (s : State) : Word := (s.ctlGet ctlXinvc) ||| (if s.inval.isSome then BitVec.ofNat 64 (2 ^ 63) else 0)

/-- A write of CCINV (R76). -/
def State.writeCcinv (s : State) (v : Word) : State :=
  let go := bit v.toNat 63
  if go && s.ccinval.isSome then s
  else
    let s1 := s.ctlSet ctlCcinv (commandWord v)
    let kind := bits v.toNat 11 10
    if go && kind < 2 then { s1 with ccinval := some (kind, v.toNat % 256) } else s1

/-- CCINV as it reads. -/
def State.ccinv (s : State) : Word := (s.ctlGet ctlCcinv) ||| (if s.ccinval.isSome then BitVec.ofNat 64 (2 ^ 63) else 0)

/-- A write of XINVC that starts a command. -/
def xinvGo (kind asid : Nat) : Word := BitVec.ofNat 64 (2 ^ 63 + kind * 2 ^ 10 + asid)

/-- XINV_REGION (R22): KIND 0, one 64 KiB region at XINVA. -/
def execXinvRegion (asid : Fin 256) (s : State) : Host.Outcome State Fault Refusal := .next (s.writeXinvc (xinvGo 0 asid.val))

/-- XINV_ASID (R22): KIND 1. -/
def execXinvAsid (asid : Fin 256) (s : State) : Host.Outcome State Fault Refusal := .next (s.writeXinvc (xinvGo 1 asid.val))

/-- XINV_ALL (R22): KIND 2. -/
def execXinvAll (s : State) : Host.Outcome State Fault Refusal := .next (s.writeXinvc (xinvGo 2 0))

/-- Whether a buffered entry matches an invalidation (R22): an entry of a larger page that covers the region does. Entries of
host-shared memory are the host's to invalidate (R23), whatever the kind. DEDUCED, log entry 74. -/
def TlbEnt.matches (e : TlbEnt) (c : Nat × Nat × Nat) : Bool :=
  !e.host && (match c.1 with
    | 0 => e.asid == c.2.1 && e.va ≤ c.2.2 && c.2.2 < e.va + e.size
    | 1 => e.asid == c.2.1
    | _ => true)

/-- The bytes that an entry maps, as accesses are known by them. -/
def TlbEnt.span (e : TlbEnt) : Nat × Nat := (if e.host then hostKey e.va else e.pa, e.size)

/-- An access of any core that is not performed reaches the bytes an entry maps, an aperture's stored bytes included. -/
def State.inUse (s : State) (lo size : Nat) : Bool :=
  s.cores.any fun q => q.2.pend.any fun x => x.open_.any fun sp => (s.aliases lo size).any fun r => overlaps sp r

/-- An access that used an entry of some kind, buffered still or not, is not performed yet (R22, R23). -/
def State.entryUsed (s : State) (f : TlbEnt → Bool) : Bool := ((s.tlb ++ s.gone).filter f).any fun e => s.inUse e.span.1 e.span.2

/-- Entries that have left the buffers and that no access under way used any more are forgotten. -/
def State.forgetGone (s : State) : State := { s with gone := s.gone.filter fun e => s.inUse e.span.1 e.span.2 }

/-- Whether a line of a code cache was covered by a translation that a command names, or by an entry that matched it (R76). -/
def CodeLine.covered (l : CodeLine) (c : Nat × Nat × Nat) (gone : List TlbEnt) : Bool :=
  (match c.1 with
    | 0 => l.asid == c.2.1 && l.va / 2 ^ 16 == c.2.2 / 2 ^ 16
    | 1 => l.asid == c.2.1
    | _ => true) || gone.any fun e => !e.host && e.asid == l.asid && e.va ≤ l.va && l.va < e.va + e.size

/-- Lines dropped from the code cache of every core. -/
def State.dropLines (s : State) (f : CodeLine → Bool) : State :=
  { s with cores := s.cores.map fun q => (q.1, { q.2 with icache := q.2.icache.filter fun l => !f l }) }

/-- INVALIDATION_COMPLETE (R22): the entries go, and the code lines they covered (R76), once every access that used one has been
performed. -/
def execInvalidationComplete (s : State) : Host.Outcome State Fault Refusal :=
  .next (match s.inval with
    | none   => s
    | some c =>
      if s.entryUsed fun e => e.matches c then s
      else
        let s1 := s.dropLines fun l => l.covered c (s.tlb.filter fun e => e.matches c)
        { s1 with tlb := s.tlb.filter fun e => !e.matches c, inval := none })

/-- CCINV_ASID (R76): KIND 0. -/
def execCcinvAsid (asid : Fin 256) (s : State) : Host.Outcome State Fault Refusal := .next (s.writeCcinv (xinvGo 0 asid.val))

/-- CCINV_ALL (R76): KIND 1. -/
def execCcinvAll (s : State) : Host.Outcome State Fault Refusal := .next (s.writeCcinv (xinvGo 1 0))

/-- CCINV_COMPLETE (R76): no core holds a matching line any more. -/
def execCcinvComplete (s : State) : Host.Outcome State Fault Refusal :=
  .next (match s.ccinval with
    | none   => s
    | some c =>
      let s1 := s.dropLines fun l => c.1 == 1 || l.asid == c.2
      { s1 with ccinval := none })

/-! ## Host-shared translations (R23, R24) -/

/-- An entry that maps a page of a function's host-shared space. -/
def TlbEnt.ofPage (e : TlbEnt) (fn page : Nat) : Bool := e.host && e.asid == fn && e.va ≤ page * 4096 && page * 4096 < e.va + e.size

/-- A translation of a page is being asked for: its completion would install it (R23). -/
def PriReq.asking (r : PriReq) : Bool := r.state == 0 || r.state == 3 || r.state == 7

/-- ATS_INVALIDATE_REQUEST (R23): completed once no translation of the page is in flight and every access that used an entry has been
performed. -/
def execAtsInvalidateRequest (fn : Fin 129) (page : Nat) (s : State) : Host.Outcome State Fault Refusal :=
  .next (if (s.pri.any fun r => r.fn == fn.val && r.page == page && r.asking) || s.entryUsed fun e => e.ofPage fn.val page then s
         else { s with tlb := s.tlb.filter fun e => !e.ofPage fn.val page })

/-- A response frees a request of the allocation: the longest waiting request of the function is sent (R24). -/
def State.priNext (s : State) (fn : Nat) : State :=
  if s.priState fn == 1 then s
  else
    match s.pri.findIdx? fun r => r.fn == fn && r.state == 1 with
    | none   => s
    | some i => { s with pri := s.pri.zipIdx.map fun p => if p.2 == i then { p.1 with state := 2, sentAt := s.gts } else p.1 }

/-- The page requests of a page that wait for an answer take a new state; a request that nobody waits for is dropped. -/
def State.priAnswer (s : State) (fn page : Nat) (old new : Nat) (ok : PriReq → Bool) : State :=
  let upd (r : PriReq) : PriReq := if r.fn == fn && r.page == page && r.state == old && ok r then { r with state := new } else r
  let s1 : State := { s with pri := (s.pri.map upd).filter fun r => !(r.cores.isEmpty && 2 < r.state) }
  (List.range s.pri.length).foldl (fun s _ => s.priNext fn) s1

/-- PRI_RESPONSE (R24): success asks for the translation again; any other response gives XLATE. -/
def execPriResponse (fn : Fin 129) (page : Nat) (a : PriAns) (s : State) : Host.Outcome State Fault Refusal :=
  .next (match a with
    | .success => s.priAnswer fn.val page 2 3 fun _ => true
    | .invalid => s.priAnswer fn.val page 2 4 fun _ => true
    | .failure => s.priAnswer fn.val page 2 4 fun _ => true)

/-- PRI_TIMEOUT (R24): 50 ms after the request was sent. -/
def execPriTimeout (fn : Fin 129) (page : Nat) (s : State) : Host.Outcome State Fault Refusal :=
  .next (s.priAnswer fn.val page 2 5 fun r => r.sentAt.toNat + 50000000 ≤ s.gts.toNat)

/-- A translation that the host gave, in the buffers of the panes whose cores wait for it, in place of what they held of the page. -/
def State.installHost (s : State) (fn : Nat) (a : AtsAns) (panes : List Nat) : State :=
  let ent (p : Nat) : TlbEnt := { pane := p, host := true, asid := fn, va := a.page * 4096, size := 4096, pa := a.page * 4096,
                                  w := a.w, x := a.x, s := false }
  let old (e : TlbEnt) : Bool := panes.contains e.paneNo && e.ofPage fn a.page
  (panes.map ent).foldl State.install (s.dropTlb old)

/-- What one request makes of a translation answer: none when it is satisfied, or was a prefetch's, which leaves no trace (R27). A
first failure leads to a page request, a second to XLATE, or to PROT where only a permission is lacking. -/
def State.atsAnswer (s : State) (a : AtsAns) (r : PriReq) : Option PriReq :=
  if r.state == 7 || (a.ok && (a.w || !r.write)) then none
  else if r.state == 0 then some { r with state := s.priState r.fn, sentAt := s.gts }
  else some { r with state := if a.ok then 6 else 4 }

/-- ATS_TRANSLATION_COMPLETION (R23, R24): requests that now wait for allocation do so in the order in which their elements faulted. -/
def execAtsTranslationCompletion (fn : Fin 129) (a : AtsAns) (s : State) : Host.Outcome State Fault Refusal :=
  .next <|
    let asked (r : PriReq) : Bool := r.fn == fn.val && r.page == a.page && r.asking
    let panes := ((s.pri.filter asked).flatMap fun r => r.cores.map paneOf).eraseDups
    let s1 := if a.ok then s.installHost fn.val a panes else s
    s.pri.foldl (fun (t : State) r =>
      if asked r then
        match t.atsAnswer a r with
        | none   => { t with pri := t.pri.erase r }
        | some q => { t with pri := t.pri.erase r ++ [q] }
      else t) s1

end Machine
end Sys2Proof
end

