-- ==== Sys2Proof/Machine/CtlSpace.lean ====
section
/-!
DEFINITION. Control space as `ld.64` and `st.64` of the S view, and the host through BAR2, read and write it: every
register of the device by its offset (R10, R13, R22, R28, R76, R167, R185, R195, R197, R202, R352 to R359, R400).
-/

namespace Sys2Proof
namespace Machine

/-- Bits of a mask kept. -/
def keep (v : Word) (m : Nat) : Word := v &&& BitVec.ofNat 64 m

/-- Writable bits of ASROOT[n] (R13). -/
def asrootMask : Nat := 2 ^ 63 + (2 ^ 22 - 1) * 2 ^ 38 + (2 ^ 26 - 1) * 2 ^ 12

/-- A control-space dword read (R10): an offset that no chapter assigns reads as zero. -/
def State.ctlRead (s : State) (off : Nat) : Word :=
  if off < 0x800 then s.ctlGet off
  else if off == ctlXinva then s.ctlGet off
  else if off == ctlXinvc then s.xinvc
  else if 0x2000 ≤ off && off < 0x2200 then (if off % 0x20 < 0x18 then s.ctlGet off else 0)
  else if off == ctlCcinv then s.ccinv
  else if 0x4000 ≤ off && off < 0x4800 then
    (if off % 0x20 == 0x18 then (s.chargeContract ((off - 0x4000) / 0x20)).ctlGet off else s.ctlGet off)
  else if 0x6000 ≤ off && off < 0x7000 then s.ctlGet off
  else if 0x10000 ≤ off && off < 0x30000 then s.ctlGet off
  else if 0x40000 ≤ off && off < 0x60000 then s.ctlGet off
  else if 0x80000 ≤ off && off < 0x81000 then s.ctlGet off
  else if off == ctlFabctl then s.fabctl
  else if off == ctlFabcfg then s.ctlGet off
  else if off == ctlReach then s.reach
  else if off == ctlClsmap then s.ctlGet off
  else if ctlPeerst 0 ≤ off && off < ctlPeerst 64 then s.peerst ((off - ctlPeerst 0) / 8)
  else 0

/-- An aperture register written (R28). -/
def State.writeAperture (s : State) (off : Nat) (v : Word) : State :=
  match off % 0x20 with
  | 0x00 => s.ctlSet off (keep v ((2 ^ 25 - 1) * 2 ^ 16))
  | 0x08 => s.ctlSet off (keep v ((2 ^ 25 - 1) * 2 ^ 16) ||| 0xFFFF)
  | 0x10 => s.ctlSet off (keep v (2 ^ 63 + 2 ^ 62 + (2 ^ 22 - 1)))
  | _    => s

/-- A contract register written (R167). -/
def State.writeContract (s : State) (off : Nat) (v : Word) : State :=
  let k := (off - 0x4000) / 0x20
  match off % 0x20 with
  | 0x00 => s.writeCctl k v
  | 0x08 => s.writeCper k v
  | 0x10 => s.writeCbud k v
  | _    => s

/-- A control-space dword written (R10): read-only registers and offsets that no chapter assigns ignore it. -/
def State.ctlWrite (s : State) (off : Nat) (v : Word) : State :=
  if off < 0x800 then s.ctlSet off (keep v asrootMask)
  else if off == ctlXinva then s.ctlSet off (keep v ((2 ^ 36 - 1) * 2 ^ 16))
  else if off == ctlXinvc then s.writeXinvc v
  else if 0x2000 ≤ off && off < 0x2200 then s.writeAperture off v
  else if off == ctlCcinv then s.writeCcinv v
  else if 0x4000 ≤ off && off < 0x4800 then s.writeContract off v
  else if 0x6000 ≤ off && off < 0x6800 then s.ctlSet off v
  else if 0x6800 ≤ off && off < 0x7000 then s.ctlSet off (keep v (2 ^ 64 - 256))
  else if 0x40000 ≤ off && off < 0x60000 then s.writeCvd ((off - 0x40000) / 8) v
  else if 0x80000 ≤ off && off < 0x80800 then s.writeLambda ((off - 0x80000) / 8) v
  else if off == ctlFabctl then s.writeMode (v.toNat % 4)
  else if off == ctlFabcfg then s.ctlSet off (keep v (2 ^ 63 + (2 ^ 25 - 1)))
  else if off == ctlReach then s.writeReach v
  else if off == ctlClsmap then (if s.fabMode == 2 then s.ctlSet off (keep v (2 ^ 24 - 1)) else s)
  else s

end Machine
end Sys2Proof
end

