-- ==== Sys2Proof/Machine/Access.lean ====
section
/-!
DEFINITION. Scalar accesses, atomics, fences and arrival words (R25 to R27, R70, R98, R106, R123, R236 to R238, R252 to
R256), and the events that complete fences and awaits.
-/

namespace Sys2Proof
namespace Machine

/-! ## Scalar loads and stores (R236, R237) -/

/-- An access that writes a register late: its destination is empty until it arrives (R81). -/
def State.issueLate (s : State) (kind : AccKind) (d : RegNo) (sp : List (Nat × Nat)) (addr : Word) (snap : Option ASnap := none) :
    State :=
  let s1 := s.issueWith kind sp (sp.map fun _ => none) false [] addr snap
  s1.setMe (s1.me.setFull .A d false)

/-- The A-side waits for a peer's answer to the access it has just issued (R12). -/
def State.awaitPeer (s : State) (addr : Word) : State :=
  s.setMe { s.me with peerWait := some { id := s.me.nextId - 1, fault := none, units := [(0, addr)] } }

/-- The answer of a peer to a scalar access that waits: it retires, or takes the peer's fault precisely and leaves its
destination as it was (R12, R81). -/
def State.peerAnswered (s : State) (w : PeerWait) (d : RegNo) (len : Nat) : R State := do
  orWait (s.me.pend.all fun x => x.id != w.id)
  let s1 := s.setMe { s.me with peerWait := none }
  match w.fault with
  | none        => pure (s1.retire len)
  | some (_, p) =>
    let s2 := s1.setMe (s1.me.setFull .A d true)
    pure (s2.takeTrap (trapA (if p then cPROT else cXLATE) ((w.units.headD (0, 0)).2) 1))

/-- The bytes of a scalar access. -/
def szBytes (sz : Fin 4) : Nat := 2 ^ sz.val

/-- A scalar load whose place is known: an aperture and control space are read at issue, a peer is waited for. -/
def State.loadAt (s : State) (d : RegNo) (size : Nat) (sx : Bool) (ea : Word) (len : Nat) : Place → R State
  | .mem k    => .ok (((s.warmAddr ea).issueLate (.load d size sx) d [(k, size)] ea).retire len)
  | .peer p v => .ok ((s.issueLate (.load d size sx) d [(peerKey p v, size)] ea).awaitPeer ea)
  | .aper n o => do
    s.quiet [(s.keyOf (.aper n o), size)]
    let bs ← (s.viewAs s.cur.core).readPlace (.aper n o) size
    pure (((s.warmAddr ea).issueLate (.value d (extend size sx bs)) d [(s.keyOf (.aper n o), size)] ea).retire len)
  | .ctl off  => do
    s.quiet [(s.keyOf (.ctl off), size)]
    pure ((s.issueLate (.value d (s.ctlRead off)) d [(s.keyOf (.ctl off), size)] ea).retire len)

/-- ld (R26, R236, R237). A probe of a peer's address is checked at this device alone. DEDUCED, log entry 75. -/
def execLd (f : LdF) (s : State) : Host.Outcome State Fault Refusal :=
  s.finish do
    s.onSide .A
    match s.me.peerWait with
    | some w => s.peerAnswered w f.d f.addr.len
    | none   =>
      let ea ← s.ea f.a f.addr
      let size := szBytes f.sz
      if f.d = 0 then
        let _ ← s.place (s.how .read true size) ea
        pure ((s.warmProbe ea).retire f.addr.len)
      else
        s.dst f.d
        let p ← s.place (s.how .read true size) ea
        s.loadAt f.d size f.sx ea f.addr.len p

/-- st (R236, R237). -/
def execSt (f : StF) (s : State) : Host.Outcome State Fault Refusal :=
  s.finish do
    s.onSide .A
    let ea ← s.ea f.a f.addr
    let v ← s.src f.d false
    let size := szBytes f.sz
    let p ← s.place (s.how .write true size) ea
    match p with
    | .mem k    => do
      s.logRoom s.cur.core [(k, size)]
      pure (((s.warmAddr ea).issue (.writes [leBytes size v.toNat]) [(k, size)]).retire f.addr.len)
    | .peer d a => pure ((s.issue (.writes [leBytes size v.toNat]) [(peerKey d a, size)]).retire f.addr.len)
    | .ctl off  => do
      s.quiet [(s.keyOf p, size)]
      pure ((s.ctlWrite off v).retire f.addr.len)
    | .aper _ _ => pure (s.retire f.addr.len)

/-- The translation of a host page asked for by a prefetch, which nothing waits for (R23, R27). -/
def State.prefHost (s : State) (iova : Nat) : State :=
  let fn := fnOfAsid s.me.asid.toNat
  let pg := iova / 4096
  if (s.buffered s.cur.core true fn iova).isSome || s.pri.any fun r => r.fn == fn && r.page == pg then s
  else { s with pri := s.pri ++ [{ fn := fn, page := pg, write := false, sentAt := s.gts, state := 7, cores := [s.cur.core] }] }

/-- pref (R27, R238): it installs the translation of an aligned, canonical dword of device-virtual memory, and asks the host for
that of host-shared memory. -/
def execPref (a : SrcR) (addr : AddrM) (s : State) : Host.Outcome State Fault Refusal :=
  s.finish do
    s.onSide .A
    let ea ← s.ea a addr
    let good := canonical ea.toNat && ea.toNat % 8 == 0
    let s1 := if !good then s else if ea.toNat / 2 ^ 56 == 4 then (s.warmAddr ea).prefHost (ea.toNat % 2 ^ 56) else s.warmAddr ea
    pure (s1.retire addr.len)

/-! ## Atomics (R252, R253) -/

/-- amo (R97, R131, R252, R253). -/
def execAmo (f : AmoF) (s : State) : Host.Outcome State Fault Refusal :=
  s.finish do
    orTrap (!(f.det && (f.op == .swap || f.op == .cas))) (trapE cILLEGAL)
    s.onSide .A
    match s.me.peerWait with
    | some w => s.peerAnswered w f.d 12
    | none   =>
      let tag := amoTag f.tg
      orTrap (amoTagOk tag f.op) (trapE cILLEGAL_TAG)
      let ea ← s.eaOff f.a (some f.off)
      let b ← s.srcR f.b
      let c ← s.src f.c false
      s.dst f.d
      let size := tagW tag.val / 8
      let p ← s.place (s.how .amo true size) ea
      let kind : AccKind := .amo f.d f.op tag [b] c f.acq f.rel f.det
      match p with
      | .mem k    => do
        s.logRoom s.cur.core [(k, size)] true
        pure (((s.warmAddr ea).issueLate kind f.d [(k, size)] ea).retire 12)
      | .peer d v =>
        let s1 := s.issueLate kind f.d [(peerKey d v, size)] ea
        pure (if f.d = 0 then s1.retire 12 else s1.awaitPeer ea)
      | .ctl _    => raise (trapA cPROT ea)
      | .aper _ _ => raise (trapA cPROT ea)

/-! ## Fences (R88, R98, R106, R107, R255) -/

/-- A fence begins: it waits at its instruction, and its status destination is empty (R81). -/
def State.startFence (s : State) (scope : Scope) (d : RegNo) (t : Bool) : R State :=
  match s.mySide.fence with
  | some _ => waits
  | none   => do
    s.dst d
    let s1 := s.setMySide { s.mySide with fence := some { scope := scope, dst := d, trapT := t } }
    pure (s1.setMe (s1.me.setFull s1.cur.side d false))

/-- The scope that a fence names: .core, .gang, .pane or .dev. -/
def fenceScope (n : Fin 4) : Scope :=
  match n with
  | 0 => .core
  | 1 => .gang
  | 2 => .pane
  | 3 => .dev

/-- fence.core, fence.gang, fence.pane, fence.dev (R98, R255). -/
def execFence (n : Fin 4) (s : State) : Host.Outcome State Fault Refusal := s.finish (s.startFence (fenceScope n) 0 false)

/-- fence.sys (R106). -/
def execFenceSys (d : RegNo) (s : State) : Host.Outcome State Fault Refusal := s.finish (s.startFence .sys d false)

/-- fence.sys.t (R106). -/
def execFenceSysT (d : RegNo) (s : State) : Host.Outcome State Fault Refusal := s.finish (s.startFence .sys d true)

/-- The entries that X pushed have been claimed and performed, and a receive that pushes one has delivered it (R88, R98). -/
def State.pushesDone (s : State) : Bool :=
  s.members.all fun g =>
    ((s.core g).sq.toList.all fun q => q.ents.isEmpty) && ((s.core g).pend.all fun x => !x.ofX) &&
      (s.core g).crecvs.all fun r => match r.dst with
        | .reg _ => true
        | .sq _  => false

/-- An access of which nothing is left to perform: one held at its instruction by a fault (R19), or a claimed store without an element, or
all of whose peers have been declared lost (R106). -/
def Access.settled (x : Access) : Bool :=
  x.done && match x.kind with
    | .fill _ _ _       => true
    | .stq _ _ _ _      => true
    | .load _ _ _       => false
    | .writes _         => false
    | .stab _ _ _ _ _ _ => false
    | .amo _ _ _ _ _ _ _ _ => false
    | .arm _            => false
    | .arrive _         => false
    | .await _ _ _      => false
    | .value _ _        => false

/-- What a fence of the issuing side waits for: every earlier access of its A-side (R88, R98), every entry that X has pushed, and for
a system fence what the A-sides of its context have under way too (R106). DEDUCED, log entry 18. -/
def State.covered (s : State) (scope : Scope) : Bool :=
  (match s.cur.side with
    | .A => s.me.pend.all Access.settled
    | .X => s.pushesDone) &&
  (scope != .sys || (s.gang s.cur.core).all fun g => (s.core g).pend.all fun x => !x.kind.underway)

/-- The pending loss set of a context (R107): that of each of its members. -/
def State.lossOf (s : State) : Word := (s.gang s.cur.core).foldl (fun w g => w ||| (s.core g).lossSet) 0

/-- The fault acknowledgements that a context has not reported (R12). -/
def State.faultsOf (s : State) : List PeerFault := (s.gang s.cur.core).flatMap fun g => (s.core g).peerFaults

/-- A change to every member of the issuing context. -/
def State.eachOfGang (s : State) (f : Core → Core) : State :=
  (s.gang s.cur.core).foldl (fun s g => s.setCore g (f (s.core g))) s

/-- FENCEST from the pending loss set: the bit at the device's own number says whether any other is 1 (R107). -/
def fencest (dev : Nat) (loss : Word) : Word :=
  let own : Word := BitVec.ofNat 64 (2 ^ dev)
  let others := loss &&& ~~~own
  if others = 0 then 0 else others ||| own

/-- The fault acknowledgement that a system fence reports: of the lowest peer, the earliest access and its lowest element
(R12). -/
def firstFault (fs : List PeerFault) : Option PeerFault :=
  fs.foldl (fun b f => match b with
    | none   => some f
    | some g =>
      if f.peer < g.peer || (f.peer == g.peer && (f.id < g.id || (f.id == g.id && f.elem < g.elem))) then some f else b) none

/-- A fence ends (R98, R106): a system fence writes FENCEST and its destination, unless it reports a fault or a loss. The zero-length
read of R106 completes at once, for a host-shared write is performed at the host's ordering point. -/
def State.endFence (s : State) (f : FenceSt) : R State := do
  orWait (s.covered f.scope)
  let s1 := s.setMySide { s.mySide with fence := none }
  match f.scope with
  | .sys =>
    let st := fencest s.dev s.lossOf
    let s2 := s1.eachOfGang fun c => { c with lossSet := 0, lostStores := [] }
    let s3 := s2.setMe { s2.me with fencest := st }
    let undo := s3.setMe (s3.me.setFull s3.cur.side f.dst true)
    match firstFault s.faultsOf with
    | some p =>
      orWait !s.holdsTrap
      let s4 := undo.eachOfGang fun c => { c with peerFaults := c.peerFaults.filter fun q => q.peer != p.peer }
      pure (s4.takeTrap (trapA (if p.prot then cPROT else cXLATE) p.addr 5))
    | none   =>
      if f.trapT && st != 0 then do
        orWait !s.holdsTrap
        pure (undo.takeTrap (trapE cPEER_LOST (lowBit (st &&& ~~~(BitVec.ofNat 64 (2 ^ s.dev))))))
      else pure ((s3.setMe (s3.me.arriveReg s3.cur.side f.dst st)).retire 4)
  | .core => pure (s1.retire 4)
  | .gang => pure (s1.retire 4)
  | .pane => pure (s1.retire 4)
  | .dev  => pure (s1.retire 4)

/-- Whether a fence that ends now would trap (R106). -/
def State.fenceTraps (s : State) (f : FenceSt) : Bool := !s.faultsOf.isEmpty || (f.trapT && fencest s.dev s.lossOf != 0)

/-- FENCE_COMPLETE (R88, R98, R106). -/
def execFenceComplete (c : CoreId) (side : Side) (s : State) : Host.Outcome State Fault Refusal :=
  .next (match ((s.core c.no).side side).fence with
    | none   => s
    | some f => s.onBehalf c.no side fun t => t.endFence f)

/-! ## Arrival words (R68 to R70, R123, R256) -/

/-- arm and arrive. -/
def State.arrivalOp (s : State) (a b : SrcR) (kind : Word → AccKind) : R State := do
  s.onSide .A
  let x ← s.srcR a
  let y ← s.srcR b
  let k ← s.syncPlace .write x 16
  pure ((s.issue (kind y) [(k, 16)]).retire 4)

/-- arm (R69, R256). -/
def execArm (a b : SrcR) (s : State) : Host.Outcome State Fault Refusal :=
  s.finish (s.arrivalOp a b fun y => .arm (y.toNat % 2 ^ 40))

/-- arrive (R69, R256). -/
def execArrive (a b : SrcR) (s : State) : Host.Outcome State Fault Refusal :=
  s.finish (s.arrivalOp a b fun y => .arrive (y.toNat % 2 ^ 40))

/-- A failure record consumed. -/
def State.dropFail (s : State) (core : Nat) (r : FailRec) : State :=
  match (s.core core).task with
  | none    => s
  | some id => match s.task id with
    | none   => s
    | some t => s.setTask { t with fails := t.fails.erase r }

/-- The trap that a failure record is raised as (R123, R182). -/
def FailRec.trap (r : FailRec) : Trap := { code := r.cause, info := info2 r.chunk r.boff }

/-- await (R70, R123, R256). -/
def execAwait (d : RegNo) (a b : SrcR) (s : State) : Host.Outcome State Fault Refusal :=
  s.finish do
    s.onSide .A
    let x ← s.srcR a
    let y ← s.srcR b
    s.dst d
    let k ← s.syncPlace .read x 16
    match (s.failRecs s.cur.core).find? fun r => r.key == some k with
    | some r => pure ((s.dropFail s.cur.core r).takeTrap r.trap)
    | none   =>
      orWait ((s.me.pend.filter fun e => e.kind.isAwait).length < 4)
      pure ((s.issueLate (.await d (y.setWidth 32) x) d [(k, 16)] s.mySide.pc (some s.aSnap)).retire 4)

/-- A side can be made to trap between two instructions: nothing that it issued holds it. -/
def Core.between (c : Core) (sd : Side) : Bool :=
  let t := c.side sd
  t.fence.isNone && t.waitTo.isNone && t.bar.isNone && !t.fin &&
    (match sd with
     | .A => c.peerWait.isNone && c.ldabTry.isNone
     | .X => c.conv.isNone && c.crecvs.isEmpty)

/-- A core whose A-side is unwound to an await (R123, R177): the registers and the position that it had there, and nothing of what it
issued since, all of which is ordered after the await: accesses, claims of queue slots, tokens that X has not taken, macro-operations
that have not begun. -/
def Core.unwindTo (c : Core) (x : Access) : Core :=
  match x.snap with
  | none   => c.dropPend x.id
  | some p =>
    let lq (q : Queue) : Queue :=
      { ents := q.ents.filter fun e => !(x.id < e.id)
        ctr := (q.ents.filter fun e => x.id < e.id).foldl (fun n e => n - BitVec.ofNat 32 (e.kind.groups e.n e.tag.val)) q.ctr }
    let late := c.cq.filter fun k => x.id < k.id
    { c with
      a := p.a, aFull := p.aFull, av := { p.side with asyncs := c.av.asyncs }, spsz := p.spsz, mcfg := p.mcfg
      pend := c.pend.filter fun y => y.id < x.id, lq := c.lq.map lq
      cq := c.cq.filter fun k => !(x.id < k.id)
      cqCtr := late.foldl (fun n k => n - BitVec.ofNat 32 (groups k.vl.toNat k.w)) c.cqCtr
      mops := c.mops.filter fun m => m.run || m.id < x.id, heldEpc := none, heldInh := none }

/-- The cards that a core has issued since an await and that have not begun are taken back (R123). -/
def State.takeBackCards (s : State) (core id : Nat) : State :=
  let p := s.pane (paneOf core)
  let fresh (k : Card) : Bool := k.core == core && id < k.seq && (k.phase == .accepted || k.phase == .waiting)
  let gone := (p.cards.filter fresh).map fun k => k.id
  s.setPane (paneOf core) { p with
    cards := p.cards.filter fun k => !fresh k
    reqs := p.reqs.filter fun r => match r.who with
      | .card n  => !gone.contains n
      | .mop _   => true
      | .ahead _ => true }

/-- The A-side can be taken back to an instruction of its own: it is in no handler, and nothing of an exchange with a peer, a removal or a
merge holds it. A fence or a wait is taken back with the rest. -/
def Core.retractable (c : Core) : Bool := !causeInh c.av.cause && !c.av.fin && !(match c.av.bar with
  | none   => false
  | some b => b.merge)

/-- A trap precise at a pending access, once the A-side can be taken back to it (R123, R177). DEDUCED, log entry 33. -/
def State.failAt (s : State) (core : Nat) (x : Access) (k : Trap) : State :=
  if !(s.core core).retractable then s
  else s.onBehalf core .A fun t => .ok (((t.setMe (t.me.unwindTo x)).takeBackCards core x.id).takeTrap k)

/-- A card has failed whose word a pending await names: the record is raised precisely at the await (R123). -/
def State.failAwait (s : State) (core : Nat) (x : Access) (r : FailRec) : State :=
  if !(s.core core).retractable then s else (s.dropFail core r).failAt core x r.trap

/-- An append of a core meets the entry it claims (R90): its checks are precise, its access to the TAIL word waits for what must come before
it, its writes and then its arrival take its place. -/
def State.appendAt (s : State) (core : Nat) (x : Access) (q : Fin 2) (cap room : Nat) (e : Entry) (es : List Entry) : State :=
  let c := s.core core
  let before := c.pend.takeWhile fun y => y.id != x.id
  let w := tagW e.tag.val
  if w < 8 then s.failAt core x (trapE cILLEGAL_TAG)
  else if room < cap * (w / 8) then s.failAt core x (trapA cPROT x.addr)
  else if !mayPerform (x.earlier 0 before ((c.pend.drop before.length).drop 1)) x 0 then s
  else
    let tk := (x.spans.headD (0, 0)).1
    let t := leNat (Memory.readN s.mem tk 4)
    let n := e.elems.length
    let sp := (List.range n).map fun j => ringSlot (x.range.headD (0, 0)).1 cap w (t + j)
    let own (id : Nat) (kind : AccKind) (sp : List (Nat × Nat)) : Access :=
      { x with id := id, kind := kind, spans := sp, ans := sp.map fun _ => none, ofX := true, range := [], snap := none }
    let parts := (if n = 0 then [] else [own x.id (.writes (alongSpans sp (entryBytes e false))) sp]) ++
      [own (x.id + 1) (.arrive n) [(tk + 4, 16)]]
    let c1 := { c with sq := c.sq.set q.val { c.sq[q.val] with ents := es }
                       pend := c.pend.flatMap fun y => if y.id == x.id then parts else [y] }
    let s1 : State := { s with mem := Memory.writeN s.mem tk (leBytes 4 (t + n)) }
    s1.setCore core (if e.anyInvalid then c1.markMv 2 else c1)

/-- STQ_DATA_ARRIVES (R84, R147, R246): the oldest claimed store of the A-side takes its data from queue n once X has pushed
it; blocks take two entries (R251), and an append is checked (R90). A store that a fault holds has the elements below VSTART written (R108). -/
def execStqDataArrives (c : CoreId) (n : Nat) (s : State) : Host.Outcome State Fault Refusal :=
  .next <|
    let k := c.no
    let co := s.core k
    let claimed (x : Access) : Bool := match x.kind with
      | .stq _ _ _ _      => true
      | .load _ _ _       => false
      | .fill _ _ _       => false
      | .writes _         => false
      | .stab _ _ _ _ _ _ => false
      | .amo _ _ _ _ _ _ _ _ => false
      | .arm _            => false
      | .arrive _         => false
      | .await _ _ _      => false
      | .value _ _        => false
    match co.pend.find? fun x => claimed x && !s.mayRetract k x.id with
    | none   => s
    | some x => match x.kind with
      | .stq q tag form false =>
        let two := match form with
          | .blocks _ _    => true
          | .plain         => false
          | .row           => false
          | .planes _ _    => false
          | .amo _ _ _ _   => false
          | .app _ _       => false
        if q.val != n || !co.pushStands q (if two then 2 else 1) then s else
        match co.sq[q.val].ents, two with
        | e :: es, false => match form with
          | .app cap room => s.appendAt k x q cap room e es
          | _ =>
          let c1 := { co with sq := co.sq.set q.val { co.sq[q.val] with ents := es } }
          let c2 := if e.anyInvalid then c1.markMv 2 else c1
          (s.setCore k (c2.mapPend x.id fun x => takeData x tag form e none)).settleAccess k x.id
        | e :: d :: es, true =>
          let c1 := { co with sq := co.sq.set q.val { co.sq[q.val] with ents := es } }
          let c2 := if d.anyInvalid then c1.markMv 2 else c1
          (s.setCore k (c2.mapPend x.id fun x => takeData x tag form e (some d))).settleAccess k x.id
        | [], _      => s
        | [_], true  => s
      | .stq q tag form true =>
        if q.val != n || x.open_.isEmpty || !co.pushStands q 1 then s else
        match co.sq[q.val].ents with
        | []     => s
        | e :: _ => s.setCore k (co.writeBelow x tag form e)
      | .load _ _ _        => s
      | .fill _ _ _        => s
      | .writes _          => s
      | .stab _ _ _ _ _ _  => s
      | .amo _ _ _ _ _ _ _ _ => s
      | .arm _             => s
      | .arrive _          => s
      | .await _ _ _       => s
      | .value _ _         => s

/-- AWAIT_COMPLETE (R70, R123): the n-th pending await of a core is evaluated. -/
def execAwaitComplete (c : CoreId) (n : Nat) (s : State) : Host.Outcome State Fault Refusal :=
  .next (match findOpen (fun x _ => x.kind.isAwait) [] (s.core c.no).pend n with
    | none            => s
    | some (es, x, j) =>
      match x.kind with
      | .await _ ag _ =>
        let k := (x.spans.getD j (0, 0)).1
        if (s.arrRead k).passed ag.toNat then (if mayPerform es x j then s.performSpan c.no x j else s)
        else match (s.failRecs c.no).find? fun r => r.key == some k with
          | some r => s.failAwait c.no x r
          | none   => s
      | .load _ _ _       => s
      | .fill _ _ _       => s
      | .writes _         => s
      | .stq _ _ _ _      => s
      | .stab _ _ _ _ _ _ => s
      | .amo _ _ _ _ _ _ _ _ => s
      | .arm _            => s
      | .arrive _         => s
      | .value _ _        => s)

end Machine
end Sys2Proof
end

