-- ==== Sys2Proof/Machine/Vector.lean ====
section
/-!
DEFINITION. The vector instructions, majors 0x1D to 0x28 (R261 to R284).
-/

namespace Sys2Proof
namespace Machine

/-! ## Configuration and length (R265) -/

/-- The largest power of two not above n, for n > 0. -/
def pow2Floor (n : Nat) : Nat := 2 ^ Nat.log2 n

/-- The effective VLMAX (R141); 0 for a core without healthy lane groups. -/
def vlmaxOf (vnreg vlcap laneok : Nat) : Nat :=
  let shape := 16384 / vnreg
  let h := ((List.range 8).filter fun g => bit laneok g).length
  if h = 0 then 0 else min (min shape vlcap) (pow2Floor (shape * h / 8))

/-- VNREG set and the registers cleared (R142): vlmax is what the new shape gives the core (R141, R149). -/
def Core.reshape (c : Core) (vnreg vlmax : Nat) : Core :=
  { c with vnreg := vnreg, vlmax := vlmax, vregs := Vector.replicate 32 VReg.reset, lqBind := Vector.replicate 4 .none }

/-- The VLMAX of a shape on a core, which is the least among the members of its gang (R141, R149), each taken at the VNREG of the member
that executes vcfg. DESIGN CHOICE, log entry 86. -/
def State.shapeMax (s : State) (core vnreg : Nat) : Nat :=
  (s.gang core).foldl (fun m g => min m (vlmaxOf vnreg (s.core g).vlcap (s.core g).lanes.toNat))
    (vlmaxOf vnreg (s.core core).vlcap (s.core core).lanes.toNat)

/-- A change made to every core whose lanes X drives. -/
def State.eachMember (s : State) (f : Core → Core) : State := s.members.foldl (fun s g => s.setCore g (f (s.core g))) s

/-- vcfg (R142, R265). -/
def execVcfg (code : Fin 4) (s : State) : Host.Outcome State Fault Refusal :=
  s.finish do
    s.onSide .X
    orWait s.me.crecvs.isEmpty
    let n := 4 * 2 ^ code.val
    pure ((s.eachMember fun c => c.reshape n (s.shapeMax s.cur.core n)).retireV 4)

/-- vtag (R265): cx tags take the current versions (R300). -/
def execVtag (d : RegNo) (tag : Fin 32) (s : State) : Host.Outcome State Fault Refusal :=
  s.finish do
    s.onSide .X
    s.vreg d
    orTrap (tagOk tag.val) (trapE cILLEGAL_TAG)
    pure ((s.eachMember fun c =>
      let v := c.vregs[d.val]
      let r := { v with tag := tag, elems := reslice (tagW v.tag.val) (tagW tag.val) v.elems,
                        vers := if isCx tag.val then c.cbVers else v.vers }
      { c with vregs := c.vregs.set d.val r }).retireV 4)

/-- vgetl (R143, R151, R265). -/
def execVgetl (d : RegNo) (s : State) : Host.Outcome State Fault Refusal :=
  s.finish do
    s.onSide .X
    s.dst d
    let ks ← s.members.mapM fun g => match (s.core g).cq with
      | []     => waits
      | k :: _ => if s.mayRetract g k.id then waits else Except.ok k
    let w := match ks with
      | []     => 64
      | k :: _ => k.w
    let lens := ks.map fun k => k.vl.toNat
    let vl := lens.foldl (· + ·) 0
    match lens.find? fun n => s.me.vlMaxW w < n with
    | some n => raise (trapE cVL_RANGE n)
    | none =>
      orTrap (isPrefix (s.sliceLen w) lens) (trapE cVL_RANGE vl)
      let s1 := s.eachMember fun c => { c with
        cq := c.cq.drop 1
        pops := if c.crecvs.isEmpty then c.pops else c.pops ++ (match c.cq with
          | []     => []
          | k :: _ => [.token k])
        popMark := match c.cq with
          | []     => c.popMark
          | k :: _ => max c.popMark k.id }
      let s2 := s1.put d (BitVec.ofNat 64 vl)
      pure ((s2.setMySide { s2.mySide with vl := BitVec.ofNat 32 vl }).retireV 4)

/-- VLMAX for a width over every slice (R150). -/
def State.vlMaxAll (s : State) (w : Nat) : Nat := s.members.length * s.me.vlMaxW w

/-- vsetlx (R265). -/
def execVsetlx (d a : RegNo) (w : Fin 32) (s : State) : Host.Outcome State Fault Refusal :=
  s.finish do
    s.onSide .X
    orTrap (1 ≤ w.val && w.val ≤ 5) (trapE cILLEGAL)
    let x ← s.src a false
    s.dst d
    let vl := min x.toNat (s.vlMaxAll (stripW w.val))
    let s1 := s.put d (BitVec.ofNat 64 vl)
    pure ((s1.setMySide { s1.mySide with vl := BitVec.ofNat 32 vl }).retireV 4)

/-! ## Moves, broadcasts and spills (R266, R267) -/

/-- Source elements moved where active, without a flag. -/
def moved (x : VIn) (act : List Bool) : List (Option ERes) :=
  (act.zip (x.bits.zip x.valid)).map fun p => if p.1 then some (ERes.plain p.2.1 p.2.2) else none

/-- What a move leaves: it writes elements without producing any, so MV.SEEN is left as it is. -/
def State.vmovedTo (s : State) (d : VDst) (tag n : Nat) (res : List (Option ERes)) (srcs : List VIn) (q : Option (Fin 4))
    (len : Nat) : State :=
  let s1 := s.vputTo d tag n res srcs
  (({ s1 with undefCtr := s1.undefCtr + 2 ^ 23 } : State).popLq q).retireV len

/-- A move, once its destination can take the result. -/
def State.vmoved (s : State) (d : VDst) (tag n : Nat) (res : List (Option ERes)) (srcs : List VIn) (q : Option (Fin 4))
    (len : Nat) : R State := do
  s.destReady d
  pure (s.vmovedTo d tag n res srcs q len)

/-- vmv (R266): bits, validity and carried version copied, invalid elements included. -/
def execVmv (f : V1P) (s : State) : Host.Outcome State Fault Refusal :=
  s.finish do
    s.onSide .X
    s.dstName f.d
    s.srcName f.a
    let n ← s.vlen f.a.queue
    let x ← s.vin n f.a
    s.vmoved f.d x.tag n (moved x (s.active f.p n)) [x] f.a.queue 4

/-- The bytes of a register's spill frame with n elements (R73). Elements beyond the register's shape, of which it has cap, have no
stated value: seed numbers undefined ones (DESIGN CHOICE, log entry 7). -/
def VReg.frame (v : VReg) (n cap seed : Nat) : List Byte :=
  let w := tagW v.tag.val
  let pad (bs : List Byte) : List Byte := bs ++ List.replicate ((16 - bs.length % 16) % 16) 0
  let xs := (List.range n).map fun e => (v.at_ cap seed e).1.toNat % 2 ^ w
  let vb := (List.range (ceilDiv n 8)).map fun j =>
    BitVec.ofNat 8 ((List.range 8).foldl (fun k i => k + if j * 8 + i < n && (v.at_ cap seed (j * 8 + i)).2 then 2 ^ i else 0) 0)
  (leBytes 4 n ++ leBytes 4 v.mark ++ [BitVec.ofNat 8 v.tag.val] ++ List.replicate 7 0) ++
    pad (packElems w xs) ++ pad vb

/-- A spill piece pushed as n8 elements. -/
def Core.pushPiece (c : Core) (q : Fin 2) (bs : List Byte) : Core :=
  c.pushSq q tN8 .spill bs.length (bs.map fun b => b.zeroExtend 64) (bs.map fun _ => true) c.cbVers

/-- vpush.h (R73, R267): the frame as two entries. -/
def execVpushH (q : Fin 2) (a : RegNo) (s : State) : Host.Outcome State Fault Refusal :=
  s.finish do
    s.onSide .X
    s.vreg a
    orTrap (tagOk s.me.vregs[a.val].tag.val || s.vl == 0) (trapE cILLEGAL_TAG)
    s.sqRoom q 2
    let w := tagW s.me.vregs[a.val].tag.val
    let one (t : State) (g : Nat × Nat × Nat) : State :=
      let c := t.core g.1
      let f := c.vregs[a.val].frame g.2.2 (c.capW w) (s.undefCtr + g.2.1)
      let b := 8 * c.vlmax
      t.setCore g.1 ((c.pushPiece q (f.take b)).pushPiece q (f.drop b))
    let s1 := (s.slices w s.vl).foldl one s
    pure (({ s1 with undefCtr := s1.undefCtr + 2 ^ 23 } : State).retireV 4)

/-- vpush (R266): elements below the high-water mark, with tag and validity. -/
def execVpush (q : Fin 2) (a : RegNo) (s : State) : Host.Outcome State Fault Refusal :=
  s.finish do
    s.onSide .X
    s.vreg a
    orTrap (tagOk s.me.vregs[a.val].tag.val) (trapE cILLEGAL_TAG)
    s.sqRoom q 1
    pure ((s.eachMember fun c =>
      let v := c.vregs[a.val]
      let es := (List.range v.mark).map fun e => v.at_ v.mark 0 e
      let src : VIn := { tag := v.tag.val, bits := [], valid := [], vers := [v.vers], bind := v.bind }
      c.pushSq q v.tag.val .data v.mark (es.map fun x => x.1) (es.map fun x => x.2) (pushVers c 0 [src])).retireV 4)

/-- A register whose elements from n on are undefined (R75, R186): seed numbers them. -/
def VReg.forget (v : VReg) (n cap seed : Nat) : VReg :=
  let w := tagW v.tag.val
  let new := (List.range (cap - n)).map fun i => Config.undef (seed + 2 * i)
  { v with
    elems := (List.range n).map (fun e => v.elems.getD e 0) ++ new.map fun x => BitVec.ofNat 64 (x.toNat % 2 ^ w),
    valid := (List.range n).map (fun e => v.valid.getD e true) ++
      (List.range (cap - n)).map fun i => (Config.undef (seed + 2 * i + 1)).getLsbD 0 }

/-- The register that a frame restores (R75), or the trap it raises; a byte that the entries lack is undefined. The faults are looked
for in the order of R75, and bits 7:5 of the TAG byte, which R73 has as zero, count as reserved header bits. DEDUCED, log entry 66. -/
def Core.fromFrame (c : Core) (v : VReg) (bs : List Byte) (seed : Nat) : R VReg := do
  let byte (k : Nat) : Nat := match bs[k]? with
    | none   => (Config.undef (seed + k)).toNat % 256
    | some b => b.toNat
  let num (k n : Nat) : Nat := (List.range n).foldl (fun acc i => acc + byte (k + i) * 2 ^ (8 * i)) 0
  let n := num 0 4
  let t := byte 8 % 32
  let w := tagW t
  orTrap (tagOk t) (trapE cILLEGAL_TAG)
  orTrap (n ≤ c.vlMaxW w) (trapE cVL_RANGE n)
  orTrap (byte 8 < 32 && (List.range 7).all fun i => byte (9 + i) == 0) (trapE cILLEGAL)
  let body := 16
  let vb := 16 + ceilDiv (n * w) 128 * 16
  let elem (e : Nat) : Word := BitVec.ofNat 64 (num (body + e * w / 8) (ceilDiv w 8) / 2 ^ (e * w % 8) % 2 ^ w)
  let r : VReg := { v with tag := Fin.ofNat 32 t, mark := min (num 4 4) n, elems := (List.range n).map elem,
                           valid := (List.range n).map fun e => bit (byte (vb + e / 8)) (e % 8),
                           vers := if isCx t then c.cbVers else v.vers }
  pure (r.forget n (c.capW w) (seed + 2 ^ 17))

/-- vmv.h (R75, R267): pops two entries and restores a spill frame from their bytes. -/
def execVmvH (d : RegNo) (q : Fin 4) (s : State) : Host.Outcome State Fault Refusal :=
  s.finish do
    s.onSide .X
    s.vreg d
    let one (t : State) (g : Nat) : R State := do
      let c := t.core g
      match c.lq[q.val].ents with
      | a :: b :: es =>
        orWait (a.delivered && b.delivered && !t.mayRetract g a.id && !t.mayRetract g b.id)
        let w (e : Entry) : Nat := tagW e.tag.val
        orTrap (w a == 0 || a.n ≤ c.vlMaxW (w a)) (trapE cVL_RANGE a.n)
        orTrap (w b == 0 || b.n ≤ c.vlMaxW (w b)) (trapE cVL_RANGE b.n)
        let r ← c.fromFrame c.vregs[d.val] (entryBytes a false ++ entryBytes b false) (t.undefCtr)
        pure ({ t.setCore g { c with vregs := c.vregs.set d.val r, popMark := max c.popMark b.id
                                     pops := if c.crecvs.isEmpty then c.pops else c.pops ++ [.entry q a, .entry q b]
                                     lq := c.lq.set q.val { c.lq[q.val] with ents := es } }
                with undefCtr := t.undefCtr + 2 ^ 23 } : State)
      | [_] => waits
      | []  => waits
    let s1 ← s.members.foldlM one s
    pure (s1.retireV 4)

/-- vbc (R266). -/
def execVbc (d : VDst) (b : RegNo) (p : Pred) (ext : Option (Fin 32)) (s : State) : Host.Outcome State Fault Refusal :=
  s.finish do
    s.onSide .X
    s.dstName d
    let t := match ext with
      | none   => tI64
      | some t => if t = 0 then tI64 else t.val
    orTrap (tagOk t && !isCx t) (trapE cILLEGAL_TAG)
    let x ← s.src b false
    let n := s.vl
    let v := x.toNat % 2 ^ tagW t
    s.vmoved d t n ((s.active p n).map fun a => if a then some (ERes.plain v true) else none) [] none (lenOf ext)

/-- vid (R266): the gang-wide index in a LONG gang. -/
def execVid (d : VDst) (ext : Option (Fin 32)) (s : State) : Host.Outcome State Fault Refusal :=
  s.finish do
    s.onSide .X
    s.dstName d
    let t := match ext with
      | none   => tN32
      | some t => if t = 0 then tN32 else t.val
    orTrap (isInt t) (trapE cILLEGAL_TAG)
    let n := s.vl
    s.vmoved d t n ((List.range n).map fun e => some (ERes.plain (e % 2 ^ tagW t) true)) [] none (lenOf ext)

/-- An element as a scalar: sign-extended for i tags, also for dv tags where asked, zero-extended otherwise. -/
def elemWord (t : Nat) (dv : Bool) (x : Nat) : Word :=
  if isSigned t || (dv && isDv t) then BitVec.ofInt 64 (signedOf (tagW t) x) else BitVec.ofNat 64 x

/-- vext (R266): an element beyond a popped entry's length has no stated value. -/
def execVext (d : RegNo) (a : VSrc) (i : VIdx) (s : State) : Host.Outcome State Fault Refusal :=
  s.finish do
    s.onSide .X
    s.srcName a
    let k ← s.vidxZ i
    s.dst d
    let n ← s.vlen a.queue
    let raw ← s.vraw (match a with
      | .reg _ => min (k.toNat + 1) (2 ^ 20)
      | .lq _  => n) a
    orTrap (tagOk raw.tag) (trapE cILLEGAL_TAG)
    orTrap (k.toNat < s.vlMaxAll (tagW raw.tag)) (trapE cVL_RANGE k.toNat)
    let (u, s1) := s.fresh
    let x := raw.bits.getD k.toNat (u.toNat % 2 ^ tagW raw.tag)
    pure (((s1.put d (elemWord raw.tag true x)).popLq a.queue).retireV i.len)

/-- vins (R266). -/
def execVins (d a : RegNo) (i : VIdx) (s : State) : Host.Outcome State Fault Refusal :=
  s.finish do
    s.onSide .X
    s.vreg d
    let x ← s.src a false
    let k ← s.vidxZ i
    let t := s.me.vregs[d.val].tag.val
    let w := tagW t
    orTrap (tagOk t) (trapE cILLEGAL_TAG)
    orTrap (k.toNat < s.vlMaxAll w) (trapE cVL_RANGE k.toNat)
    let m := s.sliceLen w
    let g := s.members.getD (k.toNat / m) s.cur.core
    let e := k.toNat % m
    let c := s.core g
    let upd := List.replicate e none ++ [some (BitVec.ofNat 64 (x.toNat % 2 ^ w), true)]
    pure ((s.setCore g { c with vregs := c.vregs.set d.val ((c.vregs[d.val]).write t upd (e + 1)) }).retireV i.len)

/-! ## Arithmetic (R268 to R270) -/

/-- The operations of majors 0x1F and 0x20. -/
inductive VOp where
  | add | sub | mul | mulh | fma | div | min | max | abs | neg | and | or | xor | not | shl | shr | sar
  deriving DecidableEq, Repr

/-- The rows of R268 marked integer. -/
def VOp.intOnly : VOp → Bool
  | .mulh | .and | .or | .xor | .not | .shl | .shr | .sar => true
  | .add | .sub | .mul | .fma | .div | .min | .max | .abs | .neg => false

/-- The operations that SAT is defined for (R264). -/
def VOp.satOk : VOp → Bool
  | .add | .sub | .mul | .fma | .abs | .neg => true
  | .mulh | .div | .min | .max | .and | .or | .xor | .not | .shl | .shr | .sar => false

def VOp.isShift : VOp → Bool
  | .shl | .shr | .sar => true
  | .add | .sub | .mul | .mulh | .fma | .div | .min | .max | .abs | .neg | .and | .or | .xor | .not => false

/-- The exact integer of a value known to be one. -/
def Num.toInt : Num → Int
  | .nan       => 0
  | .inf _     => 0
  | .fin n m e => if n then -((shl m e : Nat) : Int) else (shl m e : Nat)

/-- IEEE minimum or maximum of two exact values: −0 counts as less than +0 (R270). -/
def Num.least (big : Bool) (a b : Num) : Num :=
  if a.isNaN || b.isNaN then .nan
  else
    let neg (x : Num) : Bool := match x with
      | .fin n _ _ => n
      | .inf n     => n
      | .nan       => false
    let lt := Num.cmp a b < 0 || (a.isZero && b.isZero && neg a && !neg b)
    if big then (if lt then b else a) else if lt then a else b

/-- The exact result of an operation on values in the promoted tag p, with the flags it raised. k is the shift count. -/
def VOp.exact (op : VOp) (p mode : Nat) (a b c : Num) (k : Int) : Exact :=
  let w := tagW p
  let ba := iBits p a.toInt
  let bb := iBits p b.toInt
  let int (x : Nat) : Exact := (valueOf p (x % 2 ^ w), 0)
  let inRange := 0 ≤ k && k < (w : Int)
  match op with
  | .add  => Num.add mode a b
  | .sub  => Num.sub mode a b
  | .mul  => Num.mul a b
  | .fma  => Num.fma mode a b c
  | .mulh => int (wrapTo (2 * w) (a.toInt * b.toInt) / 2 ^ w)
  | .div  =>
    if isFloat p then Num.div a b
    else if b.toInt = 0 then int (2 ^ w - 1)
    else int (iBits p (Int.tdiv a.toInt b.toInt))
  | .min  => (Num.least false a b, 0)
  | .max  => (Num.least true a b, 0)
  | .abs  => (Num.ofInt (if a.toInt < 0 then -a.toInt else a.toInt), 0)
  | .neg  => (Num.ofInt (-a.toInt), 0)
  | .and  => int (ba.land bb)
  | .or   => int (ba.lor bb)
  | .xor  => int (ba.xor bb)
  | .not  => int (2 ^ w - 1 - ba)
  | .shl  => int (if inRange then ba * 2 ^ k.toNat else 0)
  | .shr  => int (if inRange then ba / 2 ^ k.toNat else 0)
  | .sar  => int (wrapTo w (signedOf w ba / ((2 ^ (if inRange then k.toNat else w) : Nat) : Int)))

/-- One active element with valid sources: xa, xb, xc are bits under tags ta, tb, tc; p is the promoted tag, r the result
tag. -/
def VOp.elem (op : VOp) (p r mode : Nat) (sat : Bool) (ta xa tb xb tc xc : Nat) (k : Int) : ERes :=
  let snan := (if isSNaN ta xa || isSNaN tb xb || isSNaN tc xc then fNV else 0)
  let signBit := 2 ^ (tagW p - 1)
  let moveSign (x : Nat) : ERes :=
    if r = p then ERes.plain x true else encodeResult p r mode false (valueOf p x, 0)
  if isFloat p && op = .abs then moveSign (xa % signBit)
  else if isFloat p && op = .neg then moveSign (xa.xor signBit)
  else
    let e := op.exact p mode (promoted p ta xa) (promoted p tb xb) (promoted p tc xc) k
    encodeResult p r mode sat (e.1, e.2 ||| snan)

/-- An operand as it is read, for the codebook versions that it carries (R263); a scalar carries none. -/
def State.carried (s : State) (n : Nat) (b : VSrcB) : List VIn :=
  (srcsOfB b).flatMap fun x => match s.vraw n x with
    | .ok y    => [y]
    | .error _ => []

/-- A vector source with its masks to set; a scalar broadcast takes va's tag (R264). -/
def State.vinB (s : State) (n : Nat) (act : List Bool) (ta : Nat) : VSrcB → R (VIn × List (Fin 16 × Nat))
  | .reg v  => do
    let x ← s.vin n (.reg v)
    s.scalarised act x
  | .lq q   => do
    let x ← s.vin n (.lq q)
    s.scalarised act x
  | .scal b => do
    let x ← s.src b false
    pure ({ tag := ta, bits := List.replicate n (x.toNat % 2 ^ tagW ta), valid := List.replicate n true, vers := [],
            bind := .none }, [])

/-- Two optional queues, of which at most one is named (R213). -/
def pickQ (a b : Option (Fin 4)) : Option (Fin 4) := a.or b

/-- What an element-wise instruction is about to write: its length, result tag and elements, its offender mask, the masks
that substitutions set, its sources as they were read, and the queue popped. -/
structure ArithPlan where
  n    : Nat
  tag  : Nat
  res  : List (Option ERes)
  off  : Option (Fin 16)
  sets : List (Fin 16 × Nat)
  srcs : List VIn
  q    : Option (Fin 4)
  deriving DecidableEq, Repr

/-- The checks and results of majors 0x1F and 0x20 (R261 to R270): sources in order, promotion, result tag, elements. -/
def State.arithPlan (s : State) (op : VOp) (d : VDst) (a : VSrc) (b : Option VSrcB) (c : Option RegNo) (p : Pred)
    (x : Option ArithX) : R ArithPlan := do
    let sat := match x with
      | none   => false
      | some x => x.sat
    let tg := match x with
      | none   => 0
      | some x => x.tg.val
    orTrap (!sat || op.satOk) (trapE cILLEGAL)
    s.onSide .X
    s.dstName d
    s.srcName a
    match b with
    | none   => pure ()
    | some b => s.srcNameB b
    match c with
    | none   => pure ()
    | some c => s.vreg c
    orTrap (tg == 0 || (tagOk tg && !isCx tg)) (trapE cILLEGAL_TAG)
    let q := pickQ a.queue (b.bind fun b => b.queue)
    let n ← s.vlen q
    let act := s.active p n
    let va ← s.vin n a
    let (va, setsA) ← s.scalarised act va
    let (vb, setsB) ← match b with
      | none   => pure ({ va with bits := va.bits.map fun _ => 0, valid := va.valid.map fun _ => true }, [])
      | some b => s.vinB n act va.tag b
    let (vc, setsC) ← match c with
      | none   => pure ({ va with bits := va.bits.map fun _ => 0, valid := va.valid.map fun _ => true }, [])
      | some c => do
        let y ← s.vin n (.reg c)
        s.scalarised act y
    let shiftBy ← match op.isShift, b with
      | true, some (.scal r) => do
        let y ← s.src r false
        pure (some y.toInt)
      | true, _  => pure none
      | false, _ => pure none
    let pt ← match b, op.isShift with
      | none, _       => pure (row2 va.tag)
      | some _, true  => pure (row2 va.tag)
      | some _, false => match promote (row2 va.tag) (row2 vb.tag) with
        | none   => raise (trapE cILLEGAL_TAG)
        | some t => match c with
          | none   => pure t
          | some _ => match promote t (row2 vc.tag) with
            | none   => raise (trapE cILLEGAL_TAG)
            | some t => pure t
    orTrap (!(op.intOnly && (isFloat pt || (b.isSome && isFloat vb.tag)))) (trapE cILLEGAL_TAG)
    let rt := if tg = 0 then pt else tg
    orTrap (!(sat && isFloat rt)) (trapE cILLEGAL)
    let mode := bits s.me.fctl 1 0
    let kOf (e : Nat) : Int := match shiftBy with
      | some k => k
      | none   => (valueOf vb.tag (vb.bits.getD e 0)).toInt
    let zero (e : Nat) : Bool := (promoted pt vb.tag (vb.bits.getD e 0)).isZero
    let go (e : Nat) : Bool := act.getD e false && va.valid.getD e true && vb.valid.getD e true && vc.valid.getD e true
    if op = .div && !isFloat pt && bit s.me.fctl 2 then
      match (List.range n).find? fun e => go e && zero e with
      | some e => raise (trapE cDIVZERO 0 e)
      | none   => pure ()
    let res := (List.range n).map fun e =>
      if !act.getD e false then none
      else if !go e then some (ERes.invalid rt)
      else some (op.elem pt rt mode sat va.tag (va.bits.getD e 0) vb.tag (vb.bits.getD e 0) vc.tag (vc.bits.getD e 0)
        (if op.isShift then kOf e else 0))
    let ms := match x with
      | none   => 0
      | some x => x.ms
    pure { n := n, tag := rt, res := res, off := if narrows pt rt || sat then some ms else none,
           sets := setsA ++ setsB ++ setsC
           srcs := (vsrcB a :: b.toList ++ (c.map fun v => VSrcB.reg v).toList).flatMap (s.carried n), q := q }

/-- The common course of majors 0x1F and 0x20 (R261 to R270). -/
def State.arith (s : State) (op : VOp) (d : VDst) (a : VSrc) (b : Option VSrcB) (c : Option RegNo) (p : Pred)
    (x : Option ArithX) : Host.Outcome State Fault Refusal :=
  s.finish do
    let y ← s.arithPlan op d a b c p x
    s.vdone d y.tag y.n y.res y.srcs y.off y.sets y.q (lenOf x)

/-- A two-source instruction. -/
def State.arith2 (s : State) (op : VOp) (f : V2F) : Host.Outcome State Fault Refusal :=
  s.arith op f.d f.a (some f.b) none f.p f.ext

/-- A one-source instruction. -/
def State.arith1 (s : State) (op : VOp) (f : V1F) : Host.Outcome State Fault Refusal :=
  s.arith op f.d f.a none none f.p f.ext

def execVadd (f : V2F) (s : State) : Host.Outcome State Fault Refusal := s.arith2 .add f
def execVsub (f : V2F) (s : State) : Host.Outcome State Fault Refusal := s.arith2 .sub f
def execVmul (f : V2F) (s : State) : Host.Outcome State Fault Refusal := s.arith2 .mul f
def execVmulh (f : V2F) (s : State) : Host.Outcome State Fault Refusal := s.arith2 .mulh f
def execVdiv (f : V2F) (s : State) : Host.Outcome State Fault Refusal := s.arith2 .div f
def execVmin (f : V2F) (s : State) : Host.Outcome State Fault Refusal := s.arith2 .min f
def execVmax (f : V2F) (s : State) : Host.Outcome State Fault Refusal := s.arith2 .max f
def execVand (f : V2F) (s : State) : Host.Outcome State Fault Refusal := s.arith2 .and f
def execVor (f : V2F) (s : State) : Host.Outcome State Fault Refusal := s.arith2 .or f
def execVxor (f : V2F) (s : State) : Host.Outcome State Fault Refusal := s.arith2 .xor f
def execVshl (f : V2F) (s : State) : Host.Outcome State Fault Refusal := s.arith2 .shl f
def execVshr (f : V2F) (s : State) : Host.Outcome State Fault Refusal := s.arith2 .shr f
/-- vsar (R268). DEDUCED, log entry 47. -/
def execVsar (f : V2F) (s : State) : Host.Outcome State Fault Refusal := s.arith2 .sar f
def execVabs (f : V1F) (s : State) : Host.Outcome State Fault Refusal := s.arith1 .abs f
def execVneg (f : V1F) (s : State) : Host.Outcome State Fault Refusal := s.arith1 .neg f
def execVnot (f : V1F) (s : State) : Host.Outcome State Fault Refusal := s.arith1 .not f

/-- vfma (R264, R268): the third source is vd in the short form, XF.c in the extended form. -/
def execVfma (f : VfmaF) (s : State) : Host.Outcome State Fault Refusal :=
  let c : Option RegNo := match f.ext, f.d with
    | some x, _     => some x.2
    | none, .reg v  => some v
    | none, .sq _   => none
  s.arith .fma f.d f.a (some f.b) c f.p (f.ext.map fun x => x.1)

/-! ## Conversions and compares (R271, R272) -/

/-- Whether a target tag holds every value of a source tag exactly, so that converting raises nothing (R271). -/
def holdsAll (s t : Nat) : Bool :=
  s = t ||
  (if isFloat s then isFloat t && fPrec s ≤ fPrec t && fBias s ≤ fBias t
   else if isFloat t then
     let w := if s == tSh8 then 9 else tagW s
     (if isSigned s || isDv s then w - 1 else w) ≤ fPrec t && w ≤ fBias t + 1
   else if t == tSh8 then false
   else
     let lo := iMin s
     let hi := iMax s
     iMin t ≤ lo && hi ≤ iMax t)

/-- One element converted (R271): y rounded to the target, flags under R38; a NaN source raises NV. DEDUCED, log entry 59. -/
def cvtElem (st t mode : Nat) (stoch : Option Nat) (x : Nat) : ERes :=
  let v := valueOf st x
  let r := match stoch with
    | some u => stochRound t u (isFloat st) v
    | none   => satRound t mode (isFloat st) v
  if holdsAll st t then { bits := r.bits, valid := true, flags := 0, off := false }
  else
    let z := r.res
    if v.isNaN then { z with flags := z.flags ||| fNV } else z

/-- vcvt (R271). -/
def execVcvt (f : VcvtF) (s : State) : Host.Outcome State Fault Refusal :=
  s.finish do
    orTrap (f.rnd.val ≤ 5) (trapE cILLEGAL)
    s.onSide .X
    s.dstName f.d
    s.srcName f.a
    match f.vr with
    | none   => pure ()
    | some v => s.srcName v
    let t := f.tg.val
    orTrap (isInt t || isFloat t || t == tSh8) (trapE cILLEGAL_TAG)
    let q := pickQ f.a.queue (f.vr.bind fun v => v.queue)
    let n ← s.vlen q
    let act := s.active f.p n
    let va ← s.vin n f.a
    let (va, sets) ← s.scalarised act va
    let rnd ← match f.rnd.val, f.vr with
      | 5, some v => do
        let y ← s.vin n v
        pure (some y.bits)
      | 5, none   => pure (some [])
      | _, _      => pure none
    let mode := match f.rnd.val with
      | 0 => bits s.me.fctl 1 0
      | k => k - 1
    let res := (List.range n).map fun e =>
      if !act.getD e false then none
      else if !va.valid.getD e true then some (ERes.invalid t)
      else some (cvtElem va.tag t mode (rnd.map fun u => u.getD e 0 % 2 ^ 32) (va.bits.getD e 0))
    s.vdone f.d t n res (s.carried n (vsrcB f.a)) (some f.ms) sets q 12

/-- The condition of vcmp on exact values (R272). -/
def cmpHolds (cond : Nat) (a b : Num) : Bool :=
  if a.isNaN || b.isNaN then cond == 1 || cond == 6
  else
    let c := Num.cmp a b
    match cond with
    | 0 => c == 0
    | 1 => c != 0
    | 2 => c < 0
    | 3 => c ≤ 0
    | 4 => 0 < c
    | 5 => 0 ≤ c
    | 7 => true
    | _ => false

/-- vcmp (R272): sources at their own tags; the promoted tag only checks the pair. -/
def execVcmp (f : VcmpF) (s : State) : Host.Outcome State Fault Refusal :=
  s.finish do
    orTrap (f.cond.val ≤ 8) (trapE cILLEGAL)
    orTrap (!f.sig || (2 ≤ f.cond.val && f.cond.val ≤ 5)) (trapE cILLEGAL)
    s.onSide .X
    let valid := f.cond.val == 8
    s.srcName f.a
    if !valid then s.srcNameB f.b
    let q := pickQ f.a.queue (if valid then none else f.b.queue)
    let n ← s.vlen q
    let act := s.active f.p n
    let va ← s.vin n f.a
    if valid then
      let ms := (List.range n).map fun e => if act.getD e false then some (va.valid.getD e true) else none
      pure (((s.setMe (s.me.putMask f.d ms)).popLq q).retireV 12)
    else
      let (va, setsA) ← s.scalarised act va
      let (vb, setsB) ← s.vinB n act va.tag f.b
      orTrap (promote (row2 va.tag) (row2 vb.tag)).isSome (trapE cILLEGAL_TAG)
      let one (e : Nat) : Option ERes :=
        if !act.getD e false then none
        else if !(va.valid.getD e true && vb.valid.getD e true) then some (ERes.plain 0 true)
        else
          let xa := va.bits.getD e 0
          let xb := vb.bits.getD e 0
          let a := valueOf va.tag xa
          let b := valueOf vb.tag xb
          let nv := isSNaN va.tag xa || isSNaN vb.tag xb || (f.sig && (a.isNaN || b.isNaN))
          some { bits := if cmpHolds f.cond.val a b then 1 else 0, valid := true, flags := if nv then fNV else 0, off := false }
      let res := (List.range n).map one
      s.flagCheck res
      let s1 := s.vflags res
      let c := (s1.me.setMasks (setsA ++ setsB)).putMask f.d (res.map fun r => r.map fun x => x.bits == 1)
      pure (((s1.setMe c).popLq q).retireV 12)

/-- vsel (R273): every element below n is written. -/
def execVsel (f : V2P) (s : State) : Host.Outcome State Fault Refusal :=
  s.finish do
    s.onSide .X
    s.dstName f.d
    s.srcName f.a
    s.srcName f.b
    let q := pickQ f.a.queue f.b.queue
    let n ← s.vlen q
    let va ← s.vin n f.a
    let vb ← s.vin n f.b
    orTrap (va.tag == vb.tag) (trapE cILLEGAL_TAG)
    let res := (List.range n).map fun e =>
      let x := if s.me.maskBit f.p.m e != f.p.pn then va else vb
      if !s.performs e then none else some (ERes.plain (x.bits.getD e 0) (x.valid.getD e true))
    s.vmoved f.d va.tag n res [va, vb] q 4

/-! ## Masks (R274) -/

/-- A mask instruction on bits below the X-side VL. -/
def State.maskOp (s : State) (d : Fin 16) (f : Nat → Bool) : Host.Outcome State Fault Refusal :=
  s.finish do
    s.onSide .X
    pure ((s.setMe (s.me.putMask d ((List.range s.vl).map fun e => some (f e)))).retireV 4)

def execMand (d a b : Fin 16) (s : State) : Host.Outcome State Fault Refusal :=
  s.maskOp d fun e => s.me.maskBit a e && s.me.maskBit b e

def execMor (d a b : Fin 16) (s : State) : Host.Outcome State Fault Refusal :=
  s.maskOp d fun e => s.me.maskBit a e || s.me.maskBit b e

def execMxor (d a b : Fin 16) (s : State) : Host.Outcome State Fault Refusal :=
  s.maskOp d fun e => s.me.maskBit a e != s.me.maskBit b e

def execMnot (d a : Fin 16) (s : State) : Host.Outcome State Fault Refusal :=
  s.maskOp d fun e => !s.me.maskBit a e

/-- The indices below the X-side VL whose bit is set. -/
def State.setBits (s : State) (a : Fin 16) : List Nat := (List.range s.vl).filter fun e => s.me.maskBit a e

/-- mpop (R274). -/
def execMpop (d : RegNo) (a : Fin 16) (s : State) : Host.Outcome State Fault Refusal :=
  s.finish do
    s.onSide .X
    s.dst d
    pure ((s.put d (BitVec.ofNat 64 (s.setBits a).length)).retireV 4)

/-- mfirst (R274): all ones when no bit is set. -/
def execMfirst (d : RegNo) (a : Fin 16) (s : State) : Host.Outcome State Fault Refusal :=
  s.finish do
    s.onSide .X
    s.dst d
    pure ((s.put d (match s.setBits a with
      | []     => BitVec.allOnes 64
      | e :: _ => BitVec.ofNat 64 e)).retireV 4)

/-! ## Slides, permutes, exchange (R275, R276) -/

/-- A cross-lane move inside each slice: pick gives, for slice length n and local element e, the source element to take,
zero with validity 1, zero with validity 0, or nothing. -/
inductive Pick where
  | keep
  | zero
  | bad
  | from_ (i : Nat)
  deriving DecidableEq, Repr

def Pick.res (x : VIn) (off : Nat) : Pick → Option ERes
  | .keep    => none
  | .zero    => some (ERes.plain (zeroBits x.tag) true)
  | .bad     => some (ERes.plain (zeroBits x.tag) false)
  | .from_ i => some (ERes.plain (x.bits.getD (off + i) 0) (x.valid.getD (off + i) true))

/-- The picks of every slice put together, for active elements. -/
def State.picked (s : State) (x : VIn) (n : Nat) (act : List Bool) (pick : Nat → Nat → Nat → Pick) : List (Option ERes) :=
  (s.slices (tagW x.tag) n).flatMap fun g => (List.range g.2.2).map fun e =>
    if act.getD (g.2.1 + e) false then (pick g.2.1 g.2.2 e).res x g.2.1 else none

/-- vslup and vsldn (R275). -/
def State.slide (s : State) (f : SlideF) (pick : Nat → Nat → Nat → Pick) : Host.Outcome State Fault Refusal :=
  s.finish do
    s.onSide .X
    s.dstName f.d
    s.srcName f.a
    let k ← s.vidxZ f.k
    let n ← s.vlen f.a.queue
    let va ← s.vin n f.a
    s.vmoved f.d va.tag n (s.picked va n (s.active f.p n) fun _ m e => pick k.toNat m e) [va] f.a.queue f.k.len

def execVslup (f : SlideF) (s : State) : Host.Outcome State Fault Refusal :=
  s.slide f fun k _ e => if k ≤ e then .from_ (e - k) else .keep

def execVsldn (f : SlideF) (s : State) : Host.Outcome State Fault Refusal :=
  s.slide f fun k n e => if e + k < n then .from_ (e + k) else .zero

/-- vperm (R275). -/
def execVperm (f : V2P) (s : State) : Host.Outcome State Fault Refusal :=
  s.finish do
    s.onSide .X
    s.dstName f.d
    s.srcName f.a
    s.srcName f.b
    let q := pickQ f.a.queue f.b.queue
    let n ← s.vlen q
    let va ← s.vin n f.a
    let vb ← s.vin n f.b
    orTrap (isInt vb.tag) (trapE cILLEGAL_TAG)
    let act := s.active f.p n
    let res := s.picked va n act fun off m e =>
      if !vb.valid.getD (off + e) true then .bad
      else
        let i := (valueOf vb.tag (vb.bits.getD (off + e) 0)).toInt
        if 0 ≤ i && i < (m : Int) then .from_ i.toNat else .zero
    let s1 := if (act.zip vb.valid).any fun p => p.1 && !p.2 then s.setMe s.me.seen else s
    s1.vmoved f.d va.tag n res [va] q 4

/-- vxchg (R276). -/
def execVxchg (f : VxchgF) (s : State) : Host.Outcome State Fault Refusal :=
  s.finish do
    s.onSide .X
    s.dstName f.d
    s.srcName f.a
    let gs := s.members.length
    orTrap (s.isLong s.cur.core || s.me.gsize ≤ 1) (trapE cILLEGAL)
    let k ← s.vidxZ f.k
    let n ← s.vlen f.a.queue
    let va ← s.vin n f.a
    let sl := s.slices (tagW va.tag) n
    let act := s.active f.p n
    let res := (sl.zipIdx).flatMap fun g => (List.range g.1.2.2).map fun e =>
      let p := if gs ≤ 1 then 0 else if f.rot then (g.2 + k.toNat) % gs else g.2.xor k.toNat
      match sl[p]? with
      | none   => none
      | some h =>
        if act.getD (g.1.2.1 + e) false && e < h.2.2 then
          some (ERes.plain (va.bits.getD (h.2.1 + e) 0) (va.valid.getD (h.2.1 + e) true))
        else none
    s.vmoved f.d va.tag n res [va] f.a.queue f.k.len

/-! ## Compress, expand and append (R277) -/

/-- The elements of a source at its active positions, in order. -/
def packed (x : VIn) (act : List Bool) : List ERes :=
  (moved x act).filterMap fun r => r

/-- The count that a compress or an expand has reached where it goes on (R277): RSTATE, and never more than the elements passed. DEDUCED,
log entry 80. -/
def State.packedAt (s : State) (n : Nat) : Nat := if s.resumeAt = 0 then 0 else min s.resumeVal.toNat (min s.resumeAt n)

/-- vcompress (R277): the X-side VL becomes the count, and the mark max(mark, count) (R262). -/
def execVcompress (d : RegNo) (a : VSrc) (p : Pred) (s : State) : Host.Outcome State Fault Refusal :=
  s.finish do
    s.onSide .X
    s.vreg d
    s.srcName a
    orTrap (s.members.length ≤ 1) (trapE cILLEGAL)
    let n ← s.vlen a.queue
    let va ← s.vin n a
    let xs := List.replicate (s.packedAt n) none ++ (packed va (s.active p n)).map some
    let s1 ← s.vput (.reg d) va.tag xs.length xs [va]
    let s2 := ({ s1 with undefCtr := s1.undefCtr + 2 ^ 23 } : State).popLq a.queue
    pure ((s2.setMySide { s2.mySide with vl := BitVec.ofNat 32 xs.length }).retireV 4)

/-- Successive source elements at active positions. -/
def expandAt (x : VIn) : Nat → List Bool → List (Option ERes)
  | _, []          => []
  | i, true :: as  => some (ERes.plain (x.bits.getD i 0) (x.valid.getD i true)) :: expandAt x (i + 1) as
  | i, false :: as => none :: expandAt x i as

/-- vexpand (R277). -/
def execVexpand (d : RegNo) (a : VSrc) (p : Pred) (s : State) : Host.Outcome State Fault Refusal :=
  s.finish do
    s.onSide .X
    s.vreg d
    s.srcName a
    orTrap (s.members.length ≤ 1) (trapE cILLEGAL)
    let n ← s.vlen a.queue
    let va ← s.vin n a
    s.vmoved (.reg d) va.tag n (expandAt va (s.packedAt n) (s.active p n)) [va] a.queue 4

/-- vappend (R277): each member's packed slice goes to its own queue; one that a stop found in flight goes on behind what it had packed. -/
def execVappend (q : Fin 2) (a : RegNo) (p : Pred) (s : State) : Host.Outcome State Fault Refusal :=
  s.finish do
    s.onSide .X
    s.vreg a
    let n := s.vl
    let va ← s.vin n (.reg a)
    s.sqRoom q 1
    let act := s.active p n
    let one (t : State) (g : Nat × Nat × Nat) : State :=
      let part : VIn := { va with bits := (va.bits.drop g.2.1).take g.2.2, valid := (va.valid.drop g.2.1).take g.2.2 }
      let xs := s.madeBefore g.1 ++ (packed part ((act.drop g.2.1).take g.2.2)).map fun x => (BitVec.ofNat 64 x.bits, x.valid)
      t.setCore g.1 ((t.core g.1).pushSq q va.tag .data xs.length (xs.map fun x => x.1) (xs.map fun x => x.2) (pushVers (t.core g.1) (s.members.idxOf g.1) [va]))
    let s1 := (s.slices (tagW va.tag) n).foldl one s
    pure (({ s1 with undefCtr := s1.undefCtr + 2 ^ 23 } : State).retireV 4)

/-! ## Reductions and scans (R54, R278, R279) -/

/-- A partial result of a float fold: its bits under the result tag, and the flags raised so far. -/
abbrev Part := Nat × Nat

/-- One addition of a float sum, rounded (R54). -/
def foldAdd (t mode : Nat) (a b : Part) : Part :=
  let e := Num.add mode (fDecode t a.1) (fDecode t b.1)
  let r := fRound t mode false e.1
  let sn := if isSNaN t a.1 || isSNaN t b.1 then fNV else 0
  (r.bits, a.2 ||| b.2 ||| e.2 ||| r.flags ||| sn)

/-- Two members of a pair, either of which may be absent (R54). -/
def pairUp (f : Part → Part → Part) : Option Part → Option Part → Option Part
  | none, b        => b
  | some a, none   => some a
  | some a, some b => some (f a b)

/-- One level of the pairwise tree. -/
def treeLevel (f : Part → Part → Part) : List (Option Part) → List (Option Part)
  | []           => []
  | [a]          => [a]
  | a :: b :: xs => pairUp f a b :: treeLevel f xs

/-- The tree of one group, level by level (R54). -/
def treeFold (f : Part → Part → Part) : Nat → List (Option Part) → Option Part
  | 0, xs        => xs.headD none
  | k + 1, xs    => treeFold f k (treeLevel f xs)

/-- The fold of one pair for an operation of R278 that is not a float sum. -/
def foldPair (op t mode : Nat) (a b : Part) : Part :=
  if op = 0 && isFloat t then foldAdd t mode a b
  else if isFloat t then
    let sn := if isSNaN t a.1 || isSNaN t b.1 then fNV else 0
    ((fRound t mode false (Num.least (op == 2) (fDecode t a.1) (fDecode t b.1))).bits, a.2 ||| b.2 ||| sn)
  else match op with
    | 3 => (a.1.land b.1, 0)
    | 4 => (a.1.lor b.1, 0)
    | 5 => (a.1.xor b.1, 0)
    | _ => (a.1, 0)

/-- The identity of a fold (R278). -/
def foldIdentity (op t : Nat) : Nat :=
  match op with
  | 1 => if isFloat t then fInf t false else iBits t (iMax t)
  | 2 => if isFloat t then fInf t true else iBits t (iMin t)
  | 3 => 2 ^ tagW t - 1
  | _ => 0

/-- An element of a float fold under the result tag: one of another tag is converted in the current mode, with the flags
that this raises (R38, R39). DEDUCED, log entry 62. -/
def foldElem (r mode : Nat) (tag b : Nat) : Part :=
  if tag = r then (b, 0)
  else
    let v := fRound r mode false (valueOf tag b)
    (v.bits, v.flags ||| if isSNaN tag b then fNV else 0)

/-- The elements of a float fold: none for an absent element. -/
def foldElems (r mode : Nat) (x : VIn) (act : List Bool) : List (Option Part) :=
  (act.zip (x.bits.zip x.valid)).map fun q => if q.1 && q.2.2 then some (foldElem r mode x.tag q.2.1) else none

/-- The exact values of a fold of integers: none for an absent element. -/
def foldInts (x : VIn) (act : List Bool) : List (Option Int) :=
  (act.zip (x.bits.zip x.valid)).map fun q => if q.1 && q.2.2 then some (valueOf x.tag q.2.1).toInt else none

/-- One step of an exact fold of integers; the bitwise operations act on the bits of the result tag. -/
def intStep (op r : Nat) (a b : Int) : Int :=
  let bitwise (f : Nat → Nat → Nat) : Int := (f (wrapTo (tagW r) a) (wrapTo (tagW r) b) : Nat)
  match op with
  | 0 => a + b
  | 1 => if b < a then b else a
  | 2 => if a < b then b else a
  | 3 => bitwise Nat.land
  | 4 => bitwise Nat.lor
  | _ => bitwise Nat.xor

/-- A fold of integers over exact values, still to be wrapped or saturated (R278). -/
def intRun (op r : Nat) (start : Nat) (xs : List (Option Int)) : Num :=
  Num.ofInt (xs.foldl (fun a x => match x with
    | none   => a
    | some b => intStep op r a b) (valueOf r start).toInt)

/-- The result of a fold of floats and the flags by group (R54, R278). -/
def foldRun (op r mode g : Nat) (start : Nat) (xs : List (Option Part)) : Nat × List Nat :=
  (pieces g xs).foldl (fun acc ys =>
    match treeFold (foldPair op r mode) (bitLen g) ys with
    | none   => (acc.1, acc.2 ++ [0])
    | some t => ((foldPair op r mode (acc.1, 0) t).1, acc.2 ++ [(foldPair op r mode (acc.1, 0) t).2])) (start, [])

/-- The variants that R278 defines: six operations, saturation of a sum alone. -/
def foldVariant (x : FoldX) : Bool := x.op.val ≤ 5 && (!x.sat || x.op == 0)

/-- The tags and starting value of vred and vscan (R278): source after rows 1 and 2, result tag, start. A kind is integer or float, as
R264 says it. DEDUCED, log entry 62. -/
def State.foldSetup (s : State) (va : VIn) (x : FoldX) : R (Nat × Nat × Nat) := do
  let p := row2 va.tag
  let r := if x.tg = 0 then p else x.tg.val
  orTrap (tagOk r && !isCx r && r != tSh8 && isFloat p == isFloat r && tagW p ≤ tagW r) (trapE cILLEGAL_TAG)
  orTrap (!(3 ≤ x.op.val && isFloat r)) (trapE cILLEGAL_TAG)
  orTrap (!x.sat || !isFloat r) (trapE cILLEGAL)
  let at_ (v : Nat) : Nat := if s.resumeAt = 0 then v else s.resumeVal.toNat % 2 ^ tagW r
  match x.init with
  | none   => pure (p, r, at_ (foldIdentity x.op.val r))
  | some b => do
    let v ← s.src b false
    pure (p, r, at_ (v.toNat % 2 ^ tagW r))

/-- The lowest active element of a group. -/
def firstIn (g k : Nat) (xs : List (Option Part)) : Nat :=
  match (List.range g).find? fun i => (xs.getD (k * g + i) none).isSome with
  | none   => k * g
  | some i => k * g + i

/-- Whether a source has an active invalid element, which sets MV.SEEN (R278). -/
def anyBad (x : VIn) (act : List Bool) : Bool := (act.zip x.valid).any fun p => p.1 && !p.2

/-- vred (R278). -/
def execVred (f : VredF) (s : State) : Host.Outcome State Fault Refusal :=
  s.finish do
    orTrap (foldVariant f.x) (trapE cILLEGAL)
    s.onSide .X
    s.srcName f.a
    s.dst f.d
    let n ← s.vlen f.a.queue
    let act := s.active f.p n
    let va ← s.vin n f.a
    let (va, sets) ← s.scalarised act va
    let (p, r, start) ← s.foldSetup va f.x
    let mode := bits s.me.fctl 1 0
    let g := perGroup (tagW p)
    let xs := foldElems r mode va act
    let run := if isFloat r then foldRun f.x.op.val r mode g start xs else (0, [])
    match run.2.zipIdx.find? fun q => flagTraps s.me.fctl q.1 with
    | some q => raise (trapE cFP q.1 (firstIn g q.2 xs))
    | none   =>
      let z := intRun f.x.op.val r start (foldInts va act)
      let sumS := iRound r 0 false z
      let v := if isFloat r then run.1 else if f.x.sat then sumS.bits else (iWrap r z).bits
      let c := s.me
      let c1 := { c with fflg := run.2.foldl (· ||| ·) c.fflg }
      let c2 := if anyBad va act then c1.seen else c1
      let c3 := if f.x.sat then c2.putMask f.x.ms [some sumS.off] else c2
      let s1 := s.setMe (c3.setMasks sets)
      pure (((({ s1 with undefCtr := s1.undefCtr + 2 ^ 23 } : State).put f.d (elemWord r false v)).popLq f.a.queue).retireV 12)

/-- The fold that element e of a scan receives (R279): groups before e's own are folded, then e's group with every later
element absent; last is the number of elements taken. The flags are those of the additions of the last group that has an element, and of
its fold into the running value. -/
def scanAt (op r mode g start : Nat) (xs : List (Option Part)) (last : Nat) : Nat × Nat :=
  let taken := ((xs.take last).reverse.dropWhile fun x => x.isNone).reverse
  let run := foldRun op r mode g start taken
  (run.1, run.2.getLastD 0)

/-- vscan (R279). -/
def execVscan (f : VscanF) (s : State) : Host.Outcome State Fault Refusal :=
  s.finish do
    orTrap (foldVariant f.x) (trapE cILLEGAL)
    s.onSide .X
    s.dstName f.d
    s.srcName f.a
    let n ← s.vlen f.a.queue
    let act := s.active f.p n
    let va ← s.vin n f.a
    let (va, sets) ← s.scalarised act va
    let (p, r, start) ← s.foldSetup va f.x
    let mode := bits s.me.fctl 1 0
    let g := perGroup (tagW p)
    let xs := foldElems r mode va act
    let zs := foldInts va act
    let one (e : Nat) : Option ERes :=
      if !act.getD e false then none
      else
        let last := if f.excl then e else e + 1
        if !isFloat r then
          let z := intRun f.x.op.val r start (zs.take last)
          some (if f.x.sat then (iRound r 0 false z).res else (iWrap r z).res)
        else
          let v := scanAt f.x.op.val r mode g start xs last
          some { bits := v.1, valid := true, flags := v.2, off := false }
    let res := (List.range n).map one
    let s1 := if anyBad va act then s.setMe s.me.seen else s
    s1.vdone f.d r n res (s.carried n (vsrcB f.a)) (if f.x.sat then some f.x.ms else none) sets f.a.queue 12

/-! ## Special functions (R280, R281) -/

/-- The common course of the special functions. -/
def State.special (s : State) (sel : Nat) (f : V1P) : Host.Outcome State Fault Refusal :=
  s.finish do
    s.onSide .X
    s.dstName f.d
    s.srcName f.a
    let n ← s.vlen f.a.queue
    let act := s.active f.p n
    let va ← s.vin n f.a
    let (va, sets) ← s.scalarised act va
    orTrap (isFloat va.tag) (trapE cILLEGAL_TAG)
    let mode := bits s.me.fctl 1 0
    let res := (List.range n).map fun e =>
      if !act.getD e false then none
      else if !va.valid.getD e true then some (ERes.invalid va.tag)
      else some (specialFn sel va.tag mode (va.bits.getD e 0)).res
    s.vdone f.d va.tag n res (s.carried n (vsrcB f.a)) none sets f.a.queue 4

def execVrcp (f : V1P) (s : State) : Host.Outcome State Fault Refusal := s.special 0 f
def execVrsq (f : V1P) (s : State) : Host.Outcome State Fault Refusal := s.special 1 f
def execVsqrt (f : V1P) (s : State) : Host.Outcome State Fault Refusal := s.special 2 f
def execVex2 (f : V1P) (s : State) : Host.Outcome State Fault Refusal := s.special 3 f
def execVlg2 (f : V1P) (s : State) : Host.Outcome State Fault Refusal := s.special 4 f
def execVtanh (f : V1P) (s : State) : Host.Outcome State Fault Refusal := s.special 5 f

/-! ## Random bits (R282 to R284) -/

/-- ROT of R283. -/
def mixRot : List Nat := [11, 29, 47, 7, 38, 19, 53, 3, 26, 44]

/-- One round of Mix (R283) on (x0, x1). -/
def mixRound (k : List Word) (x : Word × Word) (r : Nat × Nat) : Word × Word :=
  let x0 := x.1 + x.2
  let x1 := x.2.rotateLeft r.1 ^^^ x0
  if r.2 % 2 = 1 then
    let j := (r.2 + 1) / 2
    (x0 + k.getD (j % 3) 0, x1 + k.getD ((j + 1) % 3) 0 + BitVec.ofNat 64 j)
  else (x0, x1)

/-- Mix (R283): (hi, lo). -/
def mix (k0 k1 h l : Word) : Word × Word :=
  let k := [k0, k1, k0 ^^^ k1 ^^^ 0x5A3C96E1D24B7F08]
  let x := mixRot.zipIdx.foldl (mixRound k) (h + k0, l + k1)
  (x.2, x.1)

/-- vrng (R282). -/
def execVrng (d : RegNo) (a : VSrc) (b : RegNo) (p : Pred) (s : State) : Host.Outcome State Fault Refusal :=
  s.finish do
    s.onSide .X
    orTrap (d.val % 2 == 0 && d.val + 1 < s.me.vnreg && b.val ≤ 29) (trapE cILLEGAL)
    s.vreg d
    s.vreg (d + 1)
    s.srcName a
    let k0 ← s.src b false
    let k1 ← s.src (b + 1) false
    let h ← s.src (b + 2) false
    let n ← s.vlen a.queue
    let va ← s.vin n a
    orTrap (isInt va.tag) (trapE cILLEGAL_TAG)
    let act := s.active p n
    let out := (List.range n).map fun e =>
      if act.getD e false then some (mix k0 k1 h (BitVec.ofNat 64 (va.bits.getD e 0))) else none
    let part (f : Word × Word → Word) : List (Option ERes) := out.map fun o => o.map fun x => ERes.plain (f x).toNat true
    let s1 ← s.vput (.reg d) tN64 n (part fun x => x.2) []
    let s2 ← s1.vput (.reg (d + 1)) tN64 n (part fun x => x.1) []
    pure ((({ s2 with undefCtr := s2.undefCtr + 2 ^ 23 } : State).popLq a.queue).retireV 4)

/-- rng (R284): on either side; an empty d waits, since it is read. -/
def execRng (d : RegNo) (a b : SrcR) (h : Bool) (s : State) : Host.Outcome State Fault Refusal :=
  s.finish do
    orTrap (b.r.val != 31) (trapE cILLEGAL)
    let x ← s.srcR a
    let k0 ← s.srcR b
    let k1 ← s.src (b.r + 1) b.fe
    let old ← s.src d false
    let m := mix k0 k1 x old
    pure ((s.put d (if h then m.1 else m.2)).retireV 4)

end Machine
end Sys2Proof
end

