-- ==== Sys2Proof/Machine/Anchor.lean ====
section
/-!
DEFINITION. Bindings, anchor registers and anchored arithmetic, majors 0x29 and 0x2A (R286 to R298).
-/

namespace Sys2Proof
namespace Machine

/-! ## Bindings and anchor registers (R287 to R290) -/

/-- The binding that kcfg makes (R287). -/
def KBind.binding : KBind → Binding
  | .anchor k c      => .anchor k (4 * 2 ^ c.val)
  | .codebook cb off => .codebook cb (16 * off.val)
  | .none            => .none

/-- kcfg (R287). -/
def execKcfg (f : KcfgF) (s : State) : Host.Outcome State Fault Refusal :=
  s.finish do
    s.onSide .X
    let len := if f.ext then 12 else 4
    let b := KBind.binding f.k
    match f.t with
    | .vreg v =>
      s.vreg v
      pure ((s.eachMember fun c => { c with vregs := c.vregs.set v.val { c.vregs[v.val] with bind := b } }).retireV len)
    | .lq q => pure ((s.eachMember fun c => { c with lqBind := c.lqBind.set q.val b }).retireV len)

/-- A header that a slot without one reads as: its anchor is not finite (R286). -/
def Header.absent : Header := { anchor := 0x7FF8000000000000, step := 0, flags := 0, gen := 0, rsv := 0 }

/-- Slot j of an anchor register; a slot at or above the count reads as an invalid header (R286). -/
def AnchorReg.slot (r : AnchorReg) (j : Nat) : Header := if j < r.count then r.slots.getD j Header.absent else Header.absent

/-- Slots written: a list that replaces some, and the least count. A register has 256 slots (R7); a header for a slot that it
does not have is discarded (DEDUCED, log entry 67). -/
def AnchorReg.write (r : AnchorReg) (upd : List (Option Header)) (count : Nat) : AnchorReg :=
  { slots := (overlay Header.absent upd r.slots).take 256, count := min 256 (max r.count count) }

/-- The headers an entry's elements hold, two dwords each (R250, R288). -/
def Entry.headers (e : Entry) : List Header :=
  (List.range (e.elems.length / 2)).map fun j => headerOf (e.elems.getD (2 * j) 0) (e.elems.getD (2 * j + 1) 0)

/-- kmv (R288). -/
def execKmv (f : KmvF) (s : State) : Host.Outcome State Fault Refusal :=
  s.finish do
    s.onSide .X
    match f with
    | .copy d a => pure ((s.eachMember fun c => { c with anchors := c.anchors.set d.val c.anchors[a.val] }).retireV 4)
    | .pop d q => do
      let es ← s.heads q
      orTrap (es.all fun e => e.kind == .headers) (trapE cILLEGAL)
      let s1 := s.eachMember fun c => match c.lq[q.val].ents with
        | []     => c
        | e :: _ =>
          let hs := e.headers
          let r := c.anchors[d.val]
          { c with anchors := c.anchors.set d.val { slots := hs ++ r.slots.drop hs.length, count := hs.length } }
      pure ((s1.popLq (some q)).retireV 4)
    | .push q a => do
      s.sqRoom q 1
      let s1 := s.eachMember fun c =>
        let r := c.anchors[a.val]
        let xs := (List.range r.count).flatMap fun j => [(r.slot j).anchor, (r.slot j).dword]
        c.pushSq q 0 .headers r.count xs (xs.map fun _ => true) c.cbVers
      pure (s1.retireV 4)

/-- kput (R289). -/
def execKput (f : KputF) (s : State) : Host.Outcome State Fault Refusal :=
  s.finish do
    s.onSide .X
    let a ← s.src f.a false
    let b ← s.src f.b false
    let r := s.me.anchors[f.d.val]
    let i := match f.slot with
      | none   => r.count
      | some v => v.toNat
    orTrap (i < 256 && i ≤ r.count) (trapE cVL_RANGE i)
    let h : Header := { anchor := a, step := b.extractLsb' 0 8, flags := b.extractLsb' 8 8, gen := 0, rsv := 0 }
    pure ((s.eachMember fun c => { c with
      anchors := c.anchors.set f.d.val (c.anchors[f.d.val].write (List.replicate i none ++ [some h]) (i + 1)) }).retireV
        (lenOf f.slot))

/-- A number as a float that holds it exactly; none where f64 does not (R290, R297). -/
def asF64 (x : Num) : Option Word :=
  let r := fRound tF64 0 false x
  match x with
  | .nan       => none
  | .inf _     => none
  | .fin _ _ _ => if r.flags = 0 then some (BitVec.ofNat 64 r.bits) else none

/-- The exact real sum of two values; a sum of zero has no sign (R49). -/
def Num.plus (a b : Num) : Num := (Num.add 0 a b).1.noNegZero

/-- The exact real product. -/
def Num.times (a b : Num) : Num := (Num.mul a b).1.noNegZero

/-- kadj (R290): predicable over slots. -/
def execKadj (f : KadjF) (s : State) : Host.Outcome State Fault Refusal :=
  s.finish do
    s.onSide .X
    let b ← s.src f.b false
    let y := fDecode tF64 b.toNat
    let fix (c : Core) (j : Nat) : Header × Bool :=
      let h := c.anchors[f.a.val].slot j
      if (s.me.maskBit f.p.m j != f.p.pn) && h.ok then
        match asF64 (Num.plus (fDecode tF64 h.anchor.toNat) y) with
        | none   => (h, true)
        | some w => ({ h with anchor := w }, false)
      else (h, false)
    let bad := s.members.flatMap fun g =>
      (List.range (s.core g).anchors[f.a.val].count).filter fun j => (fix (s.core g) j).2
    match bad with
    | j :: _ => raise (trapE cDEVOVF 3 (bad.foldl min j))
    | []     =>
      pure ((s.eachMember fun c =>
        let a := c.anchors[f.a.val]
        let r := { a with slots := (List.range a.count).map (fun j => (fix c j).1) ++ a.slots.drop a.count }
        { c with anchors := c.anchors.set f.d.val r }).retireV 4)

/-! ## Shared rules of the anchored instructions (R291) -/

/-- The anchor register and block size of a bound operand. -/
def boundTo (b : Binding) : R (Fin 16 × Nat) :=
  match b with
  | .anchor k n   => .ok (k, n)
  | .none         => raise (trapE cILLEGAL)
  | .codebook _ _ => raise (trapE cILLEGAL)

/-- A bound source: an anchor binding, and a deviation tag. -/
def State.boundSrc (s : State) (n : Nat) (v : VSrc) : R (VIn × Fin 16 × Nat) := do
  let x ← s.vraw n v
  let (k, b) ← boundTo x.bind
  orTrap (isDv x.tag) (trapE cILLEGAL_TAG)
  pure (x, k, b)

/-- The header of gang-wide element e of a vector of width w bound to (k, B). -/
def State.hdrAt (s : State) (w : Nat) (k : Fin 16) (b e : Nat) : Header :=
  let m := s.sliceLen w
  ((s.core (s.members.getD (e / m) s.cur.core)).anchors[k.val]).slot (e % m / b)

def Header.stepInt (h : Header) : Int := h.step.toInt
def Header.value (h : Header) : Num := fDecode tF64 h.anchor.toNat

/-- Anchored(k, b, d) of R55. -/
def Header.anchored (h : Header) (d : Int) : Num :=
  Num.plus h.value (.fin (d < 0) d.natAbs h.stepInt)

/-- The result tag of an anchored instruction: dv8 or dv16 (R292). -/
def devTag (x : Option AnchX) (dflt : Nat) : R Nat := do
  let t := match x with
    | none   => 0
    | some x => x.tg.val
  let r := if t = 0 then dflt else t
  orTrap (isDv r) (trapE cILLEGAL_TAG)
  pure r

def satOf (x : Option AnchX) : Bool :=
  match x with
  | none   => false
  | some x => x.sat

def msOf (x : Option AnchX) : Fin 16 :=
  match x with
  | none   => 0
  | some x => x.ms

/-- An element's result, or the AUX of the DEVOVF it raises. -/
abbrev DRes := Except Nat ERes

/-- A value put into the result tag, or an overflow (R291); the rounding mode is used where x is no integer. -/
def intoDev (t mode : Nat) (sat fromFloat : Bool) (x : Num) : DRes :=
  let r := satRound t mode fromFloat x
  if r.off && !sat then .error 0 else .ok r.res

/-- The results of an instruction in ascending element order: the first DEVOVF or trapped flag is raised. -/
def State.collect (s : State) (e : Nat) : List (Option DRes) → R (List (Option ERes))
  | []                  => pure []
  | none :: rs          => do
    let xs ← s.collect (e + 1) rs
    pure (none :: xs)
  | some (.error a) :: _ => raise (trapE cDEVOVF a e)
  | some (.ok r) :: rs  => do
    orTrap (!flagTraps s.me.fctl r.flags) (trapE cFP r.flags e)
    let xs ← s.collect (e + 1) rs
    pure (some r :: xs)

/-- A signed deviation. -/
def devInt (x : VIn) (e : Nat) : Int := signedOf (tagW x.tag) (x.bits.getD e 0)

/-! ## vdadd, vdsub, vddiff, vdmul (R293 to R295) -/

/-- vdadd and vdsub (R293). -/
def State.devSum (s : State) (f : VdF) (op : Int → Int → Int) : Host.Outcome State Fault Refusal :=
  s.finish do
    s.onSide .X
    s.dstName f.d
    s.srcName f.a
    s.srcName f.b
    let q := pickQ f.a.queue f.b.queue
    let n ← s.vlen q
    let act := s.active f.p n
    let (va, ka, ba) ← s.boundSrc n f.a
    let (vb, kb, bb) ← s.boundSrc n f.b
    orTrap (ba == bb) (trapE cILLEGAL)
    let t ← devTag f.ext (if va.tag == tDv16 || vb.tag == tDv16 then tDv16 else tDv8)
    let one (e : Nat) : Option DRes :=
      if !act.getD e false then none
      else
        let ha := s.hdrAt (tagW va.tag) ka ba e
        let hb := s.hdrAt (tagW vb.tag) kb bb e
        if !(ha.ok && hb.ok && va.valid.getD e true && vb.valid.getD e true) then some (.ok (ERes.invalid t))
        else if Num.cmp ha.value hb.value != 0 then some (.error 1)
        else if ha.step != hb.step then some (.error 2)
        else some (intoDev t 0 (satOf f.ext) false (Num.ofInt (op (devInt va e) (devInt vb e))))
    let res ← s.collect 0 ((List.range n).map one)
    s.vdone f.d t n res [] (some (msOf f.ext)) [] q (lenOf f.ext)

def execVdadd (f : VdF) (s : State) : Host.Outcome State Fault Refusal := s.devSum f fun x y => x + y
def execVdsub (f : VdF) (s : State) : Host.Outcome State Fault Refusal := s.devSum f fun x y => x - y

/-- The integer x / 2^s, where it is one. -/
def Num.over (x : Num) (s : Int) : Option Int :=
  match x with
  | .nan       => none
  | .inf _     => none
  | .fin n m e =>
    let sg (k : Nat) : Int := if n then -(k : Int) else k
    if s ≤ e then some (sg (m * 2 ^ (e - s).toNat))
    else if m % 2 ^ (s - e).toNat = 0 then some (sg (m / 2 ^ (s - e).toNat)) else none

/-- vddiff (R294): partners lie within a member's slice (R152). -/
def execVddiff (f : VddiffF) (s : State) : Host.Outcome State Fault Refusal :=
  s.finish do
    s.onSide .X
    s.dstName f.d
    s.srcName f.a
    let k ← s.vidxS f.k
    let n ← s.vlen f.a.queue
    let act := s.active f.p n
    let (va, kr, b) ← s.boundSrc n f.a
    let w := tagW va.tag
    let hdr (e : Nat) : Header := s.hdrAt w kr b e
    let partner (off m i : Nat) : Option Nat :=
      let j := (i : Int) + k.toInt
      if 0 ≤ j && j < (m : Int) then some (off + j.toNat) else none
    let pairs : List (Option Nat) := (s.slices w n).flatMap fun g => (List.range g.2.2).map fun i =>
      if act.getD (g.2.1 + i) false then partner g.2.1 g.2.2 i else none
    let good (e p : Nat) : Bool := (hdr e).ok && (hdr p).ok && va.valid.getD e true && va.valid.getD p true
    let m := s.sliceLen w
    let diff (e p : Nat) : Num :=
      if e % m / b = p % m / b then
        let d := devInt va p - devInt va e
        .fin (d < 0) d.natAbs (hdr e).stepInt
      else Num.plus ((hdr p).anchored (devInt va p)) ((hdr e).anchored (devInt va e)).neg
    let ps := pairs.zipIdx.filterMap fun x => match x.1 with
      | none   => none
      | some p => if good x.2 p then some (x.2, p) else none
    let steps := ps.flatMap fun x => [(hdr x.1).stepInt, (hdr x.2).stepInt]
    let st := steps.headD 0
    let asInt (x : Nat × Nat) : Option Int := match (diff x.1 x.2).over st with
      | none   => none
      | some v => if iMin tI32 ≤ v && v ≤ iMax tI32 then some v else none
    let whole := (steps.all fun t => t == st) && ps.all fun x => (asInt x).isSome
    let t := if whole then tI32 else tF64
    let one (x : Option Nat × Nat) : Option DRes := match x.1 with
      | none   => none
      | some p =>
        if !good x.2 p then some (.ok (ERes.invalid t))
        else if whole then some (.ok (ERes.plain (iBits tI32 ((asInt (x.2, p)).getD 0)) true))
        else some (.ok (fRound tF64 (bits s.me.fctl 1 0) false (diff x.2 p)).res)
    let res ← s.collect 0 (pairs.zipIdx.map one)
    s.vdone f.d t n res [] none [] f.a.queue f.k.len

/-- vdmul (R295). -/
def execVdmul (f : VdmulF) (s : State) : Host.Outcome State Fault Refusal :=
  s.finish do
    s.onSide .X
    orTrap (f.d.val % 4 == 0 && f.d.val + 3 < s.me.vnreg) (trapE cILLEGAL)
    s.vreg f.d
    s.vreg (f.d + 1)
    s.vreg (f.d + 2)
    s.vreg (f.d + 3)
    s.srcName f.a
    s.srcName f.b
    let q := pickQ f.a.queue f.b.queue
    let n ← s.vlen q
    let act := s.active f.p n
    let (va, ka, ba) ← s.boundSrc n f.a
    let (vb, kb, bb) ← s.boundSrc n f.b
    orTrap (ba == bb) (trapE cILLEGAL)
    let mode := bits s.me.fctl 1 0
    let part (i : Nat) (e : Nat) : Option ERes :=
      if !act.getD e false then none
      else
        let ha := s.hdrAt (tagW va.tag) ka ba e
        let hb := s.hdrAt (tagW vb.tag) kb bb e
        if !(ha.ok && hb.ok && va.valid.getD e true && vb.valid.getD e true) then some (ERes.invalid tI32)
        else
          let a := devInt va e
          let b := devInt vb e
          let at_ : Num := .fin (a < 0) a.natAbs ha.stepInt
          let bt : Num := .fin (b < 0) b.natAbs hb.stepInt
          match i with
          | 0 => some (fRound tF64 mode false (Num.times ha.value hb.value)).res
          | 1 => some (fRound tF64 mode false (Num.times ha.value bt)).res
          | 2 => some (fRound tF64 mode false (Num.times hb.value at_)).res
          | _ => some (ERes.plain (iBits tI32 (a * b)) true)
    let all := (List.range n).map fun e => (List.range 4).filterMap fun i => part i e
    let fl (e : Nat) : Nat := (all.getD e []).foldl (fun k r => k ||| r.flags) 0
    match (List.range n).find? fun e => flagTraps s.me.fctl (fl e) with
    | some e => raise (trapE cFP (fl e) e)
    | none   =>
      let put (t : State) (i : Nat) : R State := do
        let res := (List.range n).map (part i)
        let t1 ← t.vput (.reg (f.d + Fin.ofNat 32 i)) (if i < 3 then tF64 else tI32) n res []
        pure (t1.vflags res)
      let s1 ← (List.range 4).foldlM put s
      pure ((s1.popLq q).retireV 4)

/-! ## vdscl, reanc, vdwide, vdfrom (R296 to R298) -/

/-- The step operand: a register read as a signed value, or IMM32, with the extended fields (R292). -/
def State.stepOp (s : State) : StepOp → R (Int × Option AnchX × Bool × Nat)
  | .reg b       => do
    let x ← s.src b false
    pure (x.toInt, none, false, 4)
  | .imm v x rnd => .ok (v.toInt, some x, rnd, 12)

/-- The slots of each member's register k written: gang-wide block list is cut by slices (R291). -/
def State.putSlots (s : State) (w : Nat) (n b : Nat) (k : Fin 16) (upd : Nat → Nat → Option Header) : State :=
  (s.slices w n).foldl (fun t g =>
    let c := t.core g.1
    let us := (List.range (ceilDiv g.2.2 b)).map fun j => upd g.2.1 j
    let top := us.zipIdx.foldl (fun m u => if u.1.isSome then u.2 + 1 else m) 0
    t.setCore g.1 { c with anchors := c.anchors.set k.val (c.anchors[k.val].write us top) }) s

/-- vdscl (R296). -/
def execVdscl (f : VdsclF) (s : State) : Host.Outcome State Fault Refusal :=
  s.finish do
    s.onSide .X
    s.vreg f.d
    s.srcName f.a
    let (k, x, rnd, len) ← s.stepOp f.k
    orTrap (-15 ≤ k && k ≤ 15) (trapE cILLEGAL)
    let n ← s.vlen f.a.queue
    let act := s.active f.p n
    let (va, ka, ba) ← s.boundSrc n f.a
    let (kd, bd) ← boundTo s.me.vregs[f.d.val].bind
    orTrap (ba == bd) (trapE cILLEGAL)
    let t ← devTag x va.tag
    let w := tagW va.tag
    let hdr (e : Nat) : Header := s.hdrAt w ka ba e
    match (List.range n).find? fun e => act.getD e false &&
        ((hdr e).stepInt + k < -128 || 127 < (hdr e).stepInt + k) with
    | some e => raise (trapE cDEVOVF 4 e)
    | none   =>
      let one (e : Nat) : Option DRes :=
        if !act.getD e false then none
        else if !((hdr e).ok && va.valid.getD e true) then some (.ok (ERes.invalid t))
        else
          let d := devInt va e
          let y : Num := .fin (d < 0) d.natAbs (-k)
          if (y.over 0).isNone && !rnd then some (.error 5)
          else some (intoDev t 0 (satOf x) true y)
      let res ← s.collect 0 ((List.range n).map one)
      let s1 ← s.vdone (.reg f.d) t n res [] (some (msOf x)) [] f.a.queue len
      let m := s.sliceLen w
      let slot (off j : Nat) : Option Header :=
        if (List.range ba).any fun i => j * ba + i < m && act.getD (off + j * ba + i) false then
          let h := hdr (off + j * ba)
          some { h with step := BitVec.ofInt 8 (h.stepInt + k) }
        else none
      pure (s1.putSlots w n ba kd slot)

/-- The multiple of 2^k nearest an exact value, ties to the even multiple, as a count (R297). -/
def nearestMultiple (x : Num) (k : Int) : Int :=
  match x with
  | .nan       => 0
  | .inf _     => 0
  | .fin n m e =>
    let r := (roundAt 0 n m e k).1
    if n then -(r : Int) else r

/-- The least or greatest of exact values. -/
def Num.extreme (big : Bool) : List Num → Num
  | []      => .fin false 0 0
  | x :: xs => xs.foldl (fun a b => if (if big then 0 < Num.cmp b a else Num.cmp b a < 0) then b else a) x

/-- The flags byte of a header that reanc writes: format and B (R48). -/
def headerFlags (t b : Nat) : BitVec 8 := BitVec.ofNat 8 ((if t == tDv16 then 1 else 0) + 2 * (Nat.log2 b - 2))

/-- One block of reanc (R297): the results of its elements, of which the lowest offending one raises (R291), and the slot written. -/
def reancBlock (t b : Nat) (k : Int) (sat : Bool) (elems : List (Bool × Bool × Num)) : List (Option DRes) × Option Header :=
  let isFin (x : Num) : Bool := match x with
    | .fin _ _ _ => true
    | .nan       => false
    | .inf _     => false
  let good := elems.filter fun e => e.1 && e.2.1 && isFin e.2.2
  let xs := good.map fun e => e.2.2
  let mid := Num.times (Num.plus (Num.extreme false xs) (Num.extreme true xs)) (.fin false 1 (-1))
  let j := nearestMultiple mid k
  let anc : Num := .fin (j < 0) j.natAbs k
  let aw := asF64 anc
  let first := elems.findIdx? fun e => e.1 && e.2.1 && isFin e.2.2
  let one (e : (Bool × Bool × Num) × Nat) : Option DRes :=
    if !e.1.1 then none
    else if !e.1.2.1 then some (.ok (ERes.invalid t))
    else if !isFin e.1.2.2 then some (intoDev t 0 sat true e.1.2.2)
    else if aw.isNone && first == some e.2 then some (.error 3)
    else some (intoDev t 0 sat true (Num.times (Num.plus e.1.2.2 anc.neg) (.fin false 1 (-k))))
  let slot : Option Header := match xs, aw with
    | [], _          => none
    | _ :: _, none   => none
    | _ :: _, some w => some { anchor := w, step := BitVec.ofInt 8 k, flags := headerFlags t b, gen := 0, rsv := 0 }
  (elems.zipIdx.map one, slot)

/-- reanc (R297). -/
def execReanc (f : VdsclF) (s : State) : Host.Outcome State Fault Refusal :=
  s.finish do
    s.onSide .X
    s.vreg f.d
    s.srcName f.a
    let (k, x, rnd, len) ← s.stepOp f.k
    orTrap (!rnd) (trapE cILLEGAL)
    orTrap (-128 ≤ k && k ≤ 127) (trapE cILLEGAL)
    let n ← s.vlen f.a.queue
    let act := s.active f.p n
    let va ← s.vin n f.a
    orTrap (!isCx va.tag) (trapE cILLEGAL_TAG)
    let w := tagW va.tag
    let val ← if isDv va.tag then do
        let (kr, b) ← boundTo va.bind
        pure fun (e : Nat) =>
          let h := s.hdrAt w kr b e
          (h.ok, h.anchored (devInt va e))
      else pure fun (e : Nat) => (true, valueOf va.tag (va.bits.getD e 0))
    let (kd, b) ← boundTo s.me.vregs[f.d.val].bind
    let t ← devTag x tDv16
    let tw := tagW t
    orTrap ((s.slices tw n).all fun g => ceilDiv g.2.2 b ≤ 256) (trapE cVL_RANGE n)
    let blocks : List (Nat × Nat × List (Option DRes) × Option Header) := (s.slices tw n).flatMap fun g =>
      (List.range (ceilDiv g.2.2 b)).map fun j =>
        let es := (List.range (min b (g.2.2 - j * b))).map fun i =>
          let e := g.2.1 + j * b + i
          (act.getD e false, va.valid.getD e true && (val e).1, (val e).2)
        (g.2.1, j, reancBlock t b k (satOf x) es)
    let res ← s.collect 0 (blocks.flatMap fun z => z.2.2.1)
    let s1 ← s.vdone (.reg f.d) t n res [] (some (msOf x)) [] f.a.queue len
    pure (s1.putSlots tw n b kd fun off j => match blocks.find? fun z => z.1 == off && z.2.1 == j with
      | none   => none
      | some z => z.2.2.2)

/-- vdwide (R298). -/
def execVdwide (f : V1P) (s : State) : Host.Outcome State Fault Refusal :=
  s.finish do
    s.onSide .X
    s.dstName f.d
    s.srcName f.a
    let n ← s.vlen f.a.queue
    let act := s.active f.p n
    let (va, k, b) ← s.boundSrc n f.a
    let one (e : Nat) : Option DRes :=
      if !act.getD e false then none
      else
        let h := s.hdrAt (tagW va.tag) k b e
        if !(h.ok && va.valid.getD e true) then some (.ok (ERes.invalid tF64))
        else some (.ok (fRound tF64 (bits s.me.fctl 1 0) false (h.anchored (devInt va e))).res)
    let res ← s.collect 0 ((List.range n).map one)
    s.vdone f.d tF64 n res [] none [] f.a.queue 4

/-- vdfrom (R298): through vd's slots. -/
def execVdfrom (f : VdfromF) (s : State) : Host.Outcome State Fault Refusal :=
  s.finish do
    s.onSide .X
    s.vreg f.d
    s.srcName f.a
    let n ← s.vlen f.a.queue
    let act := s.active f.p n
    let va ← s.vin n f.a
    orTrap (va.tag == tF64) (trapE cILLEGAL_TAG)
    let (k, b) ← boundTo s.me.vregs[f.d.val].bind
    let t ← devTag f.ext tDv16
    let one (e : Nat) : Option DRes :=
      if !act.getD e false then none
      else
        let h := s.hdrAt (tagW t) k b e
        if !(h.ok && va.valid.getD e true) then some (.ok (ERes.invalid t))
        else
          let y := Num.times (Num.plus (fDecode tF64 (va.bits.getD e 0)) h.value.neg) (.fin false 1 (-h.stepInt))
          some (intoDev t (bits s.me.fctl 1 0) (satOf f.ext) true y)
    let res ← s.collect 0 ((List.range n).map one)
    s.vdone (.reg f.d) t n res [] (some (msOf f.ext)) [] f.a.queue (lenOf f.ext)

end Machine
end Sys2Proof
end

