-- ==== Sys2Proof/Machine/Sha.lean ====
section
/-!
DEFINITION. SHA-256, which the boot ROM and the measurements name without restating it (R385, R388). PRESUMED, log entry 64:
the function is the public standard's. The round constants and the starting value are computed from the primes they are defined by,
and words are numbers below 2^32.
-/

namespace Sys2Proof
namespace Machine

/-- The integer k-th root of n, found bit by bit from the bit below n0; r holds the bits found so far. -/
def rootBits (k n : Nat) : Nat → Nat → Nat
  | 0, r     => r
  | b + 1, r => rootBits k n b (if (r + 2 ^ b) ^ k ≤ n then r + 2 ^ b else r)

/-- The first 32 fractional bits of the k-th root of p. -/
def rootFraction (k p : Nat) : Nat := rootBits k (p * 2 ^ (32 * k)) 38 0 % 2 ^ 32

/-- The primes below 312: the first 64. -/
def digestPrimes : List Nat := (List.range 312).filter fun n => 2 ≤ n && (List.range n).all fun d => d < 2 || n % d != 0

/-- The exclusive or of x rotated right, as a 32-bit word, by each amount. -/
def spun (x : Nat) (amounts : List Nat) : Nat :=
  amounts.foldl (fun acc r => acc ^^^ ((x >>> r ||| x <<< (32 - r)) % 2 ^ 32)) 0

/-- The schedule, newest word first, carried on by n words. -/
def stretch : Nat → List Nat → List Nat
  | 0, ws     => ws
  | n + 1, ws =>
    let near := ws.getD 1 0
    let far := ws.getD 14 0
    stretch n ((ws.getD 15 0 + (spun far [7, 18] ^^^ far >>> 3) + ws.getD 6 0 + (spun near [17, 19] ^^^ near >>> 10)) % 2 ^ 32 :: ws)

/-- One round. The eight working words are two shift registers of four, each newest first: left takes the new value of
the first, right that of the fifth. mix is the sum of the round's constant and its word of the schedule. -/
def digestRound (mix : Nat) : List Nat × List Nat → List Nat × List Nat
  | ([p, q, r, out], [x, y, z, old]) =>
    let t := old + spun x [6, 11, 25] + (((y ^^^ z) &&& x) ^^^ z) + mix
    ([(t + spun p [2, 13, 22] + (p &&& q ||| r &&& (p ||| q))) % 2 ^ 32, p, q, r], [(out + t) % 2 ^ 32, x, y, z])
  | other => other

/-- The bytes of a message as big-endian numbers of n bytes each, c of them. -/
def bigEndianWords (n : Nat) : Nat → List Byte → List Nat
  | 0, _     => []
  | c + 1, m => (m.take n).foldl (fun acc b => 256 * acc + b.toNat) 0 :: bigEndianWords n c (m.drop n)

/-- A number as n bytes, the most significant first. -/
def bigEndianBytes : Nat → Nat → List Byte
  | 0, _     => []
  | n + 1, v => BitVec.ofNat 8 (v >>> (8 * n)) :: bigEndianBytes n v

/-- The digest of c blocks of sixteen words, taken into the digest so far. -/
def digestBlocks : Nat → List Nat → List Nat × List Nat → List Nat × List Nat
  | 0, _, h      => h
  | c + 1, ws, h =>
    let mixes := (stretch 48 (ws.take 16).reverse).reverse.zipWith (· + ·) (digestPrimes.map (rootFraction 3))
    let g := mixes.foldl (fun v mix => digestRound mix v) h
    let sum (u v : List Nat) := u.zipWith (fun i j => (i + j) % 2 ^ 32) v
    digestBlocks c (ws.drop 16) (sum h.1 g.1, sum h.2 g.2)

/-- SHA-256: 32 bytes. The message is closed by a one bit, zeros and its length in bits, to whole blocks of 64 bytes. -/
def sha256 (m : List Byte) : List Byte :=
  let blocks := (m.length + 72) / 64
  let closed := m ++ (0x80 : Byte) :: List.replicate (64 * blocks - 9 - m.length) 0 ++ bigEndianBytes 8 (8 * m.length)
  let seed := (digestPrimes.take 8).map (rootFraction 2)
  let h := digestBlocks blocks (bigEndianWords 4 (16 * blocks) closed) (seed.take 4, seed.drop 4)
  (h.1 ++ h.2).flatMap (bigEndianBytes 4)

end Machine
end Sys2Proof
end

