-- ==== Sys2Proof/Machine/Engine.lean ====
section
/-!
DEFINITION. Job cards and the engines of a pane: issue checks and the hazard window (R111 to R117, R121, R328),
dispatch, chunks, failure and completion (R118 to R128), and the pane's wicket (R172, R173).
-/

namespace Sys2Proof
namespace Machine

/-! ## Fields of a card (R111) -/

/-- KIND 0x01 is a copy. -/
def Card.isCopy (k : Card) : Bool := k.fld 0 1 == 1
def Card.hdr (k : Card) : Bool := bit (k.fld 1 1) 0
def Card.cbx (k : Card) : Bool := bit (k.fld 1 1) 1
def Card.src (k : Card) : Word := BitVec.ofNat 64 (k.fld 0x10 8)
def Card.dst (k : Card) : Word := BitVec.ofNat 64 (k.fld 0x18 8)
def Card.tblAddr (k : Card) : Nat := k.fld 0x38 8

/-- The chain that a card's own fields name (R125, R127). -/
def cardChain (bs : List Byte) (tbl : Option (List Byte)) : Chain :=
  let f := cardFld bs
  { stages := (List.range (min 6 (f 4 1))).map fun i => f (5 + i) 1, ikind := f 2 1 % 4, okind := f 2 1 / 4 % 4,
    etag := f 3 1 % 32, rowk := f 0x28 4, cbx := bit (f 1 1) 1, xtag := f 0x0B 1 % 32, tbl := tbl }

/-- Reserved fields of a card; a field that the other kind alone uses is reserved too (R111, DEDUCED, log entry 17). -/
def cardReserved (bs : List Byte) : Bool :=
  let f := cardFld bs
  f 3 1 / 32 == 0 && f 0x78 8 == 0 &&
    (if f 0 1 == 1 then f 1 1 == 0 && f 2 1 == 0 && f 4 1 == 0 && f 5 6 == 0 && f 0x0B 1 == 0
     else f 1 1 / 4 == 0 && f 2 1 / 16 == 0 && f 0x2C 4 == 0 && f 0x0B 1 / 32 == 0)

/-- Output bytes of a copy, or of a transform that is no encoder; an encoder's OUTLEN is its capacity (R111, R112). -/
def Card.outLen (k : Card) : Nat := if k.isCopy then k.fld 0x20 4 * k.fld 0x24 4 else k.fld 0x24 4

def Card.encodes (k : Card) : Bool := !k.isCopy && !k.hdr && (cardChain k.bytes none).encodes

/-- The number of chunks of a card (R122): of output, or of input for an encode chain. -/
def Card.chunks (k : Card) : Nat := ceilDiv (if k.encodes then k.fld 0x20 4 else k.outLen) chunkSize

/-! ## Regions (R113, R115, R116) -/

/-- A byte range of one space. -/
structure Span where
  space : Nat
  lo    : Nat
  len   : Nat
  deriving DecidableEq, Repr

/-- The space an address lies in, with the core of a scratchpad and the ASID of device-virtual memory (R116). -/
def spaceOf (core asid : Nat) (a : Nat) : Nat :=
  let sel := a / 2 ^ 56
  if sel == 0 then asid
  else if sel == 1 then 2 ^ 12 + core
  else if sel == 2 then 2 ^ 12 + paneOf core * 256 + a / 2 ^ 21 % 256
  else 2 ^ 10 + sel

def spanOf (core asid : Nat) (a : Word) (len : Nat) : Span :=
  let n := a.toNat
  let sel := n / 2 ^ 56
  { space := spaceOf core asid n, lo := if (sel == 1 || sel == 2) && canonical n then n % 2 ^ 21 else n % 2 ^ 56, len := len }

def Span.within (x r : Span) : Bool := x.space == r.space && r.lo ≤ x.lo && x.lo + x.len ≤ r.lo + r.len

def Span.meets (x y : Span) : Bool := x.space == y.space && x.lo < y.lo + y.len && y.lo < x.lo + x.len

/-- The read regions and the write region of a card; a length of 0 is absent (R111). -/
def Card.reads (k : Card) : List Span :=
  ([(0x40, 0x48), (0x50, 0x58)].map fun p => spanOf k.core k.asid (BitVec.ofNat 64 (k.fld p.1 8)) (k.fld p.2 8)).filter
    fun r => r.len != 0

def Card.writes (k : Card) : List Span :=
  ([spanOf k.core k.asid (BitVec.ofNat 64 (k.fld 0x60 8)) (k.fld 0x68 8)]).filter fun r => r.len != 0

/-- The rows of a copy from a base at a pitch (R112). -/
def Card.rows (k : Card) (base : Word) (pitchAt : Nat) : List (Word × Nat) :=
  (List.range (k.fld 0x24 4)).map fun j => (base + BitVec.ofNat 64 (j * k.fld pitchAt 4), k.fld 0x20 4)

/-- What a card reads and writes at fixed places, but for its table (R113); a card that writes nothing reads nothing (R25). -/
def Card.srcSpans (k : Card) : List (Word × Nat) :=
  if k.encodes then [(k.src, k.fld 0x20 4)]
  else if k.outLen == 0 then [] else if k.isCopy then k.rows k.src 0x28 else if k.hdr then [] else [(k.src, k.fld 0x20 4)]

def Card.dstSpans (k : Card) : List (Word × Nat) :=
  if k.outLen == 0 then [] else if k.isCopy then k.rows k.dst 0x2C else [(k.dst, k.fld 0x24 4)]

/-- A span outside every region of its kind, if there is one (R113). -/
def Card.outside (k : Card) (rs : List Span) (xs : List (Word × Nat)) : Option Word :=
  (xs.find? fun x => x.2 != 0 && !(rs.any fun r => (spanOf k.core k.asid x.1 x.2).within r)).map fun x => x.1

/-- A card reads or writes what another card touches (R115); one without output orders nothing (R25). -/
def Card.conflicts (y x : Card) : Bool :=
  let hit (a b : List Span) : Bool := a.any fun r => b.any fun q => r.meets q
  y.chunks != 0 && x.chunks != 0 && (hit y.reads x.writes || hit y.writes x.reads || hit y.writes x.writes)

/-! ## What an engine reads and writes (R113) -/

/-- Why an engine does not go on: it waits, asks for a host page, asks a peer, or the chunk faults. -/
inductive EStop where
  | wait
  | page (fn page : Nat) (write : Bool)
  | ask (parts : List (Word × Nat))
  | fault (cause boff : Nat)
  deriving DecidableEq, Repr

abbrev E (α : Type) := Except EStop α

/-- A range cut at 64 KiB boundaries, and at 1 KiB ones for a peer (R348). -/
def partsGo : Nat → Word → Nat → List (Word × Nat)
  | 0, _, _       => []
  | fuel + 1, a, n =>
    let unit := if 0x80 ≤ a.toNat / 2 ^ 56 then 1024 else 65536
    let m := min n (unit - a.toNat % unit)
    if n = 0 then [] else (a, m) :: partsGo fuel (a + BitVec.ofNat 64 m) (n - m)

def parts (a : Word) (n : Nat) : List (Word × Nat) := partsGo (n / 1024 + 2) a n

/-- The place of one part; a check that fails is a fault of the chunk (R123). -/
def State.enginePlace (s : State) (k : Card) (acc : Acc) (a : Word) : E Place :=
  match s.place (k.how acc) a with
  | .ok p                => .ok p
  | .error .wait         => .error .wait
  | .error (.page fn pg w) => .error (.page fn pg w)
  | .error (.trap t)     => .error (.fault t.code 0)

/-- The answer of a peer to a part that was asked for. -/
def Card.answer (k : Card) (d va len : Nat) (write : Bool) : Option Asked :=
  k.asked.find? fun q => q.peer == d && q.va == va && q.len == len && q.write == write

/-- One part read: memory as the issuing context sees it (R130), an aperture expanded, a peer's bytes once it gave
them. -/
def State.partRead (s : State) (k : Card) (x : Word × Nat) : E (List Byte) := do
  let p ← s.enginePlace k .read x.1
  match p with
  | .mem key    => pure (s.viewRead k.core key x.2)
  | .ctl _      => .error (.fault cPROT 0)
  | .aper n off => match (s.viewAs k.core).aperRead n off x.2 with
    | .ok bs   => pure bs
    | .error f => .error (.fault f.1 f.2.2)
  | .peer d va  => match k.answer d va x.2 false with
    | none   => .error (.ask [x])
    | some q => match q.fault, q.got with
      | some prot, _  => .error (.fault (if prot then cPROT else cXLATE) 0)
      | none, some bs => pure (bs.take x.2 ++ List.replicate (x.2 - bs.length) 0)
      | none, none    => .error .wait

/-- Parts read in order. -/
def State.partsRead (s : State) (k : Card) : List (Word × Nat) → E (List Byte)
  | []      => pure []
  | x :: xs => do
    let b ← s.partRead k x
    let r ← s.partsRead k xs
    pure (b ++ r)

def State.engineRead (s : State) (k : Card) (a : Word) (n : Nat) : E (List Byte) := s.partsRead k (parts a n)

/-- Ranges read in order. -/
def State.rangesRead (s : State) (k : Card) (xs : List (Word × Nat)) : E (List Byte) :=
  s.partsRead k (xs.flatMap fun x => parts x.1 x.2)

/-! ## The data of one chunk (R112, R122, R125, R127) -/

/-- The parts of rows that hold output bytes from one on, n of them: row and offset (R112). -/
def rowParts (base : Word) (pitch rowlen : Nat) : Nat → Nat → Nat → List (Word × Nat)
  | 0, _, _          => []
  | fuel + 1, off, n =>
    if n = 0 || rowlen = 0 then []
    else
      let m := min n (rowlen - off % rowlen)
      (base + BitVec.ofNat 64 (off / rowlen * pitch + off % rowlen), m) :: rowParts base pitch rowlen fuel (off + m) (n - m)

/-- Parts read in order as far as they can be, and what stands in the way of the others. -/
def State.partsReach (s : State) (k : Card) : List (Word × Nat) → List Byte × Option EStop
  | []      => ([], none)
  | x :: xs => match s.partRead k x with
    | .error e => ([], some e)
    | .ok b    => (b ++ (s.partsReach k xs).1, (s.partsReach k xs).2)

/-- A chunk's input as far as it can be read. What stands in the way of the rest matters only to a stage that asks for it: a fault is
met there, and a wait stands as the cause 0, which no fault has. -/
def State.inputFlow (s : State) (k : Card) (a : Word) (n : Nat) : Flow × Option EStop :=
  let r := s.partsReach k (parts a n)
  let f := Flow.raw r.1
  match r.2 with
  | none               => (f, none)
  | some (.fault c b)  => ({ f with fault := some (c, b) }, none)
  | some (.wait)       => ({ f with fault := some (0, 0) }, some .wait)
  | some (.page g p w) => ({ f with fault := some (0, 0) }, some (.page g p w))
  | some (.ask ps)     => ({ f with fault := some (0, 0) }, some (.ask ps))

/-- The outcome of a chunk whose input was read so. -/
def outcome (w : Option EStop) : Except (Nat × Nat) α → E α
  | .ok x    => .ok x
  | .error f => match w with
    | some e => if f.1 == 0 then .error e else .error (.fault f.1 f.2)
    | none   => .error (.fault f.1 f.2)

/-- A group stage's output; a stream it cannot group is illegal. -/
def orLegal (x : E (Option (List Byte))) : E (List Byte) := do
  match ← x with
  | none    => .error (.fault cSTREAM_LEGAL 0)
  | some bs => pure bs

/-! ### Sources without a header -/

/-- The chain of a card with its table. -/
def Card.chain (k : Card) : Chain := cardChain k.bytes (if k.tblAddr == 0 then none else some k.table)

/-- Bytes of the input of the chunk-by-chunk stages of a chain: of the source, or of what its front stage makes of it. -/
def State.frontRange (s : State) (k : Card) (c : Chain) (lo n : Nat) : E (List Byte) :=
  match c.front with
  | none   => s.engineRead k (k.src + BitVec.ofNat 64 lo) n
  | some i => orLegal (c.grouped i (k.fld 0x20 4) lo n fun o m => s.engineRead k (k.src + BitVec.ofNat 64 o) m)

/-- What a CRC stage at the front or the back of a chain passes for a chunk (R125): its input bytes, or its output. -/
def crcOf (c : Chain) (mid : Option (List Byte)) (inp : E (List Byte)) (out : List Byte) : E (Option (List Byte)) :=
  match c.crcAt with
  | .absent => pure none
  | .front  => inp.map some
  | .mid _  => pure mid
  | .back   => pure (some out)

/-- The bytes of a chain's last stage that a chunk of output takes: fewer or more where codebook expansion follows (R125). -/
def Chain.unit (c : Chain) : Nat := if c.cbx then chunkSize * tagW c.etag / tagW c.xtag else chunkSize

/-- The bytes that n bytes of output take of it. -/
def Chain.needs (c : Chain) (n : Nat) : Nat := if c.cbx then ceilDiv (ceilDiv (8 * n) (tagW c.xtag) * tagW c.etag) 8 else n

/-- Chunk j of a decode chain before its back stage, whose input begins at a byte of the source, and where that of the next chunk begins:
after the last byte that a stage which changes the length has used (R126; DEDUCED, log entry 17). -/
def State.midAt (s : State) (k : Card) (c : Chain) (j start : Nat) : E (ChunkData × Nat) := do
  let len := min c.unit (c.needs k.outLen - j * c.unit)
  if c.mid.any changesLen then do
    let rest := k.fld 0x20 4 - start
    let (f, w) ← (match c.front with
      | none   => Except.ok (s.inputFlow k (k.src + BitVec.ofNat 64 start) rest)
      | some _ => (s.frontRange k c start rest).map fun bs => (Flow.raw bs, none))
    let d ← outcome w (c.decodeMid len f)
    pure (d, start + ceilDiv (c.runMid (some len) f).1.fin 8)
  else do
    let bs ← s.frontRange k c (c.unit * j) len
    let d ← outcome none (c.decodeMid len (Flow.raw bs))
    pure (d, c.unit * j + len)

/-- The chunk so many after chunk j, whose input begins at a byte: through those between where a stage changes the length, else at its
own place. -/
def State.midSeq (s : State) (k : Card) (c : Chain) (j start : Nat) : Nat → E (ChunkData × Nat)
  | 0     => s.midAt k c j start
  | n + 1 =>
    if !c.mid.any changesLen then s.midAt k c (j + n + 1) 0
    else do
      let r ← s.midSeq k c j start n
      s.midAt k c (j + n + 1) r.2

/-- What the stages before a back stage make of chunk j: kept from the commits before the card's next chunk (R122), or made now. -/
def State.midBytes (s : State) (k : Card) (c : Chain) (j : Nat) : E (List Byte) :=
  if c.mid.any changesLen && j < k.chunk then pure ((k.mids.drop (chunkSize * j)).take chunkSize)
  else if c.mid.any changesLen then (s.midSeq k c k.chunk k.out (j - k.chunk)).map fun r => r.1.out
  else (s.midAt k c j 0).map fun r => r.1.out

/-- Chunk n of a decode chain without a header, the card's next one. -/
def State.decodeChunk (s : State) (k : Card) (c : Chain) (n : Nat) : E ChunkData := do
  let len := chunkLen k.outLen n
  let (d, stop) ← s.midAt k c n k.out
  let first := if c.mid.any changesLen then k.out else c.unit * n
  let out ← (match c.back with
    | none   => pure ((cbxExpand c d.out).take len)
    | some i => orLegal (c.grouped i k.outLen (chunkSize * n) len fun o m => chunkRange chunkSize o m (s.midBytes k c)))
  let crc ← crcOf c d.crc (s.engineRead k (k.src + BitVec.ofNat 64 first) (stop - first))
    (if c.back.isNone then d.out else out)
  pure { out := out, crc := crc }

/-- Chunk j of an encode chain before its back stage: 64 KiB of input encoded (R122, R127). -/
def State.encodeMid (s : State) (k : Card) (c : Chain) (j : Nat) : E ChunkData := do
  let bs ← s.frontRange k c (chunkSize * j) (chunkLen (k.fld 0x20 4) j)
  let g := c.runMid none (Flow.raw bs)
  match g.1.fault with
  | some f => .error (.fault f.1 f.2)
  | none   => pure { out := g.1.bytes, crc := g.2 }

/-- Chunk n of an encode chain (R127). -/
def State.encodeChunk (s : State) (k : Card) (c : Chain) (n : Nat) : E ChunkData := do
  let inlen := k.fld 0x20 4
  let d ← s.encodeMid k c n
  let out ← (match c.back with
    | none   => pure d.out
    | some i =>
      if c.mid.any changesLen then
        orLegal (c.grouped i d.out.length 0 d.out.length fun o m => pure ((d.out.drop o).take m))
      else orLegal (c.grouped i inlen (chunkSize * n) (chunkLen inlen n) fun o m =>
        chunkRange chunkSize o m fun j => (s.encodeMid k c j).map fun x => x.out))
  let crc ← crcOf c d.crc (s.engineRead k (k.src + BitVec.ofNat 64 (chunkSize * n)) (chunkLen inlen n)) out
  pure { out := out, crc := crc }

/-! ### Sources with a header -/

/-- The chain of a header-described source: the header's, with the element tag, the table and the expansion of the card. -/
def Card.hdrChain (k : Card) (h : Hdr) (cbx : Bool) : Chain :=
  let base := k.chain
  { base with stages := h.stages, ikind := 0, okind := if cbx then 1 else h.kind, cbx := cbx, xtag := if cbx then base.xtag else 0 }

/-- The header of a source, checked with its span and its chain (R31, R113, R127). -/
def State.hdrChecked (s : State) (k : Card) : E Hdr := do
  let hb ← s.engineRead k k.src 32
  match hdrOf hb with
  | none   => .error (.fault cSTREAM_LEGAL 0)
  | some h =>
    let ok (c : Chain) : Bool := c.legal && !c.encodes && c.tablesOk && c.countOk h.outlen
    if (k.outside k.reads [(k.src, 32 + 8 * h.chunks + h.inlen)]).isSome then .error (.fault cPROT 0)
    else if !(ok (k.hdrChain h false) && (!k.cbx || ok (k.hdrChain h true))) then .error (.fault cSTREAM_LEGAL 0)
    else pure h

/-- Chunk j of a header-described source before its back stage (R31, R126). -/
def State.hdrMid (s : State) (k : Card) (h : Hdr) (c : Chain) (j : Nat) : E ChunkData := do
  if h.chunks ≤ j then .error (.fault cSTREAM_CODE 0)
  else
    let ob ← s.engineRead k (k.src + BitVec.ofNat 64 (32 + 8 * j)) 8
    let o := leNat ob
    let r := s.inputFlow k (k.src + BitVec.ofNat 64 (32 + 8 * h.chunks + o)) (h.inputLen j o)
    outcome r.2 (c.decodeMid (chunkLen h.outlen j) r.1)

/-- Chunk n of a card whose header-described source is expanded. What its CRC stage passes is that of the source's chunks that begin in
the chunk (DEDUCED, log entry 17). -/
def State.hdrChunk (s : State) (k : Card) (h : Hdr) (n len : Nat) : E ChunkData := do
  let c := k.hdrChain h (k.cbx && !k.isCopy)
  let lo := c.unit * n
  let m := c.needs len
  if h.outlen < lo + m then .error (.fault cSTREAM_CODE 0)
  else do
    let mid (o m : Nat) : E (List Byte) := chunkRange chunkSize o m fun j => (s.hdrMid k h c j).map fun d => d.out
    let bs ← (match c.back with
      | none   => mid lo m
      | some i => orLegal (c.grouped i h.outlen lo m mid))
    let crc ← (match c.crcAt with
      | .absent => Except.ok none
      | .front  => Except.ok none
      | .back   => Except.ok (some bs)
      | .mid _  => do
        let first := ceilDiv lo chunkSize
        let ds ← (List.range (ceilDiv (lo + m) chunkSize - first)).mapM fun i => s.hdrMid k h c (first + i)
        pure (some (ds.flatMap fun d => d.crc.getD [])))
    pure { out := (cbxExpand c bs).take len, crc := crc }

/-- Whether a header-described buffer on the way of a card is expanded there: EXP = 1 at the copy engine, EXP = 2 on the way into a
scratchpad (R32, R112). -/
def Card.expands (k : Card) (exp : Nat) : Bool :=
  exp == 1 || (exp == 2 && (k.dst.toNat / 2 ^ 56 == 1 || k.dst.toNat / 2 ^ 56 == 2))

/-- Whether a copy's source is such a buffer (R31, R32): its first 32 bytes lie in a read region and bear MARK. One that cannot be read
is none (DEDUCED, log entry 17). -/
def State.copyExpands (s : State) (k : Card) : E Bool :=
  if (k.outside k.reads [(k.src, 32)]).isSome then pure false
  else match s.engineRead k k.src 32 with
    | .ok hb               => pure (leNat (hb.take 2) == 0xB2E8 && k.expands ((hb.getD 2 0).toNat % 4))
    | .error (.fault _ _)  => pure false
    | .error e             => .error e

/-! ### Chunks and tables -/

/-- Chunk n of a card's output as its data stand (R32, R112, R122, R125): rows, an expanded buffer, a buffer in its stored form, or what a
chain makes of the source. -/
def State.chunkData (s : State) (k : Card) (n : Nat) : E ChunkData := do
  let len := chunkLen k.outLen n
  if k.isCopy then do
    if ← s.copyExpands k then do
      let h ← s.hdrChecked k
      s.hdrChunk k h n len
    else do
      let bs ← s.rangesRead k (rowParts k.src (k.fld 0x28 4) (k.fld 0x20 4) (chunkSize + 1) (chunkSize * n) len)
      pure { out := bs, crc := none }
  else if k.hdr then do
    let h ← s.hdrChecked k
    if k.expands h.exp then s.hdrChunk k h n len
    else if 32 + 8 * h.chunks + h.inlen < chunkSize * n + len then .error (.fault cSTREAM_CODE 0)
    else do
      let bs ← s.engineRead k (k.src + BitVec.ofNat 64 (chunkSize * n)) len
      pure { out := bs, crc := none }
  else if !k.chain.tablesOk then .error (.fault cSTREAM_LEGAL 0)
  else if k.chain.encodes then s.encodeChunk k k.chain n
  else s.decodeChunk k k.chain n

/-- The table or codebook image at TBL (R128), whose symbols lie in a read region too (R113): checked again here, since the counts may
not be those that stood there at issue. -/
def State.tableRead (s : State) (k : Card) : E (List Byte) := do
  let tbl := BitVec.ofNat 64 k.tblAddr
  if k.cbx then s.engineRead k tbl 2048
  else do
    let bs ← s.engineRead k tbl 32
    let n := (huffCounts bs).foldl (· + ·) 0
    if (k.outside k.reads [(tbl, 32 + n)]).isSome then .error (.fault cPROT 0)
    else s.engineRead k tbl (32 + min 256 n)

/-- The table that a card's job takes with it: a copy takes one only for a buffer that it expands, and then the table's alignment is
checked here. DESIGN CHOICE, log entry 85. -/
def State.cardTable (s : State) (k : Card) : E (List Byte) := do
  if k.tblAddr == 0 then pure []
  else if !k.isCopy then s.tableRead k
  else if ← s.copyExpands k then
    (if k.tblAddr % 16 != 0 then .error (.fault cSTREAM_LEGAL 0) else s.tableRead k)
  else pure []

/-- The first chunks of a chain without an index decoded for their bytes and for the place where the next one's input begins. -/
def State.midsTo (s : State) (k : Card) (c : Chain) : Nat → E (List Byte × Nat)
  | 0     => pure ([], 0)
  | j + 1 => do
    let r ← s.midsTo k c j
    let d ← s.midAt k c j r.2
    pure (r.1 ++ d.1.out, d.2)

/-- Where a job that skips its first chunks goes on (R122), and what a back stage still takes of them: an encoder's payload at the index
entry that the chunk before wrote, its plain stream at the chunk's own place, a chain without an index at the end of what those chunks
used. DESIGN CHOICE, log entry 17. -/
def State.cardPlace (s : State) (k : Card) : E (List Byte × Nat) := do
  let c := k.chain
  if k.chunk = 0 || k.isCopy || k.hdr then pure ([], 0)
  else if c.encodes then
    (if c.okind = 0 then (s.engineRead k (k.dst + BitVec.ofNat 64 (32 + 8 * k.chunk)) 8).map fun bs => ([], leNat bs)
     else pure ([], chunkSize * k.chunk))
  else if c.mid.any changesLen && c.tablesOk then
    (s.midsTo k c k.chunk).map fun r => (if c.back.isNone then [] else r.1, r.2)
  else pure ([], 0)

/-- A job takes its table and finds its place when it starts (R128); one that was saved keeps what it had (R124). -/
def State.prepare (s : State) (k : Card) : E Card := do
  if k.tabled then pure k
  else do
    let tbl ← s.cardTable k
    let k1 := { k with table := tbl }
    let at_ ← s.cardPlace k1
    pure { k1 with out := at_.2, mids := at_.1, tabled := true }

/-- The inverse of a stage (R127). -/
def inverseStage (i : Nat) : Nat :=
  match i with
  | 0x01 => 0x02
  | 0x02 => 0x01
  | 0x03 => 0x04
  | 0x04 => 0x03
  | 0x05 => 0x06
  | 0x06 => 0x05
  | 0x07 => 0x08
  | 0x08 => 0x07
  | 0x09 => 0x0A
  | 0x0A => 0x09
  | _    => i

/-- The header of the buffer that an encode chain writes (R31, R127): EXP 0, the kind it expands back to, the inverse
stages in reverse order. -/
def encodedHeader (c : Chain) (outlen inlen : Nat) : List Byte :=
  let st := (c.stages.map inverseStage).reverse
  leBytes 2 0xB2E8 ++ [BitVec.ofNat 8 (4 * c.ikind), BitVec.ofNat 8 st.length] ++
    ((List.range 6).map fun i => BitVec.ofNat 8 (st.getD i 0)) ++ [0, 0] ++ leBytes 4 (ceilDiv outlen chunkSize) ++
    leBytes 8 outlen ++ leBytes 8 inlen

/-- Where the output of chunk n goes and what it is (R112, R127). An encoder with a byte stream writes its payload, the index entry of
the next chunk, and the header with the last one. -/
def State.chunkWrites (_ : State) (k : Card) (n : Nat) (d : ChunkData) : E (List (Word × List Byte)) := do
  if k.isCopy then
    let ps := rowParts k.dst (k.fld 0x2C 4) (k.fld 0x20 4) (chunkSize + 1) (chunkSize * n) d.out.length
    pure ((ps.foldl (fun (r : List (Word × List Byte) × List Byte) p => (r.1 ++ [(p.1, r.2.take p.2)], r.2.drop p.2)) ([], d.out)).1)
  else
    let c := cardChain k.bytes none
    let cap := k.fld 0x24 4
    let next := k.out + d.out.length
    let dst (o : Nat) : Word := k.dst + BitVec.ofNat 64 o
    if k.encodes && c.okind == 0 then
      let pay := 32 + 8 * k.chunks
      let index (j v : Nat) : List (Word × List Byte) := if j < k.chunks then [(dst (32 + 8 * j), leBytes 8 v)] else []
      let head : List (Word × List Byte) := if n + 1 == k.chunks then [(k.dst, encodedHeader c (k.fld 0x20 4) next)] else []
      if cap < pay + next then .error (.fault cSTREAM_CODE 0)
      else pure ((dst (pay + k.out), d.out) :: ((if n = 0 then index 0 0 else []) ++ index (n + 1) next ++ head))
    else if k.encodes then
      (if cap < next then .error (.fault cSTREAM_CODE 0) else pure [(dst k.out, d.out)])
    else pure [(dst (chunkSize * n), d.out)]

/-- The card after a chunk is committed: its place in the output of an encoder, or in an input without an index, with the bytes that a
back stage may still take. -/
def State.placeAfter (s : State) (k : Card) (d : ChunkData) : Card :=
  let c := k.chain
  if k.isCopy || k.hdr then k
  else if c.encodes then { k with out := k.out + d.out.length }
  else if c.mid.any changesLen then match s.midAt k c k.chunk k.out with
    | .ok r    => { k with out := r.2, mids := if c.back.isNone then [] else k.mids ++ r.1.out }
    | .error _ => k
  else k

/-- The places of writes cut into parts, all checked before the first byte is written. -/
def State.writePlaces (s : State) (k : Card) : List (Word × List Byte) → E (List (Place × (Word × List Byte)))
  | []      => pure []
  | x :: xs => do
    let p ← s.enginePlace k .write x.1
    let r ← s.writePlaces k xs
    pure ((p, x) :: r)

/-- A write cut along the parts of its range. -/
def cutWrite (x : Word × List Byte) : List (Word × List Byte) :=
  ((parts x.1 x.2.length).foldl (fun (r : List (Word × List Byte) × List Byte) p => (r.1 ++ [(p.1, r.2.take p.2)], r.2.drop p.2))
    ([], x.2)).1

/-! ## Cards in the window -/

def State.cardAt (s : State) (pane : Fin 8) (n : Nat) : Option Card := s.panes[pane.val].cards[n]?

def State.setCard (s : State) (pane : Fin 8) (k : Card) : State :=
  s.setPane pane.val { s.pane pane.val with cards := (s.pane pane.val).cards.map fun x => if x.id == k.id then k else x }

def State.dropCard (s : State) (pane : Fin 8) (id : Nat) : State :=
  s.setPane pane.val { s.pane pane.val with cards := (s.pane pane.val).cards.filter fun x => x.id != id }

/-- A field of the card written back to its scratchpad place (R111). -/
def State.writeBack (s : State) (k : Card) (o n v : Nat) : State :=
  { s with mem := Memory.writeN s.mem (k.key + o) (leBytes n v) }

/-- An arrival of n bytes at the card's word (R118). -/
def State.cardArrives (s : State) (k : Card) (n : Nat) : State :=
  match s.awKey k with
  | none     => s
  | some key => s.arriveAt key n

/-! ## Issue (R111, R113, R114, R117, R127, R328) -/

/-- Whether the chain of a card passes what is checked at issue; a header-described card leaves the rest to the header
(R127). -/
def cardChainOk (bs : List Byte) : Bool :=
  let f := cardFld bs
  let c := cardChain bs (if f 0x38 8 == 0 then none else some [])
  if bit (f 1 1) 0 then
    (if c.cbx then isCx c.etag && 0x01 ≤ c.xtag && c.xtag ≤ 0x0E && c.okind == 1 && c.tbl.isSome else f 0x0B 1 == 0)
  else
    f 4 1 ≤ 6 && ((List.range 6).all fun i => i < f 4 1 || f (5 + i) 1 == 0) && c.legal &&
      c.countOk (if c.encodes then f 0x20 4 else f 0x24 4)

/-- The places of a card's table header in memory that the pane reads itself. -/
def State.tblKeys (s : State) (k : Card) : List (Nat × Nat) :=
  (parts (BitVec.ofNat 64 k.tblAddr) 32).filterMap fun x => match s.enginePlace k .read x.1 with
    | .ok (.mem key) => some (key, x.2)
    | .ok _          => none
    | .error _       => none

/-- The length of the card's table at issue: a codebook image, or the counts and the symbols they count (R128), after the A-side's own
earlier writes to the counts and once a host page is there. Counts that only a peer can give, or whose page faults, are left to the
engine, which checks the symbols' span when it reads them. DESIGN CHOICE, log entry 85. -/
def State.tblLen (s : State) (k : Card) : R Nat := do
  if k.cbx then pure 2048
  else
    s.quiet (s.tblKeys k)
    match s.engineRead k (BitVec.ofNat 64 k.tblAddr) 32 with
    | .ok bs                => pure (32 + (huffCounts bs).foldl (· + ·) 0)
    | .error .wait          => waits
    | .error (.page g p w)  => .error (.page g p w)
    | .error (.ask _)       => pure 32
    | .error (.fault _ _)   => pure 32

/-- The common meaning of cpy and xform (R328). A card of length 0 is checked for its own form and for its arrival word only (R25).
That a table that is not aligned raises ALIGN is the model's choice. DESIGN CHOICE, log entry 85. -/
def State.submit (s : State) (kind : Nat) (a : RegNo) : R State := do
  s.onSide .A
  let ad ← s.src a false
  orTrap (canonical ad.toNat) (trapNonCan ad)
  orTrap (ad.toNat % 64 == 0) (trapA cALIGN ad)
  orTrap (ad.toNat / 2 ^ 56 == 1) (trapA cPROT ad)
  let h := s.how .read true 64
  let p ← s.place h ad
  let _ ← s.place h (ad + 64)
  let key := s.keyOf p
  s.quiet [(key, 128)]
  let bs := Memory.readN s.mem key 128
  orTrap (cardFld bs 0 1 == kind) (trapE cILLEGAL)
  orTrap (cardReserved bs) (trapE cILLEGAL)
  let k : Card :=
    { id := s.nextCard, core := s.cur.core, seq := s.me.nextId, task := s.me.task, key := key, bytes := bs,
      asid := s.me.asid.toNat, super := s.mySide.super, chunk := cardFld bs 0x0C 4,
      crc := if cardFld bs 0x0C 4 = 0 then 0 else BitVec.ofNat 32 (cardFld bs 0x70 4), table := [], tabled := false, out := 0, edges := [], louv := false, mids := [], phase := .accepted, asked := [] }
  let none_ := k.chunks == 0
  orTrap (none_ || (k.reads ++ k.writes).all fun r => r.space != 2 ^ 10 + 3) (trapA cPROT ad)
  match k.outside k.reads k.srcSpans with
  | some x => raise (trapA cPROT x)
  | none   =>
  match k.outside k.writes k.dstSpans with
  | some x => raise (trapA cPROT x)
  | none   =>
  let tbl := BitVec.ofNat 64 k.tblAddr
  let useTbl := !k.isCopy && k.tblAddr != 0 && !none_
  orTrap (!useTbl || (k.outside k.reads [(tbl, 32)]).isNone) (trapA cPROT tbl)
  orTrap (!useTbl || k.tblAddr % 16 == 0) (trapA cALIGN tbl)
  let n ← (if useTbl then s.tblLen k else pure 0)
  orTrap ((k.outside k.reads [(tbl, n)]).isNone) (trapA cPROT tbl)
  orTrap (k.isCopy || none_ || cardChainOk bs) { code := cSTREAM_LEGAL, info := info2 0 0 }
  if k.aw != 0 then
    let _ ← s.syncPlace .write (BitVec.ofNat 64 k.aw) 16
  let pane := paneOf s.cur.core
  orWait ((s.pane pane).cards.length < 64)
  let k1 := { k with edges := ((s.pane pane).cards.filter fun x => k.conflicts x).map fun x => x.id }
  let s1 := s.setPane pane { s.pane pane with cards := (s.pane pane).cards ++ [k1] }
  let s2 := { s1 with nextCard := s.nextCard + 1 }
  pure (((s2.setMe { s2.me with nextId := s2.me.nextId + 1 }).writeBack k1 0x74 4 0).retire 4)

/-- cpy (R111, R328). -/
def execCpy (a : RegNo) (s : State) : Host.Outcome State Fault Refusal := s.finish (s.submit 1 a)

/-- xform (R111, R328). -/
def execXform (a : RegNo) (s : State) : Host.Outcome State Fault Refusal := s.finish (s.submit 2 a)

/-! ## Operand spans of matrix commands (R121) -/

/-- W and the index width of a weight tag under a bank's mode (R308). -/
def weightShape (btag mode : Nat) : Nat × Nat := (if isCx btag then 2 ^ bits mode 7 5 else 1, tagW btag)

/-- Bytes of a macro-operation's activations and of its weights (R308). -/
def planeBytes (rows k p : Nat) : Nat := rows * (k / 16) * p * 128
def weightBytes (k : Nat) (wx : Nat × Nat) : Nat := k / 16 * (16 / wx.1) * 128 * wx.2 / 8

/-- The bytes of a macro-operation's operands, in its core's scratchpad (R51, R52, R121). -/
def MacroOp.spans (m : MacroOp) (core : Nat) : List Span :=
  [{ space := 2 ^ 12 + core, lo := m.a, len := planeBytes m.cfg.rows m.k m.cfg.p },
   { space := 2 ^ 12 + core, lo := m.b, len := weightBytes m.k m.wx }]

/-- The bytes that a codebook load reads (R301). -/
def CbldSt.span (c : CbldSt) : Span := { space := 2 ^ 12 + c.core, lo := c.off, len := 2048 }

/-- Earlier cards of an A-side whose write region overlaps spans that a command reads (R121). -/
def State.cardsOver (s : State) (core : Nat) (xs : List Span) : List Nat :=
  ((s.pane (paneOf core)).cards.filter fun k => k.core == core && k.writes.any fun r => xs.any fun x => r.meets x).map fun k => k.id

/-- The key spans of a region: what a card's region reaches, page by page for device-virtual memory, and around the end of a scratchpad
(R117). -/
def State.regionKeys (s : State) (k : Card) (r : Span) : List (Nat × Nat) :=
  if r.len == 0 then []
  else if r.space < 256 then
    ((List.range ((r.lo + r.len - 1) / 2 ^ 16 - r.lo / 2 ^ 16 + 1)).filterMap fun i =>
      let va := (r.lo / 2 ^ 16 + i) * 2 ^ 16
      let from_ := max va r.lo
      (s.leaf k.core r.space from_).map fun l => s.aliases (l.pa + (from_ - l.va)) (min (va + 2 ^ 16) (r.lo + r.len) - from_)).flatMap id
  else if 2 ^ 12 ≤ r.space then
    let c := r.space - 2 ^ 12
    let b := ((s.core c).spBase + r.lo) % 2 ^ 21
    let m := min r.len (2 ^ 21)
    [(spadKey c b, min m (2 ^ 21 - b)), (spadKey c 0, m - (2 ^ 21 - b))].filter fun x => x.2 != 0
  else if r.space == 2 ^ 10 + 4 then [(hostKey r.lo, r.len)]
  else [(peerKey (r.space - 2 ^ 10 - 0x80) r.lo, r.len)]

/-- An earlier access of the issuing A-side to a byte of the card's regions is not performed yet (R117). -/
def State.cardBehind (s : State) (k : Card) : Bool :=
  let ks := (k.reads ++ k.writes).flatMap (s.regionKeys k)
  k.chunks != 0 && (s.core k.core).pend.any fun x => x.id < k.seq &&
    ((x.open_.any fun q => ks.any fun r => overlaps q r) || (!x.open_.isEmpty && x.range.any fun g => ks.any fun r => overlaps g r))

/-- An earlier matrix command of the same A-side has not read its operands yet (R121). -/
def State.cardBehindMatrix (s : State) (k : Card) : Bool :=
  let c := s.core k.core
  let over_ (x : Span) : Bool := k.writes.any fun r => r.meets x
  (c.mops.any fun m => m.id < k.seq && (m.spans k.core).any over_) ||
    (match c.cbld with
      | none   => false
      | some b => over_ b.span)

/-- A card is ready: no edge left, nothing earlier of its A-side outstanding on its regions (R115, R117, R121), and no earlier await may
take it back (R123). -/
def State.cardReady (s : State) (pane : Fin 8) (k : Card) : Bool :=
  k.phase == .accepted && !s.mayRetract k.core k.seq && (k.edges.all fun e => (s.pane pane.val).cards.all fun x => x.id != e) && !s.cardBehind k &&
    !s.cardBehindMatrix k

def CardPhase.active : CardPhase → Bool
  | .accepted    => false
  | .waiting     => true
  | .running     => true
  | .failing _ _ => true

/-! ## The wicket (R172, R173) -/

/-- Louvres that a core holds: a grant kept by wkt and the macro-operations that run (R173). -/
def Core.louvres (c : Core) : Nat :=
  (c.mops.filter fun m => m.granted).length + (match c.wktHeld with
    | none            => 0
    | some (false, _) => 1
    | some (true, _)  => 2)

/-- Louvres in use in a pane. -/
def State.louvresUsed (s : State) (pane : Nat) : Nat :=
  let p := s.pane pane
  let held := (s.cores.filter fun q => paneOf q.1 == pane).foldl (fun n q => n + q.2.louvres) 0
  let cards := p.cards.foldl (fun n k =>
    if k.louv then n + 2
    else match p.reqs.find? fun r => r.who == .card k.id with
      | none   => n
      | some r => n + (2 - r.n)) 0
  held + cards

/-- A core runs a contract task (R172). -/
def State.isContract (s : State) (core : Nat) : Bool :=
  match (s.core core).task with
  | none    => false
  | some id => match s.task id with
    | none   => false
    | some t => t.cont.contract != 0xFF

/-- The request whose turn it is: contract tasks first, then arrival order (R172). -/
def Pane.next (p : Pane) : Option WktReq :=
  match p.reqs.find? fun r => r.contract with
  | some r => some r
  | none   => p.reqs.head?

def State.askWicket (s : State) (core n : Nat) (who : WktWho) : State :=
  let pane := paneOf core
  s.setPane pane { s.pane pane with reqs := (s.pane pane).reqs ++ [{ n := n, who := who, contract := s.isContract core }] }

/-- A card has its louvres: the job starts, and its table is copied into the engine (R128), now or once the bytes can be had. -/
def State.startCard (s : State) (pane : Fin 8) (k : Card) : State :=
  let k1 := { k with louv := true, phase := .running }
  match s.prepare k1 with
  | .ok k2              => s.setCard pane k2
  | .error (.fault c b) => s.setCard pane { k1 with phase := .failing c b }
  | .error .wait        => s.setCard pane k1
  | .error (.page _ _ _) => s.setCard pane k1
  | .error (.ask _)     => s.setCard pane k1

/-- An operation of a number comes after the wkt of its core (R173): one that is older has a request of its own. -/
def afterWkt (w : Option (Bool × Nat)) (id : Nat) : Bool :=
  match w with
  | none   => false
  | some p => p.2 ≤ id

/-- The card of a core that waits for the grant of its wkt (R173): dispatched while the request was pending. -/
def State.cardAhead (s : State) (core : Nat) : Option Card :=
  (s.pane (paneOf core)).cards.find? fun k =>
    k.core == core && k.phase == .waiting && afterWkt (s.core core).wktPend k.seq &&
      (s.pane (paneOf core)).reqs.all fun r => r.who != .card k.id

/-- The macro-operation of a core that does. -/
def State.mopAhead (s : State) (core : Nat) : Option MacroOp :=
  match (s.core core).mops with
  | []     => none
  | m :: _ =>
    if !m.granted && afterWkt (s.core core).wktPend m.id && (s.pane (paneOf core)).reqs.all fun r => r.who != .mop core then some m
    else none

/-- Whether a heavy operation that comes now is the next one after a wkt whose request is pending. -/
def State.takesAhead (s : State) (core id : Nat) : Bool :=
  afterWkt (s.core core).wktPend id && (s.cardAhead core).isNone && (s.mopAhead core).isNone

/-- The grant and the request of a core's wkt go back (R173). -/
def State.dropWkt (s : State) (core : Nat) : State :=
  let p := s.pane (paneOf core)
  (s.setPane (paneOf core) { p with reqs := p.reqs.filter fun r => r.who != .ahead core }).setCore core
    { s.core core with wktPend := none, wktHeld := none }

/-- The first macro-operation of a core granted. -/
def Core.grantMop (c : Core) (m : MacroOp) : Core :=
  { c with mops := c.mops.map fun x => if x.id == m.id then { x with granted := true } else x }

/-- The grant of a wkt (R173): held, or consumed by the operation that has come for it. -/
def State.grantAhead (s : State) (pane : Fin 8) (core : Nat) : State :=
  let c := s.core core
  let s1 := s.setCore core { c with wktPend := none }
  match s.mopAhead core, s.cardAhead core, c.wktPend with
  | some m, _, _             => s.setCore core { c.grantMop m with wktPend := none }
  | none, some k, some (true, _) => s1.startCard pane k
  | none, some k, _          => s1.askWicket core 1 (.card k.id)
  | none, none, _            => s.setCore core { c with wktHeld := c.wktPend, wktPend := none }

/-- WICKET_GRANT (R172): the request whose turn it is, if it fits the pool. -/
def execWicketGrant (pane : Fin 8) (s : State) : Host.Outcome State Fault Refusal :=
  .next <|
    let p := s.pane pane.val
    match p.next with
    | none   => s
    | some r =>
      if p.limit < s.louvresUsed pane.val + r.n then s
      else
        let s1 := s.setPane pane.val { p with reqs := p.reqs.erase r }
        match r.who with
        | .mop c   =>
          let co := s1.core c
          match co.mops.find? fun m => !m.granted with
          | none   => s1
          | some m => s1.setCore c (co.grantMop m)
        | .ahead c => s1.grantAhead pane c
        | .card id => match p.cards.find? fun k => k.id == id with
          | none   => s1
          | some k => s1.startCard pane k

/-- CARD_DISPATCH (R115, R172): the n-th card of the window, if it is the oldest ready one and an engine is free; it uses
a grant its core holds, and asks for what is missing. -/
def execCardDispatch (pane : Fin 8) (n : Nat) (s : State) : Host.Outcome State Fault Refusal :=
  .next <|
    let cards := (s.pane pane.val).cards
    match s.cardAt pane n with
    | none   => s
    | some k =>
      if !s.cardReady pane k || k.chunks ≤ k.chunk || 3 ≤ (cards.filter fun x => x.phase.active).length ||
          (cards.take n).any fun x => s.cardReady pane x && x.chunk < x.chunks then s
      else
        let co := s.core k.core
        let own := co.wktHeld.filter fun w => afterWkt (some w) k.seq
        let s1 := if own.isSome then s.setCore k.core { co with wktHeld := none } else s
        let s2 := s1.setCard pane { k with phase := .waiting }
        match own with
        | some (true, _)  => s1.startCard pane k
        | some (false, _) => s2.askWicket k.core 1 (.card k.id)
        | none            => if s.takesAhead k.core k.seq then s2 else s2.askWicket k.core 2 (.card k.id)

/-! ## Chunks (R118, R122, R123) -/

/-- Parts asked of a peer: reads, or writes with their bytes. -/
def State.askParts (s : State) (pane : Fin 8) (k : Card) (ps : List ((Nat × Nat) × PeerOp)) : State :=
  ps.foldl (fun s q =>
    let d := q.1.1
    let va := q.1.2
    let p := s.peer d
    let write := match q.2 with
      | .load _      => false
      | .store _     => true
      | .amo _ _ _ _ _ => true
    let len := match q.2 with
      | .load n      => n
      | .store bs    => bs.length
      | .amo _ _ _ _ _ => 0
    let a : PeerAccess := { sender := Fin.ofNat 64 s.dev, asid := k.asid, super := k.super, va := va, tag := p.nextTag, op := q.2 }
    let s1 := (s.setPeer d { p with nextTag := p.nextTag + 1 }).sendCargo d false (opFlits q.2) (.access a)
    s1.mapCards fun x => if x.id == k.id then
        { x with asked := x.asked ++ [{ peer := d, tag := p.nextTag, va := va, len := len, write := write, got := none, fault := none }] }
      else x) (let _ := pane; s)

/-- The bytes of a chunk written: all checked first, the parts of peers sent and awaited, then everything is performed, with the vector
clock where a write leaves the pane (R100, R118); none while peers have not answered. A chunk that finds the write log of a task full fails
its card with DET_CONFLICT. DESIGN CHOICE, log entry 83. -/
def State.commitWrites (s : State) (pane : Fin 8) (k : Card) (ws : List (Word × List Byte)) : E (State × Bool) := do
  let ps ← s.writePlaces k (ws.flatMap cutWrite)
  let far := ps.filterMap fun p => match p.1 with
    | .peer d va => some ((d, va), PeerOp.store p.2.2)
    | .mem _     => none
    | .aper _ _  => none
    | .ctl _     => none
  let new := far.filter fun q => match q.2 with
    | .store bs    => (k.answer q.1.1 q.1.2 bs.length true).isNone
    | .load _      => false
    | .amo _ _ _ _ _ => false
  let bad := k.asked.find? fun q => q.write && q.fault.isSome
  let open_ := k.asked.any fun q => q.write && q.got.isNone
  match bad with
  | some q => .error (.fault (if q.fault == some true then cPROT else cXLATE) 0)
  | none   =>
    if !new.isEmpty then pure (s.askParts pane k new, false)
    else if open_ then pure (s, false)
    else
      let sp := ps.filterMap fun p => match p.1 with
        | .mem key   => some (key, p.2.2.length)
        | .peer _ _  => none
        | .aper _ _  => none
        | .ctl _     => none
      let away := if (s.detTask k.core).isSome then [] else sp.filter (crossesPane k.core)
      match s.logRoom k.core sp with
      | .error _ => .error (.fault cDET_CONFLICT 0)
      | .ok _    =>
        if !away.isEmpty && !s.clockReady (paneOf k.core) then .error .wait
        else
          let s1 := away.foldl (fun s p => s.stampWrite (paneOf k.core) (p.1 / 2 ^ 35)) s
          pure (ps.foldl (fun s p => match p.1 with
            | .mem key   => s.viewWrite k.core key p.2.2
            | .peer _ _  => s
            | .aper _ _  => s
            | .ctl _     => s) s1, true)

/-- The parts that chunk data still needs from peers, one at a time. -/
def askOf (xs : List (Word × Nat)) : List ((Nat × Nat) × PeerOp) :=
  xs.map fun x => ((x.1.toNat / 2 ^ 56 - 0x80, x.1.toNat % 2 ^ 56), .load x.2)

/-- An engine that could not go on: it waits, asks, or leaves the card failing (R123). -/
def State.engineStops (s : State) (pane : Fin 8) (k : Card) : EStop → State
  | .wait         => s
  | .page fn pg w => s.askPage k.core fn pg w
  | .ask xs       => s.askParts pane k (askOf xs)
  | .fault c b    => ({ s with pri := s.pri.filter fun r => !(4 ≤ r.state && r.state ≤ 6 && r.cores == [k.core]) } : State).setCard pane
      { k with phase := .failing c b }

/-- The next chunk of a card that has taken its table: read, transformed, written and reported (R118, R122). That a chunk of an encoder
counts the header, index and payload bytes that it writes is the model's choice. DESIGN CHOICE, log entry 85. -/
def State.commitChunk (s : State) (pane : Fin 8) (k : Card) : E State := do
  let d ← s.chunkData k k.chunk
  let ws ← s.chunkWrites k k.chunk d
  let (s1, ok) ← s.commitWrites pane k ws
  if !ok then pure s1
  else
    let crc := match d.crc with
      | none    => k.crc
      | some bs => BitVec.ofNat 32 (crc32c k.crc.toNat bs)
    let k1 := { s.placeAfter k d with chunk := k.chunk + 1, crc := crc, asked := [] }
    let m := if k.encodes then ws.foldl (fun n w => n + w.2.length) 0 else d.out.length
    pure ((((s1.setCard pane k1).writeBack k1 0x0C 4 k1.chunk).writeBack k1 0x70 4 crc.toNat).cardArrives k1 m)

/-- CHUNK_COMMIT (R118, R122): the next chunk of the n-th card of the window, or its table, if that is still to be taken. -/
def execChunkCommit (pane : Fin 8) (n : Nat) (s : State) : Host.Outcome State Fault Refusal :=
  .next <|
    match s.cardAt pane n with
    | none   => s
    | some k =>
      if k.phase != .running || k.chunks ≤ k.chunk then s
      else match (if k.tabled then s.commitChunk pane k else (s.prepare k).map fun k1 => s.setCard pane k1) with
        | .ok t    => t
        | .error e => s.engineStops pane k e

/-- CARD_FAIL (R123): STAT and CHUNK are written, the failure is recorded against the context, and the card leaves. -/
def execCardFail (pane : Fin 8) (n : Nat) (s : State) : Host.Outcome State Fault Refusal :=
  .next <|
    match s.cardAt pane n with
    | none   => s
    | some k => match k.phase with
      | .accepted     => s
      | .waiting      => s
      | .running      => s
      | .failing c b  =>
        let s1 := (s.writeBack k 0x0C 4 k.chunk).writeBack k 0x74 4 (2 ^ 31 + 2 ^ 30 + c % 32)
        let s2 := s1.dropCard pane k.id
        match k.task with
        | none    => s2
        | some id => match s2.task id with
          | none   => s2
          | some t => s2.setTask { t with fails := t.fails ++ [{ key := s.awKey k, cause := c, chunk := k.chunk, boff := b }] }

/-- CARD_COMPLETE (R118, R25, R328): a card whose chunks are all committed writes STAT and leaves; one of no output adds
0 to its word. -/
def execCardComplete (pane : Fin 8) (n : Nat) (s : State) : Host.Outcome State Fault Refusal :=
  .next <|
    match s.cardAt pane n with
    | none   => s
    | some k =>
      if k.chunk < k.chunks then s
      else if k.chunks != 0 && k.phase != .running && !s.cardReady pane k then s
      else
        let s1 := (s.writeBack k 0x74 4 (2 ^ 31)).dropCard pane k.id
        if k.chunks == 0 then s1.cardArrives k 0 else s1

end Machine
end Sys2Proof
end

