-- ==== Sys2Proof/Machine/Codebook.lean ====
section
/-!
DEFINITION. Codebook banks and their versions (R299 to R306), and the X-side's tile instructions (R314, R315).
-/

namespace Sys2Proof
namespace Machine

/-! ## Versions (R299, R300) -/

/-- Whether a version of a bank is pinned: by a codebook entry or register, by a macro-operation, or by an instruction of X in flight that
reads one: what X has popped behind a pending receive and what unwinding to it brings back, and what a stop found in flight (R300). -/
def Core.pinned (c : Core) (cb : Fin 8) (v : Nat) : Bool :=
  let ent (e : Entry) : Bool := isCx e.tag.val && versOf e.vers cb == v
  let reg (r : VReg) : Bool := isCx r.tag.val && versOf r.vers cb == v
  let popped (p : Pop) : Bool := match p with
    | .entry _ e => ent e
    | .token _   => false
  (c.lq.toList.any fun q => q.ents.any ent) || (c.sq.toList.any fun q => q.ents.any ent) ||
    c.vregs.toList.any reg || c.pops.any popped || (c.crecvs.any fun w => w.snap.vregs.toList.any reg) ||
    (c.flight.any fun f => f.old.any fun p => p.2.any reg) ||
    (c.mops.any fun m => isCx m.cfg.btag.val && m.cfg.bank == cb && m.ver.val == v)

/-- The non-current copy of a bank holds a pinned version. -/
def Core.pin2 (c : Core) (cb : Fin 8) : Bool :=
  let b := c.banks[cb.val]
  b.other.ver != b.cur.ver && c.pinned cb b.other.ver.val

/-- CBVER (R300). -/
def Core.cbver (c : Core) : Word :=
  let bitsOf (f : Fin 8 → Bool) : Nat := (List.finRange 8).foldl (fun n b => n + if f b then 2 ^ b.val else 0) 0
  BitVec.ofNat 64 (bitsOf (fun b => (c.banks[b.val]).busy) * 2 ^ 40 + bitsOf c.pin2 * 2 ^ 32 + c.cbVers.toNat)

/-- A new version of a bank (R299): the copy that holds neither the current nor a pinned version takes the current
copy's content changed; without one the A-side waits. -/
def Core.newVersion (c : Core) (cb : Fin 8) (busy : Bool) (f : BankCopy → BankCopy) : R Core := do
  orWait (!c.pin2 cb)
  let b := c.banks[cb.val]
  let n := { f b.cur with ver := b.cur.ver + 1 }
  pure { c with banks := c.banks.set cb.val { cur := n, other := b.cur, busy := busy } }

/-- cbld (R301): the version is made at issue; the instruction retires when the copy is loaded. -/
def execCbld (f : CbldF) (s : State) : Host.Outcome State Fault Refusal :=
  s.finish do
    s.onSide .A
    orWait s.me.cbld.isNone
    let ea ← s.eaOff f.a f.off
    let sel := ea.toNat / 2 ^ 56
    let owner := if sel == 2 then paneOf s.cur.core * 256 + ea.toNat / 2 ^ 21 % 256 else s.cur.core
    orTrap (canonical ea.toNat) (trapNonCan ea)
    orTrap (ea.toNat % 64 == 0) (trapA cALIGN ea)
    orTrap (sel == 1 || (sel == 2 && (s.gang s.cur.core).contains owner)) (trapA cPROT ea)
    let ds := (List.range 32).map fun i => ({ idx := i, addr := ea + BitVec.ofNat 64 (64 * i), size := 64 } : Piece)
    match s.pieces .read ds with
    | (_, some (_, e)) => .error e
    | (ps, none) => do
      let keys := s.spansAt ps ds
      s.quiet keys
      let st : CbldSt := { cb := f.cb, keys := keys, got := [], core := owner, off := ea.toNat % 2 ^ 21, len := lenOf f.off }
      orWait (s.cardsOver s.cur.core [st.span]).isEmpty
      s.steady
      let c ← s.me.newVersion f.cb true fun b => b
      pure (s.setMe { c with cbld := some st })

/-- The key of the next dword that a load of a bank reads. -/
def CbldSt.nextKey (st : CbldSt) : Nat :=
  let i := st.got.length / 8
  (st.keys.getD (i / 8) (0, 0)).1 + 8 * (i % 8)

/-- CBLD_COMPLETE (R57, R301): the load reads its next dword; with the last of the 2 KiB every entry becomes valid and the cbld that
waits retires. -/
def execCbldComplete (c : CoreId) (s : State) : Host.Outcome State Fault Refusal :=
  .next <|
    let co := s.core c.no
    match co.cbld with
    | none   => s
    | some st =>
      let bs := st.got ++ Memory.readN s.mem st.nextKey 8
      if bs.length < 2048 then s.setCore c.no { co with cbld := some { st with got := bs } }
      else
        let es := (pieces 8 bs).map fun x => BitVec.ofNat 64 (leNat x)
        let b := co.banks[st.cb.val]
        let b1 := { b with cur := { b.cur with ents := es, valid := es.map fun _ => true }, busy := false }
        s.setCore c.no { co with banks := co.banks.set st.cb.val b1, cbld := none, av := co.av.advance st.len }

/-- cbinv (R302). -/
def execCbinv (cb : Fin 8) (a : SrcR) (s : State) : Host.Outcome State Fault Refusal :=
  s.finish do
    s.onSide .A
    let v ← s.srcR a
    let n := v.toNat
    let first := bits n 7 0
    let count := bits n 16 8
    orTrap (n / 2 ^ 17 == 0 && first + count ≤ 256) (trapE cILLEGAL)
    if count = 0 then pure (s.retireV 4)
    else do
      s.steady
      let c ← s.me.newVersion cb false fun b => { b with
        valid := (List.range 256).map fun i => b.valid.getD i false && !(first ≤ i && i < first + count) }
      pure ((s.setMe c).retireV 4)

/-- The allowed modes of a bank (R303). -/
def modeLegal (n : Nat) : Bool :=
  let t := modeTag n
  n / 2 ^ 13 == 0 &&
    (match modeShape n with
    | 0 => 0x01 ≤ t && t ≤ 0x0E
    | 1 => t == tI8 || t == tN8 || t == tSh8 || t == tI16 || t == tN16 || t == tF16 || t == tBf16 || t == tI32 || t == tN32 || t == tF32
    | 2 => t == tI8 || t == tN8 || t == tSh8 || t == tI16 || t == tN16 || t == tF16 || t == tBf16
    | 3 => t == tI8 || t == tN8 || t == tSh8
    | _ => false)

/-- cbmode (R303). -/
def execCbmode (cb : Fin 8) (a : RegOrImm) (s : State) : Host.Outcome State Fault Refusal :=
  s.finish do
    s.onSide .A
    let v ← s.regOrImmZ a
    orTrap (modeLegal v.toNat) (trapE cILLEGAL)
    s.steady
    let c ← s.me.newVersion cb false fun b => { b with mode := v.toNat }
    pure ((s.setMe c).retireV (match a with
      | .reg _ => 4
      | .imm _ => 12))

/-- cbst (R305). -/
def execCbst (d : RegNo) (cb : Fin 8) (s : State) : Host.Outcome State Fault Refusal :=
  s.finish do
    s.onSide .A
    s.dst d
    let c := s.me
    let b := c.banks[cb.val]
    let v := b.cur.ver.val + b.other.ver.val * 2 ^ 4 + (if c.pin2 cb then 2 ^ 8 else 0) +
      (if c.pinned cb b.cur.ver.val then 2 ^ 9 else 0) + (if b.busy then 2 ^ 10 else 0)
    pure ((s.put d (BitVec.ofNat 64 v)).retireV 4)

/-! ## Results written member by member -/

/-- A destination written on each member from its own results (R150): a register, or an entry pushed (R263). -/
def State.putEach (s : State) (d : VDst) (tag : Nat) (srcs : List VIn)
    (xs : List (Nat × List (Option (Word × Bool)))) : R State :=
  match d with
  | .reg v => .ok (xs.foldl (fun t x =>
      let c := t.core x.1
      let r := (c.vregs[v.val]).write tag (x.2.take (c.capW (tagW tag))) x.2.length
      t.setCore x.1 { c with vregs := c.vregs.set v.val r }) s)
  | .sq q => do
    s.sqRoom q 1
    pure (xs.foldl (fun t x =>
      let made := s.madeBefore x.1
      let es := made ++ (x.2.map fun r => r.getD (BitVec.ofNat 64 (zeroBits tag), true)).drop made.length
      t.setCore x.1 ((t.core x.1).pushSq q tag .data x.2.length (es.map fun y => y.1) (es.map fun y => y.2)
        (pushVers (t.core x.1) (s.members.idxOf x.1) srcs))) s)

/-- cbx (R306). -/
def execCbx (f : V1P) (s : State) : Host.Outcome State Fault Refusal :=
  s.finish do
    s.onSide .X
    s.srcName f.a
    s.dstName f.d
    let n ← s.vlen f.a.queue
    let x ← s.vraw n f.a
    orTrap (isCx x.tag) (trapE cILLEGAL_TAG)
    let act := s.active f.p n
    let (mode, es, sets) ← s.expandAll act x
    let tag := modeTag mode
    let k := modeCount mode
    let sl := s.slices (tagW x.tag) n
    match sl.find? fun g => s.me.vlMaxW (tagW tag) < g.2.2 * k with
    | some _ => raise (trapE cVL_RANGE (n * k))
    | none   => do
      let res := (es.zip (x.valid.zip act)).map fun p =>
        (List.range k).map fun j => if p.2.2 then some (if p.2.1 then (BitVec.ofNat 64 (p.1.getD j 0), true)
          else (BitVec.ofNat 64 (zeroBits tag), false)) else none
      let s1 ← s.putEach f.d tag [x] (sl.map fun g => (g.1, ((res.drop g.2.1).take g.2.2).flatMap fun r => r))
      let seen := (x.valid.zip act).any fun p => p.2 && !p.1
      let c := if seen then s1.me.seen else s1.me
      pure (((s1.setMe (c.setMasks sets)).popLq f.a.queue).retireV 4)

/-! ## Tiles on the X-side (R314, R315) -/

/-- A row spec (R313): its first row and its count. -/
def rowSpec (v : Word) : R (Nat × Nat) := do
  let n := v.toNat
  let row0 := bits n 5 0
  let count := bits n 13 8 + 1
  orTrap (n / 2 ^ 14 == 0 && bits n 7 6 == 0) (trapE cILLEGAL)
  orTrap (row0 + count ≤ 64) (trapE cVL_RANGE (128 * count))
  pure (row0, count)

/-- A length above VLMAX for i32 raises VL_RANGE (R313, R314). -/
def State.rowsFit (s : State) (count : Nat) : R Unit := orTrap (128 * count ≤ s.me.vlMaxW 32) (trapE cVL_RANGE (128 * count))

/-- The elements of a tile, row-major; one that nothing was written to is zero (R138). -/
def Core.tile (c : Core) (t : Fin 8) : List (BitVec 32) :=
  let xs := c.tiles[t.val]
  xs ++ List.replicate (8192 - xs.length) 0

/-- A-side tile operations on a tile that come before the entries X has popped are complete (R315). -/
def State.tileSettled (s : State) (t : Fin 8) : R Unit :=
  orWait (s.members.all fun g => (s.core g).mops.all fun m =>
    !(m.id < (s.core g).popMark && m.t ≤ t.val && t.val < m.t + m.cfg.rows))

/-- tget (R314, R315): every member copies rows of its own tile. -/
def execTget (d : VDst) (t : Fin 8) (spec : VIdx) (s : State) : Host.Outcome State Fault Refusal :=
  s.finish do
    s.onSide .X
    s.dstName d
    let v ← s.vidxZ spec
    let (row0, count) ← rowSpec v
    s.rowsFit count
    s.tileSettled t
    let one (g : Nat) : Nat × List (Option (Word × Bool)) :=
      (g, ((((s.core g).tile t).drop (128 * row0)).take (128 * count)).map fun x => some (x.zeroExtend 64, true))
    let s1 ← s.putEach d tI32 [] (s.members.map one)
    pure (s1.retireV spec.len)

/-- Rows of a tile replaced. -/
def Core.putRows (c : Core) (t : Fin 8) (row0 : Nat) (xs : List (BitVec 32)) : Core :=
  let old := c.tile t
  { c with tiles := c.tiles.set t.val (old.take (128 * row0) ++ xs ++ old.drop (128 * row0 + xs.length)) }

/-- tfill (R314, R315): invalid elements as 0; elements beyond a popped entry have no stated value (DESIGN CHOICE, log entry 7). -/
def execTfill (t : Fin 8) (spec : VIdx) (b : VSrc) (s : State) : Host.Outcome State Fault Refusal :=
  s.finish do
    s.onSide .X
    s.srcName b
    orWait s.me.crecvs.isEmpty
    let v ← s.vidxZ spec
    let (row0, count) ← rowSpec v
    let _ ← s.vlen b.queue
    let n := 128 * count
    let tag ← match b with
      | .reg r => Except.ok (s.me.vregs[r.val]).tag.val
      | .lq q  => do
        let es ← s.heads q
        pure (match es with
          | []     => 0
          | e :: _ => e.tag.val)
    orTrap (tag == tI32) (trapE cILLEGAL_TAG)
    s.rowsFit count
    s.tileSettled t
    let at_ (g e : Nat) : Word × Bool := match b with
      | .reg r => ((s.core g).vregs[r.val]).at_ ((s.core g).capW 32) s.undefCtr e
      | .lq q  => match (s.core g).lq[q.val].ents with
        | []     => (Config.undef (s.undefCtr + e), true)
        | x :: _ => if e < x.n then (x.elems.getD e 0, x.valid.getD e true) else (Config.undef (s.undefCtr + e), true)
    let one (st : State) (g : Nat) : State :=
      let xs := (List.range n).map fun e => if (at_ g e).2 then (at_ g e).1.setWidth 32 else 0
      let c := (st.core g).putRows t row0 xs
      st.setCore g { c with mlive := c.mlive ||| BitVec.ofNat 8 (2 ^ t.val) }
    let s1 := s.members.foldl one s
    pure ((({ s1 with undefCtr := s1.undefCtr + 2 ^ 23 } : State).popLq b.queue).retireV spec.len)

end Machine
end Sys2Proof
end

