-- ==== Sys2Proof/Machine/Matrix.lean ====
section
/-!
DEFINITION. The matrix commands of the A-side, the macro-operation sequencer, and sampled checks (R51 to R53, R307 to
R317, R394, R395).
-/

namespace Sys2Proof
namespace Machine

/-- The configuration that a word describes (R307): none for ILLEGAL, then whether BTAG is legal. -/
def mcfgOf (n : Nat) : Option (MCfg × Bool) :=
  let p := bits n 4 0
  let t := bits n 9 5
  let r := bits n 19 17 + 1
  if p = 0 || 16 < p || 96 < p * r || n / 2 ^ 20 != 0 then none
  else some ({ p := p, btag := Fin.ofNat 32 t, bank := Fin.ofNat 8 (bits n 12 10), off := 16 * bits n 16 13, rows := r },
             t == tI4 || t == tI8 || t == tSh8 || t == tCx4 || t == tCx8)

/-- An A-side tile operation first waits until every store-queue entry that an earlier instruction claimed has been
pushed (R315); X issues in order, so its earlier tfills are then complete. -/
def State.claimsPushed (s : State) : R Unit :=
  orWait (s.me.pend.all fun x => match x.kind with
    | .stq _ _ _ _      => false
    | .load _ _ _       => true
    | .fill _ _ _       => true
    | .writes _         => true
    | .stab _ _ _ _ _ _ => true
    | .amo _ _ _ _ _ _ _ _ => true
    | .arm _            => true
    | .arrive _         => true
    | .await _ _ _      => true
    | .value _ _        => true)

/-- Tiles set to zero, and their MLIVE bits cleared. -/
def Core.zeroTiles (c : Core) (mask : Nat) : Core :=
  { c with tiles := c.tiles.mapIdx fun i x => if bit mask i then [] else x
           mlive := c.mlive &&& ~~~(BitVec.ofNat 8 mask) }

/-- The common part of mcfg and mcfg.d (R307). -/
def State.configure (s : State) (a : RegOrImm) (d : Bool) : R State := do
  s.onSide .A
  let v ← s.regOrImmZ a
  match mcfgOf v.toNat with
  | none           => raise (trapE cILLEGAL)
  | some (cfg, ok) => do
    orTrap ok (trapE cILLEGAL_TAG)
    orTrap (d || s.me.mlive == 0) (trapE cTILE_BUSY s.me.mlive.toNat)
    orWait s.me.mops.isEmpty
    if d && s.me.mlive != 0 then s.claimsPushed
    s.steady
    let c := if d then { s.me.zeroTiles s.me.mlive.toNat with mlive := 0 } else s.me
    pure ((s.setMe { c with mcfg := some cfg }).retire a.len)

/-- mcfg (R307). -/
def execMcfg (a : RegOrImm) (s : State) : Host.Outcome State Fault Refusal := s.finish (s.configure a false)

/-- mcfg.d (R307). -/
def execMcfgD (a : RegOrImm) (s : State) : Host.Outcome State Fault Refusal := s.finish (s.configure a true)

/-! ## mmp (R308, R309, R311) -/

/-- The bank modes that codebook weights may have (R308). -/
def weightMode (mode : Nat) : Bool :=
  let t := modeTag mode
  if modeShape mode == 0 then t == tI4 || t == tI8 || t == tSh8
  else t == tI8 || t == tSh8

/-- The lowest invalid entry that a binding reaches (R308). -/
def BankCopy.firstBad (b : BankCopy) (tag off : Nat) : Option Nat :=
  let js := if tag = tCx4 then (List.range 16).map fun i => off + i else List.range 256
  js.find? fun j => !b.valid.getD j false

/-- The first macro-operation of a core has its louvre, from a grant that is held, waits for one that is pending, or asks for one
(R172, R173). -/
def State.askMop (s : State) (core : Nat) : State :=
  let c := s.core core
  match c.mops with
  | []     => s
  | m :: _ =>
    if m.granted || (s.pane (paneOf core)).reqs.any fun r => r.who == .mop core then s
    else if afterWkt c.wktHeld m.id then s.setCore core { c.grantMop m with wktHeld := none }
    else if afterWkt c.wktPend m.id && (s.cardAhead core).isNone then s
    else s.askWicket core 1 (.mop core)

/-- A span of own scratchpad within the reservation (R308); in the S view, within the scratchpad (R63). -/
def State.inResv (s : State) (a : Word) (len : Nat) : Bool :=
  a.toNat % 2 ^ 21 + len ≤ (if s.mySide.super then 2 ^ 21 else s.me.spResv * 2 ^ 16)

/-- mmp (R308): the checks, and then the macro-operation; with MCOMPAT = 1 the instruction stays until it is done. -/
def execMmp (f : MmpF) (s : State) : Host.Outcome State Fault Refusal :=
  s.finish do
    s.onSide .A
    let a ← s.srcR f.a
    let b ← s.srcR f.b
    let kw ← s.vidxZ f.k
    let k := kw.toNat
    let len := f.k.len
    orWait (s.me.mops.all fun m => m.compat.isNone)
    match s.me.mcfg with
    | none     => raise (trapE cILLEGAL)
    | some cfg => do
      orTrap (f.t.val + cfg.rows ≤ 8) (trapE cILLEGAL)
      if k = 0 then pure (s.retire len)
      else do
        orTrap (k % 16 == 0 && k ≤ 8192) (trapE cILLEGAL k)
        let bank := s.me.banks[cfg.bank.val]
        let wx := weightShape cfg.btag.val bank.cur.mode
        orTrap (a.toNat / 2 ^ 56 == 1 && canonical a.toNat) (if canonical a.toNat then trapA cPROT a else trapNonCan a)
        orTrap (b.toNat / 2 ^ 56 == 1 && canonical b.toNat) (if canonical b.toNat then trapA cPROT b else trapNonCan b)
        orTrap (a.toNat % 128 == 0) (trapA cALIGN a)
        orTrap (b.toNat % 128 == 0) (trapA cALIGN b)
        orTrap (s.inResv a (planeBytes cfg.rows k cfg.p)) (trapA cPROT a)
        orTrap (s.inResv b (weightBytes k wx)) (trapA cPROT b)
        let cx := isCx cfg.btag.val
        orTrap (!cx || weightMode bank.cur.mode) (trapE cILLEGAL_TAG)
        match (if cx && !modeZero bank.cur.mode then bank.cur.firstBad cfg.btag.val cfg.off else none) with
        | some j => raise (trapE cCBIDX (cfg.bank.val * 256 + j))
        | none   => do
          orWait (s.me.mops.length < 2)
          s.claimsPushed
          s.steady
          let m0 : MacroOp :=
            { id := s.me.nextId, t := f.t.val, a := a.toNat % 2 ^ 21, b := b.toNat % 2 ^ 21, k := k, cfg := cfg,
              ver := bank.cur.ver, wx := wx, waits := [], granted := false, run := false, before := [], chk := s.me.chk,
              compat := if s.me.mcompat then some len else none }
          let m := { m0 with waits := s.cardsOver s.cur.core (m0.spans s.cur.core) }
          let live := (List.range cfg.rows).foldl (fun n i => n ||| BitVec.ofNat 8 (2 ^ (f.t.val + i))) s.me.mlive
          let s1 := (s.setMe { s.me with nextId := s.me.nextId + 1, mlive := live, mops := s.me.mops ++ [m] }).askMop s.cur.core
          pure (if s.me.mcompat then s1.setMySide { s1.mySide with vstart := BitVec.ofNat 32 s.resumeAt } else s1.retire len)

/-! ## The macro-operation sequencer (R309 to R311) -/

/-- The tiles a macro-operation writes, as they stand. -/
def Core.mopTiles (c : Core) (m : MacroOp) : List (List (BitVec 32)) :=
  (List.range m.cfg.rows).map fun i => c.tile (Fin.ofNat 8 (m.t + i))

/-- MACRO_OP_START (R309): the first macro-operation starts once it has its louvre and the cards it waits for are gone
(R121). -/
def execMacroOpStart (c : CoreId) (s : State) : Host.Outcome State Fault Refusal :=
  .next <|
    let co := s.core c.no
    match co.mops with
    | []      => s
    | m :: ms =>
      if m.run || !m.granted || s.mayRetract c.no m.id || (s.pane c.pane.val).cards.any fun k => m.waits.contains k.id then s
      else
        let before := if m.before.isEmpty then co.mopTiles m else m.before
        s.setCore c.no { co with mops := { m with run := true, before := before } :: ms }

/-- A byte of a core's scratchpad by its offset. -/
def State.spadByte (s : State) (core off : Nat) : Nat := (Memory.read s.mem (spadKey core ((s.core core).spBase + off))).toNat

/-- An activation from bit planes (R51): row tile m, K-step k, row r, column i. -/
def State.planeValue (s : State) (core base p ksteps m k r i : Nat) : Int :=
  let half (j : Nat) : Nat :=
    let o := base + ((m * ksteps + k) * p + j) * 128 + 2 * r
    s.spadByte core o + 256 * s.spadByte core (o + 1)
  let b (j : Nat) : Int := if bit (half j) i then ((2 ^ j : Nat) : Int) else 0
  (List.range (p - 1)).foldl (fun v j => v + b j) (0 - b (p - 1))

/-- An integer value of a weight tag. -/
def weightInt (t x : Nat) : Int := if t == tSh8 then sh8Value x else signedOf (tagW t) x

/-- The weights of a K-step, row-major: the value of row kappa and column c, and whether a zero stood in for an invalid
entry (R52, R309). -/
def State.weights (s : State) (core : Nat) (m : MacroOp) (k : Nat) : List (Int × Bool) :=
  let t := m.cfg.btag.val
  let w := m.wx.1
  let x := m.wx.2
  let size := 16 / w * 128 * x / 8
  let bs := (List.range size).map fun i => BitVec.ofNat 8 (s.spadByte core (m.b + k * size + i))
  let es := unpackElems x bs
  let bank := ((s.core core).banks[m.cfg.bank.val]).copyAt m.ver.val
  let one (kappa c : Nat) : Int × Bool :=
    let i := es.getD (kappa / w * 128 + c) 0
    if isCx t then
      let j := (if t == tCx4 then m.cfg.off + i else i) % 256
      let f := bank.expand j
      match f.bad with
      | some _ => (0, true)
      | none   => (weightInt (modeTag bank.mode) (f.elems.getD (kappa % w) 0), false)
    else (weightInt t i, false)
  (List.range 16).flatMap fun kappa => (List.range 128).map (one kappa)

/-- A sum clamped to i32, and whether the clamp changed it (R53). -/
def clamp32 (y : Int) : Int × Bool :=
  let z := max (-(2 ^ 31 : Int)) (min y (2 ^ 31 - 1))
  (z, z != y)

/-- K-step k added to rows lo to hi - 1 of the tiles of a macro-operation, counted over its row tiles (R309, R311). -/
def State.addKStep (s : State) (core : Nat) (m : MacroOp) (k lo hi : Nat) : State :=
  let ws := (s.weights core m k).toArray
  let ksteps := m.k / 16
  let c := s.core core
  let row (g : Nat) : List Int :=
    let xs := (List.range 16).map fun i => s.planeValue core m.a m.cfg.p ksteps (g / 64) k (g % 64) i
    (List.range 128).map fun col =>
      (xs.zipIdx).foldl (fun acc x => acc + x.1 * (ws.getD (x.2 * 128 + col) (0, false)).1) 0
  let upd (r : Vector (List (BitVec 32)) 8 × Bool) (i : Nat) : Vector (List (BitVec 32)) 8 × Bool :=
    let t := Fin.ofNat 8 (m.t + i)
    let xs := c.tile t
    let rows := (List.range 64).map fun r =>
      let old := (xs.drop (128 * r)).take 128
      let g := 64 * i + r
      if lo ≤ g && g < hi then (old.zip (row g)).map fun p => (fun z => (BitVec.ofInt 32 z.1, z.2)) (clamp32 (p.1.toInt + p.2))
      else old.map fun x => (x, false)
    (r.1.set t.val (rows.flatMap fun x => x.map fun y => y.1), r.2 || rows.any fun x => x.any fun y => y.2)
  let (tiles, sat) := (List.range m.cfg.rows).foldl upd (c.tiles, false)
  let cbz := ws.any fun w => w.2
  s.setCore core { c with tiles := tiles, msat := c.msat ||| ((if sat then 1 else 0) + (if cbz then 2 else 0)) }

/-- MACRO_OP_K_STEP (R309): the next K-step is added whole; with MCOMPAT, every K-step of the next eight rows (R311). -/
def execMacroOpKStep (c : CoreId) (s : State) : Host.Outcome State Fault Refusal :=
  .next <|
    let co := s.core c.no
    match co.mops with
    | []     => s
    | m :: _ =>
      if !m.run then s
      else match m.compat with
        | none   =>
          if co.mstep < m.k / 16 then
            let s1 := s.addKStep c.no m co.mstep 0 (64 * m.cfg.rows)
            s1.setCore c.no { s1.core c.no with mstep := co.mstep + 1 }
          else s
        | some _ =>
          let j := co.av.vstart.toNat / 8
          if j < 8 * m.cfg.rows then
            let s1 := (List.range (m.k / 16)).foldl (fun s k => s.addKStep c.no m k (8 * j) (8 * j + 8)) s
            s1.setCore c.no { s1.core c.no with av := { (s1.core c.no).av with vstart := BitVec.ofNat 32 (8 * (j + 1)) } }
          else s

/-- Samples of a core's context that are not checked yet (R317). -/
def State.pendingSamples (s : State) (core : Nat) : Nat :=
  ((s.pane (paneOf core)).samples.filter fun x => x.core == core && x.task == (s.core core).task).length

/-- One completed output tile counted (R317, R395): every 2^N-th is sampled, unless 255 samples are pending. -/
def State.countTile (s : State) (core : Nat) (m : MacroOp) (d : ChkDesc) (i : Nat) : State :=
  let c := s.core core
  let n := c.sampleCtr + 1
  let s1 := s.setCore core { c with sampleCtr := n }
  if n % 2 ^ d.n != 0 then s1
  else if 255 ≤ s.pendingSamples core then s1.setCore core { s1.core core with chkcfg := c.chkcfg ||| BitVec.ofNat 64 (2 ^ 62) }
  else
    let after_ := c.tile (Fin.ofNat 8 (m.t + i))
    let delta := (after_.zip (m.before.getD i [])).map fun p => p.1.toInt - p.2.toInt
    let x : Sample := { core := core, task := c.task, gpos := c.gpos, tile := m.t + i, m := i, k := m.k, delta := delta, chk := d,
                        asid := c.asid.toNat, super := c.av.super, copies := none }
    let p := paneOf core
    s1.setPane p { s1.pane p with samples := (s1.pane p).samples ++ [x] }

/-- MACRO_OP_COMPLETE (R309, R311, R317, R395): the last K-step is done; MSTEP, louvre and pin are released and the output
tiles are counted, where the descriptor that it was issued under is still installed; the instruction that waited with MCOMPAT retires. -/
def execMacroOpComplete (c : CoreId) (s : State) : Host.Outcome State Fault Refusal :=
  .next <|
    let co := s.core c.no
    match co.mops with
    | []      => s
    | m :: ms =>
      let done := m.run && (match m.compat with
        | none   => m.k / 16 ≤ co.mstep
        | some _ => 8 * m.cfg.rows ≤ co.av.vstart.toNat / 8)
      if !done then s
      else
        let c1 := { co with mops := ms, mstep := 0 }
        let c2 := match m.compat with
          | none     => c1
          | some len => { c1 with av := ({ c1.av with vstart := 0 } : SideSt).advance len }
        let s1 := s.setCore c.no c2
        let s2 := match m.chk with
          | none   => s1
          | some d =>
            if d.n = 0 || co.chk != some d then s1 else (List.range m.cfg.rows).foldl (fun s i => s.countTile c.no m d i) s1
        s2.askMop c.no

/-! ## Tiles on the A-side (R313) -/

/-- A tile mask (R313). -/
def tileMask (v : Word) : R Nat := do
  orTrap (v.toNat < 256) (trapE cILLEGAL)
  pure v.toNat

def Core.mopsOn (c : Core) (mask : Nat) : Bool :=
  c.mops.any fun m => (List.range m.cfg.rows).any fun i => bit mask (m.t + i)

/-- mzero (R313, R394). -/
def execMzero (a : RegOrImm) (s : State) : Host.Outcome State Fault Refusal :=
  s.finish do
    s.onSide .A
    let v ← s.regOrImmZ a
    let mask ← tileMask v
    orWait (!s.me.mopsOn mask)
    s.claimsPushed
    s.steady
    pure ((s.setMe (s.me.zeroTiles mask)).retire a.len)

/-- mlive (R313, R394). -/
def execMlive (a : RegOrImm) (s : State) : Host.Outcome State Fault Refusal :=
  s.finish do
    s.onSide .A
    let v ← s.regOrImmZ a
    let mask ← tileMask v
    orWait s.me.mops.isEmpty
    s.claimsPushed
    s.steady
    pure ((s.setMe { s.me with mlive := BitVec.ofNat 8 mask }).retire a.len)

/-- mdrain (R313, R315): an i32 entry of rows of a tile. -/
def execMdrain (f : MdrainF) (s : State) : Host.Outcome State Fault Refusal :=
  s.finish do
    s.onSide .A
    let v ← s.regOrImmZ f.spec
    let (row0, count) ← rowSpec v
    s.rowsFit count
    orWait (!s.me.mopsOn (2 ^ f.t.val) && s.me.lqRoom f.q 1)
    s.claimsPushed
    s.steady
    let xs := ((s.me.tile f.t).drop (128 * row0)).take (128 * count)
    let id := s.me.nextId
    let s1 := s.claimFill f.q (128 * count) 0x04 .data
    let c := s1.me
    let fill (e : Entry) : Entry :=
      if e.id == id then { e with elems := xs.map fun x => x.zeroExtend 64, valid := xs.map fun _ => true, ready := true } else e
    let s2 := s1.setMe { c with lq := c.lq.set f.q.val { c.lq[f.q.val] with ents := c.lq[f.q.val].ents.map fill } }
    pure (s2.retire f.spec.len)

/-! ## Sampled checks (R316, R317) -/

/-- mchk (R316, R395). -/
def execMchk (a : SrcR) (off : Option (BitVec 32)) (s : State) : Host.Outcome State Fault Refusal :=
  s.finish do
    s.onSide .A
    let ea ← s.eaOff a off
    orTrap (canonical ea.toNat) (trapNonCan ea)
    orTrap (ea.toNat % 32 == 0) (trapA cALIGN ea)
    orTrap (ea.toNat / 2 ^ 56 == 1) (trapA cPROT ea)
    let p ← s.place (s.how .read true 32) ea
    s.quiet [(s.keyOf p, 32)]
    s.steady
    let bs := Memory.readN s.mem (s.keyOf p) 32
    let n := cardFld bs 0x10 1
    let e := cardFld bs 0x11 1
    let fl := cardFld bs 0x12 1
    orTrap (n ≤ 15 && 1 ≤ e && e ≤ 24 && fl < 2 && cardFld bs 0x13 13 == 0) (trapE cILLEGAL)
    let d : ChkDesc := { no := s.me.nextId, acopy := BitVec.ofNat 64 (cardFld bs 0 8), bcopy := BitVec.ofNat 64 (cardFld bs 8 8), n := n, e := e, qen := fl == 1 }
    let w := bits s.me.chkcfg.toNat 62 62 * 2 ^ 62 + fl * 2 ^ 63 + e * 2 ^ 8 + n
    pure ((s.setMe { s.me with chk := some d, sampleCtr := 0, chkcfg := BitVec.ofNat 64 w }).retire (lenOf off))

/-- A bf16 copy read by the check unit; none when it cannot be read (R316). -/
def State.copyRead (s : State) (x : Sample) (a : Word) (n : Nat) : Option (List Nat) :=
  let sel := a.toNat / 2 ^ 56
  let h : How := { core := x.core, super := x.super, asid := x.asid, acc := .read, scalar := true, size := 2 }
  if 3 ≤ sel then none
  else
    (List.range n).mapM fun i => match s.place h (a + BitVec.ofNat 64 (2 * i)) with
      | .error _ => none
      | .ok p    => match s.readPlace p 2 with
        | .error _ => none
        | .ok bs   => some (leNat bs)

/-- The two copies of a sample: the rows of its tile, and all of BCOPY (R317). -/
def State.sampleCopies (s : State) (x : Sample) : Option (List Nat) × Option (List Nat) :=
  (s.copyRead x (x.chk.acopy + BitVec.ofNat 64 (64 * x.m * x.k * 2)) (64 * x.k), s.copyRead x x.chk.bcopy (128 * x.k))

/-- A sample whose context stops: what its copies hold in scratchpads, which the context leaves, goes with it; the program keeps them as
they are until it is checked (R317). -/
def State.keepCopies (s : State) (x : Sample) : Sample :=
  if x.chk.acopy.toNat / 2 ^ 56 == 0 && x.chk.bcopy.toNat / 2 ^ 56 == 0 then x
  else { x with copies := some (x.copies.getD (s.sampleCopies x)) }

/-- Ref of one element (R317): exact products of bf16 added in f32, nearest-even, in ascending K order. -/
def refElem (xs ys : List Nat) : Nat :=
  (xs.zip ys).foldl (fun acc p =>
    (fRound tF32 0 false (Num.add 0 (fDecode tF32 acc) (Num.mul (fDecode tBf16 p.1) (fDecode tBf16 p.2)).1).1).bits) 0

def Num.abs : Num → Num
  | .fin _ m e => .fin false m e
  | .inf _     => .inf false
  | .nan       => .nan

/-- Whether a sample fails (R317): an element is off by more than 2^-E of the largest |Ref|, at least 1. -/
def State.sampleFails (s : State) (x : Sample) : Bool :=
  let c := x.copies.getD (s.sampleCopies x)
  match c.1, c.2 with
  | some as_, some bs =>
    let aa := as_.toArray
    let ba := bs.toArray
    let refs := (List.range 8192).map fun e =>
      refElem ((List.range x.k).map fun k => aa.getD (e / 128 * x.k + k) 0) ((List.range x.k).map fun k => ba.getD (k * 128 + e % 128) 0)
    let nums := refs.map (fDecode tF32)
    let top := nums.foldl (fun m r => if Num.cmp m r.abs < 0 then r.abs else m) (.fin false 1 0)
    let tol := (Num.mul top (.fin false 1 (-(x.chk.e : Int)))).1
    (nums.zip x.delta).any fun p => 0 < Num.cmp (Num.sub 0 (Num.ofInt p.2) p.1).1.abs tol
  | some _, none => true
  | none, _      => true

/-- What a checked sample changes in its core (R317): DONE, and on failure FAIL and a pending QUALITY. -/
def Core.checked (c : Core) (fails : Bool) (tile : Nat) : Core :=
  let w := c.chkfail.toNat
  let done := (bits w 63 32 + 1) % 2 ^ 32
  let fail := if fails then min (bits w 31 0 + 1) (2 ^ 32 - 1) else bits w 31 0
  let c1 := { c with chkfail := BitVec.ofNat 64 (done * 2 ^ 32 + fail) }
  if fails && bit c.chkcfg.toNat 63 then { c1 with av := { c1.av with asyncs := c1.av.asyncs ++ [.quality tile] } } else c1

/-- SAMPLE_CHECK_RESULT (R317): the oldest sample of a pane; it goes to its context, wherever that is, and a task
that has ended gets the event only. -/
def execSampleCheckResult (pane : Fin 8) (s : State) : Host.Outcome State Fault Refusal :=
  .next <|
    let p := s.pane pane.val
    match p.samples with
    | []      => s
    | x :: xs =>
      let fails := s.sampleFails x
      let s1 := s.setPane pane.val { p with samples := xs }
      let taskId := (match x.task with
        | none   => 0
        | some k => match s.tasks.find? fun t => t.id == k with
          | none   => 0
          | some t => t.cont.taskid.toNat)
      let s2 := match x.task with
        | none   => s1.setCore x.core ((s1.core x.core).checked fails x.tile)
        | some k => match s1.task k with
          | some t => (match t.cores[x.gpos]? with
            | none   => s1
            | some c => s1.setCore c ((s1.core c).checked fails x.tile))
          | none   => s1
      if fails then s2.logEvent 6 (pane.val * 2 ^ 13 + 2 ^ 12 + 4) 0xFF x.tile 0 taskId cQUALITY else s2

end Machine
end Sys2Proof
end

