-- ==== Sys2Proof/Machine/Work.lean ====
section
/-!
DEFINITION. Functions and their queues (R164), kernel images (R163), the start and the end of a task (R138, R155,
R332), launches in progress and their status records (R161, R162), and the merge of deterministic logs (R129 to R133).
-/

namespace Sys2Proof
namespace Machine

/-! ## Functions and queues (R156, R164) -/

def State.fn (s : State) (n : Nat) : Fn :=
  match nget s.fns n with
  | some f => f
  | none   => Fn.reset

def State.setFn (s : State) (n : Nat) (f : Fn) : State := { s with fns := nset s.fns n f }

/-- The ASID of a function's contexts (R13): a VF's own, one of 128 to 255 for the PF (DESIGN CHOICE, log entry 36). -/
def asidOfFn (fn : Nat) : Nat := if fn < 128 then fn else 128 + Config.pfAsid.val

/-- The pseudo core under whose number a function's launch path asks for host pages (DESIGN CHOICE, log entry 37). -/
def fnCore (fn : Nat) : Nat := 2 ^ 14 + fn

def Fn.queue (f : Fn) (p : Nat) : List QItem := f.queues.getD p []

def Fn.setQueue (f : Fn) (p : Nat) (q : List QItem) : Fn :=
  { f with queues := (List.range 8).map fun i => if i = p then q else f.queue i }

def State.cqueue (s : State) (k : Nat) : List QItem := (nget s.cqueues k).getD []

/-- The queue of a contract, or of a priority of a function. -/
def State.queueOf (s : State) (fn prio contract : Nat) : List QItem :=
  if contract < 64 then s.cqueue contract else (s.fn fn).queue prio

def State.setQueueOf (s : State) (fn prio contract : Nat) (q : List QItem) : State :=
  if contract < 64 then { s with cqueues := nset s.cqueues contract q } else s.setFn fn ((s.fn fn).setQueue prio q)

/-- A record at the tail of its queue. -/
def State.pushTail (s : State) (fn : Nat) (r : Record) (x : QItem) : State :=
  s.setQueueOf fn r.prio r.contract (s.queueOf fn r.prio r.contract ++ [x])

/-- A record at the head of its queue, behind the saved tasks that wait there (R156, R165). -/
def State.pushHead (s : State) (fn : Nat) (r : Record) (x : QItem) : State :=
  let q := s.queueOf fn r.prio r.contract
  let saved (y : QItem) : Bool := match y with
    | .saved _        => true
    | .record _ _ _ _ => false
    | .cursor _       => false
  s.setQueueOf fn r.prio r.contract (q.takeWhile saved ++ x :: q.dropWhile saved)

def QItem.isRecord : QItem → Bool
  | .record _ _ _ _ => true
  | .cursor _       => false
  | .saved _        => false

def State.launchOf (s : State) (l : Option Nat) : Option LaunchSt :=
  match l with
  | none   => none
  | some k => s.launches.find? fun x => x.id == k

def State.setLaunch (s : State) (l : LaunchSt) : State :=
  { s with launches := s.launches.map fun x => if x.id == l.id then l else x }

/-- A change to the launch of a task or record, if it has one. -/
def State.onLaunch (s : State) (l : Option Nat) (f : LaunchSt → LaunchSt) : State :=
  match s.launchOf l with
  | none   => s
  | some x => s.setLaunch (f x)

/-- The function that an item runs for: its launch's, else the one given. -/
def State.fnOf (s : State) (l : Option Nat) (fn : Nat) : Nat :=
  match s.launchOf l with
  | none   => fn
  | some x => x.fn

/-- The records that a function has queued (R331). -/
def State.queuedRecords (s : State) (fn : Nat) : Nat :=
  let mine (k : Nat) (x : QItem) : Bool := match x with
    | .record _ l _ _ => s.fnOf l (s.cVf k) == fn
    | .cursor _       => false
    | .saved _        => false
  ((s.fn fn).queues.foldl (fun n q => n + (q.filter QItem.isRecord).length) 0) +
    s.cqueues.foldl (fun n q => n + (q.2.filter (mine q.1)).length) 0

/-- The store of a function's queued records (R331). -/
def recordStore : Nat := 2 ^ 20

/-! ## Failures of a launch (R162) -/

def State.launchFails (s : State) (l : Option Nat) (id : BitVec 32) (cause early : Nat) (addr : Word) : State :=
  s.onLaunch l fun x => { x with fails := x.fails ++ [{ id := id.toNat, cause := cause, early := early, addr := addr }] }

/-- A record or task of a launch has ended. -/
def State.launchDrop (s : State) (l : Option Nat) : State := s.onLaunch l fun x => { x with out := x.out - 1 }

/-! ## Kernel images (R163) -/

/-- n device-virtual bytes read in the U view of an address space by the scheduler; a failure gives cause and address. -/
def State.readVirt (s : State) (core asid : Nat) : Nat → Word → Except (Nat × Word) (List Byte)
  | 0, _     => .ok []
  | n + 1, a =>
    if a.toNat / 2 ^ 56 != 0 then .error (if canonical a.toNat then cPROT else cXLATE, a)
    else
      let h : How := { core := core, super := false, asid := asid, acc := .read, scalar := false, size := 1 }
      match s.place h a >>= fun p => s.readPlace p 1 with
      | .error (.trap k)     => .error (k.code, a)
      | .error .wait         => .error (cXLATE, a)
      | .error (.page _ _ _) => .error (cXLATE, a)
      | .ok bs => match s.readVirt core asid n (a + 1) with
        | .error e => .error e
        | .ok rest => .ok (bs ++ rest)

/-- A kernel image header. -/
structure ImageHdr where
  long   : Bool
  vnreg  : Nat
  aentry : Nat
  xentry : Nat
  resv   : Nat
  pre    : Nat
  preptr : Word
  deriving DecidableEq, Repr

/-- A header from its 64 bytes, if it breaks no rule. -/
def imageHdr (bs : List Byte) : Option ImageHdr :=
  let fld (o n : Nat) : Nat := leNat ((bs.drop o).take n)
  let flags := fld 4 2
  let resv := fld 0x10 1
  let pre := fld 0x11 1
  if fld 0 4 == 0x5A170E8B && flags < 8 && fld 6 2 == 0 && fld 8 4 % 4 == 0 && fld 0xC 4 % 4 == 0 && 1 ≤ resv && resv ≤ 32 &&
      pre ≤ 16 && pre ≤ resv && fld 0x12 2 == 0 && fld 0x20 32 == 0 then
    some { long := bit flags 0, vnreg := 4 * 2 ^ bits flags 2 1, aentry := fld 8 4, xentry := fld 0xC 4, resv := resv,
           pre := pre, preptr := BitVec.ofNat 64 (fld 0x18 8) }
  else none

/-- The header of an image as a core that takes the record reads it. -/
def State.header (s : State) (core asid : Nat) (image : Word) : Except (Nat × Word) ImageHdr :=
  match s.readVirt core asid 64 image with
  | .error e => .error e
  | .ok bs   => match imageHdr bs with
    | none   => .error (cILLEGAL, 0)
    | some h => .ok h

/-! ## The start of a task (R138, R195) -/

/-- A core that runs nothing: what stays is what belongs to the hardware. -/
def Core.idle (c : Core) : Core :=
  { Core.reset with laneok := c.laneok, lanes := c.lanes, parity := c.parity, icache := c.icache }

/-- The state of task start on one core. -/
def Core.begin (c : Core) (t : Task) (h : ImageHdr) (asid vlcap lead gpos base : Nat) (tvec : Word) : Core :=
  { c.idle with
    lanes := c.laneok
    a := Core.reset.a.set 1 t.cont.frame
    av := { SideSt.reset with pc := t.cont.image + BitVec.ofNat 64 h.aentry }
    xv := { SideSt.reset with pc := t.cont.image + BitVec.ofNat 64 h.xentry }
    vnreg := h.vnreg, vlcap := vlcap, vlmax := vlmaxOf h.vnreg vlcap c.laneok.toNat
    tvec := tvec, asid := BitVec.ofNat 8 asid, tid := t.cont.taskid, gid := BitVec.ofNat 16 (srcOf lead), gpos := gpos,
    gsize := t.cont.gsize, task := some t.id, spBase := base, spResv := h.resv }

/-! ## The physical scratchpad (R63 to R65; DESIGN CHOICE, log entry 10) -/

/-- The bytes of a region of 64 KiB. -/
def regionSize : Nat := 2 ^ 16

/-- The regions of a physical scratchpad that n regions from a base take, modulo 2 MiB (R63). -/
def regionsAt (base n : Nat) : List Nat := (List.range n).map fun i => (base / regionSize + i) % 32

/-- The key of region r of a reservation on a core. -/
def regionKey (core base r : Nat) : Nat := spadKey core (base + r * regionSize)

/-- Memory with the bytes from a key on blank. -/
def Memory.clear (m : List Host.Cell) (lo len : Nat) : List Host.Cell := m.filter fun c => !(lo ≤ c.1 && c.1 < lo + len)

/-- Memory with regions of a reservation on a core blank. -/
def clearRegions (m : List Host.Cell) (core base : Nat) (rs : List Nat) : List Host.Cell :=
  rs.foldl (fun m r => Memory.clear m (regionKey core base r) regionSize) m

/-- Bytes written from the start of a reservation on a core. -/
def fillRegions (m : List Host.Cell) (core base : Nat) (bytes : List Byte) : List Host.Cell :=
  (pieces regionSize bytes).zipIdx.foldl (fun m p => Memory.writeN m (regionKey core base p.2) p.1) m

/-- The regions of a reservation on a core that do not read as zero (R65). -/
def State.usedRegions (s : State) (core base resv : Nat) : List Nat :=
  (List.range resv).filter fun r =>
    s.mem.any fun m => regionKey core base r ≤ m.1 && m.1 < regionKey core base r + regionSize

/-- The reservation of a saved context. -/
def State.savedResv (s : State) (x : SavedCtx) : Nat :=
  match s.task x.task with
  | none   => 0
  | some t => (s.core (t.cores.headD 0)).spResv

/-- The regions of a core that a saved context holds which stayed resident there (R65). -/
def SavedCtx.regionsOn (x : SavedCtx) (resv core : Nat) : List Nat :=
  if x.stay then (x.old.filter fun o => o.1 == core).flatMap fun o => regionsAt o.2 resv else []

/-- The regions of a core that a preload fills (R64). -/
def Preload.regionsOn (p : Preload) (core : Nat) : List Nat :=
  (p.cores.zip p.bases).flatMap fun q => if q.1 == core then regionsAt q.2 p.pre else []

/-- A resident reservation written out: its regions that do not read as zero follow the image, member by member (R65, R185). -/
def State.writeOut (s : State) (x : SavedCtx) : State :=
  if !x.stay then s
  else
    let lists := x.old.map fun o => s.usedRegions o.1 o.2 (s.savedResv x)
    let parts := (x.old.zip lists).flatMap fun p => p.2.map fun r => Memory.readN s.mem (regionKey p.1.1 p.1.2 r) regionSize
    let put (m : List Host.Cell) (p : List Byte × Nat) : List Host.Cell :=
      Memory.writeN m (dramKey (x.base + x.size + regionSize * p.2)) p.1
    { s with mem := parts.zipIdx.foldl put s.mem
             saved := s.saved.map fun y => if y == x then { y with stay := false, spad := lists } else y }

/-- A preload is discarded, and its record returns to the head of its queue (R165). -/
def State.evict (s : State) (p : Preload) : State :=
  ({ s with preloads := s.preloads.erase p } : State).pushHead p.fn p.cont (.record p.cont p.launch p.interval p.prefixLog)

/-- The regions of a core that preloads fill, and those of each context that stayed resident. -/
def State.preRegions (s : State) (core : Nat) : List Nat := s.preloads.flatMap fun p => p.regionsOn core
def State.stayRegions (s : State) (core : Nat) : List (List Nat) := s.saved.map fun x => x.regionsOn (s.savedResv x) core

/-- How many of several reservations n regions from region r would meet. -/
def spotMeets (held : List (List Nat)) (n r : Nat) : Nat :=
  (held.filter fun l => (regionsAt (r * regionSize) n).any l.contains).length

/-- The base of n regions on a core, which must not meet some regions (preloads) and should meet as few as possible of the reservations
held there (R64, R65): of such bases the lowest. -/
def spotBeside (fixed : List Nat) (held : List (List Nat)) (n : Nat) : Nat :=
  let free := (List.range 32).filter fun r => (regionsAt (r * regionSize) n).all fun x => !fixed.contains x
  let best := free.foldl (fun b r => match b with
    | none   => some r
    | some q => if spotMeets held n r < spotMeets held n q then some r else b) none
  best.getD 0 * regionSize

/-- The base of a reservation of n regions on a core. -/
def State.spotOn (s : State) (n core : Nat) : Nat := spotBeside (s.preRegions core) (s.stayRegions core) n

/-- The bases of a reservation of n regions on the members of a gang. -/
def State.spotsFor (s : State) (cores : List Nat) (n : Nat) : List Nat := cores.map (s.spotOn n)

/-- A gang takes n regions on each core from its base: resident contexts there are written out (R65), preloads there evicted (R165). -/
def State.claimSpad (s : State) (cores bases : List Nat) (n : Nat) : State :=
  let spots := (cores.zip bases).map fun p => (p.1, regionsAt p.2 n)
  let s1 := s.saved.foldl (fun s x =>
    if spots.any fun p => (x.regionsOn (s.savedResv x) p.1).any p.2.contains then s.writeOut x else s) s
  s1.preloads.foldl (fun s p => if spots.any fun q => (p.regionsOn q.1).any q.2.contains then s.evict p else s) s1

def State.dropTask (s : State) (id : Nat) : State := { s with tasks := s.tasks.filter fun t => t.id != id }

/-- A new task on a gang of cores (R156, R164). -/
def State.newTask (s : State) (fn : Nat) (r : Record) (launch : Option Nat) (interval : Nat) (prefixLog : List LogEnt)
    (cores : List Nat) : State :=
  let t : Task := { id := s.nextTask, cont := r, launch := launch, fn := fn, cores := cores, long := false, phase := .placed,
                    interval := interval, log := [], prefixLog := prefixLog, fails := [], started := 0, placedAt := s.gts,
                    idle := s.gts, conflict := none, addr := 0, passedBy := none }
  let s1 := s.chargeAll
  cores.foldl (fun s n => s.setCore n { s.core n with task := some t.id })
    { s1 with tasks := s1.tasks ++ [t], nextTask := s1.nextTask + 1 }

/-- The next task of a gang whose slot holds a preload (R165, R332). -/
def State.startPreload (s : State) (cores : List Nat) : State :=
  match s.preloads.find? fun p => p.cores == cores && !p.parked with
  | none   => s
  | some p => s.newTask p.fn p.cont p.launch p.interval p.prefixLog cores

/-- A task that fails before its first instruction: no trap, its cores are free again (R163). -/
def State.failStart (s : State) (t : Task) (cause : Nat) (addr : Word) : State :=
  let s1 := t.cores.foldl (fun s n => s.setCore n (s.core n).idle) (s.chargeAll.dropTask t.id)
  ((s1.launchFails t.launch t.cont.taskid cause t.cont.taskid.toNat addr).launchDrop t.launch).startPreload t.cores

/-- The preload of a task that is placed on the gang whose slot it was in (R165). -/
def State.preloadOf (s : State) (t : Task) : Option Preload :=
  s.preloads.find? fun p => p.cores == t.cores && p.cont == t.cont && p.launch == t.launch && !p.parked

/-- The VLCAP of a gang at its start (R134, R138, R149). -/
def State.gangCap (s : State) (t : Task) (vnreg : Nat) : Nat :=
  match s.launchOf t.launch with
  | some l => if l.det then 2 ^ l.vlfix else t.cores.foldl (fun m n => min m (vlmaxOf vnreg 4096 (s.core n).laneok.toNat)) 4096
  | none   => t.cores.foldl (fun m n => min m (vlmaxOf vnreg 4096 (s.core n).laneok.toNat)) 4096

/-- The header of a task's image: the one its slot holds, else read now (R165). -/
def State.startHeader (s : State) (t : Task) (slot : Option Preload) : Except (Nat × Word) ImageHdr :=
  match slot.bind fun p => imageHdr p.head with
  | some h => .ok h
  | none   => s.header (t.cores.headD 0) (asidOfFn t.fn) t.cont.image

/-- The code lines of a slot in a core's code cache (R165), which holds 256 lines (R76). -/
def Core.withLines (c : Core) (lines : List CodeLine) : Core :=
  let fresh (l : CodeLine) : Bool := lines.all fun x => x.asid != l.asid || x.va != l.va
  { c with icache := (lines ++ c.icache.filter fresh).take codeLines }

/-- TASK_START (R64, R138, R163): the image is read, the preload stands in the reservation, every other region of it is zero, and
every member starts. In a gang of one the two modes are the same (R150). -/
def State.startTask (s : State) (t : Task) : State :=
  let lead := t.cores.headD 0
  let asid := asidOfFn t.fn
  let slot := s.preloadOf t
  let s0 : State := match slot with
    | none   => s
    | some p => { s with preloads := s.preloads.erase p }
  match s0.startHeader t slot with
  | .error e => s0.failStart t e.1 e.2
  | .ok h =>
    let place : Except (Nat × Word) (List Nat × Nat × List Byte) := match slot with
      | some p => .ok (p.bases, p.pre, [])
      | none   => (s0.readVirt lead asid (h.pre * regionSize) h.preptr).map fun bs => (s0.spotsFor t.cores h.resv, 0, bs)
    match place with
    | .error e => s0.failStart t e.1 e.2
    | .ok (bases, kept, bytes) =>
      let cap := s0.gangCap t h.vnreg
      let tvec := s0.ctlGet (0x6800 + 8 * asid)
      let fresh (m : List Host.Cell) (n base : Nat) : List Host.Cell :=
        fillRegions (clearRegions m n base ((List.range h.resv).drop kept)) n base bytes
      let lines := match slot with
        | some p => p.lines
        | none   => []
      let one (s : State) (p : Nat × Nat) : State :=
        let base := bases.getD p.2 0
        ({ s with mem := fresh s.mem p.1 base } : State).setCore p.1
          (((s.core p.1).withLines lines).begin t h asid cap lead p.2 base tvec)
      let s1 := (t.cores.zipIdx).foldl one (s0.claimSpad t.cores bases h.resv)
      let last := s0.tasks.foldl (fun (m : Nat) (u : Task) => max m u.started) 0
      s1.setTask { t with phase := .running, long := h.long && 1 < t.cores.length, started := last + 1, idle := s0.gts }

/-- A task placed for the same queue: tasks of one queue start in the order in which they were placed (R157). -/
def Task.startsWith (t u : Task) : Bool :=
  (match u.phase with
    | .placed      => true
    | .running     => false
    | .stopping _  => false
    | .saved       => false
    | .exiting _ _ => false
    | .discarded _ => false) && u.fn == t.fn && u.cont.prio == t.cont.prio && u.cont.contract == t.cont.contract

/-- TASK_START. -/
def execTaskStart (task : Nat) (s : State) : Host.Outcome State Fault Refusal :=
  .next (match s.task task with
    | none   => s
    | some t => match t.phase with
      | .placed      => if (s.tasks.find? t.startsWith).all fun u => u.id == t.id then s.startTask t else s
      | .running     => s
      | .stopping _  => s
      | .saved       => s
      | .exiting _ _ => s
      | .discarded _ => s)

/-! ## Task instructions -/

/-- The function of the issuing context. -/
def State.myFn (s : State) : Nat :=
  match s.me.task with
  | none    => fnOfAsid s.me.asid.toNat
  | some id => match s.task id with
    | none   => fnOfAsid s.me.asid.toNat
    | some t => t.fn

def State.myTask (s : State) : Option Task :=
  match s.me.task with
  | none    => none
  | some id => s.task id

/-- The byte offset of the first field of a record that fails its checks (R154). DEDUCED, log entry 32. -/
def recordFault (gsize prio contract rsv : Nat) : Option Nat :=
  if gsize = 0 ∨ 16 < gsize then some 0x1C
  else if 64 ≤ contract ∧ contract ≤ 254 then some 0x1E
  else if 8 ≤ prio then some 0x1D
  else if rsv ≠ 0 then some 0x1F
  else none

/-- spawn (R330, R331). DEDUCED, log entry 52. The new task's prefix is what its spawner saw: its own prefix, then its log. DESIGN CHOICE, log
entry 83. -/
def execSpawn (a : RegNo) (s : State) : Host.Outcome State Fault Refusal :=
  s.finish do
    let n := a.val
    orTrap (1 ≤ n && n ≤ 28) (trapE cILLEGAL)
    let image ← s.src a false
    let frame ← s.src (Fin.ofNat 32 (n + 1)) false
    let join ← s.src (Fin.ofNat 32 (n + 2)) false
    let w ← s.src (Fin.ofNat 32 (n + 3)) false
    let v := w.toNat
    let r : Record := { image := image, frame := frame, join := join, taskid := BitVec.ofNat 32 v, gsize := bits v 39 32,
                        prio := bits v 47 40, contract := bits v 55 48 }
    match recordFault r.gsize r.prio r.contract (bits v 63 56) with
    | some o => raise (trapE cILLEGAL o)
    | none   => do
      orTrap (r.contract == 0xFF || (s.cAdm r.contract && s.cVf r.contract == s.myFn)) (trapE cILLEGAL)
      orWait (s.cur.side == .A || s.me.crecvs.isEmpty)
      orWait (s.covered .dev)
      orWait (s.queuedRecords s.myFn < recordStore)
      let l := match s.myTask with
        | none   => none
        | some t => t.launch
      let seen := match s.detTask s.cur.core with
        | none   => (0, [])
        | some t => (t.interval, t.prefixLog ++ t.log)
      let s1 := s.pushTail s.myFn r (.record r l seen.1 seen.2)
      pure ((s1.onLaunch l fun x => { x with out := x.out + 1 }).retire 4)

/-- The register that a pending await would write. -/
def AccKind.awaitDst : AccKind → Option RegNo
  | .await d _ _         => some d
  | .load _ _ _          => none
  | .fill _ _ _          => none
  | .writes _            => none
  | .stq _ _ _ _         => none
  | .stab _ _ _ _ _ _    => none
  | .amo _ _ _ _ _ _ _ _ => none
  | .arm _               => none
  | .arrive _            => none
  | .value _ _           => none

/-- Pending awaits discarded; their registers are full again. -/
def Core.dropAwaits (c : Core) : Core :=
  (c.pend.filterMap fun x => x.kind.awaitDst).foldl (fun c d => c.setFull .A d true)
    { c with pend := c.pend.filter fun x => !x.kind.isAwait }

/-- A store-queue store that waits for its data, or has it and is not performed (R86). -/
def Access.claims (x : Access) : Bool :=
  x.ofX || (match x.kind with
    | .stq _ _ _ _      => true
    | .load _ _ _       => false
    | .fill _ _ _       => false
    | .writes _         => false
    | .stab _ _ _ _ _ _ => false
    | .amo _ _ _ _ _ _ _ _ => false
    | .arm _            => false
    | .arrive _         => false
    | .await _ _ _      => false
    | .value _ _        => false)

/-- The A-side's part of done (R173, R332): claimed stores first, then the failure records, then the cards, then the other late writes and
accesses; awaits are discarded before these, which they might hold back for ever. DEDUCED, log entry 42. -/
def State.doneA (s : State) : R State := do
  orWait (s.me.peerWait.isNone && !(s.me.pend.any Access.claims))
  match s.failRecs s.cur.core with
  | r :: _ => pure ((s.dropFail s.cur.core r).takeTrap r.trap)
  | []     =>
    orWait ((s.pane (paneOf s.cur.core)).cards.all fun k => k.task != s.me.task)
    if (s.me.pend.any fun x => x.kind.isAwait) && s.me.pend.any fun x => !x.kind.isAwait then pure (s.setMe s.me.dropAwaits)
    else do
    orWait (s.me.pend.all fun x => x.kind.isAwait)
    let stuck := match s.myTask with
      | none   => false
      | some t => t.conflict.isSome
    let c := s.me
    let c1 := { c with pend := [], aFull := Vector.replicate 32 true, av := { c.av with fin := true } }
    pure ((s.setMe (if stuck && c.xv.bar.isSome then { c1 with xv := { c.xv with fin := true, bar := none } } else c1)).dropWkt s.cur.core)

/-- The X-side's part of done (R332): pushed entries are claimed, unless the A-side has ended; receives are discarded. DEDUCED, log entry 28. -/
def State.doneX (s : State) : R State := do
  orWait (s.me.conv.isNone && s.members.all fun g =>
    (s.core g).av.fin || (s.core g).sq.toList.all fun q => q.ents.isEmpty)
  let c := s.me
  let s1 := s.setMe { c with crecvs := [], pops := [], sFull := Vector.replicate 32 true, xv := { c.xv with fin := true } }
  pure (if c.av.fin then s1.dropWkt s.cur.core else s1)

/-- done (R86, R120, R123, R332). -/
def execDone (s : State) : Host.Outcome State Fault Refusal :=
  s.finish (match s.cur.side with
    | .A => s.doneA
    | .X => s.doneX)

/-- A side joins its barrier count (R333, R336); after a failed merge a dsync of an A-side traps. -/
def State.barrier (s : State) (isDsync : Bool) : R State := do
  orWait s.mySide.bar.isNone
  match (if isDsync && s.cur.side == .A then s.myTask.bind fun t => t.conflict else none) with
  | some c => raise { code := cDET_CONFLICT, info := info2 c.1 c.2 }
  | none   =>
    pure (s.setMySide { s.mySide with q := s.mySide.q + 1, bar := some { isDsync := isDsync, merge := false } })

/-- gbar (R333). -/
def execGbar (s : State) : Host.Outcome State Fault Refusal := s.finish (s.barrier false)

/-- dsync (R336). -/
def execDsync (s : State) : Host.Outcome State Fault Refusal := s.finish (s.barrier true)

/-- A side waits in round q with its release still to be made. -/
def SideSt.waitsIn (t : SideSt) (q : Nat) : Bool :=
  match t.bar with
  | none   => false
  | some b => !b.merge && t.q == q

/-- A member has finished: both its sides have ended (R332). -/
def State.finished (s : State) (core n : Nat) : Bool :=
  (s.core n).av.fin && ((s.core n).xv.fin || (s.isLong core && some n != (s.gang core).head?))

/-- Every member's same side has joined round q and made its release, or the member has finished, or it is no side of its own (R99,
R333). -/
def State.roundDone (s : State) (core : Nat) (sd : Side) (q : Nat) : Bool :=
  let g := s.gang core
  g.all fun n =>
    let t := (s.core n).side sd
    s.finished core n || (s.isLong core && sd == .X && some n != g.head?) ||
      (q ≤ t.q && (!t.waitsIn q || ({ s with cur := { core := n, side := sd } } : State).covered .gang))

/-- GBAR_COMPLETE (R99, R333, R336): the round is over, every member's release is made; in a deterministic launch a dsync goes on to
wait for the merge. -/
def execGbarComplete (c : CoreId) (side : Side) (s : State) : Host.Outcome State Fault Refusal :=
  .next (match ((s.core c.no).side side).bar with
    | none   => s
    | some b =>
      if b.merge || !s.roundDone c.no side ((s.core c.no).side side).q then s
      else s.onBehalf c.no side fun t => do
        if b.isDsync && (t.detTask c.no).isSome then
          pure (t.setMySide { t.mySide with bar := some { b with merge := true } })
        else pure ((t.setMySide { t.mySide with bar := none }).retire 4))

/-- tid (R335). -/
def execTid (d : RegNo) (s : State) : Host.Outcome State Fault Refusal :=
  s.finish do
    s.dst d
    let c := s.me
    pure ((s.put d (BitVec.ofNat 64 (c.tid.toNat + c.gpos % 16 * 2 ^ 32 + c.gsize % 32 * 2 ^ 40 + c.gid.toNat * 2 ^ 48))).retire 4)

/-! ## The end of a task (R86, R155, R332) -/

/-- A context that was discarded outright. -/
def TaskPhase.isDiscarded : TaskPhase → Bool
  | .discarded _ => true
  | .placed      => false
  | .running     => false
  | .stopping _  => false
  | .saved       => false
  | .exiting _ _ => false

/-- Whether a core has finished (R332): a context that was discarded waits for the writes that are under way alone (R190). -/
def State.coreDone (s : State) (t : Task) (n : Nat) : Bool :=
  let c := s.core n
  c.pend.isEmpty && (t.phase.isDiscarded || (c.av.fin && (c.xv.fin || (t.long && some n != t.cores.head?))))

/-- A record from its 32 bytes, with the check of R154. -/
def recordOf (bs : List Byte) : Record × Bool :=
  let fld (o n : Nat) : Nat := leNat ((bs.drop o).take n)
  let r : Record := { image := BitVec.ofNat 64 (fld 0 8), frame := BitVec.ofNat 64 (fld 8 8), join := BitVec.ofNat 64 (fld 0x10 8),
                      taskid := BitVec.ofNat 32 (fld 0x18 4), gsize := fld 0x1C 1, prio := fld 0x1D 1, contract := fld 0x1E 1 }
  (r, (recordFault r.gsize r.prio r.contract (fld 0x1F 1)).isNone)

/-- PARENT pushed (R155); in a deterministic launch it is held for the next interval (R132). A record with a bad field is
not run, and counts as failed (R154, R162). DEDUCED, log entry 30. -/
def State.pushParent (s : State) (t : Task) (r : Record) (ok : Bool) : State :=
  if !ok then s.launchFails t.launch r.taskid cILLEGAL r.taskid.toNat 0
  else match s.launchOf t.launch with
    | some l =>
      if l.det then s.setLaunch { l with held := l.held ++ [r] }
      else (s.setLaunch { l with out := l.out + 1 }).pushTail t.fn r (.record r t.launch 0 [])
    | none   => s.pushTail t.fn r (.record r none 0 [])

/-- The decrement of the join block at the end of a task, at .dev scope (R155): the state after it, and the cause of a
failed check. DEDUCED, log entry 24. DEDUCED, log entry 63. -/
def State.joinTask (s : State) (t : Task) : State × Option Nat :=
  let j := t.cont.join
  let lead := t.cores.headD 0
  if j = 0 then (s, none)
  else
    let h : How := { core := lead, super := false, asid := asidOfFn t.fn, acc := .amo, scalar := true, size := 64 }
    let bad (c : Nat) : State × Option Nat := (s.logEvent 14 (srcOf lead) 0xFF noElem j.toNat t.cont.taskid.toNat c, some c)
    if j.toNat / 2 ^ 52 != 0 then bad (if canonical j.toNat then cPROT else cXLATE)
    else match s.place h j with
      | .error (.trap k)     => bad k.code
      | .error .wait         => bad cXLATE
      | .error (.page _ _ _) => bad cXLATE
      | .ok p =>
        let k := s.keyOf p
        let n := signedOf 64 (leNat (Memory.readN s.mem k 8)) - 1
        let s0 := s.stampOut (paneOf lead) k
        let s1 := { s0 with mem := Memory.writeN s0.mem k (leBytes 8 (wrapTo 64 n)) }
        if n < 0 then (s1.logEvent 8 (srcOf lead) 0xFF noElem j.toNat t.cont.taskid.toNat 0, none)
        else if n = 0 then
          let r := recordOf (Memory.readN s1.mem (k + 0x20) 32)
          (s1.pushParent t r.1 r.2, none)
        else (s1, none)

/-- TASK_END (R332): a context that was discarded makes no decrement. DEDUCED, log entry 29. What a task has stored since its merge failed is
in its log like other stores. DESIGN CHOICE, log entry 83. -/
def State.endTask (s : State) (t : Task) : State :=
  let code := match t.phase with
    | .exiting c _ => some c
    | .discarded c => some c
    | .placed      => none
    | .running     => none
    | .stopping _  => none
    | .saved       => none
  let s1 := s.chargeAll
  let (s2, jf) := if t.phase.isDiscarded then (s1, none) else s1.joinTask t
  let id := t.cont.taskid
  let s3 := if t.conflict.isSome then s2 else match code, jf with
    | some c, _    => s2.launchFails t.launch id c id.toNat (if isMemCause c then t.addr else 0)
    | none, some c => s2.launchFails t.launch id c id.toNat t.cont.join
    | none, none   => s2
  let s4 := t.cores.foldl (fun s n => (s.letGo n).dropRoles n id.toNat) s3
  let s5 := t.cores.foldl (fun s n => (s.setCore n (s.core n).idle).forgetPages n) s4
  let pane := paneOf (t.cores.headD 0)
  let p := s5.pane pane
  let s6 := s5.setPane pane { p with reqs := p.reqs.filter fun r => match r.who with
    | .mop n   => !t.cores.contains n
    | .ahead n => !t.cores.contains n
    | .card _  => true }
  let s7 := (s6.dropTask t.id).onLaunch t.launch fun l =>
    { l with out := l.out - 1
             logs := if l.det then l.logs ++ [{ id := id.toNat, task := none, log := t.log
                                                failed := code.isSome || jf.isSome || t.conflict.isSome, pane := pane }] else l.logs }
  s7.startPreload t.cores

/-- TASK_END. -/
def execTaskEnd (task : Nat) (s : State) : Host.Outcome State Fault Refusal :=
  .next (match s.task task with
    | none   => s
    | some t =>
      let live := match t.phase with
        | .placed      => false
        | .saved       => false
        | .running     => true
        | .stopping _  => true
        | .exiting _ _ => true
        | .discarded _ => true
      if live && t.cores.all fun n => s.coreDone t n then s.endTask t else s)

/-! ## Merging (R131 to R133, R336) -/

/-- What one log entry does to one byte: an index of the byte within its dword, and what writes it. -/
inductive ByteWrite where
  | plain
  | amo (op : AmoOp) (size : Nat) (tag : Fin 32)
  deriving DecidableEq, Repr

/-- The bytes that an entry writes. -/
def LogEnt.bytes : LogEnt → List (Nat × ByteWrite)
  | .plain k ms           => (ms.zipIdx.filter fun p => p.1.isSome).map fun p => (k + p.2, .plain)
  | .amo k size op tag _  => (List.range size).map fun i => (k + i, .amo op size tag)

/-- Two writes of a byte by different tasks conflict (R133). -/
def ByteWrite.clash (a b : ByteWrite) : Bool := a == .plain || b == .plain || a != b

/-- The bytes at which two logs conflict. -/
def clashBytes (xs ys : List LogEnt) : List Nat :=
  let bys := ys.flatMap LogEnt.bytes
  ((xs.flatMap LogEnt.bytes).filterMap fun x => if bys.any fun y => y.1 == x.1 && x.2.clash y.2 then some x.1 else none).eraseDups

/-- The conflict of a log with those before it at the lowest address, by what address each byte has: that address and the earlier id, so
that neither depends on where pages lie (R133, R134; DEDUCED, log entry 38). -/
def firstClash (va : Nat → Word) (done : List MergeLog) (log : List LogEnt) : Option (Word × Nat) :=
  (done.flatMap fun d => (clashBytes log d.log).map fun k => (va k, d.id)).foldl (fun b x => match b with
    | none   => some x
    | some y => if x.1.toNat < y.1.toNat then some x else b) none

/-- A log applied to memory; sums of floats round to nearest-even (R131). -/
def applyLog (m : List Host.Cell) (log : List LogEnt) : List Host.Cell :=
  log.foldl (fun m e => match e with
    | .plain k ms          => ms.zipIdx.foldl (fun m p => match p.1 with
      | none   => m
      | some b => Memory.write m (k + p.2) b) m
    | .amo k size op tag b =>
      Memory.writeN m k (leBytes size (amoNew 0 op tag.val (leNat (Memory.readN m k size)) b.toNat 0))) m

/-- The lowest offset of a range of physical addresses at which an access reaches a byte of DRAM, itself or through an aperture
(R29). -/
def State.offsetOf (s : State) (lo size k : Nat) : Option Nat :=
  let here := if lo ≤ k && k < lo + size then [k - lo] else []
  let there := (List.range 16).filterMap fun n =>
    let pa := s.apBase n + (k + 2 ^ 38 - s.apBuf n) % 2 ^ 38
    if lo ≤ pa && pa < lo + size && s.aperture pa == some n then some (pa - lo) else none
  (here ++ there).min?

/-- The lowest device-virtual address that the tables of an address space map to a byte of DRAM (R15, R16, R133): the pages in
ascending order, of each region of 1 GiB and of 2 MiB. Where the tables map none any more the value is undefined (DEDUCED, log
entry 38). -/
def State.unmap (s : State) (asid k : Nat) : Word :=
  let inPage (v : Nat) : Option Nat := (s.walk asid v).bind fun l => (s.offsetOf l.pa l.size k).map fun o => l.va + o
  let pageSize (v : Nat) : Nat := match s.walk asid v with
    | none   => 2 ^ 16
    | some l => l.size
  let in2M (v : Nat) : Option Nat :=
    if pageSize v == 2 ^ 21 then inPage v else (List.range 32).findSome? fun i => inPage (v + i * 2 ^ 16)
  let in1G (v : Nat) : Option Nat :=
    if pageSize v == 2 ^ 30 then inPage v else (List.range 512).findSome? fun i => in2M (v + i * 2 ^ 21)
  match (List.range (bits (s.ctlGet (8 * asid)).toNat 59 38 + 1)).findSome? fun i => in1G (i * 2 ^ 30) with
  | none   => Config.undef s.undefCtr
  | some v => BitVec.ofNat 64 v

/-- Whether both sides of every member wait for the merge or have finished, one A-side waiting. -/
def State.atDsync (s : State) (t : Task) : Bool :=
  let waits (x : SideSt) : Bool := match x.bar with
    | none   => false
    | some b => b.merge
  (t.cores.all fun n =>
    let c := s.core n
    (c.av.fin || waits c.av) && (c.xv.fin || waits c.xv || (t.long && some n != t.cores.head?))) &&
  (t.cores.any fun n => waits (s.core n).av || waits (s.core n).xv) && t.conflict.isNone

/-- A log placed by ascending task id. -/
def insertLog (x : MergeLog) : List MergeLog → List MergeLog
  | []      => [x]
  | y :: ys => if x.id < y.id then x :: y :: ys else y :: insertLog x ys

/-- The pane that a task runs on, or ran on before it was saved. -/
def State.taskPane (s : State) (t : Task) : Nat :=
  match s.saved.find? fun x => x.task == t.id with
  | none   => paneOf (t.cores.headD 0)
  | some x => paneOf (x.old.headD (0, 0)).1

/-- INTERVAL_CLOSE (R132): every task of the launch has ended or waits at dsync, and nothing is queued. -/
def execIntervalClose (launch : Nat) (s : State) : Host.Outcome State Fault Refusal :=
  .next (match s.launchOf (some launch) with
    | none   => s
    | some l =>
      let live := s.tasks.filter fun t => t.launch == some launch
      let stuck := live.filter fun t => t.conflict.isSome
      let wait := live.filter fun t => t.conflict.isNone
      if l.det && l.merging.isNone && l.next == l.count && l.out == live.length && stuck.isEmpty &&
          wait.all s.atDsync && !(wait.isEmpty && l.logs.isEmpty && l.held.isEmpty) then
        let all := l.logs ++ wait.map fun t => { id := t.cont.taskid.toNat, task := some t.id, log := t.log, failed := false, pane := s.taskPane t }
        s.setLaunch { l with merging := some (all.foldl (fun xs x => insertLog x xs) [], []), logs := [] }
      else s)

/-- A member of a gang goes on after the merge. -/
def SideSt.resumed (t : SideSt) : SideSt :=
  match t.bar with
  | none   => t
  | some b => if b.merge then { t with bar := none }.advance 4 else t

/-- The waiting tasks go on with the next base view and an empty log (R132). -/
def State.resumeTask (s : State) (t : Task) : State :=
  let s1 := t.cores.foldl (fun s n =>
    let c := s.core n
    s.setCore n { c with av := c.av.resumed, xv := c.xv.resumed }) s
  s1.setTask { t with interval := t.interval + 1, log := [], prefixLog := [] }

/-- A member's A-side at its dsync takes DET_CONFLICT (R336). -/
def State.failDsync (s : State) (t : Task) (early : Nat) : State :=
  let id := t.cont.taskid.toNat
  let s1 := s.setTask { t with conflict := some (early, id), log := [], prefixLog := [] }
  t.cores.foldl (fun s n =>
    match (s.core n).av.bar with
    | none   =>
      let c := s.core n
      if c.av.fin && c.xv.bar.isSome then s.setCore n { c with xv := { c.xv with fin := true, bar := none } } else s
    | some _ => s.onBehalf n .A fun u =>
      .ok ((u.setMySide { u.mySide with bar := none }).takeTrap { code := cDET_CONFLICT, info := info2 early id })) s1

/-- One log of the interval merged: applied, or its task failed, which counts once (R133, R162). -/
def State.mergeOne (s : State) (l : LaunchSt) (done : List MergeLog) (x : MergeLog) : State :=
  match firstClash (s.unmap (asidOfFn l.fn)) done x.log with
  | none         =>
    let s1 := x.log.foldl (fun s e => s.stampOut x.pane e.dword) s
    { s1 with mem := applyLog s1.mem x.log }
  | some (va, e) =>
    let s1 := { s with undefCtr := s.undefCtr + 1 }
    let s2 := if x.failed then s1 else s1.launchFails (some l.id) (BitVec.ofNat 32 x.id) cDET_CONFLICT e va
    match x.task.bind fun id => s2.task id with
    | none   => s2
    | some t => s2.failDsync t e

/-- Entries that one part of a merge takes: up to 4 MiB of log, split at task boundaries (R132; DEDUCED, log entry 38). -/
def mergePart : Nat := 2 ^ 19

/-- The logs of the next part: at least one. -/
def partOf : Nat → List MergeLog → List MergeLog
  | _, []      => []
  | n, x :: xs => if n + x.log.length ≤ mergePart || n == 0 then x :: partOf (n + max 1 x.log.length) xs else []

/-- Every task that waits at dsync goes on, and held continuations are queued (R132). -/
def State.nextInterval (s : State) (l : LaunchSt) : State :=
  let live := s.tasks.filter fun t => t.launch == some l.id && t.conflict.isNone
  let s1 := live.foldl (fun s t => s.resumeTask t) s
  let s2 := s1.onLaunch (some l.id) fun x => { x with interval := x.interval + 1, base := s1.mem, merging := none, held := [], out := x.out + l.held.length }
  l.held.foldl (fun s r => s.pushTail l.fn r (.record r (some l.id) (l.interval + 1) [])) s2

/-- MERGE_PART_COMPLETE (R132): the next part is applied in ascending task id; after the last one the interval is over. -/
def execMergePartComplete (launch : Nat) (s : State) : Host.Outcome State Fault Refusal :=
  .next (match s.launchOf (some launch) with
    | none   => s
    | some l => match l.merging with
      | none              => s
      | some (todo, done) =>
        let now := partOf 0 todo
        let (s1, d1) := now.foldl (fun (r : State × List MergeLog) x => (r.1.mergeOne l r.2 x, r.2 ++ [x])) (s, done)
        let rest := todo.drop now.length
        let s2 := s1.onLaunch (some launch) fun y => { y with merging := some (rest, d1) }
        if rest.isEmpty then s2.nextInterval l else s2)

/-! ## The status record (R162, R383) -/

/-- The first failure in task-id order. -/
def firstFail (fs : List TaskFail) : Option TaskFail :=
  fs.foldl (fun b f => match b with
    | none   => some f
    | some g => if f.id < g.id then some f else b) none

/-- The 32 bytes of a status record. -/
def LaunchSt.record (l : LaunchSt) : List Byte :=
  match firstFail l.fails with
  | none   => leBytes 4 l.stateNo ++ List.replicate 28 0
  | some f =>
    leBytes 4 4 ++ leBytes 1 f.cause ++ List.replicate 3 0 ++ leBytes 4 f.early ++ leBytes 4 f.id ++ leBytes 8 f.addr.toNat ++
      leBytes 4 (min l.fails.length (2 ^ 32 - 1)) ++ List.replicate 4 0

/-- The state in which every task of a launch, and every continuation of theirs, has ended. -/
def LaunchSt.over (l : LaunchSt) : Bool :=
  l.next == l.count && l.out == 0 && l.held.isEmpty && l.merging.isNone && l.logs.isEmpty

/-- An MSI-X vector of a function. -/
def State.sendMsi (s : State) (fn v : Nat) : State := { s with msix := s.msix ++ [(fn, v)] }

/-- VSTAT's sticky bits (R380). -/
def vTORN : Nat := 63
def vLOVF : Nat := 62
def vBADIDX : Nat := 61
def vRST : Nat := 60
def vBADST : Nat := 59
def vSTFLT : Nat := 58

/-- An event that sets a sticky bit of VSTAT sends vector 1, every time (R383). -/
def State.vstatFlag (s : State) (fn b : Nat) : State :=
  (s.setFn fn { s.fn fn with vstat := (s.fn fn).vstat ||| BitVec.ofNat 64 (2 ^ b) }).sendMsi fn 1

/-- Where a status record is written; one in device-virtual memory in the U view. DESIGN CHOICE, log entry 87. -/
def State.statusPlace (s : State) (l : LaunchSt) : R Place :=
  s.place { core := fnCore l.fn, super := false, asid := asidOfFn l.fn, acc := .write, scalar := false, size := 32 } l.status

/-- STATUS_RECORD_WRITE (R162): the record is written behind every write of the launch, and the launch is over. -/
def execStatusRecordWrite (launch : Nat) (s : State) : Host.Outcome State Fault Refusal :=
  .next (match s.launchOf (some launch) with
    | none   => s
    | some l =>
      if !l.over then s
      else
        let gone (s : State) : State := { s with launches := s.launches.filter fun x => x.id != launch }
        if l.status = 0 then (gone s).sendMsi l.fn 0
        else
          let fails (s : State) : State :=
            ((gone s).logEvent 13 0xFFFF 0xFF noElem l.status.toNat 0xFFFFFFFF 0).vstatFlag l.fn vSTFLT
          match s.statusPlace l with
          | .ok p                   => (gone { s with mem := Memory.writeN s.mem (s.keyOf p) l.record }).sendMsi l.fn 0
          | .error .wait            => s
          | .error (.page fn pg w)  => s.askPage (fnCore l.fn) fn pg w
          | .error (.trap k)        => fails (match k.pri with
            | none            => s
            | some (fn, pg, w) => s.heardPage (fnCore l.fn) fn pg w))

end Machine
end Sys2Proof
end

