-- ==== Sys2Proof/Machine/Image.lean ====
section
/-!
DEFINITION. The size of a context image, the context area of a function (R185), and the switch bound (R171).
-/

namespace Sys2Proof
namespace Machine

/-- A number of bytes padded to a multiple of k. -/
def padTo (k n : Nat) : Nat := ceilDiv n k * k

/-- A spill frame of n elements of width w without its header: elements and validity bits (R73, R185). -/
def frameBody (n w : Nat) : Nat := padTo 16 (ceilDiv (n * w) 8) + padTo 16 (ceilDiv n 8)

/-- Registers of a side that are empty: the pending late writes (R82). -/
def Core.lateWrites (c : Core) : Nat :=
  (c.aFull.toList.filter fun b => !b).length + (c.sFull.toList.filter fun b => !b).length

/-- Claimed stores without data. -/
def Core.openClaims (c : Core) : Nat :=
  (c.pend.filter fun x => match x.kind with
    | .stq _ _ _ _      => true
    | .load _ _ _       => false
    | .fill _ _ _       => false
    | .writes _         => false
    | .stab _ _ _ _ _ _ => false
    | .amo _ _ _ _ _ _ _ _ => false
    | .arm _            => false
    | .arrive _         => false
    | .await _ _ _      => false
    | .value _ _        => false).length

/-- The queues section. -/
def Core.queueBytes (c : Core) : Nat :=
  let ents := c.lq.toList ++ c.sq.toList
  64 + (ents.foldl (fun n q => q.ents.foldl (fun n e => n + 32 + frameBody e.n (tagW e.tag.val)) n) 0) + 16 * c.cq.length +
    16 * c.openClaims

/-- The vector registers section. -/
def Core.vregBytes (c : Core) : Nat :=
  (c.vregs.toList.take c.vnreg).foldl (fun n r => n + 16 + frameBody r.mark (tagW r.tag.val) + 16) 0

/-- The masks and anchors section; a mask's high-water mark is taken to be its highest bit that is set (DEDUCED, log entry 39). -/
def Core.maskBytes (c : Core) : Nat :=
  ((c.masks.toList.drop 1).foldl (fun n m => n + 16 + padTo 16 (ceilDiv (bitLen m) 8)) 0) +
    c.anchors.toList.foldl (fun n k => n + 16 + 16 * k.slots.length) 0

/-- The tiles section, with the pending samples of the core. -/
def State.tileBytes (s : State) (core : Nat) : Nat :=
  let c := s.core core
  128 + 64 * c.mops.length + 64 + 16 * s.pendingSamples core + 32768 * popcount c.mlive.toNat 8

/-- The codebook section: the current copy of each bank, and the other one where it is pinned. -/
def Core.bankBytes (c : Core) : Nat :=
  (List.finRange 8).foldl (fun n b => n + 96 + 2048 + if c.pin2 b then 2048 else 0) 0

/-- The bytes of a card in an image: 128, and its table snapshot. -/
def Card.imageBytes (k : Card) : Nat := 128 + (if k.table.isEmpty then 0 else if k.cbx then 2048 else 320)

/-- The engine and waits section of the core at a position of its gang; failure records stand with the lead. -/
def State.waitBytes (s : State) (t : Task) (core : Nat) : Nat :=
  let c := s.core core
  let cards := (s.pane (paneOf core)).cards.filter fun k => k.core == core
  64 + (cards.foldl (fun n k => n + k.imageBytes) 0) + (if some core == t.cores.head? then 32 * t.fails.length else 0) +
    32 * (c.pend.filter fun x => x.kind.isAwait).length +
    16 * ((if c.av.fence.isSome then 1 else 0) + (if c.xv.fence.isSome then 1 else 0))

/-- The in-flight section: each instruction, and what is kept of the register it replaces (R187). -/
def Core.flightBytes (c : Core) : Nat :=
  (c.flight.foldl (fun n f => n + 64 + f.kept.foldl (fun a k => a + 16 + frameBody k.1 k.2) 0) 0) + (if c.peerWait.isSome then 64 else 0)

/-- The sections of one member (R185). -/
def State.memberBytes (s : State) (t : Task) (core : Nat) : Nat :=
  let c := s.core core
  let sections := [384, 576 + 16 * c.lateWrites, 512, c.queueBytes, c.flightBytes, c.vregBytes, c.maskBytes, s.tileBytes core, c.bankBytes, 64,
                   s.waitBytes t core]
  sections.foldl (fun n k => n + padTo 64 k) 0

/-- SIZE of a task's image: one header, and the sections of each member (DEDUCED, log entry 39). -/
def State.imageSize (s : State) (t : Task) : Nat := t.cores.foldl (fun n k => n + s.memberBytes t k) 64

/-- The 64 KiB regions of a core's reservation that do not read as zero (R64, R65). -/
def State.spadRegions (s : State) (core : Nat) : Nat := (s.usedRegions core (s.core core).spBase (s.core core).spResv).length

/-- The image with its scratchpad regions. -/
def State.imageTotal (s : State) (t : Task) : Nat :=
  s.imageSize t + t.cores.foldl (fun n k => n + regionSize * s.spadRegions k) 0

/-! ## The context area (R185) -/

def ctlArea (fn : Nat) : Nat := 0x6000 + 16 * fn
def State.areaBase (s : State) (fn : Nat) : Nat := (s.ctlGet (ctlArea fn)).toNat
def State.areaSize (s : State) (fn : Nat) : Nat := (s.ctlGet (ctlArea fn + 8)).toNat

/-- The saved contexts of a function. -/
def State.savedOf (s : State) (fn : Nat) : List SavedCtx :=
  s.saved.filter fun x => match s.task x.task with
    | none   => false
    | some t => t.fn == fn

/-- The lowest place for n bytes in the free part of a function's area (DEDUCED, log entry 39). The PF's own contexts have no
area. DEDUCED, log entry 25. -/
def State.areaPlace (s : State) (fn n : Nat) : Option Nat :=
  if 128 ≤ fn then none
  else
    let used := s.savedOf fn
    let free (a : Nat) : Bool :=
      s.areaBase fn ≤ a && a + n ≤ s.areaBase fn + s.areaSize fn && used.all fun x => a + n ≤ x.base || x.base + x.total ≤ a
    let tops := (s.areaBase fn :: used.map fun x => x.base + x.total).filter free
    match tops with
    | []      => none
    | a :: as => some (as.foldl min a)

/-- Whether the image of a task fits (R185). -/
def State.fits (s : State) (t : Task) : Bool := (s.areaPlace t.fn (s.imageTotal t)).isSome

/-- The event of an image that does not fit in its context area (R185). -/
def State.unfit (s : State) (t : Task) : State :=
  s.logEvent 10 (unitSrc (paneOf (t.cores.headD 0)) 6) 0xFF noElem 0 t.cont.taskid.toNat 0

/-- The switch bound in clk for an outgoing and an incoming image (R171). -/
def switchClk (out_ in_ : Nat) : Nat := 720 + (64 + ceilDiv out_ 128) + (64 + ceilDiv in_ 128) + 208

/-- 600 clk are 1 µs (R1). -/
def clkPerUs : Nat := 600

end Machine
end Sys2Proof
end

