-- ==== Sys2Proof/Machine/Sched.lean ====
section
/-!
DEFINITION. The scheduler: which record comes next and where it is placed (R164), whom it pre-empts (R164, R169, R132),
preload (R165), and the periods of contracts (R169).
-/

namespace Sys2Proof
namespace Machine

/-! ## Which record comes next (R164) -/

/-- An item of a queue as the scheduler sees it: its queue, its position there, and the record to run with the launch,
interval and log it carries; slot says that it has been loaded into a slot already (R165). -/
structure Cand where
  fn        : Nat
  prio      : Nat
  contract  : Nat
  pos       : Nat
  item      : QItem
  cont      : Record
  launch    : Option Nat
  interval  : Nat
  prefixLog : List LogEnt
  slot      : Option Preload
  deriving DecidableEq, Repr

/-- The record of work unit i of a launch (R161). -/
def LaunchSt.unit (l : LaunchSt) (i : Nat) : Record :=
  { l.cont with taskid := BitVec.ofNat 32 i, frame := l.cont.frame + BitVec.ofNat 64 (i * l.fstride) }

/-- What an item of a queue stands for. -/
def State.candOf (s : State) (fn prio contract pos : Nat) (x : QItem) : Option Cand :=
  match x with
  | .record r l i p => some { fn := s.fnOf l fn, prio := prio, contract := contract, pos := pos, item := x, cont := r,
                              launch := l, interval := i, prefixLog := p, slot := none }
  | .cursor k       => match s.launchOf (some k) with
    | none   => none
    | some l => some { fn := l.fn, prio := prio, contract := contract, pos := pos, item := x, cont := l.unit l.next,
                       launch := some k, interval := 0, prefixLog := [], slot := none }
  | .saved id       => match s.task id with
    | none   => none
    | some t => some { fn := t.fn, prio := prio, contract := contract, pos := pos, item := x, cont := t.cont,
                       launch := t.launch, interval := t.interval, prefixLog := t.prefixLog, slot := none }

/-- The saved context of a task. -/
def State.savedCtx (s : State) (id : Nat) : Option SavedCtx := s.saved.find? fun x => x.task == id

/-- A value that is written into the image when it arrives (R82): the result of an atomic at a peer. -/
def Access.unarrived (x : Access) : Bool :=
  match x.kind with
  | .amo _ _ _ _ _ _ _ _ => x.kind.isLate && (x.spans.zip x.ans).any fun p => keyIsPeer p.1.1 && p.2.isNone
  | .load _ _ _           => false
  | .fill _ _ _           => false
  | .value _ _            => false
  | .writes _             => false
  | .stq _ _ _ _          => false
  | .stab _ _ _ _ _ _     => false
  | .arm _                => false
  | .arrive _             => false
  | .await _ _ _          => false

/-- Some access of a list to a peer will still be performed while its context is saved: nothing that waits for the restore holds it
back. -/
def canArrive : List Access → List Access → Bool
  | _, []       => false
  | es, x :: xs =>
    (x.kind.underway && (List.range x.spans.length).any fun j =>
      keyIsPeer (x.spans.getD j (0, 0)).1 && (x.ans.getD j none).isNone &&
        ((x.sent.any fun p => p.1 == j) || mayPerform (x.earlier j es xs) x j)) || canArrive (es ++ [x]) xs

/-- A pending system fence whose accesses are not all performed: its status goes into the image once they are (R82). One that only the
restored context can end, for a load to be performed again, an await or a claim without data is before it, is no value still to arrive. -/
def State.fenceOpen (s : State) (n : Nat) (sd : Side) : Bool :=
  ((s.core n).side sd).fence.isSome && !({ s with cur := { core := n, side := sd } } : State).covered .sys &&
    (s.gang n).any fun g => canArrive [] (s.core g).pend

/-- Values that a saved image still waits for (R82, R188). -/
def State.incomplete (s : State) (t : Task) : Bool :=
  t.cores.any fun n => ((s.core n).pend.any Access.unarrived) || s.fenceOpen n .A || s.fenceOpen n .X

/-- Samples of a task whose checks are under way (R317). -/
def State.sampled (s : State) (id : Nat) : Bool := s.panes.toList.any fun p => p.samples.any fun x => x.task == some id

/-- VLMAX that a core must supply for an item: what VLFIX gives, what the image was saved at, or any (R134, R188). -/
def State.needs (s : State) (c : Cand) (pane : Nat) : Nat × Nat :=
  match c.item with
  | .saved id => (match s.savedCtx id, s.task id with
    | some x, some t => ((s.core (t.cores.headD 0)).vnreg, x.vlmax)
    | _, _           => (4, 0))
  | _ => match s.launchOf c.launch with
    | none   => (4, 0)
    | some l =>
      if l.det then
        match s.header (pane * 256) (asidOfFn c.fn) c.cont.image with
        | .ok h    => (h.vnreg, 2 ^ l.vlfix)
        | .error _ => (4, 0)
      else (4, 0)

/-- Whether a core can hold a member of an item's gang: a lane group in service, and the VLMAX it needs. A task that starts counts the lane
groups that LANEOK gives, a saved one those in service since the last start (R198). -/
def Core.supplies (c : Core) (need : Nat × Nat) (start : Bool) : Bool :=
  let lanes := if start then c.laneok else c.lanes
  lanes != 0 && need.2 ≤ vlmaxOf need.1 4096 lanes.toNat

/-- Cores of a pane that can hold a member, in ascending index. -/
def State.supply (s : State) (c : Cand) (pane : Nat) : List Nat :=
  let need := s.needs c pane
  let start := match c.item with
    | .saved _        => false
    | .record _ _ _ _ => true
    | .cursor _       => true
  ((List.range 256).map fun i => pane * 256 + i).filter fun n => (s.core n).supplies need start

/-- Panes an item may run in. -/
def State.panesOf (s : State) (c : Cand) : List Nat :=
  (List.range 8).filter fun p => 64 ≤ c.contract || bit (s.cPanes c.contract) p

/-- Whether some pane can ever hold the gang. -/
def State.holdable (s : State) (c : Cand) : Bool := (s.panesOf c).any fun p => c.cont.gsize ≤ (s.supply c p).length

/-- A deterministic record that no pane supplies fails with VL_RANGE (R164). -/
def State.vlfixFails (s : State) (c : Cand) : Bool :=
  (match s.launchOf c.launch with
    | none   => false
    | some l => l.det) && !s.holdable c && (s.panesOf c).any fun p => (s.needs c p).2 != 0

/-- Items passed over: tasks that wait for their merge, and records that no pane can hold. -/
def State.skipped (s : State) (c : Cand) : Bool :=
  match c.item with
  | .saved id => (match s.task id with
    | none   => true
    | some t => s.atDsync t || !s.holdable c)
  | .record _ _ _ _ => !s.holdable c && !s.vlfixFails c
  | .cursor _       => !s.holdable c && !s.vlfixFails c

/-- An image that waits for its pending values (R188), and its queue with it: nothing of a queue goes before a task that was
pre-empted (R156). -/
def State.unready (s : State) (c : Cand) : Bool :=
  match c.item with
  | .saved id => (match s.task id with
    | none   => false
    | some t => s.incomplete t || s.sampled id)
  | .record _ _ _ _ => false
  | .cursor _       => false

/-- The record of a preload as the scheduler sees it: it has left its queue, and goes before what is still there (R157). -/
def Preload.cand (p : Preload) : Cand :=
  { fn := p.fn, prio := p.cont.prio, contract := p.cont.contract, pos := 0, item := .record p.cont p.launch p.interval p.prefixLog
    cont := p.cont, launch := p.launch, interval := p.interval, prefixLog := p.prefixLog, slot := some p }

/-- The first item of a queue that is not passed over, if it is ready: one that stands in a slot goes first (R157). -/
def State.headOf (s : State) (fn prio contract : Nat) : Option Cand :=
  let items := (s.queueOf fn prio contract).zipIdx.filterMap fun p => s.candOf fn prio contract p.2 p.1
  let mine (p : Preload) : Bool := p.cont.contract == contract && p.cont.prio == prio && p.fn == fn
  match s.preloads.find? mine with
  | some p => some p.cand
  | none   => (items.find? fun c => !s.skipped c).filter fun c => !s.unready c

/-- Contracts whose queues are released, in the order of R164. -/
def State.releasedContracts (s : State) : List Nat :=
  (List.range 8).reverse.flatMap fun p => (List.range 64).filter fun k => s.cAdm k && (s.contract k).released && s.cPrio k == p

/-- Functions with records, those after the one served last first. DESIGN CHOICE, log entry 50. -/
def State.rotation (s : State) (prio : Nat) : List Nat :=
  let fs := (s.fns.filter fun q => !(q.2.queue prio).isEmpty).map fun q => q.1
  let last := s.served.getD prio pfNo
  (fs.filter fun f => last < f) ++ fs.filter fun f => f ≤ last

/-- Every queue in the order in which it is served (R164). -/
def State.queueOrder (s : State) : List (Nat × Nat × Nat) :=
  (s.releasedContracts.map fun k => (s.cVf k, 0, k)) ++
    (List.range 8).reverse.flatMap fun p => (s.rotation p).map fun f => (f, p, 0xFF)

/-- The first record of each queue, in the order in which they are served. -/
def State.queueHeads (s : State) : List Cand := s.queueOrder.filterMap fun q => s.headOf q.1 q.2.1 q.2.2

/-- The record that comes next on a pane (R164). -/
def State.candFor (s : State) (pane : Nat) : Option Cand := s.queueHeads.find? fun c => (s.panesOf c).contains pane

/-- The records that are served before one of them. -/
def State.ahead (s : State) (c : Cand) : List Cand := s.queueHeads.takeWhile fun d => d != c

/-- The panes that an item may take: those that a record served before it does not wait for. DESIGN CHOICE, log entry 89. -/
def State.openPanes (s : State) (c : Cand) : List Nat :=
  let held := (s.ahead c).flatMap s.panesOf
  (s.panesOf c).filter fun p => !held.contains p

/-! ## Where it goes (R164, R169) -/

/-- What the scheduler does with a record: nothing, for lack of cores, or because tasks are being stopped for it already; report it
failed, place it on these cores, or stop these tasks, passing over those whose images would not fit. -/
inductive Plan where
  | wait
  | soon
  | fail
  | place (cores : List Nat)
  | stop (victims passed : List Nat)
  deriving DecidableEq, Repr

def State.idleCore (s : State) (n : Nat) : Bool := (s.core n).task.isNone

def Task.isRunning (t : Task) : Bool :=
  match t.phase with
  | .running     => true
  | .placed      => false
  | .stopping _  => false
  | .saved       => false
  | .exiting _ _ => false
  | .discarded _ => false

def Task.isStopping (t : Task) : Bool :=
  match t.phase with
  | .stopping _  => true
  | .running     => false
  | .placed      => false
  | .saved       => false
  | .exiting _ _ => false
  | .discarded _ => false

/-- The reservation that an image asks for; 32 where it cannot be read. -/
def State.resvOf (s : State) (core fn : Nat) (r : Record) : Nat :=
  match s.header core (asidOfFn fn) r.image with
  | .ok h    => h.resv
  | .error _ => 32

/-- The size of what an item brings with it to the cores of a task, a saved image with the regions that are to be read back there (R171),
and its reservation. -/
def State.incoming (s : State) (c : Cand) (cores : List Nat) : Nat × Nat :=
  match c.item with
  | .saved id       => (match s.savedCtx id with
    | none   => (0, 0)
    | some x =>
      let back := if x.stay then (x.old.map fun o => (s.usedRegions o.1 o.2 (s.savedResv x)).length).sum
        else (x.spad.map List.length).sum
      (if x.stay && x.old.map (fun o => o.1) == cores then x.size else x.size + regionSize * back, s.savedResv x))
  | .record _ _ _ _ => (0, s.resvOf (cores.headD 0) c.fn c.cont)
  | .cursor _       => (0, s.resvOf (cores.headD 0) c.fn c.cont)

/-- The bound of a merge part in clk: 20 µs (R132, R170, R171). -/
def mergeClk : Nat := 20 * clkPerUs

/-- Whether a reservation of n regions on the cores of a task meets the regions that a function gives for each, beside the preloads, the
resident contexts and the task's own reservation there (R65). -/
def State.wouldMeet (s : State) (t : Task) (n : Nat) (held : Nat → List Nat) : Bool :=
  t.cores.any fun k =>
    let own := regionsAt (s.core k).spBase (s.core k).spResv
    (regionsAt (spotBeside (s.preRegions k) (own :: s.stayRegions k) n) n).any (held k).contains

/-- The switch bound of a task for an item (R171): reservations that do not stay resident are written out (R65), and a merge part is
waited for. -/
def State.switchBound (s : State) (c : Cand) (t : Task) : Nat :=
  let in_ := s.incoming c t.cores
  let mine := if s.wouldMeet t in_.2 fun k => regionsAt (s.core k).spBase (s.core k).spResv then s.imageTotal t else s.imageSize t
  let others := s.saved.filter fun x => s.wouldMeet t in_.2 fun k => x.regionsOn (s.savedResv x) k
  let spill (x : SavedCtx) : Nat := (x.old.map fun o => (s.usedRegions o.1 o.2 (s.savedResv x)).length).sum
  let out_ := mine + regionSize * (others.map spill).sum
  switchClk out_ in_.1 + (if s.atDsync t then mergeClk else 0)

/-- Whether a task may be stopped for a record: a lower priority, or any but a contract's for a contract within its SWUS (R164, R169);
or one that waits at dsync before the merge (R132). A contract's record passes over any whose switch bound is above its SWUS, and stops
another contract's task at no time; one of its own launch may wait for it at dsync. -/
def State.victim (s : State) (c : Cand) (t : Task) : Bool :=
  let mergeless := match s.launchOf t.launch with
    | none   => false
    | some l => l.det && l.merging.isNone
  let rests := mergeless && s.atDsync t
  t.isRunning &&
    (if c.contract < 64 then (64 ≤ t.cont.contract || (rests && t.launch == c.launch)) && s.switchBound c t ≤ clkPerUs * s.cSwus c.contract
     else rests || (64 ≤ t.cont.contract && t.cont.prio < c.cont.prio))

/-- Victims in order: the lowest priority first, among equals the most recently started. -/
def insertVictim (t : Task) : List Task → List Task
  | []      => [t]
  | u :: us =>
    if t.cont.prio < u.cont.prio || (t.cont.prio == u.cont.prio && u.started < t.started) then t :: u :: us
    else u :: insertVictim t us

/-- Victims taken until enough cores are freed: their ids, and whether they are enough. -/
def takeVictims (supply : List Nat) : Nat → List Task → List Nat × Bool
  | 0, _           => ([], true)
  | _ + 1, []      => ([], false)
  | n + 1, t :: ts =>
    let freed := (t.cores.filter supply.contains).length
    let r := takeVictims supply (n + 1 - freed) ts
    if freed = 0 then takeVictims supply (n + 1) ts else (t.id :: r.1, r.2)

/-- The plan for a pane that lacks idle cores: victims and those passed over, if they are enough. -/
def State.paneVictims (s : State) (c : Cand) (pane : Nat) : Option (List Nat × List Nat) :=
  let sup := s.supply c pane
  let here := s.tasks.filter fun t => t.cores.any fun n => paneOf n == pane
  let free := (sup.filter fun n => s.idleCore n).length +
    ((here.filter Task.isStopping).flatMap fun t => t.cores.filter sup.contains).length
  let cands := here.filter fun t => s.victim c t
  let passed := cands.filter fun t => !s.fits t
  let order := (cands.filter fun t => s.fits t).foldl (fun l t => insertVictim t l) []
  let r := takeVictims sup (c.cont.gsize - free) order
  if r.2 then some (r.1, passed.map fun t => t.id) else none

/-- The plan for a record (R164), on the panes that are open to it. -/
def State.planFor (s : State) (c : Cand) : Plan :=
  if s.vlfixFails c then .fail
  else
    let idle (p : Nat) : List Nat := (s.supply c p).filter fun n => s.idleCore n
    match (s.openPanes c).find? fun p => c.cont.gsize ≤ (idle p).length with
    | some p => .place ((idle p).take c.cont.gsize)
    | none   =>
      let opts := (s.openPanes c).filterMap fun p => s.paneVictims c p
      match opts with
      | []      => .wait
      | o :: os =>
        let best := os.foldl (fun b x => if x.1.length < b.1.length then x else b) o
        if best.1.isEmpty then .soon else .stop best.1 best.2

/-- Something is done for a record now. -/
def Plan.acts : Plan → Bool
  | .wait      => false
  | .soon      => false
  | .fail      => true
  | .place _   => true
  | .stop _ _  => true

/-- The next record of the device: the first for which something can be done, or else the first that waits. -/
def State.nextCand (s : State) : Option Cand :=
  (s.queueHeads.find? fun c => (s.planFor c).acts).or s.queueHeads.head?

/-! ## Taking a record -/

/-- A list without one position. -/
def dropAt (xs : List α) (n : Nat) : List α := xs.take n ++ xs.drop (n + 1)

/-- A launch starts with its first record: memory as it stands is the base view of interval 0 (R129), and no code cache holds a line of
its ASID (R76). -/
def State.startLaunch (s : State) (l : LaunchSt) : State :=
  let drop (c : Core) : Core := { c with icache := c.icache.filter fun x => x.asid != asidOfFn l.fn }
  ({ s with cores := s.cores.map fun q => (q.1, drop q.2) } : State).setLaunch { l with base := s.mem }

/-- The item leaves its queue; a cursor leaves with its last record, and each record it makes is counted (R161). -/
def State.takeCand (s : State) (c : Cand) : State :=
  let q := s.queueOf c.fn c.prio c.contract
  let turn (p : Nat) : Nat := if p = c.prio then c.fn else s.served.getD p pfNo
  let s1 := if c.contract < 64 then s.setContract c.contract { s.contract c.contract with owed := (s.contract c.contract).owed - 1 }
    else { s with served := (List.range 8).map turn }
  match c.item with
  | .record _ _ _ _ => s1.setQueueOf c.fn c.prio c.contract (dropAt q c.pos)
  | .saved _        => s1.setQueueOf c.fn c.prio c.contract (dropAt q c.pos)
  | .cursor k       => match s1.launchOf (some k) with
    | none   => s1
    | some l =>
      let s2 := (if l.next = 0 then s1.startLaunch l else s1).onLaunch (some k) fun x => { x with next := x.next + 1, out := x.out + 1 }
      if l.next + 1 < l.count then s2 else s2.setQueueOf c.fn c.prio c.contract (dropAt q c.pos)

/-! ## Preload slots (R165) -/

/-- What becomes of preloads when a gang is placed on cores of theirs (R165): one that fits beside the reservation stays, and runs next
where the cores are the same; another is evicted. -/
def State.settlePreloads (s : State) (cores : List Nat) (resv : Nat) : State :=
  s.preloads.foldl (fun s p =>
    if !(p.cores.any cores.contains) then s
    else if 32 < resv + p.pre then s.evict p
    else { s with preloads := s.preloads.map fun x => if x == p then { x with parked := p.cores != cores } else x }) s

/-- Where the scheduler has nothing for idle cores, a task preloaded there that is parked runs (R165: no record is lost). -/
def State.startParked (s : State) : State :=
  if s.tasks.any Task.isStopping then s
  else match s.preloads.find? fun p => p.parked && p.cores.all fun n => s.idleCore n with
    | none   => s
    | some p =>
      ({ s with preloads := s.preloads.map fun x => if x == p then { x with parked := false } else x } : State).startPreload p.cores

/-- The tasks that would be stopped for a record if their images fitted (R185). -/
def State.misfits (s : State) (c : Cand) : List Nat :=
  let near (t : Task) : Bool := (s.openPanes c).any fun p => t.cores.any fun n => paneOf n == p
  (s.tasks.filter fun t => near t && s.victim c t && !s.fits t).map fun t => t.id

/-- A kind 10 event for each of these tasks that was not passed over for the same record last (R185). DEDUCED, log entry 90. -/
def State.passOver (s : State) (c : Cand) (ids : List Nat) : State :=
  ids.foldl (fun s id => match s.task id with
    | none   => s
    | some t =>
      if t.passedBy == some c.cont then s
      else (s.setTask { t with passedBy := some c.cont }).unfit t) s

/-- A release that finds nobody to stop for one of its records is late, once (R169). -/
def State.late (s : State) (c : Cand) : State :=
  let k := c.contract
  if 64 ≤ k || (s.contract k).owed = 0 then s
  else
    let s1 := (s.setCstat k (s.cRemain k) (s.cOverruns k) (s.cLate k + 1)).setContract k { s.contract k with owed := 0 }
    s1.logEvent 11 (unitSrc ((s.panesOf c).headD 0) 6) 0xFF noElem 0 c.cont.taskid.toNat 0

/-- The releases that wait with nothing under way for them or before them are late (R169). -/
def State.lateAll (s : State) : State :=
  let waits (c : Cand) : Bool := s.planFor c == .wait
  (s.queueHeads.takeWhile fun c => waits c && c.contract < 64).foldl (fun t c => (t.late c).passOver c (s.misfits c)) s

/-- A record placed on cores: one that stood in a slot goes back to its queue first (R157, R165). -/
def State.placeCand (s : State) (c : Cand) (cores : List Nat) : State :=
  match c.slot with
  | some p => s.evict p
  | none   => ((s.takeCand c).settlePreloads cores (s.resvOf (cores.headD 0) c.fn c.cont)).newTask c.fn c.cont c.launch c.interval
      c.prefixLog cores

/-- RECORD_PLACEMENT (R164): the next record is placed, reported as failed, or has victims stopped for it; a saved
context is left to CONTEXT_RESTORE. -/
def execRecordPlacement (s : State) : Host.Outcome State Fault Refusal :=
  .next (match s.nextCand with
    | none   => s.startParked
    | some c => match s.planFor c with
      | .wait        => (s.lateAll.passOver c (s.misfits c)).startParked
      | .soon        => s.lateAll
      | .fail        =>
        ((s.lateAll.takeCand c).launchFails c.launch c.cont.taskid cVL_RANGE c.cont.taskid.toNat 0).launchDrop c.launch
      | .stop vs ps  =>
        vs.foldl (fun s id => match s.task id with
          | none   => s
          | some t => s.setTask { t with phase := .stopping false }) (s.lateAll.passOver c ps)
      | .place cores => match c.item with
        | .saved _        => s.lateAll
        | .record _ _ _ _ => s.lateAll.placeCand c cores
        | .cursor _       => s.lateAll.placeCand c cores)

/-- The record that would start next on the cores of a task: one that fits there and for which no cores are free or being freed (R157,
R165). -/
def State.preloadable (s : State) (t : Task) (k : Cand) : Bool :=
  let pane := paneOf (t.cores.headD 0)
  let fresh := match k.item with
    | .saved _        => false
    | .record _ _ _ _ => true
    | .cursor _       => true
  t.isRunning && fresh && k.slot.isNone && s.planFor k == .wait && k.cont.gsize == t.cores.length && (s.panesOf k).contains pane &&
    (t.cores.all fun n => (s.supply k pane).contains n) && s.preloads.all fun p => !p.cores.any t.cores.contains

/-- The code lines of an image's two entries as the cores of a gang would fetch them (R76, R165). -/
def State.entryLines (s : State) (core asid : Nat) (image : Word) (h : ImageHdr) : List CodeLine :=
  let how : How := { core := core, super := false, asid := asid, acc := .fetch, scalar := true, size := 4 }
  [h.aentry, h.xentry].eraseDups.filterMap fun o =>
    let a := image + BitVec.ofNat 64 o
    match s.place how a with
    | .ok (.mem k) => some { asid := asid, va := a.toNat / 128 * 128, bytes := Memory.readN s.mem (k / 128 * 128) 128 }
    | _            => none

/-- The preload bytes of a record brought into the scratchpads of a gang, beside the current reservation and, where it can be, the
resident contexts there (R64), and the record into their slots, with its header and its code (R165). What of the code is loaded is the
lines of the two entries. DESIGN CHOICE, log entry 10. -/
def State.fillPreload (s : State) (t : Task) (k : Cand) (h : ImageHdr) (hd bs : List Byte) : State :=
  let base (n : Nat) : Nat := spotBeside (regionsAt (s.core n).spBase (s.core n).spResv) (s.stayRegions n) h.pre
  let asid := asidOfFn k.fn
  let s1 := (s.takeCand k).claimSpad t.cores (t.cores.map base) h.pre
  { s1 with
    mem := t.cores.foldl (fun m n => fillRegions m n (base n) bs) s1.mem
    preloads := s1.preloads ++ [{ cores := t.cores, fn := k.fn, cont := k.cont, launch := k.launch, interval := k.interval,
                                  prefixLog := k.prefixLog, asid := asid, resv := h.resv, pre := h.pre
                                  bases := t.cores.map base, head := hd
                                  lines := s.entryLines (t.cores.headD 0) asid k.cont.image h, parked := false }] }

/-- PRELOAD (R64, R165): the record that would start next on the gang of a core goes into its slots, if it is of the same
size and its preload fits beside the current reservation. -/
def execPreload (c : CoreId) (s : State) : Host.Outcome State Fault Refusal :=
  .next (match (s.core c.no).task.bind s.task, s.candFor c.pane.val with
    | some t, some k =>
      if !s.preloadable t k then s
      else
        let lead := t.cores.headD 0
        let asid := asidOfFn k.fn
        let failed (e : Nat × Word) : State :=
          ((s.takeCand k).launchFails k.launch k.cont.taskid e.1 k.cont.taskid.toNat e.2).launchDrop k.launch
        match s.header lead asid k.cont.image with
        | .error e => failed e
        | .ok h    =>
          if 32 < (s.core lead).spResv + h.pre then s
          else match s.readVirt lead asid (h.pre * regionSize) h.preptr with
            | .error e => failed e
            | .ok bs   => match s.readVirt lead asid 64 k.cont.image with
              | .error e => failed e
              | .ok hd   => s.fillPreload t k h hd bs
    | _, _ => s)

/-! ## Contract periods (R169) -/

/-- The end of the period of a contract. -/
def State.periodEnd (s : State) (k : Nat) : Nat := (s.contract k).start.toNat + 1000 * s.cPeriod k

/-- The records that a queue holds: those of a cursor are all its launch has still to make (R161). -/
def State.queueCount (s : State) (k : Nat) : Nat :=
  (s.cqueue k).foldl (fun n x => n + (match x with
    | .record _ _ _ _ => 1
    | .saved _        => 1
    | .cursor l       => match s.launchOf (some l) with
      | none   => 0
      | some y => y.count - y.next)) 0

/-- CONTRACT_PERIOD_START (R169): REMAIN is refilled, and the queue released. -/
def execContractPeriodStart (k : Fin 64) (s : State) : Host.Outcome State Fault Refusal :=
  .next <|
    let i := k.val
    if !s.cAdm i || s.gts.toNat < s.periodEnd i then s
    else
      let s1 := s.chargeContract i
      let s2 := s1.setCstat i (s1.cBudget i) (s1.cOverruns i) (s1.cLate i)
      s2.setContract i { start := BitVec.ofNat 64 (s.periodEnd i), charged := s.gts, used := 0, released := true,
                         owed := s2.queueCount i }

/-- CONTRACT_ADMIT (R168): the first period begins when ADM becomes 1; a refusal sets REJ and clears EN. -/
def execContractAdmit (k : Fin 64) (s : State) : Host.Outcome State Fault Refusal :=
  .next <|
    let i := k.val
    if !s.cEn i || s.cAdm i then s
    else if s.contractOk i && s.admissible i then
      let s1 := s.ctlSet (ctlCctl i) (BitVec.ofNat 64 (2 ^ 63 + 2 ^ 62 + cctlFields (s.cctl i)))
      (s1.setCstat i (s.cBudget i) 0 (s.cLate i)).setContract i
        { start := s.gts, charged := s.gts, used := 0, released := true, owed := s1.queueCount i }
    else s.ctlSet (ctlCctl i) (BitVec.ofNat 64 (2 ^ 61 + cctlFields (s.cctl i)))

/-- A task stopped at the end of its budget: one that was placed starts first. -/
def State.stopOverrun (s : State) (t : Task) : State :=
  let s1 := if t.phase == .placed then s.startTask t else s
  match s1.task t.id with
  | none   => s1
  | some u => s1.setTask { u with phase := .stopping true }

/-- CONTRACT_OVERRUN (R169): REMAIN has reached 0 with a task placed; the contract's tasks are stopped, and its queue waits
for the next period. -/
def execContractOverrun (k : Fin 64) (s : State) : Host.Outcome State Fault Refusal :=
  .next <|
    let i := k.val
    let s1 := s.chargeContract i
    let due := (s1.contractTasks i).filter fun t => match t.phase with
      | .placed      => true
      | .running     => true
      | .stopping b  => !b
      | .exiting _ _ => false
      | .discarded _ => false
      | .saved       => false
    if s1.cAdm i && s1.cRemain i == 0 && !due.isEmpty then
      let s2 := due.foldl (fun s t =>
        (s.stopOverrun t).logEvent 7 (unitSrc (paneOf (t.cores.headD 0)) 6) 0xFF noElem 0
          t.cont.taskid.toNat cCONTRACT_OVERRUN) s1
      let s3 := s2.setCstat i 0 (s2.cOverruns i + due.length) (s2.cLate i)
      s3.setContract i { s3.contract i with released := false }
    else s1

end Machine
end Sys2Proof
end

