-- ==== Sys2Proof/Machine/Context.lean ====
section
/-!
DEFINITION. Stopping a context, saving it and restoring it (R65, R71, R82, R87, R103, R124, R183 to R188, R207).
-/

namespace Sys2Proof
namespace Machine

/-- STOP_REQUEST (R183): both sides of every member stop issuing. -/
def execStopRequest (task : Nat) (why : StopWhy) (s : State) : Host.Outcome State Fault Refusal :=
  .next (match s.task task with
    | none   => s
    | some t => if t.isRunning then s.setTask { t with phase := .stopping (why == .overrun) } else s)

/-! ## The stop point (R170, R183) -/

/-- Whether some access of a list may still be performed here and must be before its context is saved: stores, arrivals,
atomics and fills that nothing holds back. A load is abandoned (R82). -/
def canPerform : List Access → List Access → Bool
  | _, []       => false
  | es, x :: xs =>
    let wanted := x.kind.isPosted || (x.kind.isLate && !(match x.kind with
      | .load _ _ _       => true
      | .fill _ _ _       => false
      | .writes _         => false
      | .stq _ _ _ _      => false
      | .stab _ _ _ _ _ _ => false
      | .amo _ _ _ _ _ _ _ _ => false
      | .arm _            => false
      | .arrive _         => false
      | .await _ _ _      => false
      | .value _ _        => false))
    (wanted && (List.range x.spans.length).any fun j => !keyIsPeer (x.spans.getD j (0, 0)).1 && mayPerform (x.earlier j es xs) x j) ||
      canPerform (es ++ [x]) xs

/-- A request of a conversation is out, or answered and not yet looked at: its instruction is not interruptible (R103,
R170). -/
def Core.convOut (c : Core) : Bool :=
  match c.conv with
  | some (.sent _ _)      => true
  | some (.void _ _)      => true
  | some (.replied _ _ _) => true
  | some (.release _)     => false
  | some (.again _ _)     => false
  | none                  => false

/-- Every side of a core has reached its stop point. -/
def State.stopped (s : State) (n : Nat) : Bool :=
  let c := s.core n
  c.cbld.isNone && !c.convOut && !canPerform [] c.pend

/-! ## Saving (R185) -/

/-- The first span of a peer access that has not been performed: one without an answer, or the lowest that faulted (R170, R184). -/
def Access.firstUndone (x : Access) (w : PeerWait) : Option Nat :=
  let n := (x.spans.zip x.ans).findIdx? fun p => keyIsPeer p.1.1 && p.2.isNone
  match n, w.fault with
  | some j, some f => some (min j f.1)
  | some j, none   => some j
  | none, _        => none

/-- A fabric load that the A-side waits for is abandoned and will issue again (R170): a scalar one at its instruction, a queue load from
VSTART, the first element not performed, with its entry held there (R87, R184). One whose answers have all come goes on with them. An
atomic is not repeated (R82). One of a handler is held beside the entry of the trap, and VSTART goes back to what the trap left when it
retires. DEDUCED, log entry 48. -/
def Core.abandon (c : Core) : Core :=
  match c.peerWait with
  | none   => c
  | some w =>
    match c.pend.find? fun x => x.id == w.id with
    | none   => { c with peerWait := none }
    | some x => match x.kind with
      | .load d _ _ => { (c.dropPend x.id).setFull .A d true with peerWait := none }
      | .fill q e _ =>
        (match x.firstUndone w with
          | none   => c
          | some j =>
            let idx := (w.units.getD j (0, 0)).1
            let c1 := (c.mapPend x.id fun y => { y with spans := y.spans.take j, ans := y.ans.take j
                                                        sent := y.sent.filter fun p => p.1 < j }).holdEntry q e (some idx)
            let c2 := { c1 with peerWait := none, av := { c.av with vstart := BitVec.ofNat 32 idx } }
            if causeInh c.av.cause then { c2 with heldInh := some (c.av.pc, (c.heldInh.map fun h => h.2).getD c.av.vstart) }
            else { c2 with heldEpc := some c.av.pc })
      | .amo _ _ _ _ _ _ _ _ => c
      | .writes _   => c
      | .stq _ _ _ _ => c
      | .stab _ _ _ _ _ _ => c
      | .arm _      => c
      | .arrive _   => c
      | .await _ _ _ => c
      | .value _ _  => c

/-- A fence towards this device is given up and issues again; a system fence stays pending (R82, R106). -/
def SideSt.dropFence (t : SideSt) : SideSt :=
  match t.fence with
  | none   => { t with waitTo := none }
  | some f => { t with waitTo := none, fence := match f.scope with
    | .sys  => some f
    | .core => none
    | .gang => none
    | .pane => none
    | .dev  => none }

/-- A scalar load as the image holds it: to be performed again (R82). -/
def Access.saved (x : Access) : Access :=
  match x.kind with
  | .load _ _ _       => { x with spans := [], ans := [], sent := [] }
  | .fill _ _ _       => x
  | .writes _         => x
  | .stq _ _ _ _      => x
  | .stab _ _ _ _ _ _ => x
  | .amo _ _ _ _ _ _ _ _ => x
  | .arm _            => x
  | .arrive _         => x
  | .await _ _ _      => x
  | .value _ _        => x

/-- A role register as the image holds it: its messages go back to the home (R207). -/
def Role.saved (y : Role) : Role := { y with buf := [], ended := none, waits := true }

/-- The banks as the image holds them: a second copy that nothing pins is not saved and becomes invalid (R185, R186). -/
def Core.savedBanks (c : Core) : Vector Bank 8 :=
  Vector.ofFn fun b => if c.pin2 b then c.banks[b] else { c.banks[b] with other := { (c.banks[b]).other with valid := [] } }

/-- A member as its image holds it: what waits is given up, louvres go back (R82, R87, R172, R207). -/
def Core.toSave (c : Core) : Core :=
  let c1 := c.abandon
  let halt (m : MacroOp) : MacroOp := { m with granted := false, run := false, waits := [] }
  { c1 with
    av := c1.av.dropFence, xv := c1.xv.dropFence, conv := none, ldabTry := none, wktHeld := none, emptyRead := none
    pend := c1.pend.map Access.saved, mops := c1.mops.map halt, roles := c1.roles.map fun r => r.map Role.saved
    banks := c1.savedBanks }

/-- The messages of a stopping context return to their homes, which learn that its roles are parked (R207). -/
def State.parkRoles (s : State) (core : Nat) : State :=
  let p := s.partyOf core
  (s.core core).roles.toList.foldl (fun s x => match x with
    | none   => s
    | some y => (s.giveBackAll y).tellHome y (fun s => s.homeRole (y.conv % 2 ^ 14) y.role p (.parked p)) (.park y.conv y.role p)) s

/-- The place outside the panes of a member of a saved context (DESIGN CHOICE, log entry 11). -/
def savedCore (task gpos : Nat) : Nat := 2 ^ 16 + 16 * task + gpos

/-- n undefined bytes, numbered from a seed. -/
def undefBytes (seed n : Nat) : List Byte := (List.range n).map fun i => BitVec.ofNat 8 (Config.undef (seed + i)).toNat

/-- The header of an image (R185); where a record lies that was pushed is not stated, so its address is undefined. DESIGN CHOICE, log entry 11. -/
def State.imageHeader (s : State) (t : Task) (size : Nat) : List Byte :=
  let c := s.core (t.cores.headD 0)
  leBytes 4 0x2C7E0A19 ++ leBytes 2 1 ++ leBytes 1 (Nat.log2 c.vnreg - 2) ++ leBytes 1 (Nat.log2 c.vlmax) ++ leBytes 4 size ++
    leBytes 4 (if s.incomplete t || s.sampled t.id then 1 else 0) ++ leBytes 8 (Config.undef s.undefCtr).toNat ++ List.replicate 40 0

/-- A saved task waits at the head of its queue, among others there in the order in which they first started (R156). -/
def State.queueSaved (s : State) (t : Task) : State :=
  let q := s.queueOf t.fn t.cont.prio t.cont.contract
  let before (x : QItem) : Bool := match x with
    | .saved id       => (match s.task id with
      | none   => false
      | some u => u.started < t.started)
    | .record _ _ _ _ => false
    | .cursor _       => false
  s.setQueueOf t.fn t.cont.prio t.cont.contract (q.takeWhile before ++ .saved t.id :: q.dropWhile before)

/-- Requests of a gang to the wicket withdrawn, and its cards taken out of the window. -/
def Pane.release (p : Pane) (cores : List Nat) : Pane :=
  let mine := (p.cards.filter fun k => cores.contains k.core).map fun k => k.id
  { p with
    cards := p.cards.filter fun k => !cores.contains k.core
    reqs := p.reqs.filter fun r => match r.who with
      | .mop n   => !cores.contains n
      | .ahead n => !cores.contains n
      | .card k  => !mine.contains k }

/-- The samples of a task that is saved: their results are still to arrive (R317). -/
def Pane.stopSamples (p : Pane) (s : State) (id : Nat) : Pane :=
  { p with samples := p.samples.map fun x => if x.task == some id then s.keepCopies x else x }

/-- A card as the image holds it: its progress, its table and a fault that it has found stay (R124). -/
def Card.saved (k : Card) : Card :=
  { k with louv := false, asked := [], edges := []
           phase := match k.phase with
             | .failing a b => .failing a b
             | .accepted    => .accepted
             | .waiting     => .accepted
             | .running     => .accepted }

/-- The image of a stopped task written to its place in the area, and its cores freed. The sections of the image are undefined bytes there
(DESIGN CHOICE, log entry 11). The reservation stays resident until a task is placed that it leaves no room for (R65). What becomes of a
preload is the same for every stop but an overrun. DESIGN CHOICE, log entry 88. -/
def State.saveTask (s : State) (t : Task) (overrun : Bool) (base : Nat) : State :=
  let size := s.imageSize t
  let lead := s.core (t.cores.headD 0)
  let pane := paneOf (t.cores.headD 0)
  let bytes := s.imageHeader t size ++ undefBytes (s.undefCtr + 1) (size - 64)
  let cards := ((s.pane pane).cards.filter fun k => t.cores.contains k.core).map Card.saved
  let ctx : SavedCtx := { task := t.id, old := t.cores.map fun n => (n, (s.core n).spBase), cards := cards, spad := [], stay := true,
                          base := base, size := size, total := s.imageTotal t, vlmax := lead.vlmax, overrun := overrun }
  let s1 := t.cores.foldl (fun s n => s.parkRoles n) s.chargeAll
  let move (s : State) (p : Nat × Nat) : State :=
    let c := s.core p.1
    ((s.setCore (savedCore t.id p.2) c.toSave).setCore p.1 c.idle).forgetPages p.1
  let s2 := t.cores.zipIdx.foldl move s1
  let parks (p : Preload) : Preload := if p.cores == t.cores && !overrun then { p with parked := true } else p
  let s3 : State := { s2 with
    mem := Memory.writeN s2.mem (dramKey base) bytes
    undefCtr := s2.undefCtr + size
    saved := s2.saved ++ [ctx]
    preloads := s2.preloads.map parks }
  let s4 := s3.setPane pane (((s3.pane pane).release t.cores).stopSamples s t.id)
  let t1 := { t with phase := .saved, cores := t.cores.zipIdx.map fun p => savedCore t.id p.2 }
  let s5 := (s4.setTask t1).queueSaved t1
  if overrun then s5.startPreload t.cores else s5

/-- CONTEXT_SAVE (R183, R185): a stopped task is saved; where its image does not fit it runs on, or is removed when its
budget is used up; the step logs the event of a removal. -/
def execContextSave (task : Nat) (s : State) : Host.Outcome State Fault Refusal :=
  .next (match s.task task with
    | none   => s
    | some t => match t.phase with
      | .stopping late =>
        if !(t.cores.all fun n => s.stopped n) then s
        else match s.areaPlace t.fn (s.imageTotal t) with
          | some base => s.saveTask t late base
          | none      =>
            if late then s.remove (t.cores.headD 0) cCONTRACT_OVERRUN 0
            else (s.unfit t).setTask { t with phase := .running }
      | .placed      => s
      | .running     => s
      | .saved       => s
      | .exiting _ _ => s
      | .discarded _ => s)

/-! ## Values that arrive in a saved image (R82, R317) -/

/-- A pending system fence of a saved context whose accesses are all performed ends in its image (R82); one that would trap is left to
the restored context. -/
def State.endSavedFence (s : State) (n : Nat) (sd : Side) : State :=
  let s1 := { s with cur := { core := n, side := sd } }
  match ((s.core n).side sd).fence with
  | none   => s
  | some f => if s1.covered f.scope && !s1.fenceTraps f then s.onBehalf n sd fun t => t.endFence f else s

/-- The image of a saved task brought up to date: its fences, and INCOMPLETE in its header (R185). -/
def State.settleImage (old : State) (s : State) (x : SavedCtx) : State :=
  match s.task x.task with
  | none   => s
  | some t =>
    let s1 := t.cores.foldl (fun s n => (s.endSavedFence n .A).endSavedFence n .X) s
    let open_ (s : State) : Bool := s.incomplete t || s.sampled t.id
    if open_ old == open_ s1 then s1
    else { s1 with mem := Memory.write s1.mem (dramKey (x.base + 0xC)) (if open_ s1 then 1 else 0) }

def State.settleImages (old s : State) : State := s.saved.foldl (fun s x => old.settleImage s x) s

/-! ## Restoring (R188) -/

/-- Where the members of a context move: their old cores and scratchpad bases, and the new ones. -/
abbrev Moves := List ((Nat × Nat) × (Nat × Nat))

/-- A key of the scratchpad of an old core of a context, at its new core and base. -/
def rebase (moves : Moves) (k : Nat) : Nat :=
  match moves.find? fun m => spadKey m.1.1 0 ≤ k && k < spadKey m.1.1 0 + 2 ^ 21 with
  | none   => k
  | some m => spadKey m.2.1 (k - spadKey m.1.1 0 + 2 ^ 21 - m.1.2 + m.2.2)

/-- An access of a restored member: a word in a member's scratchpad is that of the member, wherever it runs now (R71). DESIGN CHOICE, log
entry 78. -/
def Access.rebase (x : Access) (moves : Moves) : Access :=
  { x with spans := x.spans.map fun p => (Machine.rebase moves p.1, p.2)
           range := x.range.map fun p => (Machine.rebase moves p.1, p.2) }

/-- The role registers of a member are bound again to its new core (R207). -/
def State.rebindRoles (s : State) (core : Nat) (old : Party) : State :=
  let p := s.partyOf core
  (s.core core).roles.toList.foldl (fun s x => match x with
    | none   => s
    | some y => s.tellHome y (fun s => s.homeRebind (y.conv % 2 ^ 14) y.role old p) (.rebind y.conv y.role old p)) s

/-- How many undefined values one register can take. -/
def forgetRoom : Nat := 2 ^ 18

/-- The registers of a restored member: elements above a register's high-water mark are undefined (R6, R186); seed numbers them. -/
def Core.forgetTails (c : Core) (seed : Nat) : Core :=
  { c with vregs := Vector.ofFn fun i =>
      (c.vregs[i]).forget (c.vregs[i]).mark (c.capW (tagW (c.vregs[i]).tag.val)) (seed + forgetRoom * i.val) }

/-- A member of a saved context stands on its new core: tiles that MLIVE does not name are zero (R310). DEDUCED, log entry 49. -/
def Core.restored (c : Core) (hw : Core) (moves : Moves) (lead base vlmax seed : Nat) (overrun : Bool) : Core :=
  { c.forgetTails seed with
    laneok := hw.laneok, lanes := hw.lanes, parity := hw.parity, icache := hw.icache, gid := BitVec.ofNat 16 (srcOf lead), spBase := base,
    tiles := Vector.ofFn fun t => if c.mlive.getLsbD t.val then c.tiles[t] else []
    vlcap := vlmax, vlmax := vlmaxOf c.vnreg vlmax hw.lanes.toNat, pend := c.pend.map fun x => x.rebase moves,
    av := if overrun then { c.av with asyncs := c.av.asyncs ++ [.overrun] } else c.av }

/-- A saved card accepted again, its edges derived afresh (R124). -/
def State.acceptCard (s : State) (pane : Nat) (moves : Moves) (k : Card) : State :=
  let core := match moves.find? fun m => m.1.1 == k.core with
    | none   => k.core
    | some m => m.2.1
  let k1 := { k with core := core, key := rebase moves k.key }
  let p := s.pane pane
  s.setPane pane { p with cards := p.cards ++ [{ k1 with edges := (p.cards.filter fun x => k1.conflicts x).map fun x => x.id }] }

/-- The scratchpad of member i of a context read back from the area (R65, R67): its other regions read as zero. -/
def readBack (m : List Host.Cell) (x : SavedCtx) (i core base resv : Nat) : List Host.Cell :=
  let start := ((x.spad.take i).map List.length).sum
  let put (n : List Host.Cell) (p : Nat × Nat) : List Host.Cell :=
    Memory.writeN n (regionKey core base p.1)
      (Memory.readN m (dramKey (x.base + x.size + regionSize * (start + p.2))) regionSize)
  (x.spad.getD i []).zipIdx.foldl put (clearRegions m core base (List.range resv))

/-- The requests of a restored member to the wicket made again, in their order, and its macro-operations told which of its cards they wait for (R121,
R172). -/
def State.askAgain (s : State) (core : Nat) : State :=
  let c := s.core core
  let cards := (s.pane (paneOf core)).cards
  let wait (m : MacroOp) : MacroOp :=
    { m with waits := (s.cardsOver core (m.spans core)).filter fun id => cards.any fun k => k.id == id && k.seq < m.id }
  let s1 := s.setCore core { c with mops := c.mops.map wait }
  match c.wktPend with
  | none      => s1.askMop core
  | some w    =>
    let older := match c.mops with
      | []     => false
      | m :: _ => m.id < w.2
    let s2 := if older then s1.askMop core else s1
    (s2.askWicket core (if w.1 then 2 else 1) (.ahead core)).askMop core

/-- A saved context restored onto idle cores. -/
def State.restoreTask (s : State) (t : Task) (x : SavedCtx) (cores : List Nat) : State :=
  let lead := cores.headD 0
  let resv := s.savedResv x
  let here := x.stay && x.old.map (fun o => o.1) == cores
  let s0 := (if here then s else s.writeOut x).chargeAll
  let y := (s0.savedCtx t.id).getD x
  let s1 := ({ s0 with saved := s0.saved.erase y } : State).settlePreloads cores resv
  let bases := if here then x.old.map fun o => o.2 else s1.spotsFor cores resv
  let moves : Moves := x.old.zip (cores.zip bases)
  let moved (r : FailRec) : FailRec := { r with key := r.key.map (rebase moves) }
  let s2 := (if here then s1 else s1.claimSpad cores bases resv).setTask
    { t with phase := .running, cores := cores, idle := s.gts, placedAt := s.gts, fails := t.fails.map moved }
  let place (s : State) (p : Nat × (Nat × Nat)) : State :=
    let c := s.core p.2.1
    let base := bases.getD p.1 0
    let old : Party := { dev := Fin.ofNat 64 s.dev, src := srcOf (x.old.getD p.1 (0, 0)).1, asid := c.asid.toNat }
    let s1 := s.setCore p.2.2 (c.restored (s.core p.2.2) moves lead base x.vlmax s.undefCtr x.overrun)
    let s2 : State := { s1 with
      cores := ndel s1.cores p.2.1
      mem := if here then s1.mem else readBack s1.mem y p.1 p.2.2 base resv
      undefCtr := s1.undefCtr + 32 * forgetRoom }
    (s2.rebindRoles p.2.2 old).repeatLoads p.2.2
  let s3 := ((List.range cores.length).zip (t.cores.zip cores)).foldl place s2
  let s4 := x.cards.foldl (fun s k => s.acceptCard (paneOf lead) moves k) s3
  cores.foldl (fun s n => s.askAgain n) s4

/-- The window of a pane has room for the cards of a saved context (R114). -/
def State.windowRoom (s : State) (pane : Nat) (x : SavedCtx) : Bool := (s.pane pane).cards.length + x.cards.length ≤ 64

/-- CONTEXT_RESTORE (R156, R188): the n-th saved context, when it is next and the gang led by a core is the one it goes
to. -/
def execContextRestore (n : Nat) (lead : CoreId) (s : State) : Host.Outcome State Fault Refusal :=
  .next (match s.saved[n]?, s.nextCand with
    | some x, some c =>
      if c.item != .saved x.task || !s.windowRoom lead.pane.val x then s
      else match s.planFor c, s.task x.task with
        | .place cores, some t => if cores.head? == some lead.no then (s.takeCand c).restoreTask t x cores else s
        | _, _                 => s
    | _, _ => s)

end Machine
end Sys2Proof
end

