-- ==== Sys2Proof/Machine/Errors.lean ====
section
/-!
DEFINITION. Removal by events, hardware errors and lane retirement (R165, R168, R189 to R191, R196, R198).
-/

namespace Sys2Proof

/-- The lane group of a damaged place (R197). -/
def ErrPlace.lane : ErrPlace → Nat
  | .register g => g.val
  | .queue      => 0xFF
  | .tile       => 0xFF
  | .codebook   => 0xFF
  | .scratchpad => 0xFF
  | .dram       => 0xFF
  | .image      => 0xFF
  | .unused     => 0xFF

namespace Machine

/-! ## FATAL_HW (R165, R190, R196) -/

/-- Stores that have retired and that nothing holds back are performed. -/
def State.drain (s : State) (core : Nat) : State :=
  let span (s : State) (x : Access) (j : Nat) : State :=
    match (s.core core).pend.find? fun y => y.id == x.id with
    | none   => s
    | some y =>
      let es := (s.core core).pend.takeWhile fun z => z.id != x.id
      let ys := ((s.core core).pend.dropWhile fun z => z.id != x.id).drop 1
      let sp := y.spans.getD j (0, 0)
      if y.kind.isPosted && !keyIsPeer sp.1 && mayPerform (y.earlier j es ys) y j then (s.stampSpan core y sp).performSpan core y j else s
  (s.core core).pend.foldl (fun s x => (List.range x.spans.length).foldl (fun s j => span s x j) s) s

/-- A task leaves its cores without a trace but what it wrote: cards, requests, roles. -/
def State.clearTask (s : State) (t : Task) : State :=
  let pane := paneOf (t.cores.headD 0)
  let s1 := t.cores.foldl (fun s n => (s.letGo n).dropRoles n t.cont.taskid.toNat) s.chargeAll
  let s2 := t.cores.foldl (fun s n => (s.setCore n (s.core n).idle).forgetPages n) s1
  (s2.setPane pane ((s2.pane pane).release t.cores)).dropTask t.id

/-- The task starts afresh from its record at the head of its queue; its preload stays parked (R165). -/
def State.rerun (s : State) (t : Task) : State :=
  let s1 := (t.cores.foldl (fun s n => s.drain n) s).clearTask t
  let s2 : State := { s1 with preloads := s1.preloads.map fun p => if p.cores == t.cores then { p with parked := true } else p }
  (s2.pushHead t.fn t.cont (.record t.cont t.launch t.interval t.prefixLog)).logEvent 5 (srcOf (t.cores.headD 0)) 0xFF noElem 0
    t.cont.taskid.toNat cFATAL_HW

/-- EINFO of a removal (R176). -/
def State.fatalInfo (s : State) (core : Nat) (sides : List Side) (info : Word) : State :=
  sides.foldl (fun s sd => s.setCore core ((s.core core).setSide sd { (s.core core).side sd with einfo := info })) s

/-- FATAL_HW in the context of a core, if it runs one that is not being removed already. -/
def State.fatalHw (s : State) (core : Nat) (retry : Bool) (sides : List Side) (lgrp : Nat) : State :=
  match (s.core core).task.bind s.task with
  | none   => s
  | some t =>
    let again := match s.launchOf t.launch with
      | none   => false
      | some l => l.rerun
    if s.exiting core then s
    else if retry && again then s.rerun t
    else ((s.remove core cFATAL_HW (if retry then 2 else 0)).fatalInfo core sides (infoE 0 lgrp noElem)).tellLeaving

/-! ## Lane retirement (R198) -/

/-- A lane group leaves service; a core without any is lost to the contracts of its pane (R168). DEDUCED, log entry 44. -/
def State.retireLane (s : State) (core g : Nat) : State :=
  let c := s.core core
  if !bit c.laneok.toNat g then s
  else
    let ok := c.laneok &&& ~~~(BitVec.ofNat 8 (2 ^ g))
    let task := match c.task.bind s.task with
      | none   => 0
      | some t => t.cont.taskid.toNat
    let s1 := (s.setCore core { c with laneok := ok }).logEvent 4 (srcOf core) g noElem 0 task 0
    let hit := (List.range 64).any fun k => s.cAdm k && bit (s.cPanes k) (paneOf core)
    let s2 := if ok = 0 && hit then s1.logEvent 9 (unitSrc (paneOf core) 6) 0xFF noElem 0 task 0 else s1
    s2.fatalHw core true [.A, .X] g

/-- LANE_RETIRED. -/
def execLaneRetired (c : CoreId) (g : Fin 8) (s : State) : Host.Outcome State Fault Refusal := .next (s.retireLane c.no g.val)

/-- A written LANEOK: a bit cleared retires its group; the shape of the core counts lane groups anew, so one set again too, at the next
task start (R198). -/
def State.writeLaneok (s : State) (core : Nat) (v : Word) : State :=
  let s1 := s.setCore core { s.core core with laneok := (s.core core).laneok ||| v.setWidth 8 }
  (List.range 8).foldl (fun s g => if bit v.toNat g then s else s.retireLane core g) s1

/-- LANEOK_WRITE (R198). -/
def execLaneokWrite (c : CoreId) (v : Word) (s : State) : Host.Outcome State Fault Refusal := .next (s.writeLaneok c.no v)

/-! ## Errors (R196) -/

/-- The task id that an event names. -/
def State.taskidOf (s : State) (core : Nat) : Nat :=
  match (s.core core).task.bind s.task with
  | none   => 0
  | some t => t.cont.taskid.toNat

/-- CORRECTED_ERROR (R196). -/
def execCorrectedError (c : CoreId) (addr : Nat) (s : State) : Host.Outcome State Fault Refusal :=
  .next (s.logEvent 1 (srcOf c.no) 0xFF noElem addr (s.taskidOf c.no) 0)

/-- 2^30 ns within which a second parity error of a lane group retires it (R198). -/
def parityWindow : Nat := 2 ^ 30

/-- UNCORRECTABLE_ERROR (R196, R198): it is logged; in consumed data it raises FATAL_HW on the side that consumed it; in a
register slice, or as a second parity error of a lane group, it retires the group. -/
def execUncorrectableError (c : CoreId) (side : Side) (p : ErrPlace) (parity : Bool) (addr : Nat) (s : State) :
    Host.Outcome State Fault Refusal :=
  .next <|
    let s1 := s.logEvent (if parity then 3 else 2) (srcOf c.no) p.lane noElem addr (s.taskidOf c.no) 0
    let co := s1.core c.no
    match p with
    | .unused     => s1
    | .register g =>
      let first := nget co.parity g.val
      let again := match first with
        | none   => false
        | some t => s.gts.toNat ≤ t.toNat + parityWindow
      let s2 := if parity && !again then s1.setCore c.no { co with parity := nset co.parity g.val s.gts } else s1
      if !parity || again then s2.retireLane c.no g.val else s2.fatalHw c.no true [side] g.val
    | .queue      => s1.fatalHw c.no true [side] 0xFF
    | .tile       => s1.fatalHw c.no true [side] 0xFF
    | .codebook   => s1.fatalHw c.no true [side] 0xFF
    | .scratchpad => s1.fatalHw c.no true [side] 0xFF
    | .dram       => s1.fatalHw c.no false [side] 0xFF
    | .image      => s1.fatalHw c.no false [side] 0xFF

/-! ## Removal by events (R189 to R191) -/

/-- Whether a task has members that may issue. -/
def Task.live (t : Task) : Bool := t.isRunning || t.isStopping

/-- REMOVE (R189): a second removal is not made. -/
def execRemove (task : Nat) (code : Fin 32) (s : State) : Host.Outcome State Fault Refusal :=
  .next (match s.task task with
    | none   => s
    | some t => if t.live then (s.remove (t.cores.headD 0) code.val 0).tellLeaving else s)

/-- 2^20 clk in ns, rounded up. -/
def exitTime : Nat := 1747627

/-- EXIT_ROUTINE_TIMEOUT (R190). -/
def execExitRoutineTimeout (task : Nat) (s : State) : Host.Outcome State Fault Refusal :=
  .next (match s.task task with
    | none   => s
    | some t => match t.phase with
      | .exiting c since => if since.toNat + exitTime ≤ s.gts.toNat then s.discardTask (t.cores.headD 0) c else s
      | .placed      => s
      | .running     => s
      | .stopping _  => s
      | .saved       => s
      | .discarded _ => s)

/-- 2^28 clk in ns, rounded up. -/
def watchTime : Nat := 447392427

/-- WATCHDOG (R191). -/
def execWatchdog (task : Nat) (s : State) : Host.Outcome State Fault Refusal :=
  .next (match s.task task with
    | none   => s
    | some t =>
      if t.live && t.idle.toNat + watchTime ≤ s.gts.toNat then
        let s1 := s.remove (t.cores.headD 0) cWATCHDOG 0
        (t.cores.foldl (fun s n => s.fatalInfo n [.A, .X] (infoE 0 0 noElem)) s1).tellLeaving
      else s)

end Machine
end Sys2Proof
end

