-- ==== Sys2Proof/Machine/System.lean ====
section
/-!
DEFINITION. System instructions and system registers (R192 to R195, R337 to R343), and writes of registers as events
(R198, R315, R339).
-/

namespace Sys2Proof

/-- The code of a trap instruction (R337). -/
def TrapCode.value : TrapCode → Nat
  | .short c => c.val
  | .long v  => v.toNat

namespace Machine

/-- trap (R337): the code goes to EINFO.AUX, and EPC names the instruction itself. -/
def execTrap (c : TrapCode) (s : State) : Host.Outcome State Fault Refusal :=
  s.finish (raise (trapE cTRAP c.value))

/-! ## eret (R179, R338) -/

/-- Spans of a held queue load for its first v elements: pairs share a byte, and a row reads the scale byte of a block
with its first element. -/
def heldSpans (tag : Fin 32) (form : FillForm) (v : Nat) : Nat :=
  match form with
  | .plain        => if tagW tag.val = 4 then (v + 1) / 2 else v
  | .upTo _ _     => v
  | .row src _    =>
    let w := tagW src.val
    v / 32 * (4 * w + 1) + (if v % 32 = 0 then 0 else 1 + ceilDiv (v % 32 * w) 8)

/-- Spans of a held store for its first v elements. -/
def heldStoreSpans (tag : Fin 32) (form : StqForm) (v : Nat) : Nat :=
  match form with
  | .row          => v / 32 * (4 * tagW tag.val + 1) + (if v % 32 = 0 then 0 else 1 + ceilDiv (v % 32 * tagW tag.val) 8)
  | .plain        => if tagW tag.val = 4 then (v + 1) / 2 else v
  | .amo _ _ _ _  => v
  | .planes _ _   => 16 * v
  | .blocks _ _   => v
  | .app _ _      => v

/-- The form of a fill that ends after v elements. -/
def FillForm.cutAt (form : FillForm) (v : Nat) : FillForm :=
  match form with
  | .plain       => .upTo none v
  | .row src scl => .upTo (some (src, scl)) (if scl.val = 2 then ceilDiv v 32 else v)
  | .upTo r n    => .upTo r (min n v)

/-- Whether an access is held by a restartable-partial fault. -/
def Core.isHeld (c : Core) (x : Access) : Bool :=
  match x.kind with
  | .fill q id _      => c.heldFill q id
  | .stq _ _ _ cut    => cut
  | .load _ _ _       => false
  | .writes _         => false
  | .stab _ _ _ _ _ _ => false
  | .amo _ _ _ _ _ _ _ _ => false
  | .arm _            => false
  | .arrive _         => false
  | .await _ _ _      => false
  | .value _ _        => false

/-- The handler returns elsewhere (R179, R245): the held access ends with the elements below VSTART; an entry is delivered
with the others zero and invalid, and MV.SEEN is set. -/
def State.giveUpHeld (s : State) : State :=
  let c := s.me
  let v := c.av.vstart.toNat
  match c.pend.find? fun x => c.isHeld x with
  | none   => s.setMe { c with heldEpc := none }
  | some x =>
    match x.kind with
    | .fill q id form =>
      let tag := match c.lq[q.val].ents.find? fun e => e.id == id with
        | none   => (0 : Fin 32)
        | some e => e.tag
      let n := heldSpans tag form v
      let c1 := (c.mapPend x.id fun y => { y with kind := .fill q id (form.cutAt v), spans := y.spans.take n, ans := y.ans.take n }).holdEntry
        q id none
      (s.setMe { c1.markMv 1 with heldEpc := none }).settleAccess s.cur.core x.id
    | .stq q tag form _ =>
      let n := heldStoreSpans tag form v
      s.setMe { c.mapPend x.id fun y => { y with kind := .stq q tag form false, spans := y.spans.take n, ans := y.ans.take n } with
        heldEpc := none }
    | .load _ _ _       => s
    | .writes _         => s
    | .stab _ _ _ _ _ _ => s
    | .amo _ _ _ _ _ _ _ _ => s
    | .arm _            => s
    | .arrive _         => s
    | .await _ _ _      => s
    | .value _ _        => s

/-- eret (R179, R338). DEDUCED, log entry 22. -/
def execEret (s : State) : Host.Outcome State Fault Refusal :=
  s.finish do
    s.inS
    let released := match s.cur.side, s.me.heldEpc with
      | .A, some h => h != s.mySide.epc
      | .A, none   => false
      | .X, _      => false
    target s.mySide.epc
    let s1 := if released then s.giveUpHeld else s
    pure (s1.setMySide s1.mySide.leave)

/-! ## System registers (R192 to R194) -/

/-- How a system register may be used: its side, and whether U may read it, U may write it and S may write it. -/
structure SysReg where
  only   : Option Side
  uRead  : Bool
  uWrite : Bool
  sWrite : Bool
  deriving DecidableEq, Repr

def roRo : SysReg := { only := none, uRead := true, uWrite := false, sWrite := false }
def roRw : SysReg := { only := none, uRead := true, uWrite := false, sWrite := true }
def noRw : SysReg := { only := none, uRead := false, uWrite := false, sWrite := true }
def rwRw : SysReg := { only := none, uRead := true, uWrite := true, sWrite := true }

/-- The table of R193; none for an unassigned number. -/
def sysReg (n : Nat) : Option SysReg :=
  match n with
  | 0x000 => some roRo
  | 0x001 => some roRo
  | 0x002 => some noRw
  | 0x003 => some roRo
  | 0x004 => some roRw
  | 0x005 => some { roRw with only := some .X }
  | 0x006 => some { roRw with only := some .A }
  | 0x007 => some noRw
  | 0x010 => some roRw
  | 0x011 => some roRw
  | 0x012 => some rwRw
  | 0x013 => some rwRw
  | 0x014 => some roRw
  | 0x015 => some roRw
  | 0x020 => some { rwRw with only := some .X }
  | 0x021 => some rwRw
  | 0x022 => some { rwRw with only := some .X }
  | 0x023 => some roRo
  | 0x030 => some roRo
  | 0x031 => some roRo
  | 0x032 => some roRo
  | 0x033 => some roRo
  | 0x034 => some roRo
  | 0x040 => some roRw
  | 0x041 => some roRw
  | 0x042 => some roRw
  | 0x043 => some noRw
  | 0x044 => some noRw
  | 0x045 => some noRw
  | 0x050 => some roRo
  | 0x051 => some noRw
  | 0x052 => some roRo
  | _     => none

/-- MSTEP (R315): RUN for a macro-operation that has started, QUE for a second one. -/
def Core.mstepWord (c : Core) : Word :=
  let run := match c.mops with
    | []     => false
    | m :: _ => !m.before.isEmpty
  BitVec.ofNat 64 ((if run then 2 ^ 63 else 0) + (if 2 ≤ c.mops.length then 2 ^ 62 else 0) + c.mstep % 1024)

/-- WKTGRANT (R173). -/
def Core.wktgrant (c : Core) : Word :=
  BitVec.ofNat 64 ((if c.wktPend.isSome then 2 ^ 63 else 0) + (if c.wktHeld.isSome then 2 ^ 62 else 0) + c.louvres)

/-- The bits of EINFO that the layout of the cause in CAUSE holds; the others are reserved (R182). A code that is never raised has no
layout, so no bit is reserved under it. DEDUCED, log entry 20. -/
def einfoMask (cause : Word) : Nat :=
  let code := cause.toNat % 32
  if isMemCause code then (if bit cause.toNat 10 then 2 ^ 64 - 1 else 2 ^ 64 - 1 - 2 ^ 55)
  else if code == cDET_CONFLICT || isStream code || code == 0 || code == 0x07 || code == 0x1D then 2 ^ 64 - 1
  else 2 ^ 64 - 1 - 7 * 2 ^ 61

/-- The value of a system register as a side reads it. -/
def State.sysRead (s : State) (core : Nat) (sd : Side) (n : Nat) : Word :=
  let c := s.core core
  let t := c.side sd
  match n with
  | 0x000 => t.vl.zeroExtend 64
  | 0x001 => BitVec.ofNat 64 c.vlmax
  | 0x002 => BitVec.ofNat 64 c.vlcap
  | 0x003 => BitVec.ofNat 64 c.vnreg
  | 0x004 => t.vstart.zeroExtend 64
  | 0x005 => c.rstate
  | 0x006 => BitVec.ofNat 64 c.spsz
  | 0x007 => c.laneok.zeroExtend 64
  | 0x010 => c.mlive.zeroExtend 64
  | 0x011 => c.mstepWord
  | 0x012 => if c.mcompat then 1 else 0
  | 0x013 => BitVec.ofNat 64 c.msat
  | 0x014 => c.chkcfg ||| BitVec.ofNat 64 (s.pendingSamples core % 256 * 2 ^ 40)
  | 0x015 => c.chkfail
  | 0x020 => BitVec.ofNat 64 c.mv
  | 0x021 => BitVec.ofNat 64 c.fctl
  | 0x022 => BitVec.ofNat 64 c.fflg
  | 0x023 => c.cbver
  | 0x030 => c.tid.zeroExtend 64
  | 0x031 => c.gid.zeroExtend 64
  | 0x032 => BitVec.ofNat 64 c.gpos
  | 0x033 => BitVec.ofNat 64 c.gsize
  | 0x034 => s.gts
  | 0x040 => t.cause
  | 0x041 => t.epc
  | 0x042 => keep t.einfo (einfoMask t.cause)
  | 0x043 => c.tvec
  | 0x044 => c.asid.zeroExtend 64
  | 0x045 => s.errlog
  | 0x050 => c.fencest
  | 0x051 => s.reach
  | 0x052 => c.wktgrant
  | _     => 0

/-- VLCAP as a written value is rounded (R141); bits above 12 are reserved (R194, R5). -/
def vlcapOf (v : Nat) : Nat := max 64 (2 ^ Nat.log2 (min 4096 (v % 2 ^ 13)))

/-- Writable bits of CAUSE, and of CHKCFG (R180, R315). -/
def causeMask : Nat := 31 * 2 ^ 59 + 7 * 2 ^ 8 + 31
def chkcfgMask : Nat := 2 ^ 63 + 2 ^ 62 + 31 * 2 ^ 8 + 15

/-- ERRLOG written (R197): OVF is cleared by 0, TAIL is set, HEAD stays. -/
def State.writeErrlog (s : State) (v : Word) : State :=
  let ovf := bit s.errlog.toNat 63 && bit v.toNat 63
  { s with errlog := BitVec.ofNat 64 ((if ovf then 2 ^ 63 else 0) + bits v.toNat 62 32 * 2 ^ 32 + errHead s.errlog) }

/-- VLCAP written (R339): VLMAX reads the old value until the next vcfg, task start or restore. -/
def State.writeVlcap (s : State) (core : Nat) (v : Word) : State :=
  s.setCore core { s.core core with vlcap := vlcapOf v.toNat }

/-- MSTEP written (R315): it takes effect while a macro-operation is running. DEDUCED, log entry 45. -/
def State.writeMstep (s : State) (core : Nat) (v : Word) : State :=
  let c := s.core core
  if bit c.mstepWord.toNat 63 then s.setCore core { c with mstep := v.toNat % 1024 } else s

/-- A system register of a side written, its reserved and read-only fields ignored (R339). DEDUCED, log entry 19. -/
def State.sysWrite (s : State) (core : Nat) (sd : Side) (n : Nat) (v : Word) : State :=
  let c := s.core core
  let t := c.side sd
  let put (c : Core) : State := s.setCore core c
  match n with
  | 0x002 => s.writeVlcap core v
  | 0x004 => put (c.setSide sd { t with vstart := v.setWidth 32 })
  | 0x005 => put { c with rstate := v }
  | 0x006 => put { c with spsz := v.toNat % 4096 }
  | 0x007 => s.writeLaneok core v
  | 0x010 => put { c with mlive := v.setWidth 8 }
  | 0x011 => s.writeMstep core v
  | 0x012 => put { c with mcompat := bit v.toNat 0 }
  | 0x013 => put { c with msat := v.toNat % 4 }
  | 0x014 => put { c with chkcfg := keep v chkcfgMask }
  | 0x015 => put { c with chkfail := v }
  | 0x020 => put { c with mv := v.toNat % 4 }
  | 0x021 => put { c with fctl := v.toNat &&& 0x1F07 }
  | 0x022 => put { c with fflg := v.toNat % 32 }
  | 0x040 => put (c.setSide sd { t with cause := keep v causeMask })
  | 0x041 => put (c.setSide sd { t with epc := v })
  | 0x042 => put (c.setSide sd { t with einfo := keep v (einfoMask t.cause) })
  | 0x043 => put { c with tvec := keep v (2 ^ 64 - 256) }
  | 0x044 => put { c with asid := v.setWidth 8 }
  | 0x045 => s.writeErrlog v
  | 0x051 => s.writeReach v
  | _     => s

/-- The checks of sget and sput on a number (R192): an unassigned one raises ILLEGAL, one of the other side SIDE. -/
def State.sysName (s : State) (n : Nat) : R SysReg :=
  match sysReg n with
  | none   => raise (trapE cILLEGAL)
  | some r =>
    if r.only = none ∨ r.only = some s.cur.side then .ok r else raise (trapE cSIDE)

/-- sget (R192, R339). -/
def execSget (d : RegNo) (n : Fin 4096) (s : State) : Host.Outcome State Fault Refusal :=
  s.finish do
    let r ← s.sysName n.val
    orTrap (s.mySide.super || r.uRead) (trapE cPRIV)
    s.dst d
    pure ((s.put d (s.sysRead s.cur.core s.cur.side n.val)).retire 4)

/-- sput (R192, R339): it serialises its side, so on X it waits for pending receives; a write of LANEOK may remove the
context, which then does not go on. -/
def execSput (d : RegNo) (n : Fin 4096) (s : State) : Host.Outcome State Fault Refusal :=
  s.finish do
    let r ← s.sysName n.val
    orTrap (s.mySide.super || r.uWrite) (trapE cPRIV)
    let v ← s.src d false
    match s.cur.side with
    | .A => s.steady
    | .X => orWait s.me.crecvs.isEmpty
    let s1 := s.retire 4
    pure (if s.mySide.super && r.sWrite || r.uWrite then s1.sysWrite s.cur.core s.cur.side n.val v else s1)

/-- VLCAP_WRITE (R339). -/
def execVlcapWrite (c : CoreId) (v : Word) (s : State) : Host.Outcome State Fault Refusal := .next (s.writeVlcap c.no v)

/-- MSTEP_WRITE (R315). -/
def execMstepWrite (c : CoreId) (v : Word) (s : State) : Host.Outcome State Fault Refusal := .next (s.writeMstep c.no v)

/-- REGISTER_WRITE (R339): a write in the S view of a register by its number or its control-space offset. -/
def execRegisterWrite (t : RegTarget) (v : Word) (s : State) : Host.Outcome State Fault Refusal :=
  .next (match t with
    | .ctl off    => if off.toNat % 8 = 0 then s.ctlWrite off.toNat v else s
    | .sys c sd n => match sysReg n.val with
      | none   => s
      | some r => if r.sWrite && (r.only = none ∨ r.only = some sd) then s.sysWrite c.no sd n.val v else s)

/-! ## wait, wkt, gts (R341 to R343) -/

/-- wait (R341): a time already passed retires at once. -/
def execWait (a : SrcR) (s : State) : Host.Outcome State Fault Refusal :=
  s.finish do
    match s.mySide.waitTo with
    | some _ => waits
    | none   =>
      let v ← s.srcR a
      pure (if v.toNat ≤ s.gts.toNat then s.retire 4 else s.setMySide { s.mySide with waitTo := some v })

/-- WAIT_EXPIRE (R341). -/
def execWaitExpire (c : CoreId) (side : Side) (s : State) : Host.Outcome State Fault Refusal :=
  .next (match ((s.core c.no).side side).waitTo with
    | none   => s
    | some v =>
      if v.toNat ≤ s.gts.toNat then
        s.onBehalf c.no side fun t => .ok ((t.setMySide { t.mySide with waitTo := none }).retire 4)
      else s)

/-- wkt.m and wkt.c (R173, R342). -/
def execWkt (card : Bool) (s : State) : Host.Outcome State Fault Refusal :=
  s.finish do
    if s.cur.side == .A then s.steady
    let c := s.me
    if c.wktPend.isSome || c.wktHeld.isSome then pure (s.retire 4)
    else
      let s1 := s.setMe { c with wktPend := some (card, c.nextId) }
      pure ((s1.askWicket s.cur.core (if card then 2 else 1) (.ahead s.cur.core)).retire 4)

/-- gts (R343). -/
def execGts (d : RegNo) (s : State) : Host.Outcome State Fault Refusal :=
  s.finish do
    s.dst d
    pure ((s.put d s.gts).retire 4)

end Machine
end Sys2Proof
end

