-- ==== Sys2Proof/Machine/Attach.lean ====
section
/-!
DEFINITION. The host attachment: launches (R159, R160, R377 to R383), BAR2, function-level reset (R384), boot and
firmware (R385, R386, R391), attestation (R387 to R389) and heat (R390).
-/

namespace Sys2Proof
namespace Machine

/-- Firmware has booted and the port is enabled (R385). -/
def State.portOn (s : State) : Bool := s.boot.phase == .running

/-- A function that host accesses reach: the PF, and the VFs while they are enabled (R377). DEDUCED, log entry 55. -/
def State.fnOn (s : State) (fn : Nat) : Bool := s.portOn && (fn == pfNo || s.numVFs == 128)

/-! ## Zero-length accesses (R110) -/

/-- INBOUND_ZERO_LENGTH_WRITE (R110): no effect. -/
def execInboundZeroLengthWrite (_fn : Fin 129) (s : State) : Host.Outcome State Fault Refusal := .next s

/-- INBOUND_ZERO_LENGTH_READ (R110): a posted write takes effect when it arrives, so the read returns at once. -/
def execInboundZeroLengthRead (_fn : Fin 129) (s : State) : Host.Outcome State Fault Refusal := .next s

/-! ## BAR0 (R378 to R380) -/

/-- Entries that the launch FIFO holds (R381). -/
def fifoSize : Nat := 64

/-- VSTAT as the host reads it (R380, R385): RST while a reset is in progress, and the depth of the FIFO. -/
def State.vstat (s : State) (fn : Nat) : Word :=
  if s.boot.phase == .failed then BitVec.ofNat 64 (2 ^ 64 - 1)
  else (s.fn fn).vstat ||| BitVec.ofNat 64 ((if s.resets.contains fn then 2 ^ vRST else 0) + (s.fn fn).fifo.length)

/-- LAUNCH (R379 to R381): any size but 8 bytes is ignored; a full FIFO drops the write. -/
def execLaunch (fn : Fin 129) (size : Nat) (v : Word) (s : State) : Host.Outcome State Fault Refusal :=
  .next <|
    let f := s.fn fn.val
    if size != 8 || !s.fnOn fn.val then s
    else if fifoSize ≤ f.fifo.length then s.vstatFlag fn.val vLOVF
    else s.setFn fn.val { f with fifo := f.fifo ++ [(bits v.toNat 63 32, v.toNat % 2 ^ 32)] }

/-- LWBASE_WRITE (R379). -/
def execLwbaseWrite (fn : Fin 129) (v : Word) (s : State) : Host.Outcome State Fault Refusal :=
  .next (if s.fnOn fn.val && (s.fn fn.val).fifo.isEmpty then
      s.setFn fn.val { s.fn fn.val with lwbase := keep v (2 ^ 52 - 2 ^ 6) }
    else s)

/-- LWCNT_WRITE (R379). -/
def execLwcntWrite (fn : Fin 129) (v : Word) (s : State) : Host.Outcome State Fault Refusal :=
  .next (if s.fnOn fn.val && (s.fn fn.val).fifo.isEmpty then
      s.setFn fn.val { s.fn fn.val with lwcnt := keep v (2 ^ 32 - 1) }
    else s)

/-- The bits of VSTAT that a written 1 clears (R380). -/
def vstatSticky : Nat := 2 ^ vTORN + 2 ^ vLOVF + 2 ^ vBADIDX + 2 ^ vBADST + 2 ^ vSTFLT

/-- VSTAT_CLEAR (R380). -/
def execVstatClear (fn : Fin 129) (v : Word) (s : State) : Host.Outcome State Fault Refusal :=
  .next (if s.fnOn fn.val then
      s.setFn fn.val { s.fn fn.val with vstat := (s.fn fn.val).vstat &&& ~~~(keep v vstatSticky) }
    else s)

/-! ## Taking a launch (R160, R381) -/

/-- A launch is dropped: the sticky bit, LASTIDX and vector 1 (R380, R383). -/
def State.dropLaunch (s : State) (fn b idx : Nat) : State :=
  let f := s.fn fn
  let last := BitVec.ofNat 64 ((2 ^ 32 - 1) * 2 ^ 7)
  let v := (f.vstat &&& ~~~last) ||| BitVec.ofNat 64 (idx % 2 ^ 32 * 2 ^ 7)
  (s.setFn fn { f with taking := none, first := none, vstat := v }).vstatFlag fn b

/-- A STATUS address that names no record: misaligned, not canonical, or of another selector (R160). -/
def badStatus (a : Nat) : Bool :=
  a != 0 && (a % 32 != 0 || !canonical a || !(a / 2 ^ 56 == 0x00 || a / 2 ^ 56 == 0x04))

/-- The launch that a block describes, and the state number its validation ends in: 1 for an accepted one (R159, R160). -/
def launchOfBlock (id fn : Nat) (b : List Byte) : LaunchSt :=
  let fld (o n : Nat) : Nat := leNat ((b.drop o).take n)
  let flags := fld 4 4
  let count := fld 8 8
  let gsize := fld 0x24 1
  let prio := fld 0x25 1
  let contract := fld 0x26 1
  let vlfix := fld 0x27 1
  let det := bit flags 0
  let badField := 4 ≤ flags || 2 ^ 40 ≤ count || 8 ≤ prio || fld 0x38 8 != 0 || gsize == 0 || 16 < gsize ||
    (64 ≤ contract && contract ≤ 254) || (if det then vlfix < 6 || 12 < vlfix else vlfix != 0)
  let st := if badField then 5 else if count == 0 then 2 else if 2 ^ 32 < count then 3 else 1
  let r : Record := { image := BitVec.ofNat 64 (fld 0x10 8), frame := BitVec.ofNat 64 (fld 0x18 8),
                      join := BitVec.ofNat 64 (fld 0x28 8), taskid := 0, gsize := gsize, prio := prio, contract := contract }
  { id := id, fn := fn, det := det, rerun := bit flags 1, count := if st == 1 then count else 0, next := 0, cont := r,
    fstride := fld 0x20 4, vlfix := vlfix, status := BitVec.ofNat 64 (fld 0x30 8), out := 0, stateNo := st, fails := [],
    interval := 0, base := [], held := [], logs := [], merging := none }

/-- A block that passed the stamp check (R160, R161): an accepted launch is a cursor at the tail of its queue. -/
def State.takeBlock (s : State) (fn idx : Nat) (b : List Byte) : State :=
  let l := launchOfBlock s.nextLaunch fn b
  if badStatus l.status.toNat then s.dropLaunch fn vBADST idx
  else
    let s1 := s.setFn fn { s.fn fn with taking := none, first := none }
    let s2 : State := { s1 with launches := s1.launches ++ [l], nextLaunch := s1.nextLaunch + 1 }
    if l.stateNo == 1 then s2.pushTail fn l.cont (.cursor l.id) else s2

/-- A read of a slot (R381): the first of an attempt, or the second, after which the attempt ends. A read that waits for a host page leaves
the attempt where it is; a fault drops the launch. -/
def State.attempt (s : State) (fn : Nat) : State :=
  let f := s.fn fn
  match f.taking with
  | none                 => s
  | some (stamp, idx, a) =>
    let h : How := { core := fnCore fn, super := false, asid := asidOfFn fn, acc := .read, scalar := false, size := 64 }
    if 2 ^ 52 ≤ a then s.dropLaunch fn vTORN idx
    else match s.place h (BitVec.ofNat 64 (0x04 * 2 ^ 56 + a)) with
      | .error .wait         => s
      | .error (.page n p w) => s.askPage (fnCore fn) n p w
      | .error (.trap k)     => (match k.pri with
        | none           => s
        | some (n, p, w) => s.heardPage (fnCore fn) n p w).dropLaunch fn vTORN idx
      | .ok p                =>
        let b := Memory.readN s.mem (s.keyOf p) 64
        match f.first with
        | none    => s.setFn fn { f with first := some b }
        | some b1 =>
          if b1 == b && leNat (b.take 4) == stamp then s.takeBlock fn idx b
          else if 15 ≤ f.tries then s.dropLaunch fn vTORN idx
          else s.setFn fn { f with tries := f.tries + 1, first := none }

/-- LAUNCH_FETCH (R381): the oldest entry is taken and its slot read for the first time; one beyond the window is dropped. The second read
is an event of its own, so that writes can come between. DESIGN CHOICE, log entry 40. -/
def execLaunchFetch (fn : Fin 129) (s : State) : Host.Outcome State Fault Refusal :=
  .next <|
    let f := s.fn fn.val
    match f.taking, f.fifo with
    | some _, _                  => s
    | none, []                   => s
    | none, (stamp, idx) :: rest =>
      if !s.portOn then s
      else
        let s1 := s.setFn fn.val { f with fifo := rest, taking := some (stamp, idx, f.lwbase.toNat + 64 * idx), tries := 0
                                          taken := s.gts, first := none }
        if f.lwcnt.toNat ≤ idx then s1.dropLaunch fn.val vBADIDX idx else s1.attempt fn.val

/-- LAUNCH_FETCH_ATTEMPT (R381): attempt k starts 250 ns times k after the entry was taken; its second read follows the first. -/
def execLaunchFetchAttempt (fn : Fin 129) (s : State) : Host.Outcome State Fault Refusal :=
  .next <|
    let f := s.fn fn.val
    if f.taking.isSome && (f.first.isSome || f.taken.toNat + 250 * f.tries ≤ s.gts.toNat) then s.attempt fn.val else s

/-! ## BAR2 and SR-IOV (R377, R378) -/

/-- A register of a function's BAR0 as the host reads it (R378 to R380): LAUNCH reads 0, and so does an offset that is not mapped. -/
def State.bar0Read (s : State) (fn : Fin 129) (off : Nat) : Word :=
  match off with
  | 0x00 => 0
  | 0x08 => s.vstat fn.val
  | 0x10 => (s.fn fn.val).lwbase
  | 0x18 => (s.fn fn.val).lwcnt
  | _    => 0

/-- A host access to the BAR0 of a function by its offset (R378, R379): a write has the meaning of its register, and one of an offset that
is not mapped is ignored. A read of fewer bytes gives the lower bytes of the register, and a write of another size than 8 is ignored at
every register, as the rule says for LAUNCH. DESIGN CHOICE, log entry 55. -/
def State.bar0Write (s : State) (fn : Fin 129) (off size : Nat) (v : Word) : Host.Outcome State Fault Refusal :=
  if size != 8 then .next s
  else match off with
  | 0x00 => execLaunch fn size v s
  | 0x08 => execVstatClear fn v s
  | 0x10 => execLwbaseWrite fn v s
  | 0x18 => execLwcntWrite fn v s
  | _    => .next s

/-- BAR2_ACCESS (R10, R378, R385): a naturally aligned access of 8 bytes goes to control space; any other is dropped as a write and
answered with all ones as a read. The opcode table has no event for reads of BAR0, so its accesses by offset are here too; a function
that accesses do not reach answers with all ones, as VSTAT does after a failed boot. DESIGN CHOICE, log entry 55. -/
def execBar2Access (off size : Nat) (op : BarOp) (s : State) : Host.Outcome State Fault Refusal :=
  let ok := s.portOn && size == 8 && off % 8 == 0 && off < 2 ^ 32
  let ones : Word := BitVec.ofNat 64 (2 ^ 64 - 1)
  match op with
  | .read       => .next { s with barOut := s.barOut ++ [if ok then s.ctlRead off else ones] }
  | .write v    => .next (if ok then s.ctlWrite off v else s)
  | .read0 fn   =>
    .next { s with barOut := s.barOut ++ [if s.fnOn fn.val then keep (s.bar0Read fn off) (2 ^ (8 * size) - 1) else ones] }
  | .write0 fn v => s.bar0Write fn off size v

/-- SRIOV_NUMVFS_WRITE (R377). -/
def execSriovNumvfsWrite (n : Nat) (s : State) : Host.Outcome State Fault Refusal :=
  .next (if s.portOn then { s with numVFs := if n = 128 then 128 else 0 } else s)

/-! ## Function-level reset (R384) -/

/-- The function that an item of contract k's queue runs for. -/
def State.itemFn (s : State) (k : Nat) (x : QItem) : Nat :=
  match x with
  | .record _ l _ _ => s.fnOf l (s.cVf k)
  | .cursor l       => s.fnOf (some l) pfNo
  | .saved id       => match s.task id with
    | none   => pfNo
    | some t => t.fn

/-- A saved context discarded, its roles unbound at their homes (R190, R207). -/
def State.discardSaved (s : State) (t : Task) : State :=
  let old := match s.savedCtx t.id with
    | none   => []
    | some x => x.old
  let one (s : State) (p : Nat × Nat × Nat) : State :=
    let c := s.core p.1
    let party : Party := { dev := Fin.ofNat 64 s.dev, src := srcOf p.2.1, asid := c.asid.toNat }
    let s1 := s.unbindRoles party (srcOf p.2.1) t.cont.taskid.toNat (c.roles.toList.filterMap id)
    { s1 with cores := ndel s1.cores p.1 }
  let s1 := (t.cores.zip old).foldl one s
  { s1 with saved := s1.saved.filter fun x => x.task != t.id, tasks := s1.tasks.filter fun u => u.id != t.id }

/-- One function reset. DEDUCED, log entry 51. -/
def State.resetFn (s : State) (fn : Nat) : State :=
  let keepQ (q : Nat × List QItem) : Nat × List QItem := (q.1, q.2.filter fun x => s.itemFn q.1 x != fn)
  let s1 : State := { s with
    resets := if s.resets.contains fn then s.resets else fn :: s.resets
    fns := nset s.fns fn Fn.reset
    cqueues := s.cqueues.map keepQ
    preloads := s.preloads.filter fun p => p.fn != fn }
  let gone (s : State) (t : Task) : State :=
    let s := if t.live && !s.fits t then s.unfit t else s
    match t.phase with
    | .saved       => s.discardSaved t
    | .placed      => (s.clearTask t).startPreload t.cores
    | .running     => (s.clearTask t).startPreload t.cores
    | .stopping _  => (s.clearTask t).startPreload t.cores
    | .exiting _ _ => (s.clearTask t).startPreload t.cores
    | .discarded _ => (s.clearTask t).startPreload t.cores
  let s2 := (s.tasks.filter fun t => t.fn == fn).foldl gone s1
  let s3 : State := { s2 with launches := s2.launches.filter fun l => l.fn != fn }
  let s4 := (List.range 64).foldl (fun s k => if s.cEn k && s.cVf k == fn then s.disableContract k else s) s3
  s4.forgetPages (fnCore fn)

/-- FUNCTION_LEVEL_RESET (R384): a reset of the PF resets every VF too. -/
def execFunctionLevelReset (fn : Fin 129) (s : State) : Host.Outcome State Fault Refusal :=
  .next (if !s.portOn then s
    else if fn.val == pfNo then (List.range 129).foldl (fun s f => s.resetFn f) s
    else s.resetFn fn.val)

/-- FUNCTION_RESET_COMPLETE (R384): RST reads 0. -/
def execFunctionResetComplete (fn : Fin 129) (s : State) : Host.Outcome State Fault Refusal :=
  .next { s with resets := s.resets.filter fun f => f != fn.val }

/-! ## Boot and firmware (R385, R386, R391) -/

/-- The image in a flash slot, if its MARK and LEN are right (R386). -/
def fwImage (slot : List Byte) : Option (List Byte) :=
  let len := leNat ((slot.drop 8).take 8)
  if leNat (slot.take 4) == 0x42E7F1A0 && 128 ≤ len && len ≤ slot.length then some (slot.take len) else none

/-- The security version of an image. -/
def fwSvn (img : List Byte) : Nat := leNat ((img.drop 4).take 4)

/-- The digest that the signature of an image is over. -/
def fwDigest (img : List Byte) : List Byte := sha256 (img.take 0x40 ++ img.drop 0x80)

/-- Whether the ROM accepts the image of a slot (R385). -/
def fwOk (rollback : Nat) (slot : List Byte) : Bool :=
  match fwImage slot with
  | none     => false
  | some img => Config.ecdsaVerify ((img.drop 0x40).take 64) (fwDigest img) && rollback ≤ fwSvn img

/-- The memory of the device cleared: what is listed of the host's memory stays (R385). -/
def State.hostMem (s : State) : List Host.Cell := s.mem.filter fun c => keyIsHost c.1

/-- The device as firmware leaves it (R385): every scratchpad and DRAM byte cleared, REACH set, the registers of LANEOK and
of the fabric at their reset values (DESIGN CHOICE, log entry 41). -/
def State.booted (s : State) (slot : Nat) (flash : List Byte) : State :=
  { State.reset with
    dev := s.dev, gts := s.gts, mem := s.hostMem, reach := Config.bootReach, agenda := s.agenda, cur := s.cur, undefCtr := s.undefCtr
    boot := { s.boot with phase := .running, slot := slot, rollback := max s.boot.rollback (Config.rollbackTo (fwSvn flash)) } }

/-- POWER_ON (R385): slot 0, then slot 1; with neither, the device does not run. -/
def execPowerOn (s : State) : Host.Outcome State Fault Refusal :=
  .next (if fwOk s.boot.rollback s.boot.flash0 then s.booted 0 s.boot.flash0
    else if fwOk s.boot.rollback s.boot.flash1 then s.booted 1 s.boot.flash1
    else { State.reset with dev := s.dev, gts := s.gts, mem := s.hostMem, agenda := s.agenda, cur := s.cur, undefCtr := s.undefCtr
                            boot := { s.boot with phase := .failed } })

/-! ## Attestation (R387 to R389) -/

/-- The management sequencer answers while the package has power. -/
def State.answers (s : State) : Bool := s.boot.phase == .running || s.boot.phase == .failed

def State.answer (s : State) (r : SpdmResp) : State := if s.answers then { s with spdm := s.spdm ++ [r] } else s

/-- ERRLOG's ring as the management port reads it (R197, R391): n dwords from one on. -/
def State.errlogOut (s : State) (first n : Nat) : List Word :=
  (List.range n).map fun i => s.ctlRead (0x10000 + 8 * ((first + i) % 16384))

/-- FIRMWARE_UPDATE (R391): a request at the management port. An image goes into the slot that is not running; ERRLOG is read out. What
telemetry holds is not stated. DESIGN CHOICE, log entry 15. -/
def execFirmwareUpdate (op : MgmtOp) (s : State) : Host.Outcome State Fault Refusal :=
  .next (match op with
    | .errlog first n => s.answer (.errlog (s.errlogOut first n))
    | .update img     =>
      if !s.answers then s
      else if s.boot.slot == 0 then { s with boot := { s.boot with flash1 := img.bytes } }
      else { s with boot := { s.boot with flash0 := img.bytes } })

/-- GET_VERSION (R387): SPDM 1.2. -/
def execGetVersion (s : State) : Host.Outcome State Fault Refusal := .next (s.answer (.version 0x12))

/-- GET_CAPABILITIES (R387). -/
def execGetCapabilities (s : State) : Host.Outcome State Fault Refusal := .next (s.answer .capabilities)

/-- NEGOTIATE_ALGORITHMS (R387): of what is offered, ECDSA P-256 and SHA-256 only. -/
def execNegotiateAlgorithms (o : AlgOffer) (s : State) : Host.Outcome State Fault Refusal :=
  .next (s.answer (.algorithms o.ecdsaP256 o.sha256))

/-- GET_DIGESTS (R387): the digest of the certificate chain. -/
def execGetDigests (s : State) : Host.Outcome State Fault Refusal := .next (s.answer (.digests (sha256 Config.certChain)))

/-- GET_CERTIFICATE (R387): a part of the chain, which stands in slot 0; other slots hold none (DESIGN CHOICE, log entry 15). -/
def execGetCertificate (slot off len : Nat) (s : State) : Host.Outcome State Fault Refusal :=
  .next (s.answer (.certificate (if slot = 0 then (Config.certChain.drop off).take len else [])))

/-- CHALLENGE (R387): signed with the identity key. -/
def execChallenge (nonce : List Byte) (s : State) : Host.Outcome State Fault Refusal :=
  .next (s.answer (.challengeAuth (Config.sign (nonce ++ sha256 Config.certChain))))

/-- The running firmware image. -/
def State.runningImage (s : State) : List Byte :=
  (fwImage (if s.boot.slot == 0 then s.boot.flash0 else s.boot.flash1)).getD []

/-- The bytes of measurement 67 (R388). -/
def State.contractBytes (s : State) : List Byte :=
  (List.range 64).flatMap fun k => leBytes 8 (s.cctl k) ++ leBytes 8 (s.cPeriod k) ++ leBytes 8 (s.cBudget k)

/-- What measurement i is a digest over (R388). -/
def State.measured (s : State) (i : Nat) : List Byte :=
  if i = 1 then Config.fuseBytes s.boot.rollback
  else if i = 2 then s.runningImage
  else if i < 67 then (nget s.protos (i - 3)).getD (List.replicate 32 0)
  else s.contractBytes

/-- GET_MEASUREMENTS (R388, R389): every digest at one instant, and the signature. -/
def execGetMeasurements (nonce : List Byte) (s : State) : Host.Outcome State Fault Refusal :=
  .next <|
    let ds := (List.range 67).map fun i => sha256 (s.measured (i + 1))
    s.answer (.measurements ds (Config.sign (nonce ++ ds.flatten)))

/-- SPDM_UNSUPPORTED_REQUEST (R387). -/
def execSpdmUnsupportedRequest (code : Byte) (s : State) : Host.Outcome State Fault Refusal :=
  .next (s.answer (.unsupported code))

/-! ## Heat (R390) -/

/-- The limit of a pane's wicket in louvres, cool and hot: 64 and 32 tokens. -/
def wicketLimit (hot : Bool) : Nat := if hot then 128 else 256

/-- THERMAL_LIMIT (R390): at 105 °C a pane's wicket is limited to 32 tokens and the event is logged, under a kind that the
manual does not state; below 100 °C the 64 tokens are back. DESIGN CHOICE, log entry 16. -/
def execThermalLimit (pane : Fin 8) (hot : Bool) (s : State) : Host.Outcome State Fault Refusal :=
  .next <|
    let p := s.pane pane.val
    let s1 := s.setPane pane.val { p with limit := wicketLimit hot }
    if hot && p.limit != wicketLimit true then
      match s1.fresh with
      | (k, s2) => s2.logEvent (k.toNat % 256) 0xFFFF 0xFF noElem pane.val 0 0
    else s1

/-- A context that is not running is removed with FATAL_HW (R189, R390): there is nothing that could run its exit routine. -/
def State.fatalAway (s : State) (t : Task) : State :=
  let id := t.cont.taskid
  let core := ((s.savedCtx t.id).bind fun x => x.old.head?.map fun o => o.1).getD (t.cores.headD 0)
  let s1 := ((s.logEvent 5 (srcOf core) 0xFF noElem 0 id.toNat cFATAL_HW).launchFails t.launch id cFATAL_HW id.toNat 0).launchDrop t.launch
  if (s.savedCtx t.id).isSome then s1.discardSaved t else s1.clearTask t

/-- THERMAL_SHUTDOWN (R390): every context on the package, saved and placed ones too, is removed with FATAL_HW and RETRY = 0, and power is
gated. -/
def execThermalShutdown (_pane : Fin 8) (s : State) : Host.Outcome State Fault Refusal :=
  .next <|
    let hit (s : State) (t : Task) : State :=
      match t.phase with
      | .running     =>
        t.cores.foldl (fun s n => s.fatalInfo n [.A, .X] (infoE 0 0xFF noElem)) (s.remove (t.cores.headD 0) cFATAL_HW 0)
      | .stopping _  =>
        t.cores.foldl (fun s n => s.fatalInfo n [.A, .X] (infoE 0 0xFF noElem)) (s.remove (t.cores.headD 0) cFATAL_HW 0)
      | .placed      => s.fatalAway t
      | .saved       => s.fatalAway t
      | .exiting _ _ => s
      | .discarded _ => s
    let s1 := (s.tasks.foldl hit s).tellLeaving
    { s1 with boot := { s1.boot with phase := .gated } }

end Machine
end Sys2Proof
end

