-- ==== Sys2Proof/Machine/Control.lean ====
section
/-!
DEFINITION. Transfers and hardware loops, majors 0x0B to 0x11 (R233 to R235, R137).
-/

namespace Sys2Proof
namespace Machine

/-- A transfer to a checked target (R210, R233). -/
def State.jump (s : State) (pc : Word) : R State := do
  target pc
  pure (s.goto pc)

/-- br (R233). -/
def execBr (disp : Disp) (s : State) : Host.Outcome State Fault Refusal := s.finish (s.jump (s.mySide.pc + disp.bytes))

/-- bz and bnz: the transfer when the condition on a holds (R233). -/
def State.branchIf (s : State) (a : RegNo) (disp : Imm) (c : Word → Bool) : Host.Outcome State Fault Refusal :=
  s.finish do
    let x ← s.src a false
    if c x then s.jump (s.mySide.pc + disp.bytes) else pure (s.retire disp.len)

def execBz (a : RegNo) (disp : Imm) (s : State) : Host.Outcome State Fault Refusal :=
  s.branchIf a disp fun x => x == 0

def execBnz (a : RegNo) (disp : Imm) (s : State) : Host.Outcome State Fault Refusal :=
  s.branchIf a disp fun x => x != 0

/-- The link register a27 or s27 (R233). -/
def linkReg : RegNo := 27

/-- call: the return address is the address after the instruction (R233). -/
def execCall (disp : Disp) (s : State) : Host.Outcome State Fault Refusal :=
  s.finish do
    target (s.mySide.pc + disp.bytes)
    s.dst linkReg
    pure ((s.put linkReg (s.mySide.pc + BitVec.ofNat 64 disp.len)).goto (s.mySide.pc + disp.bytes))

/-- ret (R233). -/
def execRet (s : State) : Host.Outcome State Fault Refusal :=
  s.finish do
    let x ← s.src linkReg false
    s.jump x

/-- jr (R233). -/
def execJr (a : SrcR) (s : State) : Host.Outcome State Fault Refusal :=
  s.finish do
    let x ← s.srcR a
    s.jump x

/-- Six loop entries are the most a side holds (R136). -/
def loopDepth : Nat := 6

/-- loop (R234): a zero count continues after END, a nonzero one pushes an entry. DEDUCED, log entry 46. DEDUCED, log entry 60. -/
def execLoop (a : SrcR) (disp : BitVec 32) (s : State) : Host.Outcome State Fault Refusal :=
  s.finish do
    orTrap (!(disp.toInt < 3)) (trapE cILLEGAL)
    let n ← s.srcR a
    orTrap (n.toNat < 2 ^ 32) (trapE cILLEGAL)
    let t := s.mySide
    let fin := t.pc + 4 * sx32 disp
    orTrap (t.loops.length < loopDepth) { code := cILLEGAL, info := infoE 1 0 noElem }
    if n = 0 then pure (s.goto (fin + 4))
    else pure (s.setMySide { t with
      loops := { start := t.pc + 12, fin := fin, count := BitVec.ofNat 32 n.toNat, index := 0 } :: t.loops,
      pc := t.pc + 12 })

/-- lidx (R235): depth 0 names the top entry. -/
def execLidx (d : RegNo) (depth : Fin 32) (s : State) : Host.Outcome State Fault Refusal :=
  s.finish do
    match s.mySide.loops[depth.val]? with
    | none   => raise (trapE cILLEGAL)
    | some e =>
      s.dst d
      pure ((s.put d (e.index.zeroExtend 64)).retire 4)

/-- lbrk (R137): pops the top entry and continues after its END. -/
def execLbrk (s : State) : Host.Outcome State Fault Refusal :=
  s.finish do
    match s.mySide.loops with
    | []      => raise (trapE cILLEGAL)
    | e :: es => pure (s.setMySide { s.mySide with loops := es, pc := s.afterEnd e.fin })

/-- nop (R235). -/
def execNop (s : State) : Host.Outcome State Fault Refusal := .next (s.retire 4)

end Machine
end Sys2Proof
end

