-- ==== Sys2Proof/Machine/Scalar.lean ====
section
/-!
DEFINITION. The scalar integer and bit-field instructions of both sides, majors 0x01 to 0x0A (R227 to R232).
-/

namespace Sys2Proof
namespace Machine

/-- A scalar instruction with two sources: it waits for its sources and for an empty destination, computes, writes d
and retires (R227, R229). op is given the old value of d for the instructions that read it. -/
def State.alu2 (s : State) (f : AluF) (op : Word → Word → R Word) : Host.Outcome State Fault Refusal :=
  s.finish do
    let a ← s.src f.a f.fa
    let b ← s.src2 f.src
    s.dst f.d
    let v ← op a b
    pure ((s.put f.d v).retire f.src.len)

/-- The same for an instruction that also reads d (R229, R232). -/
def State.alu3 (s : State) (f : AluF) (op : Word → Word → Word → Word) : Host.Outcome State Fault Refusal :=
  s.finish do
    let a ← s.src f.a f.fa
    let b ← s.src2 f.src
    let d ← s.src f.d false
    pure ((s.put f.d (op d a b)).retire f.src.len)

/-- A scalar instruction with one source (R229). -/
def State.alu1 (s : State) (f : UnF) (op : Word → Word) : Host.Outcome State Fault Refusal :=
  s.finish do
    let a ← s.src f.a f.fa
    s.dst f.d
    pure ((s.put f.d (op a)).retire 4)

/-- An I-format instruction (R230). -/
def State.aluI (s : State) (d a : RegNo) (len : Nat) (op : Word → Word) : Host.Outcome State Fault Refusal :=
  s.finish do
    let x ← s.src a false
    s.dst d
    pure ((s.put d (op x)).retire len)

/-- A total operation as one that cannot stop. -/
def total (op : Word → Word → Word) (a b : Word) : R Word := .ok (op a b)

/-- A truth value as 1 or 0. -/
def b2w (b : Bool) : Word := if b then 1 else 0

/-- The shift count b[5:0] (R229). -/
def count6 (b : Word) : Nat := b.toNat % 64

/-- Signed quotient, truncated toward zero; wraps for the most negative value by −1 (R36). -/
def sdiv (a b : Word) : Word := BitVec.ofInt 64 (Int.tdiv a.toInt b.toInt)

/-- Signed remainder with the sign of the dividend (R36). -/
def srem (a b : Word) : Word := BitVec.ofInt 64 (Int.tmod a.toInt b.toInt)

/-- Division at width 64 (R36, R229): a zero divisor gives all ones, or a, or with FCTL.DZT the trap DIVZERO. -/
def State.divide (s : State) (byZero : Word → Word) (op : Word → Word → Word) (a b : Word) : R Word :=
  if b = 0 then (if bit s.me.fctl 2 then raise (trapE cDIVZERO) else .ok (byZero a)) else .ok (op a b)

def allOnes (_ : Word) : Word := BitVec.allOnes 64

/-- The number of leading zero bits of the low n bits of x (R229). -/
def clzFrom (x : Nat) : Nat → Nat
  | 0     => 0
  | n + 1 => if bit x n then 0 else 1 + clzFrom x n

/-- The number of trailing zero bits among n bits from bit i (R229). -/
def ctzFrom (x i : Nat) : Nat → Nat
  | 0     => 0
  | n + 1 => if bit x i then 0 else 1 + ctzFrom x (i + 1) n

/-- The number of one bits among the low n bits (R229). -/
def popcOf (x : Nat) : Nat → Nat
  | 0     => 0
  | n + 1 => (if bit x n then 1 else 0) + popcOf x n

def clz64 (a : Word) : Word := BitVec.ofNat 64 (clzFrom a.toNat 64)
def ctz64 (a : Word) : Word := BitVec.ofNat 64 (ctzFrom a.toNat 0 64)
def popc64 (a : Word) : Word := BitVec.ofNat 64 (popcOf a.toNat 64)

/-- pos and the length used of a field spec (R232). -/
def specPos (b : Word) : Nat := bits b.toNat 5 0
def specLen (b : Word) : Nat := min (bits b.toNat 14 8) (64 - specPos b)

/-- bfx: the field, zero-extended; an empty field is 0 (R232). DEDUCED, log entry 57. -/
def bfxOf (a b : Word) : Word := BitVec.ofNat 64 (a.toNat / 2 ^ specPos b % 2 ^ specLen b)

/-- bfxs: the field, sign-extended from its highest bit (R232). -/
def bfxsOf (a b : Word) : Word :=
  if specLen b = 0 then 0 else BitVec.ofInt 64 (signedOf (specLen b) (a.toNat / 2 ^ specPos b))

/-- bfi: d with the field replaced by the low bits of a (R232). -/
def bfiOf (d a b : Word) : Word :=
  let mask : Word := BitVec.ofNat 64 ((2 ^ specLen b - 1) * 2 ^ specPos b)
  (d &&& ~~~mask) ||| ((a <<< specPos b) &&& mask)

/-- fsh: the high half of {d, a} shifted left by b[5:0] (R232). -/
def fshOf (d a b : Word) : Word :=
  if count6 b = 0 then d else (d <<< count6 b) ||| (a >>> (64 - count6 b))

def execAdd (f : AluF) (s : State) := s.alu2 f (total fun a b => a + b)
def execSub (f : AluF) (s : State) := s.alu2 f (total fun a b => a - b)
def execMul (f : AluF) (s : State) := s.alu2 f (total fun a b => a * b)
def execMulh (f : AluF) (s : State) := s.alu2 f (total fun a b => BitVec.ofInt 64 (a.toInt * b.toInt / 2 ^ 64))
def execMulhn (f : AluF) (s : State) := s.alu2 f (total fun a b => BitVec.ofNat 64 (a.toNat * b.toNat / 2 ^ 64))
def execDiv (f : AluF) (s : State) := s.alu2 f (s.divide allOnes sdiv)
def execDivn (f : AluF) (s : State) := s.alu2 f (s.divide allOnes fun a b => a / b)
def execRem (f : AluF) (s : State) := s.alu2 f (s.divide id srem)
def execRemn (f : AluF) (s : State) := s.alu2 f (s.divide id fun a b => a % b)
def execAnd (f : AluF) (s : State) := s.alu2 f (total fun a b => a &&& b)
def execOr (f : AluF) (s : State) := s.alu2 f (total fun a b => a ||| b)
def execXor (f : AluF) (s : State) := s.alu2 f (total fun a b => a ^^^ b)
def execShl (f : AluF) (s : State) := s.alu2 f (total fun a b => a <<< count6 b)
def execShr (f : AluF) (s : State) := s.alu2 f (total fun a b => a >>> count6 b)
def execSar (f : AluF) (s : State) := s.alu2 f (total fun a b => a.sshiftRight (count6 b))
def execMin (f : AluF) (s : State) := s.alu2 f (total fun a b => if a.toInt ≤ b.toInt then a else b)
def execMax (f : AluF) (s : State) := s.alu2 f (total fun a b => if a.toInt ≤ b.toInt then b else a)
def execSlt (f : AluF) (s : State) := s.alu2 f (total fun a b => b2w (a.slt b))
def execSltn (f : AluF) (s : State) := s.alu2 f (total fun a b => b2w (a.ult b))
def execSeq (f : AluF) (s : State) := s.alu2 f (total fun a b => b2w (a == b))
def execCmovnz (f : AluF) (s : State) := s.alu3 f (fun d a b => if b = 0 then d else a)
def execClz (f : UnF) (s : State) := s.alu1 f clz64
def execCtz (f : UnF) (s : State) := s.alu1 f ctz64
def execPopc (f : UnF) (s : State) := s.alu1 f popc64

def execAddi (f : ImmF) (s : State) := s.aluI f.d f.a f.imm.len fun a => a + f.imm.sx
def execAndi (f : ImmF) (s : State) := s.aluI f.d f.a f.imm.len fun a => a &&& f.imm.zx
def execOri (f : ImmF) (s : State) := s.aluI f.d f.a f.imm.len fun a => a ||| f.imm.zx
def execXori (f : ImmF) (s : State) := s.aluI f.d f.a f.imm.len fun a => a ^^^ f.imm.zx
def execSlti (f : ImmF) (s : State) := s.aluI f.d f.a f.imm.len fun a => b2w (a.slt f.imm.sx)
def execLi (d : RegNo) (v : Imm) (s : State) := s.aluI d 0 v.len fun _ => v.sx
def execLih (d : RegNo) (v : BitVec 16) (s : State) := s.aluI d d 4 fun x => (x <<< 16) ||| v.zeroExtend 64
def execShli (f : ShImmF) (s : State) := s.aluI f.d f.a 4 fun a => a <<< f.n.val
def execShri (f : ShImmF) (s : State) := s.aluI f.d f.a 4 fun a => a >>> f.n.val
def execSari (f : ShImmF) (s : State) := s.aluI f.d f.a 4 fun a => a.sshiftRight f.n.val

def execBfx (f : AluF) (s : State) := s.alu2 f (total bfxOf)
def execBfxs (f : AluF) (s : State) := s.alu2 f (total bfxsOf)
def execBfi (f : AluF) (s : State) := s.alu3 f bfiOf
def execFsh (f : AluF) (s : State) := s.alu3 f fshOf

end Machine
end Sys2Proof
end

