-- ==== Sys2Proof/Machine/Dispatch.lean ====
section
/-!
DEFINITION. One arm for each constructor of Instr, each a direct call of its meaning.
-/

namespace Sys2Proof
namespace Machine

/-- The meaning of one row of the opcode table. -/
def exec (i : Instr) (s : State) : Host.Outcome State Fault Refusal :=
  match i with
  | .add f => Sys2Proof.Machine.execAdd f s
  | .sub f => Sys2Proof.Machine.execSub f s
  | .mul f => Sys2Proof.Machine.execMul f s
  | .mulh f => Sys2Proof.Machine.execMulh f s
  | .mulhn f => Sys2Proof.Machine.execMulhn f s
  | .div f => Sys2Proof.Machine.execDiv f s
  | .divn f => Sys2Proof.Machine.execDivn f s
  | .rem f => Sys2Proof.Machine.execRem f s
  | .remn f => Sys2Proof.Machine.execRemn f s
  | .and f => Sys2Proof.Machine.execAnd f s
  | .or f => Sys2Proof.Machine.execOr f s
  | .xor f => Sys2Proof.Machine.execXor f s
  | .shl f => Sys2Proof.Machine.execShl f s
  | .shr f => Sys2Proof.Machine.execShr f s
  | .sar f => Sys2Proof.Machine.execSar f s
  | .min f => Sys2Proof.Machine.execMin f s
  | .max f => Sys2Proof.Machine.execMax f s
  | .slt f => Sys2Proof.Machine.execSlt f s
  | .sltn f => Sys2Proof.Machine.execSltn f s
  | .seq f => Sys2Proof.Machine.execSeq f s
  | .cmovnz f => Sys2Proof.Machine.execCmovnz f s
  | .clz f => Sys2Proof.Machine.execClz f s
  | .ctz f => Sys2Proof.Machine.execCtz f s
  | .popc f => Sys2Proof.Machine.execPopc f s
  | .addi f => Sys2Proof.Machine.execAddi f s
  | .andi f => Sys2Proof.Machine.execAndi f s
  | .ori f => Sys2Proof.Machine.execOri f s
  | .xori f => Sys2Proof.Machine.execXori f s
  | .slti f => Sys2Proof.Machine.execSlti f s
  | .li d imm => Sys2Proof.Machine.execLi d imm s
  | .lih d imm => Sys2Proof.Machine.execLih d imm s
  | .shli f => Sys2Proof.Machine.execShli f s
  | .shri f => Sys2Proof.Machine.execShri f s
  | .sari f => Sys2Proof.Machine.execSari f s
  | .bfx f => Sys2Proof.Machine.execBfx f s
  | .bfxs f => Sys2Proof.Machine.execBfxs f s
  | .bfi f => Sys2Proof.Machine.execBfi f s
  | .fsh f => Sys2Proof.Machine.execFsh f s
  | .br disp => Sys2Proof.Machine.execBr disp s
  | .bz a disp => Sys2Proof.Machine.execBz a disp s
  | .bnz a disp => Sys2Proof.Machine.execBnz a disp s
  | .call disp => Sys2Proof.Machine.execCall disp s
  | .ret => Sys2Proof.Machine.execRet s
  | .jr a => Sys2Proof.Machine.execJr a s
  | .loop a disp => Sys2Proof.Machine.execLoop a disp s
  | .lidx d depth => Sys2Proof.Machine.execLidx d depth s
  | .lbrk => Sys2Proof.Machine.execLbrk s
  | .nop => Sys2Proof.Machine.execNop s
  | .ld f => Sys2Proof.Machine.execLd f s
  | .st f => Sys2Proof.Machine.execSt f s
  | .pref a addr => Sys2Proof.Machine.execPref a addr s
  | .ldq f => Sys2Proof.Machine.execLdq f s
  | .ldqs f => Sys2Proof.Machine.execLdqs f s
  | .ldqx f => Sys2Proof.Machine.execLdqx f s
  | .ldab f => Sys2Proof.Machine.execLdab f s
  | .ldabRetry c => Sys2Proof.Machine.execLdabRetry c s
  | .stq f => Sys2Proof.Machine.execStq f s
  | .stqApp q a => Sys2Proof.Machine.execStqApp q a s
  | .stqs f => Sys2Proof.Machine.execStqs f s
  | .stqx f => Sys2Proof.Machine.execStqx f s
  | .stqp f => Sys2Proof.Machine.execStqp f s
  | .stab f => Sys2Proof.Machine.execStab f s
  | .stqDataArrives c n => Sys2Proof.Machine.execStqDataArrives c n s
  | .stabGenRetry c n => Sys2Proof.Machine.execStabGenRetry c n s
  | .amo f => Sys2Proof.Machine.execAmo f s
  | .amoqx f => Sys2Proof.Machine.execAmoqx f s
  | .loadComplete c n => Sys2Proof.Machine.execLoadComplete c n s
  | .fence sc => Sys2Proof.Machine.execFence sc s
  | .fenceSys d => Sys2Proof.Machine.execFenceSys d s
  | .fenceSysT d => Sys2Proof.Machine.execFenceSysT d s
  | .fenceComplete c side => Sys2Proof.Machine.execFenceComplete c side s
  | .arm a b => Sys2Proof.Machine.execArm a b s
  | .arrive a b => Sys2Proof.Machine.execArrive a b s
  | .await d a b => Sys2Proof.Machine.execAwait d a b s
  | .awaitComplete c n => Sys2Proof.Machine.execAwaitComplete c n s
  | .vsetl d a mask => Sys2Proof.Machine.execVsetl d a mask s
  | .spcfg a => Sys2Proof.Machine.execSpcfg a s
  | .cpy a => Sys2Proof.Machine.execCpy a s
  | .xform a => Sys2Proof.Machine.execXform a s
  | .mcfg a => Sys2Proof.Machine.execMcfg a s
  | .mcfgD a => Sys2Proof.Machine.execMcfgD a s
  | .mmp f => Sys2Proof.Machine.execMmp f s
  | .macroOpStart c => Sys2Proof.Machine.execMacroOpStart c s
  | .macroOpKStep c => Sys2Proof.Machine.execMacroOpKStep c s
  | .macroOpComplete c => Sys2Proof.Machine.execMacroOpComplete c s
  | .mzero a => Sys2Proof.Machine.execMzero a s
  | .mlive a => Sys2Proof.Machine.execMlive a s
  | .mchk a off => Sys2Proof.Machine.execMchk a off s
  | .mdrain f => Sys2Proof.Machine.execMdrain f s
  | .sampleCheckResult pane => Sys2Proof.Machine.execSampleCheckResult pane s
  | .vcfg code => Sys2Proof.Machine.execVcfg code s
  | .vtag d tag => Sys2Proof.Machine.execVtag d tag s
  | .vgetl d => Sys2Proof.Machine.execVgetl d s
  | .vsetlx d a w => Sys2Proof.Machine.execVsetlx d a w s
  | .vmv f => Sys2Proof.Machine.execVmv f s
  | .vmvH d q => Sys2Proof.Machine.execVmvH d q s
  | .vpush q a => Sys2Proof.Machine.execVpush q a s
  | .vpushH q a => Sys2Proof.Machine.execVpushH q a s
  | .vbc d b p ext => Sys2Proof.Machine.execVbc d b p ext s
  | .vid d ext => Sys2Proof.Machine.execVid d ext s
  | .vext d a n => Sys2Proof.Machine.execVext d a n s
  | .vins d a n => Sys2Proof.Machine.execVins d a n s
  | .vadd f => Sys2Proof.Machine.execVadd f s
  | .vsub f => Sys2Proof.Machine.execVsub f s
  | .vmul f => Sys2Proof.Machine.execVmul f s
  | .vmulh f => Sys2Proof.Machine.execVmulh f s
  | .vfma f => Sys2Proof.Machine.execVfma f s
  | .vdiv f => Sys2Proof.Machine.execVdiv f s
  | .vmin f => Sys2Proof.Machine.execVmin f s
  | .vmax f => Sys2Proof.Machine.execVmax f s
  | .vabs f => Sys2Proof.Machine.execVabs f s
  | .vneg f => Sys2Proof.Machine.execVneg f s
  | .vand f => Sys2Proof.Machine.execVand f s
  | .vor f => Sys2Proof.Machine.execVor f s
  | .vxor f => Sys2Proof.Machine.execVxor f s
  | .vnot f => Sys2Proof.Machine.execVnot f s
  | .vshl f => Sys2Proof.Machine.execVshl f s
  | .vshr f => Sys2Proof.Machine.execVshr f s
  | .vsar f => Sys2Proof.Machine.execVsar f s
  | .vcvt f => Sys2Proof.Machine.execVcvt f s
  | .vcmp f => Sys2Proof.Machine.execVcmp f s
  | .vsel f => Sys2Proof.Machine.execVsel f s
  | .mand d a b => Sys2Proof.Machine.execMand d a b s
  | .mor d a b => Sys2Proof.Machine.execMor d a b s
  | .mxor d a b => Sys2Proof.Machine.execMxor d a b s
  | .mnot d a => Sys2Proof.Machine.execMnot d a s
  | .mpop d a => Sys2Proof.Machine.execMpop d a s
  | .mfirst d a => Sys2Proof.Machine.execMfirst d a s
  | .vslup f => Sys2Proof.Machine.execVslup f s
  | .vsldn f => Sys2Proof.Machine.execVsldn f s
  | .vperm f => Sys2Proof.Machine.execVperm f s
  | .vxchg f => Sys2Proof.Machine.execVxchg f s
  | .vcompress d a p => Sys2Proof.Machine.execVcompress d a p s
  | .vexpand d a p => Sys2Proof.Machine.execVexpand d a p s
  | .vappend q a p => Sys2Proof.Machine.execVappend q a p s
  | .vred f => Sys2Proof.Machine.execVred f s
  | .vscan f => Sys2Proof.Machine.execVscan f s
  | .vrcp f => Sys2Proof.Machine.execVrcp f s
  | .vrsq f => Sys2Proof.Machine.execVrsq f s
  | .vsqrt f => Sys2Proof.Machine.execVsqrt f s
  | .vex2 f => Sys2Proof.Machine.execVex2 f s
  | .vlg2 f => Sys2Proof.Machine.execVlg2 f s
  | .vtanh f => Sys2Proof.Machine.execVtanh f s
  | .vrng d a b p => Sys2Proof.Machine.execVrng d a b p s
  | .rng d a b h => Sys2Proof.Machine.execRng d a b h s
  | .kcfg f => Sys2Proof.Machine.execKcfg f s
  | .kmv f => Sys2Proof.Machine.execKmv f s
  | .kput f => Sys2Proof.Machine.execKput f s
  | .kadj f => Sys2Proof.Machine.execKadj f s
  | .vdadd f => Sys2Proof.Machine.execVdadd f s
  | .vdsub f => Sys2Proof.Machine.execVdsub f s
  | .vddiff f => Sys2Proof.Machine.execVddiff f s
  | .vdmul f => Sys2Proof.Machine.execVdmul f s
  | .vdscl f => Sys2Proof.Machine.execVdscl f s
  | .reanc f => Sys2Proof.Machine.execReanc f s
  | .vdwide f => Sys2Proof.Machine.execVdwide f s
  | .vdfrom f => Sys2Proof.Machine.execVdfrom f s
  | .cbld f => Sys2Proof.Machine.execCbld f s
  | .cbldComplete c => Sys2Proof.Machine.execCbldComplete c s
  | .cbinv cb a => Sys2Proof.Machine.execCbinv cb a s
  | .cbmode cb a => Sys2Proof.Machine.execCbmode cb a s
  | .cbst d cb => Sys2Proof.Machine.execCbst d cb s
  | .cbx f => Sys2Proof.Machine.execCbx f s
  | .tget d t spec => Sys2Proof.Machine.execTget d t spec s
  | .tfill t spec b => Sys2Proof.Machine.execTfill t spec b s
  | .cjoin cv src => Sys2Proof.Machine.execCjoin cv src s
  | .csend cv a kind => Sys2Proof.Machine.execCsend cv a kind s
  | .crecv d cv b => Sys2Proof.Machine.execCrecv d cv b s
  | .crecvComplete c n => Sys2Proof.Machine.execCrecvComplete c n s
  | .cchoose cv kind => Sys2Proof.Machine.execCchoose cv kind s
  | .cdeleg cv a => Sys2Proof.Machine.execCdeleg cv a s
  | .cleave cv => Sys2Proof.Machine.execCleave cv s
  | .cstate d cv => Sys2Proof.Machine.execCstate d cv s
  | .cprot a b => Sys2Proof.Machine.execCprot a b s
  | .homeReply c r => Sys2Proof.Machine.execHomeReply c r s
  | .sendRetry c => Sys2Proof.Machine.execSendRetry c s
  | .homeSend n => Sys2Proof.Machine.execHomeSend n s
  | .homeJoin n => Sys2Proof.Machine.execHomeJoin n s
  | .homeDelegate n => Sys2Proof.Machine.execHomeDelegate n s
  | .homeLeave n => Sys2Proof.Machine.execHomeLeave n s
  | .homeStateRead n => Sys2Proof.Machine.execHomeStateRead n s
  | .messageForward f => Sys2Proof.Machine.execMessageForward f s
  | .spawn a => Sys2Proof.Machine.execSpawn a s
  | .done => Sys2Proof.Machine.execDone s
  | .gbar => Sys2Proof.Machine.execGbar s
  | .gbarComplete c side => Sys2Proof.Machine.execGbarComplete c side s
  | .tid d => Sys2Proof.Machine.execTid d s
  | .dsync => Sys2Proof.Machine.execDsync s
  | .trap c => Sys2Proof.Machine.execTrap c s
  | .eret => Sys2Proof.Machine.execEret s
  | .sget d n => Sys2Proof.Machine.execSget d n s
  | .sput d n => Sys2Proof.Machine.execSput d n s
  | .wait a => Sys2Proof.Machine.execWait a s
  | .waitExpire c side => Sys2Proof.Machine.execWaitExpire c side s
  | .wkt card => Sys2Proof.Machine.execWkt card s
  | .gts d => Sys2Proof.Machine.execGts d s
  | .xinvAll => Sys2Proof.Machine.execXinvAll s
  | .invalidationComplete => Sys2Proof.Machine.execInvalidationComplete s
  | .ccinvAll => Sys2Proof.Machine.execCcinvAll s
  | .ccinvComplete => Sys2Proof.Machine.execCcinvComplete s
  | .priTimeout fn page => Sys2Proof.Machine.execPriTimeout fn page s
  | .queueEntryDelivered c n => Sys2Proof.Machine.execQueueEntryDelivered c n s
  | .crossPaneWriteApply c n => Sys2Proof.Machine.execCrossPaneWriteApply c n s
  | .peerSilenceTimeout d => Sys2Proof.Machine.execPeerSilenceTimeout d s
  | .peerLostDeclared d => Sys2Proof.Machine.execPeerLostDeclared d s
  | .cardDispatch pane n => Sys2Proof.Machine.execCardDispatch pane n s
  | .chunkCommit pane n => Sys2Proof.Machine.execChunkCommit pane n s
  | .cardFail pane n => Sys2Proof.Machine.execCardFail pane n s
  | .cardComplete pane n => Sys2Proof.Machine.execCardComplete pane n s
  | .intervalClose launch => Sys2Proof.Machine.execIntervalClose launch s
  | .mergePartComplete launch => Sys2Proof.Machine.execMergePartComplete launch s
  | .launchFetch fn => Sys2Proof.Machine.execLaunchFetch fn s
  | .launchFetchAttempt fn => Sys2Proof.Machine.execLaunchFetchAttempt fn s
  | .recordPlacement => Sys2Proof.Machine.execRecordPlacement s
  | .taskStart task => Sys2Proof.Machine.execTaskStart task s
  | .preload c => Sys2Proof.Machine.execPreload c s
  | .taskEnd task => Sys2Proof.Machine.execTaskEnd task s
  | .statusRecordWrite launch => Sys2Proof.Machine.execStatusRecordWrite launch s
  | .contractAdmit k => Sys2Proof.Machine.execContractAdmit k s
  | .contractPeriodStart k => Sys2Proof.Machine.execContractPeriodStart k s
  | .contractOverrun k => Sys2Proof.Machine.execContractOverrun k s
  | .wicketGrant pane => Sys2Proof.Machine.execWicketGrant pane s
  | .contextSave task => Sys2Proof.Machine.execContextSave task s
  | .contextRestore n lead => Sys2Proof.Machine.execContextRestore n lead s
  | .exitRoutineTimeout task => Sys2Proof.Machine.execExitRoutineTimeout task s
  | .watchdog task => Sys2Proof.Machine.execWatchdog task s
  | .functionResetComplete fn => Sys2Proof.Machine.execFunctionResetComplete fn s
  | .flitTransmit d crit => Sys2Proof.Machine.execFlitTransmit d crit s
  | .resendRequest d => Sys2Proof.Machine.execResendRequest d s
  | .reachHandshakeTimeout d => Sys2Proof.Machine.execReachHandshakeTimeout d s
  | .wakeComplete ch => Sys2Proof.Machine.execWakeComplete ch s
  | .autoWake d => Sys2Proof.Machine.execAutoWake d s
  | .fabctlRun => Sys2Proof.Machine.execFabctlRun s
  | .fabctlDrain => Sys2Proof.Machine.execFabctlDrain s
  | .fabctlDark => Sys2Proof.Machine.execFabctlDark s
  | .fabctlRelock => Sys2Proof.Machine.execFabctlRelock s
  | .powerOn => Sys2Proof.Machine.execPowerOn s
  | .getVersion => Sys2Proof.Machine.execGetVersion s
  | .getCapabilities => Sys2Proof.Machine.execGetCapabilities s
  | .getDigests => Sys2Proof.Machine.execGetDigests s
  | .storePerformed c n => Sys2Proof.Machine.execStorePerformed c n s
  | .correctedError c addr => Sys2Proof.Machine.execCorrectedError c addr s
  | .uncorrectableError c side p parity addr => Sys2Proof.Machine.execUncorrectableError c side p parity addr s
  | .laneRetired c g => Sys2Proof.Machine.execLaneRetired c g s
  | .functionLevelReset fn => Sys2Proof.Machine.execFunctionLevelReset fn s
  | .conversationOpen n v => Sys2Proof.Machine.execConversationOpen n v s
  | .conversationClose n => Sys2Proof.Machine.execConversationClose n s
  | .flitReceive d f => Sys2Proof.Machine.execFlitReceive d f s
  | .flitAcknowledge d n => Sys2Proof.Machine.execFlitAcknowledge d n s
  | .reachWrite v => Sys2Proof.Machine.execReachWrite v s
  | .reachHandshakeComplete d => Sys2Proof.Machine.execReachHandshakeComplete d s
  | .lambdaEnWrite f v => Sys2Proof.Machine.execLambdaEnWrite f v s
  | .ringMove ch => Sys2Proof.Machine.execRingMove ch s
  | .drainMarkerAck ch => Sys2Proof.Machine.execDrainMarkerAck ch s
  | .thermalLimit pane hot => Sys2Proof.Machine.execThermalLimit pane hot s
  | .thermalShutdown pane => Sys2Proof.Machine.execThermalShutdown pane s
  | .negotiateAlgorithms o => Sys2Proof.Machine.execNegotiateAlgorithms o s
  | .getCertificate slot off len => Sys2Proof.Machine.execGetCertificate slot off len s
  | .challenge nonce => Sys2Proof.Machine.execChallenge nonce s
  | .getMeasurements nonce => Sys2Proof.Machine.execGetMeasurements nonce s
  | .spdmUnsupportedRequest code => Sys2Proof.Machine.execSpdmUnsupportedRequest code s
  | .atsTranslationCompletion fn a => Sys2Proof.Machine.execAtsTranslationCompletion fn a s
  | .sriovNumvfsWrite n => Sys2Proof.Machine.execSriovNumvfsWrite n s
  | .firmwareUpdate img => Sys2Proof.Machine.execFirmwareUpdate img s
  | .vlcapWrite c v => Sys2Proof.Machine.execVlcapWrite c v s
  | .laneokWrite c v => Sys2Proof.Machine.execLaneokWrite c v s
  | .mstepWrite c v => Sys2Proof.Machine.execMstepWrite c v s
  | .registerWrite t v => Sys2Proof.Machine.execRegisterWrite t v s
  | .pageWalkComplete pane asid va => Sys2Proof.Machine.execPageWalkComplete pane asid va s
  | .xinvRegion asid => Sys2Proof.Machine.execXinvRegion asid s
  | .xinvAsid asid => Sys2Proof.Machine.execXinvAsid asid s
  | .ccinvAsid asid => Sys2Proof.Machine.execCcinvAsid asid s
  | .atsInvalidateRequest fn page => Sys2Proof.Machine.execAtsInvalidateRequest fn page s
  | .priResponse fn page a => Sys2Proof.Machine.execPriResponse fn page a s
  | .peerAccessArrival a => Sys2Proof.Machine.execPeerAccessArrival a s
  | .peerResponse peer tag a => Sys2Proof.Machine.execPeerResponse peer tag a s
  | .inboundZeroLengthWrite fn => Sys2Proof.Machine.execInboundZeroLengthWrite fn s
  | .inboundZeroLengthRead fn => Sys2Proof.Machine.execInboundZeroLengthRead fn s
  | .launch fn size v => Sys2Proof.Machine.execLaunch fn size v s
  | .lwbaseWrite fn v => Sys2Proof.Machine.execLwbaseWrite fn v s
  | .lwcntWrite fn v => Sys2Proof.Machine.execLwcntWrite fn v s
  | .vstatClear fn v => Sys2Proof.Machine.execVstatClear fn v s
  | .bar2Access off size op => Sys2Proof.Machine.execBar2Access off size op s
  | .stopRequest task why => Sys2Proof.Machine.execStopRequest task why s
  | .remove task code => Sys2Proof.Machine.execRemove task code s
  | .contractDisable k => Sys2Proof.Machine.execContractDisable k s

end Machine
end Sys2Proof
end

