-- ==== Sys2Proof/Machine/Sequence.lean ====
section
/-!
DEFINITION. What a step is made of: the issue of an instruction by a sequencer (R135, R180, R216, R218), the events that
the device takes of itself, and the choice of what comes next (DESIGN CHOICE, log entry 2).
-/

namespace Sys2Proof
namespace Machine

/-! ## What every step ends with -/

/-- The position of a side has moved otherwise than into its handler. -/
def SideSt.moved (a b : SideSt) : Bool :=
  (a.pc != b.pc || a.loops != b.loops || a.fin != b.fin) && !(causeInh b.cause && !causeInh a.cause)

/-- A core has retired an instruction. -/
def Core.moved (a b : Core) : Bool := a.av.moved b.av || a.xv.moved b.xv

/-- A task has begun to end outright, in its exit routine or without one (R189, R190). -/
def Task.ending (t : Task) : Bool :=
  match t.phase with
  | .exiting _ _ => true
  | .discarded _ => true
  | .placed      => false
  | .running     => false
  | .stopping _  => false
  | .saved       => false

/-- The tasks removed between two states whose images would not have fitted in their context areas: an event each (R185). DEDUCED, log
entry 90. -/
def State.settleUnfit (old s : State) : State :=
  s.tasks.foldl (fun s t => match old.task t.id with
    | none   => s
    | some u => if t.ending && !u.ending && !old.fits u then s.unfit u else s) s

/-- Tasks that have retired an instruction between two states (R191), roles whose homes are to be told (R207), and values that arrive
in saved images (R82, R185); translations that nothing uses any more are forgotten. -/
def State.settle (old new : State) : State :=
  let mark (t : Task) : Task := if t.cores.any fun n => (old.core n).moved (new.core n) then { t with idle := new.gts } else t
  old.settleUnfit (old.settleImages ({ new with tasks := new.tasks.map mark } : State).tellLeaving).forgetGone

/-- An outcome settled. -/
def settled (old : State) (o : Host.Outcome State Fault Refusal) : Host.Outcome State Fault Refusal :=
  match o with
  | .next s    => .next (old.settle s)
  | .fault r   => .fault r
  | .refused r => .refused r

/-! ## Issue -/

/-- The task of a core whose members may issue: one that runs, or one in its exit routine (R183, R189). -/
def State.mayRun (s : State) (core : Nat) : Bool :=
  match (s.core core).task.bind s.task with
  | none   => false
  | some t => match t.phase with
    | .running     => true
    | .exiting _ _ => true
    | .placed      => false
    | .stopping _  => false
    | .saved       => false
    | .discarded _ => false

/-- Instructions of X in flight: receives and what issued behind them (R135). -/
def Core.behindReceives (c : Core) : Nat := c.crecvs.foldl (fun n w => n + 1 + w.young) 0

/-- Whether a side of a core may issue: not while it waits in an instruction that has issued, nor the A-side before a restored load has
been checked again (R82), not past eight instructions
in flight nor behind a trap that older receives hold back (R147), and not as the X-side of a member of a LONG gang other than the
lead (R150). -/
def State.canIssue (s : State) (core : Nat) (sd : Side) : Bool :=
  let c := s.core core
  let t := c.side sd
  s.boot.phase == .running && s.mayRun core && !t.fin && t.fence.isNone && t.waitTo.isNone && t.bar.isNone &&
    (match sd with
      | .A => c.cbld.isNone && !(c.mops.any fun m => m.compat.isSome) && !(c.pend.any Access.abandoned)
      | .X => c.behindReceives < 8 && (c.emptyRead.isNone || c.crecvs.isEmpty) && !(s.isLong core && some core != (s.gang core).head?))

/-- The pending asynchronous cause that is taken first (R180): a load of a restore, an overrun, a failed check. -/
def firstAsync (xs : List AsyncCause) : Option AsyncCause :=
  let isLoad (x : AsyncCause) : Bool := match x with
    | .load _ _  => true
    | .overrun   => false
    | .quality _ => false
  (xs.find? isLoad).or ((xs.find? fun x => x == .overrun).or xs.head?)

/-- The trap of an asynchronous cause (R176). -/
def AsyncCause.trap : AsyncCause → Trap
  | .load prot info => { code := if prot then cPROT else cXLATE, info := info, asy := true }
  | .overrun        => { code := cCONTRACT_OVERRUN, info := infoE 0 0 noElem, asy := true }
  | .quality t      => { code := cQUALITY, info := infoE 0 t noElem, asy := true }

/-- An asynchronous cause that is taken before the next instruction issues: not in the handler, and not within an
instruction of the A-side that has issued (R177, R180). DESIGN CHOICE, log entry 56. -/
def State.asyncDue (s : State) : Option AsyncCause :=
  if causeInh s.mySide.cause || s.me.peerWait.isSome || s.me.ldabTry.isSome then none else firstAsync s.mySide.asyncs

/-- An instruction of X that retired behind a pending receive stays in flight with it (R135, R147). -/
def State.countYoung (old new : State) (core : Nat) : State :=
  let c := old.core core
  let d := new.core core
  if !c.crecvs.isEmpty && c.crecvs.length == d.crecvs.length && c.xv.moved d.xv then
    let up (p : CrecvSt × Nat) : CrecvSt := if p.2 + 1 = d.crecvs.length then { p.1 with young := p.1.young + 1 } else p.1
    new.setCore core { d with crecvs := d.crecvs.zipIdx.map up }
  else new

/-- A transfer to itself retires and leaves the position alone (R191). -/
def State.spins (s : State) (i : Instr) : Bool :=
  match i with
  | .br _   => true
  | .bz a _ => s.me.full s.cur.side a
  | .bnz a _ => s.me.full s.cur.side a
  | .jr a   => s.me.full s.cur.side a.r
  | .ret    => s.me.full s.cur.side linkReg
  | .call _ => s.me.full s.cur.side linkReg
  | _       => false

/-- The task of the issuing core has retired an instruction now. -/
def State.touch (s : State) : State :=
  match s.me.task.bind s.task with
  | none   => s
  | some t => s.setTask { t with idle := s.gts }

/-- An instruction of the issuing sequencer executed: what exec answers, with what issue adds to it. -/
def State.runInstr (s : State) (i : Instr) : Host.Outcome State Fault Refusal :=
  match exec i s with
  | .next t    => .next (s.settle (State.countYoung s (if s.spins i && t.mySide.pc == s.mySide.pc then t.touch else t) s.cur.core))
  | .fault r   => .fault r
  | .refused r => .refused r

/-- The bytes of an instruction that a stop found in flight: it issues again without being fetched (R184). -/
def State.reissues (s : State) : Option (List Byte) :=
  s.inFlight.bind fun f => if f.bytes.isEmpty then none else some f.bytes

/-- Bytes executed; bytes that are no instruction raise ILLEGAL (R218). -/
def State.runBytes (s : State) (bs : List Byte) : Host.Outcome State Fault Refusal :=
  match decode bs with
  | .ok (i, _) => s.runInstr i
  | .error _   => settled s (s.finish (raise (trapE cILLEGAL)))

/-- The next instruction: the bytes at the program counter, fetched (R216), or those of one that issues again. -/
def State.runNext (s : State) : Host.Outcome State Fault Refusal :=
  match s.reissues, s.fetchAt s.mySide.pc with
  | some bs, _      => s.runBytes bs
  | none, .ok bs    => (s.keepCode s.mySide.pc bs).runBytes bs
  | none, .error e  => settled s (s.finish (.error e))

/-- The EMPTY_READ of an instruction of X whose older receives have retired since (R81, R147). -/
def State.emptyDue (s : State) : Option Word :=
  match s.cur.side with
  | .A => none
  | .X => s.me.emptyRead

/-- The sequencer of a side of a core has its turn: a trap held back or an asynchronous cause is taken, or its next instruction
issues. -/
def State.issueAt (s : State) (core : Nat) (sd : Side) : Host.Outcome State Fault Refusal :=
  if !s.canIssue core sd then .next s
  else
    let s1 := { s with cur := { core := core, side := sd } }
    match s1.emptyDue, s1.asyncDue with
    | some w, _      => .next (s.settle (s1.takeTrap { code := cEMPTY_READ, info := w }))
    | none, some x   =>
      let s2 := s1.setMySide { s1.mySide with asyncs := s1.mySide.asyncs.erase x }
      .next (s.settle (s2.takeTrap x.trap))
    | none, none     => s1.runNext

/-! ## Vector instructions that a stop finds in flight (R170, R183, R184, R187) -/

/-- What an instruction that has not begun has done. -/
def InFlight.none : InFlight :=
  { idx := 0, upto := .none, run := .none, kept := [], old := .none, pushed := [], bytes := [] }

/-- What a vector instruction reads and writes (R145): its element sources, its vector destination, the mask it writes, and the mask that
predicates it. -/
structure VUse where
  srcs : List VSrc
  dst  : Option VDst
  mdst : Option (Fin 16)
  pred : Fin 16
  deriving DecidableEq, Repr

def use1P (f : V1P) : VUse := { srcs := [f.a], dst := some f.d, mdst := .none, pred := f.p.m }
def use2P (f : V2P) : VUse := { srcs := [f.a, f.b], dst := some f.d, mdst := .none, pred := f.p.m }
def use1F (f : V1F) : VUse := { srcs := [f.a], dst := some f.d, mdst := f.ext.map fun x => x.ms, pred := f.p.m }
def use2F (f : V2F) : VUse := { srcs := f.a :: srcsOfB f.b, dst := some f.d, mdst := f.ext.map fun x => x.ms, pred := f.p.m }
def useSlide (f : SlideF) : VUse := { srcs := [f.a], dst := some f.d, mdst := .none, pred := f.p.m }
def useVd (f : VdF) : VUse := { srcs := [f.a, f.b], dst := some f.d, mdst := f.ext.map fun x => x.ms, pred := f.p.m }
def useScale (f : VdsclF) : VUse := { srcs := [f.a], dst := some (.reg f.d), mdst := .none, pred := f.p.m }

/-- The third source of vfma: the register c, or the destination itself (R264). -/
def useFma (f : VfmaF) : VUse :=
  let c : List VSrc := match f.ext, f.d with
    | some x, _      => [.reg x.2]
    | none, .reg v   => [.reg v]
    | none, .sq _    => []
  { srcs := f.a :: srcsOfB f.b ++ c, dst := some f.d, mdst := f.ext.map fun x => x.1.ms, pred := f.p.m }

/-- The instructions that a stop leaves at an element-group boundary (R285, R318), with what they use. Those of the scalar class have
retired at a stop; the others that are missing here (spills, vext, tile moves and the like) count among what retires. -/
def vectorUse (i : Instr) : Option VUse :=
  match i with
  | .vmv f    => some (use1P f)
  | .vbc d _ p _ => some { srcs := [], dst := some d, mdst := .none, pred := p.m }
  | .vid d _  => some { srcs := [], dst := some d, mdst := .none, pred := 0 }
  | .vadd f   => some (use2F f)
  | .vsub f   => some (use2F f)
  | .vmul f   => some (use2F f)
  | .vmulh f  => some (use2F f)
  | .vfma f   => some (useFma f)
  | .vdiv f   => some (use2F f)
  | .vmin f   => some (use2F f)
  | .vmax f   => some (use2F f)
  | .vabs f   => some (use1F f)
  | .vneg f   => some (use1F f)
  | .vand f   => some (use2F f)
  | .vor f    => some (use2F f)
  | .vxor f   => some (use2F f)
  | .vnot f   => some (use1F f)
  | .vshl f   => some (use2F f)
  | .vshr f   => some (use2F f)
  | .vsar f   => some (use2F f)
  | .vcvt f   => some { srcs := f.a :: f.vr.toList, dst := some f.d, mdst := some f.ms, pred := f.p.m }
  | .vcmp f   => some { srcs := f.a :: srcsOfB f.b, dst := .none, mdst := some f.d, pred := f.p.m }
  | .vsel f   => some (use2P f)
  | .vslup f  => some (useSlide f)
  | .vsldn f  => some (useSlide f)
  | .vperm f  => some (use2P f)
  | .vxchg f  => some { srcs := [f.a], dst := some f.d, mdst := .none, pred := f.p.m }
  | .vcompress d a p => some { srcs := [a], dst := some (.reg d), mdst := .none, pred := p.m }
  | .vexpand d a p   => some { srcs := [a, .reg d], dst := some (.reg d), mdst := .none, pred := p.m }
  | .vappend q a p   => some { srcs := [.reg a], dst := some (.sq q), mdst := .none, pred := p.m }
  | .vred f   => some { srcs := [f.a], dst := .none, mdst := some f.x.ms, pred := f.p.m }
  | .vscan f  => some { srcs := [f.a], dst := some f.d, mdst := some f.x.ms, pred := f.p.m }
  | .vrcp f   => some (use1P f)
  | .vrsq f   => some (use1P f)
  | .vsqrt f  => some (use1P f)
  | .vex2 f   => some (use1P f)
  | .vlg2 f   => some (use1P f)
  | .vtanh f  => some (use1P f)
  | .vrng d a _ p => some { srcs := [a], dst := some (.reg d), mdst := .none, pred := p.m }
  | .vdadd f  => some (useVd f)
  | .vdsub f  => some (useVd f)
  | .vddiff f => some { srcs := [f.a], dst := some f.d, mdst := .none, pred := f.p.m }
  | .vdmul f  => some { srcs := [f.a, f.b], dst := some (.reg f.d), mdst := .none, pred := f.p.m }
  | .vdscl f  => some (useScale f)
  | .reanc f  => some (useScale f)
  | .vdwide f => some (use1P f)
  | .vdfrom f => some { srcs := [f.a], dst := some (.reg f.d), mdst := f.ext.map fun x => x.ms, pred := f.p.m }
  | .cbx f    => some (use1P f)
  | _         => .none

/-- An instruction chained to an older one: it reads or replaces what that one writes (R145, R146). -/
def VUse.chained (u older : VUse) : Bool :=
  (match older.dst with
    | some (.reg v) => u.srcs.contains (.reg v) || u.dst == some (.reg v)
    | some (.sq q)  => u.dst == some (.sq q)
    | none          => false) ||
  (match older.mdst with
    | some m => m != 0 && (u.pred == m || u.mdst == some m)
    | none   => false)

/-- The register that a destination and a source both name. -/
def VUse.overSelf (u : VUse) : Option (Fin 32) :=
  match u.dst with
  | some (.reg v) => if u.srcs.contains (.reg v) then some v else .none
  | some (.sq _)  => .none
  | none          => .none

/-- Whether a register that is source and destination is saved from element 0 (R275). -/
def savesWhole (i : Instr) : Bool :=
  match i with
  | .vslup _ => true
  | .vsldn _ => true
  | .vperm _ => true
  | _        => false

/-- The instruction that X of a core goes on with, from a progress index, and what it leaves, if it retires; the second part is its
bytes. -/
def State.vectorStep (s : State) (core : Nat) (f : InFlight) : Option (Instr × List Byte × State) :=
  let s1 := { s with cur := { core := core, side := .X } }
  let s2 := s1.setMe { s1.me with flight := [f] }
  match s2.reissues.or (s2.fetchAt s2.mySide.pc).toOption with
  | none    => none
  | some bs => match decode bs with
    | .error _   => none
    | .ok (i, _) => match exec i s2 with
      | .next t    =>
        if t.me.flight.isEmpty && s2.mySide.moved t.mySide && t.tasks == s2.tasks then some (i, bs, { t with cur := s.cur }) else none
      | .fault _   => none
      | .refused _ => none

/-- The number of active elements of an instruction that is done up to an index. -/
def State.activeBelow (s : State) (core k : Nat) (q : Option (Fin 4)) (p : Pred) : Word :=
  let s1 := { s with cur := { core := core, side := .X } }
  let s2 := s1.setMe { s1.me with flight := [{ InFlight.none with upto := some k }] }
  match s2.vlen q with
  | .ok n    => BitVec.ofNat 64 ((s2.active p n).filter fun b => b).length
  | .error _ => 0

/-- The running value of an instruction that is done up to index k, if it has one (R54, R183, R277); after is the state that the elements
below k lead to. That of a scan is the result of the reduction that folds them. -/
def State.runningValue (before after : State) (core k : Nat) (i : Instr) : Option Word :=
  match i with
  | .vred f          => some ((after.core core).s)[f.d.val]
  | .vcompress _ a p => some (before.activeBelow core k a.queue p)
  | .vexpand _ a p   => some (before.activeBelow core k a.queue p)
  | .vappend _ _ p   => some (before.activeBelow core k none p)
  | .vscan f =>
    let c := before.core core
    let s1 := before.setCore core { c with sFull := c.sFull.set 1 true, flight := [{ InFlight.none with upto := some k }] }
    match execVred { d := 1, a := f.a, p := f.p, x := f.x } { s1 with cur := { core := core, side := .X } } with
    | .next t    => some ((t.core core).s)[1]
    | .fault _   => none
    | .refused _ => none
  | _ => none

/-- A list with the entries below k from one list and the others from another; d stands for entries that the first lacks. -/
def mixList (d : α) (new old : List α) (k : Nat) : List α :=
  match old.drop k with
  | []      => new.take k
  | x :: xs => new.takeD k d ++ x :: xs

/-- A register of which the elements below k are new. -/
def VReg.mixAt (new old : VReg) (k : Nat) : VReg :=
  { new with
    mark := max old.mark (min k new.mark)
    elems := mixList 0 new.elems (reslice (tagW old.tag.val) (tagW new.tag.val) old.elems) k
    valid := mixList true new.valid old.valid k }

/-- A mask of which the bits below k are new. -/
def mixMask (new old k : Nat) : Nat := new % 2 ^ k + old / 2 ^ k * 2 ^ k

/-- How many of the gang-wide elements below k a member holds, for a width (R151). -/
def State.ownBelow (s : State) (core g w k : Nat) : Nat :=
  let s1 := { s with cur := { core := core, side := .X } }
  (((s1.slices w k).find? fun x => x.1 == g).map fun x => x.2.2).getD 0

/-- The registers of a member in two parts: what an instruction wrote below k, and what it replaced from there on (R187). -/
def State.mixCore (s after : State) (core k g : Nat) : Core :=
  let c := s.core g
  let d := after.core g
  let reg (v : Fin 32) : VReg :=
    if k = 0 || d.vregs[v] == c.vregs[v] then c.vregs[v]
    else (d.vregs[v]).mixAt c.vregs[v] (s.ownBelow core g (tagW d.vregs[v].tag.val) k)
  { c with
    vregs := Vector.ofFn reg
    masks := Vector.ofFn fun m : Fin 16 => mixMask d.masks[m] c.masks[m] k
    anchors := d.anchors, fflg := d.fflg, mv := d.mv }

/-- The elements that a member has made of an entry to be pushed (R183): those below k, or what it has packed (R277). -/
def State.madeBelow (s after : State) (core k g : Nat) (i : Instr) (q : Fin 2) : List (Word × Bool) :=
  match (after.core g).sq[q.val].ents.getLast? with
  | none   => []
  | some e =>
    let xs := e.elems.zip e.valid
    match i with
    | .vappend _ _ _ => xs
    | _              => xs.take (s.ownBelow core g (tagW e.tag.val) k)

/-- What of a replaced register the image keeps, with its width (R187): the elements from the index up to its mark, or all (R275). -/
def State.keptOf (s after : State) (core k : Nat) (whole : Bool) (g : Nat) : List (Nat × Nat) :=
  let c := s.core g
  ((List.finRange 32).filter fun v => c.vregs[v] != (after.core g).vregs[v]).map fun v =>
    let w := tagW c.vregs[v].tag.val
    (c.vregs[v].mark - (if whole then 0 else s.ownBelow core g w k), w)

/-- The tags whose element groups an instruction counts: its sources' and its destination's. -/
def State.usedTags (s after : State) (core : Nat) (u : VUse) : List Nat :=
  let s1 : State := { s with cur := { core := core, side := .X } }
  let src (x : VSrc) : List Nat := match s1.vraw 0 x with
    | .ok y    => [y.tag]
    | .error _ => []
  (u.srcs.flatMap src ++ match u.dst with
    | some (.reg v) => [(after.core core).vregs[v.val].tag.val]
    | some (.sq q)  => ((after.core core).sq[q.val].ents.getLast?.map fun e => e.tag.val).toList
    | none          => []).filter fun t => tagW t != 0

/-- X of a core past its next instruction, of which only the elements below k are done: a whole number of element groups (R145, R183), and
no more than the older instructions in flight that it is chained to have written (R184). -/
def State.partStep (s : State) (core k : Nat) (older : List (VUse × Nat)) : Option (State × VUse × InFlight) :=
  match s.vectorStep core { InFlight.none with upto := some k }, s.vectorStep core .none with
  | some (i, bs, p), some (_, _, f) => match vectorUse i with
    | none   => none
    | some u =>
      let ms := ({ s with cur := { core := core, side := .X } } : State).members
      let whole := (s.usedTags f core u).all fun t => k % perGroup (tagW t) == 0
      let behind := older.all fun o => !u.chained o.1 || k ≤ o.2
      if !(whole && behind) then none
      else
        let pushes : Option (Fin 2) := match u.dst with
          | some (.sq q)  => some q
          | some (.reg _) => none
          | none          => none
        let one (t : State) (g : Nat) : State :=
          let m := s.mixCore p core k g
          let c := t.core g
          let c1 := { c with vregs := m.vregs, masks := m.masks, anchors := m.anchors, fflg := m.fflg, mv := m.mv }
          t.setCore g (if pushes.isSome then { c1 with sq := (s.core g).sq, nextId := (s.core g).nextId } else c1)
        let rec_ : InFlight :=
          { idx := k, upto := none, run := s.runningValue p core k i
            kept := ms.flatMap (s.keptOf f core k (savesWhole i && u.overSelf.isSome))
            old := u.overSelf.map fun v => (v, ms.map fun g => (s.core g).vregs[v])
            pushed := match pushes with
              | none   => []
              | some q => if k = 0 then [] else ms.map fun g => s.madeBelow p core k g i q
            bytes := bs }
        some (ms.foldl one f, u, rec_)
  | _, _ => none

/-- The next instructions of X of a core, one for each of these. -/
def State.vectorSteps (s : State) (core : Nat) (fs : List InFlight) : Option State :=
  fs.foldl (fun o f => o.bind fun t => (t.vectorStep core f).map fun p => p.2.2) (some s)

/-- The parts of a core that vector instructions write, taken over from another state. -/
def Core.partsOf (c d : Core) : Core := { c with vregs := d.vregs, masks := d.masks, anchors := d.anchors, fflg := d.fflg, mv := d.mv }

/-- X of a stopping core has its next instructions in flight, the n-th of them done up to the n-th index (R183): they stand at these
points when what goes on from there gives what an uninterrupted run gives (R184). In a LONG gang the indices count the gang's elements,
and the lead keeps them. DESIGN CHOICE, log entry 80. -/
def State.halfway (s : State) (core : Nat) (ks : List Nat) : State :=
  let c := s.core core
  let stopping := match c.task.bind s.task with
    | none   => false
    | some t => t.isStopping
  let ready := stopping && (!s.isLong core || some core == (s.gang core).head?) && c.crecvs.isEmpty && c.conv.isNone && c.flight.isEmpty &&
    c.emptyRead.isNone && !c.xv.fin && c.xv.fence.isNone && c.xv.waitTo.isNone && c.xv.bar.isNone && ks.length ≤ 8
  if !ready then s
  else
    let go (o : Option (State × List (VUse × Nat) × List InFlight)) (k : Nat) : Option (State × List (VUse × Nat) × List InFlight) :=
      o.bind fun p => (p.1.partStep core k p.2.1).map fun q => (q.1, p.2.1 ++ [(q.2.1, k)], p.2.2 ++ [q.2.2])
    match ks.foldl go (some (s, [], [])) with
    | none            => s
    | some (t, _, fs) =>
      let ms := ({ s with cur := { core := core, side := .X } } : State).members
      let part := ms.foldl (fun u g => u.setCore g ((s.core g).partsOf (t.core g))) s
      let run := (fs.filterMap fun f => f.run).head?
      match s.vectorSteps core (ks.map fun _ => .none), part.vectorSteps core fs with
      | some whole, some again =>
        if ms.all fun g => whole.core g == again.core g then
          let d := part.core core
          part.setCore core { d with rstate := run.getD d.rstate, flight := fs }
        else s
      | _, _ => s

/-! ## Events of the device's own -/

/-- The state that an event leaves, where it answers one. -/
def State.after (s : State) (i : Instr) : State :=
  match exec i s with
  | .next t    => t
  | .fault _   => s
  | .refused _ => s

/-- The core of a number below 2048. -/
def coreIdOf (n : Nat) : CoreId := { pane := Fin.ofNat 8 (n / 256), idx := Fin.ofNat 256 n }

/-- The number of the first open span that satisfies a condition and may be performed. -/
def firstOpen (ok : Access → Nat × Nat → Bool) : List Access → List Access → Nat → Option Nat
  | _, [], _       => none
  | es, x :: xs, n =>
    let js := (List.range x.spans.length).filter fun j => (x.ans.getD j none).isNone && ok x (x.spans.getD j (0, 0))
    match js.findIdx? fun j => mayPerform (x.earlier j es xs) x j with
    | some i => some (n + i)
    | none   => firstOpen ok (es ++ [x]) xs (n + js.length)

/-- An event for a number, if there is one. -/
def evAt (f : Nat → Instr) (n : Option Nat) : List Instr :=
  match n with
  | none   => []
  | some k => [f k]

/-- An event, under a condition. -/
def evIf (b : Bool) (i : Instr) : List Instr := if b then [i] else []

/-- Events that one core's pending work can lead to. -/
def Core.events (n : Nat) (c : Core) : List Instr :=
  let id := coreIdOf n
  let local_ (sp : Nat × Nat) : Bool := !keyIsPeer sp.1
  let pend := c.pend
  let sides (b : SideSt → Bool) (f : Side → Instr) : List Instr := evIf (b c.av) (f .A) ++ evIf (b c.xv) (f .X)
  evAt (.loadComplete id) (firstOpen (fun x sp => x.kind.isLate && local_ sp) [] pend 0) ++
  evIf (pend.any Access.abandoned) (.loadComplete id 0) ++
  evAt (.storePerformed id) (firstOpen (fun x sp => x.kind.isPosted && local_ sp && !crossesPane n sp) [] pend 0) ++
  evAt (.crossPaneWriteApply id) (firstOpen (fun x sp => x.kind.isPosted && local_ sp && crossesPane n sp) [] pend 0) ++
  (List.range 2).flatMap (fun q => evIf (!pend.isEmpty) (.stqDataArrives id q)) ++
  (List.range pend.length).flatMap (fun k => [.stabGenRetry id k, .awaitComplete id k]) ++
  evIf c.ldabTry.isSome (.ldabRetry id) ++
  (List.range 4).flatMap (fun q => evIf (c.lq.toList.any fun x => x.ents.any fun e => !e.delivered) (.queueEntryDelivered id q)) ++
  sides (fun t => t.fence.isSome) (.fenceComplete id) ++
  sides (fun t => t.bar.isSome) (.gbarComplete id) ++
  sides (fun t => t.waitTo.isSome) (.waitExpire id) ++
  evIf (!c.mops.isEmpty) (.macroOpStart id) ++ evIf (!c.mops.isEmpty) (.macroOpKStep id) ++
  evIf (!c.mops.isEmpty) (.macroOpComplete id) ++
  evIf c.cbld.isSome (.cbldComplete id) ++
  evIf (!c.crecvs.isEmpty) (.crecvComplete id 0) ++
  evIf c.conv.isSome (.homeReply id none) ++ evIf c.conv.isSome (.sendRetry id)

/-- Events of the conversations whose home this device is. -/
def State.homeEvents (s : State) : List Instr :=
  (List.range s.homeIn.length).flatMap (fun n => [.homeSend n, .homeJoin n, .homeDelegate n, .homeLeave n, .homeStateRead n]) ++
  s.convs.flatMap fun q => (List.range 16).flatMap fun r => evIf (!(q.2.queue r).isEmpty) (.messageForward (.home q.1 (Fin.ofNat 16 r)))

/-- Events of the panes: engines, check units, wickets. -/
def State.paneEvents (s : State) : List Instr :=
  (List.range 8).flatMap fun p =>
    let q := s.pane p
    let id : Fin 8 := Fin.ofNat 8 p
    (List.range q.cards.length).flatMap (fun n => [.chunkCommit id n, .cardFail id n, .cardComplete id n, .cardDispatch id n]) ++
    evIf (!q.samples.isEmpty) (.sampleCheckResult id) ++ evIf (!q.reqs.isEmpty) (.wicketGrant id)

/-- Where the next record is a saved context that has its cores, it is restored. -/
def State.restoreEvents (s : State) : List Instr :=
  match s.nextCand with
  | none   => []
  | some c => match s.planFor c with
    | .place cores => (List.range s.saved.length).map fun n => .contextRestore n (coreIdOf (cores.headD 0))
    | .wait        => []
    | .soon        => []
    | .fail        => []
    | .stop _ _    => []

/-- Events of tasks, launches and queues. -/
def State.taskEvents (s : State) : List Instr :=
  s.tasks.flatMap (fun t => [.taskStart t.id, .taskEnd t.id, .contextSave t.id, .exitRoutineTimeout t.id, .watchdog t.id]) ++
  s.launches.flatMap (fun l => evIf l.det (.intervalClose l.id) ++ evIf l.merging.isSome (.mergePartComplete l.id) ++
    [.statusRecordWrite l.id]) ++
  s.fns.flatMap (fun q => evIf (!q.2.fifo.isEmpty) (.launchFetch (Fin.ofNat 129 q.1)) ++
    evIf q.2.taking.isSome (.launchFetchAttempt (Fin.ofNat 129 q.1))) ++
  (if s.fns.isEmpty && s.cqueues.isEmpty then [] else
    s.restoreEvents ++ [.recordPlacement] ++ s.tasks.flatMap fun t => [.preload (coreIdOf (t.cores.headD 0))])

/-- Events of contracts. -/
def State.contractEvents (s : State) : List Instr :=
  (List.range 64).flatMap fun k =>
    let id : Fin 64 := Fin.ofNat 64 k
    evIf (s.cEn k && !s.cAdm k) (.contractAdmit id) ++
    evIf (s.cAdm k && s.periodEnd k ≤ s.gts.toNat) (.contractPeriodStart id) ++
    evIf (s.cAdm k && !(s.contractTasks k).isEmpty && (s.chargeContract k).cRemain k == 0) (.contractOverrun id)

/-- The devices to which accesses that are still to be sent go, and those with traffic already. -/
def State.peerNos (s : State) : List Nat :=
  let asked := s.cores.flatMap fun q => q.2.pend.flatMap fun x => (x.spans.filter fun sp => keyIsPeer sp.1).map fun sp =>
    peerOfKey sp.1
  s.peers.map (fun q => q.1) ++ (asked.filter fun d => !(s.peers.any fun q => q.1 == d)).eraseDups

/-- Events of translation, of resets and of the lattice. -/
def State.otherEvents (s : State) : List Instr :=
  evIf s.inval.isSome .invalidationComplete ++ evIf s.ccinval.isSome .ccinvComplete ++
  s.pri.map (fun r => .priTimeout (Fin.ofNat 129 r.fn) r.page) ++
  s.resets.map (fun f => .functionResetComplete (Fin.ofNat 129 f)) ++
  s.wakes.map (fun w => .wakeComplete w.ch) ++
  s.peerNos.flatMap fun n =>
    let d : Fin 64 := Fin.ofNat 64 n
    [.flitTransmit d true, .flitTransmit d false, .peerSilenceTimeout d, .peerLostDeclared d, .reachHandshakeTimeout d, .autoWake d] ++
    evIf (!(s.peer n).trimmed.isEmpty) (.resendRequest d)

/-- What the device may do of itself. -/
def State.events (s : State) : List Instr :=
  (s.cores.flatMap fun q => if q.1 < 2048 then q.2.events q.1 else []) ++ s.homeEvents ++ s.paneEvents ++ s.taskEvents ++
    s.contractEvents ++ s.otherEvents

/-- A list turned by n places. -/
def turned (xs : List α) (n : Nat) : List α := xs.drop (n % xs.length) ++ xs.take (n % xs.length)

/-- The event that the device takes of itself: the first that changes anything, from a place that moves on with time. -/
def State.ownEvent (s : State) : Option Instr :=
  if s.boot.phase != .running then none
  else (turned s.events (s.gts.toNat / 2)).find? fun i => s.after i != s

/-- The sequencers that may issue, those of the tasks in order. -/
def State.sequencers (s : State) : List Seq :=
  (s.tasks.flatMap fun t => t.cores.flatMap fun n => [{ core := n, side := .A }, { core := n, side := .X }]).filter fun q =>
    s.canIssue q.core q.side

/-- The sequencer after the current one. -/
def State.nextSeq (s : State) : Option Seq :=
  let qs := s.sequencers
  match qs.findIdx? fun q => q == s.cur with
  | none   => qs.head?
  | some i => (turned qs (i + 1)).head?

/-- What comes next where the agenda is empty: events and sequencers take turns, and time passes where there is neither. -/
def State.ownTurn (s : State) : Turn :=
  let seq : Option Turn := s.nextSeq.map fun q => .seq q.core q.side
  let ev : Option Turn := s.ownEvent.map .event
  ((if s.gts.toNat % 2 = 0 then ev.or seq else seq.or ev)).getD (.tick 1)

/-- One turn; an instruction word is never an event. -/
def State.take (s : State) (t : Turn) : Host.Outcome State Fault Refusal :=
  match t with
  | .seq c sd => s.issueAt c sd
  | .event i  => if (encode i).isSome then .next s else settled s (exec i s)
  | .tick ns  => .next { s with gts := s.gts + BitVec.ofNat 64 ns }
  | .evict n  => .next { s with tlb := s.tlb.eraseIdx n, gone := s.gone ++ s.tlb[n]?.toList }
  | .evictLine c n  => .next (s.setCore c { s.core c with icache := (s.core c).icache.eraseIdx n })
  | .halfway c ks   => .next (s.halfway c ks)

/-- The next turn: the head of the agenda, or the device's own, for which 1 ns passes. -/
def State.advance (s : State) : Host.Outcome State Fault Refusal :=
  match s.agenda with
  | t :: ts => ({ s with agenda := ts } : State).take t
  | []      => ({ s with gts := s.gts + 1 } : State).take s.ownTurn

/-! ## Placing an instruction -/

/-- The side that may run an instruction, from its words, the third where the first is a prefix (R215, R219). -/
def sideOfWords (w : Nat) : Side :=
  let i := if bits w 31 26 = 0x3E then bits w 95 64 else bits w 31 0
  let op := bits i 31 26
  if op = 0x2B then (if bits i 3 0 = 4 then .X else .A)
  else if (0x1D ≤ op ∧ op ≤ 0x2A) ∨ op = 0x2C ∨ op = 0x2D then .X else .A

/-- The DRAM address of the placed instruction and of its table, and the table's only entry: a leaf of 1 GiB at 0 that may be
written and executed. -/
def placedCode : Nat := 0x40000
def placedTable : Nat := 0x10000
def placedLeaf : Nat := 0xF

/-- The task that runs a placed instruction on core 0. -/
def placedTask (id : Nat) : Task :=
  let r : Record := { image := 0, frame := 0, join := 0, taskid := 0, gsize := 1, prio := 0, contract := 0xFF }
  { id := id, cont := r, launch := none, fn := 0, cores := [0], long := false, phase := .running, interval := 0, log := [],
    prefixLog := [], fails := [], started := 1, placedAt := 0, idle := 0, conflict := none, addr := 0, passedBy := none }

/-- s with an instruction at the place that step fetches from next: core 0 of pane 0 runs a task in the address space 0,
which maps the first GiB of DRAM, and its side that may run the instruction has the next turn. DESIGN CHOICE, log entry 43. -/
def State.placeWord (s : State) (w : Nat) : State :=
  let sd := sideOfWords w
  let c := s.core 0
  let ready (t : SideSt) : SideSt :=
    { t with pc := BitVec.ofNat 64 placedCode, fin := false, fence := none, waitTo := none, bar := none, asyncs := [] }
  let c1 : Core := { c with av := ready c.av, xv := ready c.xv, asid := 0, task := some s.nextTask, crecvs := [], cbld := none,
                            mops := [], peerWait := none, ldabTry := none, flight := [], emptyRead := none, icache := [] }
  let m := Memory.writeN s.mem placedTable (leBytes 8 placedLeaf)
  { (s.setCore 0 c1).ctlSet 0 (BitVec.ofNat 64 (2 ^ 63 + placedTable / 2 ^ 12 * 2 ^ 12)) with
    mem := Memory.writeN m placedCode (bytesOfWord w ++ bytesOfWord (w / 2 ^ 32) ++ bytesOfWord (w / 2 ^ 64))
    tlb := []
    tasks := s.tasks ++ [placedTask s.nextTask]
    nextTask := s.nextTask + 1
    boot := { s.boot with phase := .running }
    agenda := [.seq 0 sd] }

end Machine
end Sys2Proof
end

