-- ==== Sys2Proof/Machine/Step.lean ====
section
/-!
DEFINITION. One step of the device, and the state in which a given instruction is fetched next.
-/

namespace Sys2Proof
namespace Machine

/-- One step: the next turn. -/
def step (s : State) : Host.Outcome State Fault Refusal := s.advance

/-- s with the words of an instruction where step fetches next. -/
def State.withFetchWord (s : State) (_nbits w : Nat) : State := s.placeWord w

end Machine
end Sys2Proof
end

