-- ==== Sys2Proof/Safety.lean ====
section
/-!
DEFINITION. The terms the statements use: what an instruction may change (frames), what a register or a second operand
gives, when a trap enters its handler and what its entry leaves, and the invariants of a run.
-/

namespace Sys2Proof
namespace Machine

/-- Memory is in its canonical form. -/
def State.MemOk (s : State) : Prop := Memory.wf s.mem = true

/-! ## Operands of the issuing side -/

/-- The scalar register of the issuing side is full, so that it can be read or written (R81). -/
def State.Has (s : State) (r : RegNo) : Prop := s.me.full s.cur.side r = true

/-- The value of a scalar register of the issuing side. -/
def State.val (s : State) (r : RegNo) : Word := s.me.reg s.cur.side r

/-- The second operand can be read. -/
def State.Has2 (s : State) : Src2 → Prop
  | .reg b _ => s.Has b
  | .imm _   => True

/-- The value of a second operand: a register, or IMM32 sign-extended (R215). -/
def State.val2 (s : State) : Src2 → Word
  | .reg b _ => s.val b
  | .imm v   => v.signExtend 64

/-- A register or an immediate can be read. -/
def State.HasRI (s : State) : RegOrImm → Prop
  | .reg a => s.Has a.r
  | .imm _ => True

/-- Nothing that the issuing side does now can be taken back by a pending await of its A-side (R123, R177). -/
def State.Steady (s : State) : Prop := s.mayRetract s.cur.core s.me.nextId = false

/-- The issuing side may write a system register: nothing of its own that is under way holds it back (R147, R177). -/
def State.MaySput (s : State) : Prop :=
  match s.cur.side with
  | .A => s.Steady
  | .X => s.me.crecvs = []

/-! ## Frames -/

/-- Only one core may differ: the rest of the device, all of memory among it, is as before. -/
structure OnlyCore (core : Nat) (s t : State) : Prop where
  device : { t with cores := s.cores } = s
  others : ∀ n, n ≠ core → t.core n = s.core n
  memory : ∀ k, Memory.read t.mem k = Memory.read s.mem k

/-- Only the issuing core may differ. -/
abbrev OnlyMyCore (s t : State) : Prop := OnlyCore s.cur.core s t

/-- The core that issues is exactly c afterwards, and nothing else has changed. -/
structure Becomes (s t : State) (c : Core) : Prop extends OnlyCore s.cur.core s t where
  mine : t.me = c

/-- The core of this number is exactly c afterwards, and nothing else has changed. -/
structure CoreBecomes (core : Nat) (s t : State) (c : Core) : Prop extends OnlyCore core s t where
  mine : t.core core = c

/-- A scalar instruction has written v to register d of its side (a write to register 0 is discarded, R212) and left its
side as side; every other register, flag, mask, tag and special register of the core is as before. -/
structure ScalarEffect (s t : State) (d : RegNo) (v : Word) (side : SideSt) : Prop extends OnlyCore s.cur.core s t where
  value : t.me.reg s.cur.side d = if d = 0 then 0 else v
  regs  : ∀ sd r, sd ≠ s.cur.side ∨ r ≠ d ∨ d = 0 → t.me.rawReg sd r = s.me.rawReg sd r
  core  : t.me = ({ s.me with a := t.me.a, s := t.me.s } : Core).setSide s.cur.side side

/-- A core after a vector instruction has retired on a side: on X, what a stop had left of that instruction is used up (R183). -/
def Core.wentOn (c : Core) (sd : Side) (side : SideSt) : Core :=
  match sd with
  | .A => c.setSide .A side
  | .X => { c.setSide .X side with flight := c.flight.drop 1 }

/-- The same, of an instruction that takes part in VSTART (R194): one of len bytes has retired. -/
structure LaneEffect (s t : State) (d : RegNo) (v : Word) (len : Nat) : Prop extends OnlyCore s.cur.core s t where
  value : t.me.reg s.cur.side d = if d = 0 then 0 else v
  regs  : ∀ sd r, sd ≠ s.cur.side ∨ r ≠ d ∨ d = 0 → t.me.rawReg sd r = s.me.rawReg sd r
  core  : t.me = ({ s.me with a := t.me.a, s := t.me.s } : Core).wentOn s.cur.side (s.mySide.spent.advance len)

/-- The X-side of the issuing core has retired a vector instruction and stands at side; the X-sides of the other cores stand where they
were. -/
structure WentOn (s t : State) (side : SideSt) : Prop where
  mine   : t.mySide = side
  flight : t.me.flight = s.me.flight.drop 1
  rest   : ∀ g, g ≠ s.cur.core → (t.core g).xv = (s.core g).xv ∧ (t.core g).flight = (s.core g).flight

/-- Only the position of the issuing side has changed. -/
def SideEffect (s t : State) (side : SideSt) : Prop := ScalarEffect s t 0 0 side

/-! ## Traps -/

/-- A trap of the issuing side enters its handler: there is one, the side is not in it already, the context is not in its exit routine
(R190), and no receive of an X-side holds the trap back (R178, R147). -/
structure State.CanTrap (s : State) : Prop where
  free : causeInh s.mySide.cause = false
  tvec : s.me.tvec ≠ 0
  now  : s.holdsTrap = false
  live : s.exiting s.cur.core = false

/-- A precise trap has entered the handler (R178): CAUSE with its qualifier, EPC, EINFO, the view and the program counter
are as the rule says, VSTART is 0 (R177) but after a stream fault (R30), and nothing else has changed but the release phase of a conversation instruction,
which starts afresh (R103), and what a stop or an older receive had left X to do at its position. -/
structure TrapTaken (s t : State) (code : Nat) (info : Word) (qual : Nat := 0) : Prop extends OnlyCore s.cur.core s t where
  side : t.me.side s.cur.side = { s.mySide with
    cause := BitVec.ofNat 64 (2 ^ 60 + (if s.mySide.super then 2 ^ 59 else 0) + qual * 2 ^ 8 + code)
    epc := s.mySide.pc, einfo := info, super := true
    vstart := if 0x15 ≤ code ∧ code ≤ 0x17 then s.mySide.vstart else 0
    pc := s.me.tvec + (match s.cur.side with
      | .A => 0
      | .X => 0x40) }
  core : t.me = (s.me.dropConv s.cur.side).setSide s.cur.side (t.me.side s.cur.side)

/-- EINFO in layout E with this AUX and no element (R182). -/
def einfoAux (aux : Nat) : Word := BitVec.ofNat 64 (aux * 2 ^ 32 + 0xFFFFFFFF)

/-! ## Accesses -/

/-- The ids of the pending accesses of a core are distinct. -/
def Core.IdsDistinct (c : Core) : Prop := (c.pend.map fun x => x.id).Nodup

/-- Translation buffers, with what is kept of the entries that left them and the model's counter of undefined values that a replacement in a
full one uses, and one core may differ: the rest of the device, all of memory among it, is as before. -/
structure OnlyCoreAndTlb (core : Nat) (s t : State) : Prop where
  device : { t with cores := s.cores, tlb := s.tlb, gone := s.gone, undefCtr := s.undefCtr } = s
  others : ∀ n, n ≠ core → t.core n = s.core n
  memory : ∀ k, Memory.read t.mem k = Memory.read s.mem k

/-- The access that an instruction of the A-side issues, last in program order and not yet performed. -/
def State.newAccess (s : State) (kind : AccKind) (spans : List (Nat × Nat)) (range : List (Nat × Nat)) (addr : Word)
    (list : Option Word := none) : Access :=
  { id := s.me.nextId, kind := kind, spans := spans, ans := spans.map fun _ => none, sent := [], ofX := false, range := range,
    super := s.mySide.super, asid := s.me.asid.toNat, addr := addr, snap := none, list := list, late := []
    rm := bits s.me.fctl 1 0 }

/-- An instruction of the A-side has issued one access and left its side as side; register d, if it is not a0, is empty until
the value arrives (R81). -/
structure AccessIssued (s t : State) (x : Access) (d : RegNo) (side : SideSt) : Prop extends OnlyCoreAndTlb s.cur.core s t where
  mine : t.me = { s.me with
    nextId := s.me.nextId + 1, pend := s.me.pend ++ [x]
    aFull := if d = 0 then s.me.aFull else s.me.aFull.set d.val false, av := side }

/-- The bytes of memory have been written from a key on, and no other. -/
structure Wrote (s t : State) (k : Nat) (bs : List Byte) : Prop where
  bytes : Memory.readN t.mem k bs.length = bs
  other : ∀ j, j < k ∨ k + bs.length ≤ j → Memory.read t.mem j = Memory.read s.mem j

/-! ## What an instruction needs (R219) -/

/-- A word whose decoding leaves a variant that R218 calls undefined: it raises ILLEGAL before anything of it is read. -/
def undefinedVariant : Instr → Bool
  | .amo f => f.det && (f.op == .swap || f.op == .cas)
  | .ldq f => (f.ext.map fun x => x.scl == 3 || (x.scl != 0 && !isRowTag (if x.tg = 0 then tcTag f.tc.val else x.tg).val)).getD false
  | .vcvt f => 5 < f.rnd.val
  | .vmulh f | .vdiv f | .vmin f | .vmax f | .vand f | .vor f | .vxor f | .vshl f | .vshr f | .vsar f => (f.ext.map fun x => x.sat).getD false
  | .vnot f => (f.ext.map fun x => x.sat).getD false
  | .vcmp f => 8 < f.cond.val || (f.sig && !(2 ≤ f.cond.val && f.cond.val ≤ 5))
  | .vred f => 5 < f.x.op.val || (f.x.sat && f.x.op != 0)
  | .vscan f => 5 < f.x.op.val || (f.x.sat && f.x.op != 0)
  | _ => false

/-- The side that alone may issue an instruction; none for those of both sides and for events. -/
def ownSide : Instr → Option Side
  | .ld .. | .st .. | .pref .. | .ldq .. | .ldqs .. | .ldqx .. | .ldab .. | .stq .. | .stqs .. | .stqx .. | .stqp ..
  | .stqApp .. | .stab .. | .vsetl .. | .spcfg .. | .amo .. | .amoqx .. | .arm .. | .arrive .. | .await .. | .cpy ..
  | .xform .. | .cbld .. | .cbinv .. | .cbmode .. | .cbst .. | .mcfg .. | .mcfgD .. | .mmp .. | .mzero .. | .mlive ..
  | .mchk .. | .mdrain .. => some .A
  | .vcfg .. | .vtag .. | .vsetlx .. | .vgetl .. | .vmv .. | .vmvH .. | .vpush .. | .vpushH .. | .vbc .. | .vid .. | .vext ..
  | .vins .. | .vadd .. | .vsub .. | .vmul .. | .vmulh .. | .vfma .. | .vdiv .. | .vmin .. | .vmax .. | .vabs .. | .vneg ..
  | .vand .. | .vor .. | .vxor .. | .vnot .. | .vshl .. | .vshr .. | .vsar .. | .vcvt .. | .vcmp .. | .vsel .. | .mand ..
  | .mor .. | .mxor .. | .mnot .. | .mpop .. | .mfirst .. | .vslup .. | .vsldn .. | .vperm .. | .vxchg .. | .vcompress ..
  | .vexpand .. | .vappend .. | .vred .. | .vscan .. | .vrcp .. | .vrsq .. | .vsqrt .. | .vex2 .. | .vlg2 .. | .vtanh ..
  | .vrng .. | .kcfg .. | .kmv .. | .kput .. | .kadj .. | .vdadd .. | .vdsub .. | .vddiff .. | .vdmul .. | .vdscl ..
  | .reanc .. | .vdwide .. | .vdfrom .. | .cbx .. | .tget .. | .tfill .. | .cjoin .. | .csend .. | .crecv .. | .cchoose ..
  | .cdeleg .. | .cleave .. | .cstate .. | .cprot .. => some .X
  | _ => none

end Machine
end Sys2Proof
end

