-- ==== Sys2Proof/Certificates/Slice0/Obligations.lean ====
section
/-!
DEFINITION. The statements for the provers.
-/

namespace Sys2Proof
namespace Machine

/-! ## Scalar instructions -/

/-- The instruction mk f completes with sources and destination full: it writes a value that op allows for the sources, and
retires. -/
def AluDoes (mk : AluF → Instr) (op : Word → Word → Word → Prop) : Prop :=
  ∀ (s : State) (f : AluF), s.Has f.a → s.Has2 f.src → s.Has f.d →
    ∃ t v, exec (mk f) s = .next t ∧ op (s.val f.a) (s.val2 f.src) v ∧
      ScalarEffect s t f.d v (s.mySide.advance f.src.len)

/-- The same where the sources meet a condition. -/
def AluDoesWhen (pre : State → Word → Word → Prop) (mk : AluF → Instr) (op : Word → Word → Word → Prop) : Prop :=
  ∀ (s : State) (f : AluF), s.Has f.a → s.Has2 f.src → s.Has f.d → pre s (s.val f.a) (s.val2 f.src) →
    ∃ t v, exec (mk f) s = .next t ∧ op (s.val f.a) (s.val2 f.src) v ∧
      ScalarEffect s t f.d v (s.mySide.advance f.src.len)

/-- The four cases of a division by width 64: a divisor that is not zero, and zero without and with FCTL.DZT. -/
def Divides (mk : AluF → Instr) (op : Word → Word → Word → Prop) (byZero : Word → Word) : Prop :=
  AluDoesWhen (fun _ _ b => b ≠ 0) mk op ∧
  AluDoesWhen (fun s _ b => b = 0 ∧ bit s.me.fctl 2 = false) mk (fun a _ v => v = byZero a) ∧
  ∀ (s : State) (f : AluF), s.Has f.a → s.Has2 f.src → s.Has f.d → s.val2 f.src = 0 → bit s.me.fctl 2 = true → s.CanTrap →
    ∃ t, exec (mk f) s = .next t ∧ TrapTaken s t 0x1A (einfoAux 0)

/-- An instruction that also reads d. -/
def Alu3Does (mk : AluF → Instr) (op : Word → Word → Word → Word → Prop) : Prop :=
  ∀ (s : State) (f : AluF), s.Has f.a → s.Has2 f.src → s.Has f.d →
    ∃ t v, exec (mk f) s = .next t ∧ op (s.val f.d) (s.val f.a) (s.val2 f.src) v ∧
      ScalarEffect s t f.d v (s.mySide.advance f.src.len)

/-- An instruction of one source. -/
def UnDoes (mk : UnF → Instr) (op : Word → Word → Prop) : Prop :=
  ∀ (s : State) (f : UnF), s.Has f.a → s.Has f.d →
    ∃ t v, exec (mk f) s = .next t ∧ op (s.val f.a) v ∧ ScalarEffect s t f.d v (s.mySide.advance 4)

/-- An instruction with an immediate. -/
def ImmDoes (mk : ImmF → Instr) (op : Word → Imm → Word → Prop) : Prop :=
  ∀ (s : State) (f : ImmF), s.Has f.a → s.Has f.d →
    ∃ t v, exec (mk f) s = .next t ∧ op (s.val f.a) f.imm v ∧ ScalarEffect s t f.d v (s.mySide.advance f.imm.len)

/-- A shift by an immediate. -/
def ShiftImmDoes (mk : ShImmF → Instr) (op : Word → Nat → Word → Prop) : Prop :=
  ∀ (s : State) (f : ShImmF), s.Has f.a → s.Has f.d →
    ∃ t v, exec (mk f) s = .next t ∧ op (s.val f.a) f.n.val v ∧ ScalarEffect s t f.d v (s.mySide.advance 4)

/-- The first bit of a field spec (R232). -/
def fieldPos (b : Word) : Nat := b.toNat % 64

/-- The length used of a field spec (R232). -/
def fieldLen (b : Word) : Nat := min (b.toNat / 256 % 128) (64 - fieldPos b)

/-! ## Transfers -/

/-- A transfer to a target: it goes there with the loop stack alone, or raises ALIGN where the target is no multiple of 4. -/
def TransfersTo (i : Instr) (s : State) (pc : Word) : Prop :=
  (pc.toNat % 4 = 0 → ∃ t, exec i s = .next t ∧ SideEffect s t { s.mySide with pc := pc }) ∧
  (pc.toNat % 4 ≠ 0 → s.CanTrap → ∃ t, exec i s = .next t ∧ TrapTaken s t 0x0A (infoA pc 0))

/-! ## Words of the scalar instructions -/

/-- An I-format word, a B-format word and an R-format word from their fields (R211). -/
def wordI (op : Nat) (d a : RegNo) (v : BitVec 16) : Nat := op * 2 ^ 26 + d.val * 2 ^ 21 + a.val * 2 ^ 16 + v.toNat

def wordB (op : Nat) (v : BitVec 22) : Nat := op * 2 ^ 26 + v.toNat

def wordR (op : Nat) (d a b : RegNo) (fa fb : Bool) (m : Fin 16) (fn : Nat) : Nat :=
  op * 2 ^ 26 + d.val * 2 ^ 21 + a.val * 2 ^ 16 + b.val * 2 ^ 11 + (if fa then 2 ^ 10 else 0) + (if fb then 2 ^ 9 else 0) +
    m.val * 2 ^ 5 + fn

/-- A prefix whose XF is zero. -/
def prefixed (n : BitVec 32) : Option Ext := some { xf := XF.zero, imm := n }

/-- A word that is no instruction. -/
def NotDecoded (x : Option Ext) (w : Nat) : Prop := ∃ e, decodeWord x w = .error e

/-- The words of an immediate form: imm16, or with a prefix IMM32 and imm16 zero (R215, R230). -/
def ImmEncoded (op : Nat) (mk : ImmF → Instr) : Prop :=
  ∀ (d a : RegNo) (v : BitVec 16) (n : BitVec 32),
    decodeWord none (wordI op d a v) = .ok (mk { d := d, a := a, imm := .short v }) ∧
    decodeWord (prefixed n) (wordI op d a 0) = .ok (mk { d := d, a := a, imm := .long n }) ∧
    (v ≠ 0 → NotDecoded (prefixed n) (wordI op d a v))

/-- The words of the immediate forms (R230) and of the shifts by an immediate (R231). -/
def ImmediateWords : Prop :=
  ImmEncoded 0x02 .addi ∧ ImmEncoded 0x03 .andi ∧ ImmEncoded 0x04 .ori ∧ ImmEncoded 0x05 .xori ∧ ImmEncoded 0x07 .slti ∧
  (∀ (d a : RegNo) (v : BitVec 16) (n : BitVec 32), decodeWord none (wordI 0x08 d 0 v) = .ok (.li d (.short v)) ∧
    decodeWord (prefixed n) (wordI 0x08 d 0 0) = .ok (.li d (.long n)) ∧
    decodeWord none (wordI 0x09 d 0 v) = .ok (.lih d v) ∧ NotDecoded (prefixed n) (wordI 0x09 d 0 v) ∧
    (a ≠ 0 → NotDecoded none (wordI 0x08 d a v) ∧ NotDecoded (prefixed n) (wordI 0x08 d a v) ∧ NotDecoded none (wordI 0x09 d a v))) ∧
  ∀ (d a : RegNo) (v : BitVec 16),
    (∀ k : Fin 64, v.toNat = k.val → decodeWord none (wordI 0x06 d a v) = .ok (.shli { d := d, a := a, n := k })) ∧
    (∀ k : Fin 64, v.toNat = 2 ^ 14 + k.val → decodeWord none (wordI 0x06 d a v) = .ok (.shri { d := d, a := a, n := k })) ∧
    (∀ k : Fin 64, v.toNat = 2 ^ 15 + k.val → decodeWord none (wordI 0x06 d a v) = .ok (.sari { d := d, a := a, n := k })) ∧
    (v.toNat / 2 ^ 14 = 3 ∨ v.toNat / 2 ^ 6 % 2 ^ 8 ≠ 0 → NotDecoded none (wordI 0x06 d a v))

/-- The words of the transfers, what they must leave zero, and the bytes that a displacement spans (R211, R233). -/
def TransferWords : Prop :=
  (∀ (v : BitVec 22) (n : BitVec 32), decodeWord none (wordB 0x0B v) = .ok (.br (.short v)) ∧
    decodeWord (prefixed n) (wordB 0x0B 0) = .ok (.br (.long n)) ∧ decodeWord none (wordB 0x0E v) = .ok (.call (.short v)) ∧
    decodeWord (prefixed n) (wordB 0x0E 0) = .ok (.call (.long n)) ∧
    (v ≠ 0 → NotDecoded (prefixed n) (wordB 0x0B v) ∧ NotDecoded (prefixed n) (wordB 0x0E v)) ∧
    (Disp.short v).bytes.toInt = 4 * v.toInt ∧ (Disp.long n).bytes.toInt = 4 * n.toInt) ∧
  (∀ (a d : RegNo) (v : BitVec 16) (n : BitVec 32), decodeWord none (wordI 0x0C 0 a v) = .ok (.bz a (.short v)) ∧
    decodeWord (prefixed n) (wordI 0x0C 0 a 0) = .ok (.bz a (.long n)) ∧ decodeWord none (wordI 0x0D 0 a v) = .ok (.bnz a (.short v)) ∧
    decodeWord (prefixed n) (wordI 0x0D 0 a 0) = .ok (.bnz a (.long n)) ∧
    (v ≠ 0 → NotDecoded (prefixed n) (wordI 0x0C 0 a v) ∧ NotDecoded (prefixed n) (wordI 0x0D 0 a v)) ∧
    (d ≠ 0 → NotDecoded none (wordI 0x0C d a v) ∧ NotDecoded none (wordI 0x0D d a v)) ∧
    (Imm.short v).bytes.toInt = 4 * v.toInt ∧ (Imm.long n).bytes.toInt = 4 * n.toInt) ∧
  (∀ (d a b : RegNo) (fa fb : Bool) (m : Fin 16) (n : BitVec 32),
    decodeWord none (wordR 0x0F 0 0 0 false false 0 0) = .ok .ret ∧
    (¬ (d = 0 ∧ a = 0 ∧ b = 0 ∧ fa = false ∧ fb = false ∧ m = 0) → NotDecoded none (wordR 0x0F d a b fa fb m 0)) ∧
    decodeWord none (wordR 0x0F 0 a 0 fa false 0 1) = .ok (.jr { r := a, fe := fa }) ∧
    (¬ (d = 0 ∧ b = 0 ∧ fb = false ∧ m = 0) → NotDecoded none (wordR 0x0F d a b fa fb m 1)) ∧
    NotDecoded (prefixed n) (wordR 0x0F d a b fa fb m 0) ∧ NotDecoded (prefixed n) (wordR 0x0F d a b fa fb m 1)) ∧
  ∀ (s : State) (n : Imm) (a : RegNo), s.me.full s.cur.side a = false →
    exec (.bz a n) s = .next s ∧ exec (.bnz a n) s = .next s

/-! ## System registers -/

/-- The registers that the S view writes as they stand, with the bits that a write changes (R193, R194, R180 to R182, R13,
R39, R47, R315). VLCAP, LANEOK, MSTEP, CHKCFG, ERRLOG and REACH respond in ways of their own, and the bits of EINFO depend on CAUSE. -/
def plainMask : Nat → Option Nat
  | 0x004 => some (2 ^ 32 - 1)
  | 0x005 => some (2 ^ 64 - 1)
  | 0x006 => some 0xFFF
  | 0x010 => some 0xFF
  | 0x012 => some 1
  | 0x013 => some 3
  | 0x015 => some (2 ^ 64 - 1)
  | 0x020 => some 3
  | 0x021 => some 0x1F07
  | 0x022 => some 0x1F
  | 0x040 => some 0xF80000000000071F
  | 0x041 => some (2 ^ 64 - 1)
  | 0x043 => some (2 ^ 64 - 256)
  | 0x044 => some 0xFF
  | _     => none

/-- The bits that the layout of the cause in CAUSE gives EINFO (R182): layout A keeps bit 55 for a non-canonical address only, layout E
has no bits 63 to 61, and layouts D and S have every bit; so has a code that is never raised (DEDUCED, log entry 20). -/
def einfoBits (cause : Word) : Nat :=
  let code := cause.toNat % 32
  if 0x08 ≤ code ∧ code ≤ 0x0B then (if cause.getLsbD 10 then 2 ^ 64 - 1 else 2 ^ 64 - 1 - 2 ^ 55)
  else if (0x14 ≤ code ∧ code ≤ 0x17) ∨ code = 0 ∨ code = 0x07 ∨ code = 0x1D then 2 ^ 64 - 1
  else 2 ^ 61 - 1

/-- A register may be named on a side. -/
def SysReg.onSide (r : SysReg) (sd : Side) : Prop := r.only = none ∨ r.only = some sd

/-- A system register of a core has been written: it reads as the written value under its mask, every other system register
of that side reads as before (EINFO under the layout that a written CAUSE gives it), scalar registers are as before, and no other core,
no memory and nothing else of the device has changed. -/
structure SysWritten (core : Nat) (sd : Side) (n mask : Nat) (v : Word) (s t : State) : Prop extends OnlyCore core s t where
  reads : t.sysRead core sd n = v &&& BitVec.ofNat 64 mask
  other : ∀ m, m ≠ n → ¬ (n = 0x040 ∧ m = 0x042) → t.sysRead core sd m = s.sysRead core sd m
  info  : n ≠ 0x042 → ((t.core core).side sd).einfo = ((s.core core).side sd).einfo
  regs  : (t.core core).a = (s.core core).a ∧ (t.core core).s = (s.core core).s

end Machine
end Sys2Proof

open Sys2Proof Sys2Proof.Machine

/-- add, sub, mul, mulh, mulhn, min, max, slt, sltn and seq, and, or, xor, shl, shr and sar (R229): the value written to d, and nothing
else changes. -/
def Obligations.ScalarArithmeticAndLogicWriteTheirResult : Prop :=
  (AluDoes .add (fun a b v => v.toNat = (a.toNat + b.toNat) % 2 ^ 64) ∧
   AluDoes .sub (fun a b v => v.toNat = (a.toNat + 2 ^ 64 - b.toNat) % 2 ^ 64) ∧
   AluDoes .mul (fun a b v => v.toNat = a.toNat * b.toNat % 2 ^ 64) ∧
   AluDoes .mulh (fun a b v => v.toInt = a.toInt * b.toInt / 2 ^ 64) ∧
   AluDoes .mulhn (fun a b v => v.toNat = a.toNat * b.toNat / 2 ^ 64) ∧
   AluDoes .min (fun a b v => v.toInt = min a.toInt b.toInt) ∧
   AluDoes .max (fun a b v => v.toInt = max a.toInt b.toInt) ∧
   AluDoes .slt (fun a b v => v = if a.toInt < b.toInt then 1 else 0) ∧
   AluDoes .sltn (fun a b v => v = if a.toNat < b.toNat then 1 else 0) ∧
   AluDoes .seq (fun a b v => v = if a = b then 1 else 0)) ∧
  (AluDoes .and (fun a b v => ∀ i, v.getLsbD i = (a.getLsbD i && b.getLsbD i)) ∧
   AluDoes .or (fun a b v => ∀ i, v.getLsbD i = (a.getLsbD i || b.getLsbD i)) ∧
   AluDoes .xor (fun a b v => ∀ i, v.getLsbD i = (a.getLsbD i != b.getLsbD i)) ∧
   AluDoes .shl (fun a b v => v.toNat = a.toNat * 2 ^ (b.toNat % 64) % 2 ^ 64) ∧
   AluDoes .shr (fun a b v => v.toNat = a.toNat / 2 ^ (b.toNat % 64)) ∧
   AluDoes .sar (fun a b v => v.toInt = a.toInt / 2 ^ (b.toNat % 64)))

/-- div, divn, rem and remn (R229, R36): the quotient and the remainder, what a zero divisor gives, and the trap DIVZERO
with FCTL.DZT. -/
def Obligations.ScalarDivisionAndItsZeroDivisor : Prop :=
  Divides .div (fun a b v => v = BitVec.ofInt 64 (Int.tdiv a.toInt b.toInt)) (fun _ => BitVec.allOnes 64) ∧
  Divides .divn (fun a b v => v.toNat = a.toNat / b.toNat) (fun _ => BitVec.allOnes 64) ∧
  Divides .rem (fun a b v => v.toInt = Int.tmod a.toInt b.toInt) id ∧
  Divides .remn (fun a b v => v.toNat = a.toNat % b.toNat) id

/-- bfx and bfxs (R232): the field of a that b describes, bit by bit; cmovnz, bfi and fsh (R229, R232): the instructions that also
read d; clz, ctz and popc (R229). -/
def Obligations.BitFieldsAndCountsAreWritten : Prop :=
  (AluDoes .bfx (fun a b v => ∀ i, v.getLsbD i = (decide (i < fieldLen b) && a.getLsbD (fieldPos b + i))) ∧
   AluDoes .bfxs (fun a b v => ∀ i, i < 64 →
     v.getLsbD i = (decide (0 < fieldLen b) && a.getLsbD (fieldPos b + min i (fieldLen b - 1))))) ∧
  (Alu3Does .cmovnz (fun d a b v => v = if b ≠ 0 then a else d) ∧
   Alu3Does .bfi (fun d a b v => ∀ i, i < 64 →
     v.getLsbD i = if fieldPos b ≤ i ∧ i < fieldPos b + fieldLen b then a.getLsbD (i - fieldPos b) else d.getLsbD i) ∧
   Alu3Does .fsh (fun d a b v => v.toNat = (d.toNat * 2 ^ 64 + a.toNat) * 2 ^ (b.toNat % 64) / 2 ^ 64 % 2 ^ 64)) ∧
  (UnDoes .clz (fun a v => v.toNat ≤ 64 ∧ (∀ i, i < v.toNat → a.getLsbD (63 - i) = false) ∧
     (v.toNat < 64 → a.getLsbD (63 - v.toNat) = true)) ∧
   UnDoes .ctz (fun a v => v.toNat ≤ 64 ∧ (∀ i, i < v.toNat → a.getLsbD i = false) ∧
     (v.toNat < 64 → a.getLsbD v.toNat = true)) ∧
   UnDoes .popc (fun a v => v.toNat = ((List.range 64).filter fun i => a.getLsbD i).length))

/-- The immediate forms (R230, R231): sign-extended but for the short forms of andi, ori, xori and lih; and the words that they
are. -/
def Obligations.ImmediateFormsWriteTheirResult : Prop :=
  ImmediateWords ∧
  ImmDoes .addi (fun a n v => v = a + n.sx) ∧
  ImmDoes .andi (fun a n v => v = a &&& n.zx) ∧
  ImmDoes .ori (fun a n v => v = a ||| n.zx) ∧
  ImmDoes .xori (fun a n v => v = a ^^^ n.zx) ∧
  ImmDoes .slti (fun a n v => v = if a.toInt < n.sx.toInt then 1 else 0) ∧
  (∀ (s : State) (d : RegNo) (n : Imm), s.Has d →
    ∃ t, exec (.li d n) s = .next t ∧ ScalarEffect s t d n.sx (s.mySide.advance n.len)) ∧
  (∀ (s : State) (d : RegNo) (n : BitVec 16), s.Has d →
    ∃ t v, exec (.lih d n) s = .next t ∧ v.toNat = ((s.val d).toNat * 2 ^ 16 + n.toNat) % 2 ^ 64 ∧
      ScalarEffect s t d v (s.mySide.advance 4)) ∧
  ShiftImmDoes .shli (fun a n v => v.toNat = a.toNat * 2 ^ n % 2 ^ 64) ∧
  ShiftImmDoes .shri (fun a n v => v.toNat = a.toNat / 2 ^ n) ∧
  ShiftImmDoes .sari (fun a n v => v.toInt = a.toInt / 2 ^ n)

/-- br, bz, bnz, call, ret and jr (R233): where each goes, what call writes, ALIGN for a target that is no multiple
of 4 (R210), and the words that they are. -/
def Obligations.TransfersGoToTheirTarget : Prop :=
  TransferWords ∧
  (∀ (s : State) (n : Disp), TransfersTo (.br n) s (s.mySide.pc + n.bytes)) ∧
  (∀ (s : State) (a : RegNo) (n : Imm), s.Has a →
    (s.val a = 0 → TransfersTo (.bz a n) s (s.mySide.pc + n.bytes)) ∧
    (s.val a ≠ 0 → ∃ t, exec (.bz a n) s = .next t ∧ SideEffect s t (s.mySide.advance n.len))) ∧
  (∀ (s : State) (a : RegNo) (n : Imm), s.Has a →
    (s.val a ≠ 0 → TransfersTo (.bnz a n) s (s.mySide.pc + n.bytes)) ∧
    (s.val a = 0 → ∃ t, exec (.bnz a n) s = .next t ∧ SideEffect s t (s.mySide.advance n.len))) ∧
  (∀ (s : State) (n : Disp), s.Has 27 →
    ((s.mySide.pc + n.bytes).toNat % 4 = 0 →
      ∃ t, exec (.call n) s = .next t ∧
        ScalarEffect s t 27 (s.mySide.pc + BitVec.ofNat 64 n.len) { s.mySide with pc := s.mySide.pc + n.bytes }) ∧
    ((s.mySide.pc + n.bytes).toNat % 4 ≠ 0 → s.CanTrap →
      ∃ t, exec (.call n) s = .next t ∧ TrapTaken s t 0x0A (infoA (s.mySide.pc + n.bytes) 0))) ∧
  (∀ (s : State), s.Has 27 → TransfersTo .ret s (s.val 27)) ∧
  (∀ (s : State) (a : SrcR), s.Has a.r → TransfersTo (.jr a) s (s.val a.r))

/-- loop, lidx and lbrk (R234, R235, R137): what they push, read and pop, and their ILLEGAL traps. Falling through END (R137), shown by
nop: with COUNT above 1 the loop goes on at START, else the entry is popped; an instruction that is not at the top entry's END leaves the
stack alone. That a negative IMM32 raises ILLEGAL (log entry 46) and that a count of zero goes on four bytes after END (log entry 60) are
the model's reading. -/
def Obligations.HardwareLoopsPushReadPopAndTurn : Prop :=
  ((∀ (s : State) (a : SrcR) (n : BitVec 32), s.Has a.r → 3 ≤ n.toInt → (s.val a.r).toNat < 2 ^ 32 → s.mySide.loops.length < 6 →
     (s.val a.r = 0 → ∃ t, exec (.loop a n) s = .next t ∧
       SideEffect s t { s.mySide with pc := s.mySide.pc + 4 * n.signExtend 64 + 4 }) ∧
     (s.val a.r ≠ 0 → ∃ t, exec (.loop a n) s = .next t ∧
       SideEffect s t { s.mySide with
         loops := { start := s.mySide.pc + 12, fin := s.mySide.pc + 4 * n.signExtend 64,
                    count := BitVec.ofNat 32 (s.val a.r).toNat, index := 0 } :: s.mySide.loops
         pc := s.mySide.pc + 12 })) ∧
   (∀ (s : State) (a : SrcR) (n : BitVec 32), s.Has a.r → s.CanTrap →
     (n.toInt < 3 ∨ 2 ^ 32 ≤ (s.val a.r).toNat → ∃ t, exec (.loop a n) s = .next t ∧ TrapTaken s t 0x01 (einfoAux 0)) ∧
     (3 ≤ n.toInt → (s.val a.r).toNat < 2 ^ 32 → 6 ≤ s.mySide.loops.length →
       ∃ t, exec (.loop a n) s = .next t ∧ TrapTaken s t 0x01 (BitVec.ofNat 64 (2 ^ 60 + 0xFFFFFFFF)))) ∧
   (∀ (s : State) (d : RegNo) (k : Fin 32) (e : LoopEnt), s.mySide.loops[k.val]? = some e → s.Has d →
     ∃ t, exec (.lidx d k) s = .next t ∧ ScalarEffect s t d (e.index.zeroExtend 64) (s.mySide.advance 4)) ∧
   (∀ (s : State) (d : RegNo) (k : Fin 32), s.mySide.loops.length ≤ k.val → s.CanTrap →
     ∃ t, exec (.lidx d k) s = .next t ∧ TrapTaken s t 0x01 (einfoAux 0)) ∧
   (∀ (s : State) (e : LoopEnt) (es : List LoopEnt), s.mySide.loops = e :: es →
     ∃ t, exec .lbrk s = .next t ∧ SideEffect s t { s.mySide with loops := es, pc := s.afterEnd e.fin }) ∧
   (∀ (s : State), s.mySide.loops = [] → s.CanTrap →
     ∃ t, exec .lbrk s = .next t ∧ TrapTaken s t 0x01 (einfoAux 0))) ∧
  (∀ (s : State), ∃ t, exec .nop s = .next t ∧
     (s.mySide.loops = [] → SideEffect s t { s.mySide with pc := s.mySide.pc + 4 }) ∧
     ∀ e es, s.mySide.loops = e :: es →
       (e.fin ≠ s.mySide.pc → SideEffect s t { s.mySide with pc := s.mySide.pc + 4 }) ∧
       (e.fin = s.mySide.pc → 1 < e.count.toNat →
         SideEffect s t { s.mySide with pc := e.start, loops := { e with count := e.count - 1, index := e.index + 1 } :: es }) ∧
       (e.fin = s.mySide.pc → e.count.toNat ≤ 1 → SideEffect s t { s.mySide with pc := s.mySide.pc + 4, loops := es }))

/-- Full/empty bits (R81), shown by the two-source instructions: an empty first source with FE = 0, or an empty
destination, leaves the state as it is, so that the instruction waits; with FE = 1 the empty source raises EMPTY_READ with the register in AUX. -/
def Obligations.EmptyRegistersMakeReadersWait : Prop :=
  ∀ mk ∈ [Instr.add, .sub, .mul, .mulh, .mulhn, .and, .or, .xor, .shl, .shr, .sar, .min, .max, .slt, .sltn, .seq, .div, .divn,
      .rem, .remn, .cmovnz, .bfx, .bfxs, .bfi, .fsh],
    ∀ (s : State) (f : AluF),
      (s.me.full s.cur.side f.a = false → f.fa = false → exec (mk f) s = .next s) ∧
      (s.me.full s.cur.side f.a = false → f.fa = true → s.CanTrap → ∃ t, exec (mk f) s = .next t ∧
        TrapTaken s t 0x04 (einfoAux ((match s.cur.side with
          | .A => 0
          | .X => 32) + f.a.val))) ∧
      (s.Has f.a → s.Has2 f.src → s.me.full s.cur.side f.d = false → exec (mk f) s = .next s)

/-- An instruction of one side that the other side issues raises SIDE and does nothing else (R7, R218, R219); an undefined variant
raises ILLEGAL on either side, for that comes first (R218). -/
def Obligations.InstructionsOfTheOtherSideRaiseSide : Prop :=
  (∀ (i : Instr) (s : State) (sd : Side), ownSide i = some sd → undefinedVariant i = false → s.cur.side ≠ sd → s.CanTrap →
    ∃ t, exec i s = .next t ∧ TrapTaken s t 0x02 (einfoAux 0)) ∧
  (∀ (i : Instr) (s : State), undefinedVariant i = true → s.CanTrap →
    ∃ t, exec i s = .next t ∧ TrapTaken s t 0x01 (einfoAux 0))

/-- The U view (R192, R218): eret and cprot raise PRIV; so do sget of a register that U may not read and sput of one that U
may not write; an unassigned number raises ILLEGAL and a register of the other side SIDE, in either view. -/
def Obligations.TheUserViewIsRefusedPrivilegedEffects : Prop :=
  (∀ (s : State), s.mySide.super = false → s.CanTrap → ∃ t, exec .eret s = .next t ∧ TrapTaken s t 0x03 (einfoAux 0)) ∧
  (∀ (s : State) (a b : SrcR), s.mySide.super = false → s.cur.side = .X → s.CanTrap →
    ∃ t, exec (.cprot a b) s = .next t ∧ TrapTaken s t 0x03 (einfoAux 0)) ∧
  ∀ (s : State) (d : RegNo) (n : Fin 4096), s.CanTrap →
    (sysReg n.val = none → (∃ t, exec (.sget d n) s = .next t ∧ TrapTaken s t 0x01 (einfoAux 0)) ∧
      ∃ t, exec (.sput d n) s = .next t ∧ TrapTaken s t 0x01 (einfoAux 0)) ∧
    ∀ r, sysReg n.val = some r →
      (¬ r.onSide s.cur.side → (∃ t, exec (.sget d n) s = .next t ∧ TrapTaken s t 0x02 (einfoAux 0)) ∧
        ∃ t, exec (.sput d n) s = .next t ∧ TrapTaken s t 0x02 (einfoAux 0)) ∧
      (r.onSide s.cur.side → s.mySide.super = false →
        (r.uRead = false → ∃ t, exec (.sget d n) s = .next t ∧ TrapTaken s t 0x03 (einfoAux 0)) ∧
        (r.uWrite = false → ∃ t, exec (.sput d n) s = .next t ∧ TrapTaken s t 0x03 (einfoAux 0)))

/-- sget, gts and tid (R339, R343, R335): the value written to d; what the numbers of the registers of a side and of a core
read as; the fields of tid. -/
def Obligations.SystemRegistersAreRead : Prop :=
  (∀ (s : State) (d : RegNo) (n : Fin 4096) (r : SysReg), sysReg n.val = some r → r.onSide s.cur.side →
    s.mySide.super = true ∨ r.uRead = true → s.Has d →
    ∃ t, exec (.sget d n) s = .next t ∧
      ScalarEffect s t d (s.sysRead s.cur.core s.cur.side n.val) (s.mySide.advance 4)) ∧
  (∀ (s : State), ∀ p ∈ [(0x000, s.mySide.vl.zeroExtend 64), (0x004, s.mySide.vstart.zeroExtend 64), (0x005, s.me.rstate),
      (0x010, s.me.mlive.zeroExtend 64), (0x030, s.me.tid.zeroExtend 64), (0x031, s.me.gid.zeroExtend 64), (0x034, s.gts),
      (0x040, s.mySide.cause), (0x041, s.mySide.epc), (0x042, s.mySide.einfo &&& BitVec.ofNat 64 (einfoBits s.mySide.cause)),
      (0x043, s.me.tvec),
      (0x044, s.me.asid.zeroExtend 64), (0x045, s.errlog), (0x050, s.me.fencest), (0x051, s.reach)],
    s.sysRead s.cur.core s.cur.side p.1 = p.2) ∧
  (∀ (s : State) (d : RegNo), s.Has d → ∃ t, exec (.gts d) s = .next t ∧ ScalarEffect s t d s.gts (s.mySide.advance 4)) ∧
  (∀ (s : State) (d : RegNo), s.Has d → s.me.gpos < 16 → s.me.gsize < 32 →
    ∃ t v, exec (.tid d) s = .next t ∧ ScalarEffect s t d v (s.mySide.advance 4) ∧
      v.setWidth 32 = s.me.tid ∧ bits v.toNat 35 32 = s.me.gpos ∧ bits v.toNat 44 40 = s.me.gsize ∧
      bits v.toNat 63 48 = s.me.gid.toNat)

/-- sput and REGISTER_WRITE (R192, R339): a register that the view may write reads as the written value under its mask and no other
register changes; a write to a read-only register is ignored. That a written 1 sets a bit of MV or MSAT is the model's reading (log entry
19), and what an EINFO under a code keeps too (log entry 20). A sput on X waits for pending
messages and one on A for an await that may still fail, and here neither is pending. -/
def Obligations.SystemRegistersAreWritten : Prop :=
  (∀ (s : State) (d : RegNo) (n : Fin 4096) (r : SysReg) (mask : Nat), sysReg n.val = some r → r.onSide s.cur.side →
    plainMask n.val = some mask → s.mySide.super = true ∨ r.uWrite = true → s.Has d → s.MaySput →
    ∃ t, exec (.sput d n) s = .next t ∧ SysWritten s.cur.core s.cur.side n.val mask (s.val d) s t ∧
      t.mySide.pc = (s.mySide.advance 4).pc ∧ t.mySide.loops = (s.mySide.advance 4).loops) ∧
  (∀ (s : State) (d : RegNo) (n : Fin 4096) (r : SysReg), sysReg n.val = some r → r.onSide s.cur.side → r.sWrite = false →
    s.mySide.super = true → s.Has d → s.MaySput →
    ∃ t, exec (.sput d n) s = .next t ∧ SideEffect s t (s.mySide.advance 4)) ∧
  (∀ (s : State) (c : CoreId) (sd : Side) (n : Fin 4096) (r : SysReg) (mask : Nat) (v : Word), sysReg n.val = some r →
    r.onSide sd → r.sWrite = true → plainMask n.val = some mask →
    ∃ t, exec (.registerWrite (.sys c sd n) v) s = .next t ∧ SysWritten c.no sd n.val mask v s t) ∧
  (∀ (s : State) (d : RegNo), s.mySide.super = true → s.Has d → s.MaySput →
    ∃ t, exec (.sput d 0x042) s = .next t ∧
      SysWritten s.cur.core s.cur.side 0x042 (einfoBits s.mySide.cause) (s.val d) s t ∧
      t.mySide.pc = (s.mySide.advance 4).pc ∧ t.mySide.loops = (s.mySide.advance 4).loops) ∧
  (∀ (s : State) (c : CoreId) (sd : Side) (v : Word), ∃ t, exec (.registerWrite (.sys c sd 0x042) v) s = .next t ∧
    SysWritten c.no sd 0x042 (einfoBits ((s.core c.no).side sd).cause) v s t) ∧
  (∀ (s : State) (off : BitVec 32) (v : Word), off.toNat < 0x800 → off.toNat % 8 = 0 →
    ∃ t, exec (.registerWrite (.ctl off) v) s = .next t ∧
      t.ctlGet off.toNat = v &&& BitVec.ofNat 64 (2 ^ 63 + (2 ^ 22 - 1) * 2 ^ 38 + (2 ^ 26 - 1) * 2 ^ 12) ∧
      (∀ o, o ≠ off.toNat → t.ctlGet o = s.ctlGet o) ∧ { t with ctl := s.ctl } = s)

/-- Registers that respond to a write in their own way: VLCAP is rounded and leaves VLMAX alone (R141, R339); MSTEP is set only while a
macro-operation runs (R315); LANEOK shows bits set again, and retires the group of every bit cleared, with a kind 4 event (R198), which
LANE_RETIRED does too. That MSTEP is ignored while none runs (log entry 45), and that the event of a lane has a zero CAUSE, ADDR and task
(log entry 44), are the model's choices. -/
def Obligations.RegistersWithEffectsOfTheirOwn : Prop :=
  (∀ (s : State) (c : CoreId) (v : Word), ∃ t n, exec (.vlcapWrite c v) s = .next t ∧ n ≤ 12 ∧ 6 ≤ n ∧
    CoreBecomes c.no s t { s.core c.no with vlcap := 2 ^ n } ∧
    (64 ≤ v.toNat % 2 ^ 13 → 2 ^ n ≤ v.toNat % 2 ^ 13) ∧ (v.toNat % 2 ^ 13 < 2 ^ (n + 1) ∨ n = 12) ∧
    (v.toNat % 2 ^ 13 < 64 → n = 6)) ∧
  (∀ (s : State) (c : CoreId) (v : Word),
    (bit (s.core c.no).mstepWord.toNat 63 = true →
      ∃ t, exec (.mstepWrite c v) s = .next t ∧ CoreBecomes c.no s t { s.core c.no with mstep := v.toNat % 1024 }) ∧
    (bit (s.core c.no).mstepWord.toNat 63 = false → exec (.mstepWrite c v) s = .next s)) ∧
  (∀ (s : State) (c : CoreId) (v : Word), v.toNat % 256 = 255 →
    ∃ t, exec (.laneokWrite c v) s = .next t ∧ CoreBecomes c.no s t { s.core c.no with laneok := 0xFF }) ∧
  (∀ (s : State) (c : CoreId) (g : Fin 8), (s.core c.no).task = none → bit (s.core c.no).laneok.toNat g.val = true →
    (s.core c.no).laneok ≠ BitVec.ofNat 8 (2 ^ g.val) →
    ∃ t, exec (.laneRetired c g) s = .next t ∧
      t = (s.setCore c.no { s.core c.no with laneok := (s.core c.no).laneok &&& ~~~(BitVec.ofNat 8 (2 ^ g.val)) }).logEvent 4
        (srcOf c.no) g.val 0xFFFFFFFF 0 0 0) ∧
  (∀ (s : State) (c : CoreId) (g : Fin 8) (v : Word), v.toNat % 256 = 255 - 2 ^ g.val → (s.core c.no).laneok = 0xFF →
    ∀ t, exec (.laneRetired c g) s = .next t → exec (.laneokWrite c v) s = .next t)

/-- trap (R337, R178) enters the handler with its code in EINFO.AUX and EPC at itself; eret (R179, R338) restores the view,
clears CAUSE.INH and goes on at EPC, with nothing else changed where no held access is given up; an EPC that is no multiple of 4 raises
ALIGN (R210). An access given up ends with the elements below VSTART: of a queue load the others are zero and invalid, and MV.SEEN is
set; that its reads below VSTART still take place is the model's reading (log entry 22). -/
def Obligations.TrapEntersAndEretReturns : Prop :=
  (∀ (s : State) (c : TrapCode), s.CanTrap → c.value < 2 ^ 28 →
    ∃ t, exec (.trap c) s = .next t ∧ TrapTaken s t 0x1C (einfoAux c.value)) ∧
  (∀ (s : State), s.mySide.super = true → s.mySide.epc.toNat % 4 ≠ 0 → s.CanTrap →
    ∃ t, exec .eret s = .next t ∧ TrapTaken s t 0x0A (infoA s.mySide.epc 0)) ∧
  (∀ (s : State), s.mySide.super = true → s.mySide.epc.toNat % 4 = 0 →
    s.cur.side = .X ∨ s.me.heldEpc = none ∨ s.me.heldEpc = some s.mySide.epc →
    ∃ t, exec .eret s = .next t ∧
      SideEffect s t { s.mySide with
        super := s.mySide.cause.getLsbD 59, cause := s.mySide.cause &&& 0xEFFFFFFFFFFFFFFF, pc := s.mySide.epc }) ∧
  (∀ (s : State) (h : Word), s.mySide.super = true → s.mySide.epc.toNat % 4 = 0 → s.cur.side = .A → s.me.heldEpc = some h →
    h ≠ s.mySide.epc →
    ∃ t, exec .eret s = .next t ∧ t = s.giveUpHeld.setMySide { s.giveUpHeld.mySide with
      super := s.giveUpHeld.mySide.cause.getLsbD 59, cause := s.giveUpHeld.mySide.cause &&& 0xEFFFFFFFFFFFFFFF
      pc := s.giveUpHeld.mySide.epc }) ∧
  (∀ (s u : State), u = s.giveUpHeld → s.me.IdsDistinct → OnlyMyCore s u ∧ (s.me.pend.find? s.me.isHeld = none → u.me = { s.me with heldEpc := none }) ∧
    ∀ x v, s.me.pend.find? s.me.isHeld = some x → v = s.me.av.vstart.toNat →
      (∀ q id e k, x.kind = .fill q id .plain → (s.me.lq[q.val]).ents.find? (fun y => y.id == id) = some e →
        k = (if tagW e.tag.val = 4 then (v + 1) / 2 else v) → u.me.mv = s.me.mv ||| 1 ∧ u.me.heldEpc = none ∧
        (none ∈ x.ans.take k → ∃ y ∈ u.me.pend, y.id = x.id ∧ y.kind = .fill q id (.upTo none v) ∧ y.spans = x.spans.take k) ∧
        (none ∉ x.ans.take k → ∃ y ∈ (u.me.lq[q.val]).ents, y.id = id ∧ y.ready = true ∧ y.held = none ∧
          ∀ j, v ≤ j → j < e.n → y.valid.getD j true = false ∧ (y.elems.getD j 0).toNat = if e.tag = 0x0B then 0x77 else 0)) ∧
      ∀ q tag k, x.kind = .stq q tag .plain true → k = (if tagW tag.val = 4 then (v + 1) / 2 else v) → u.me = { s.me with
        heldEpc := none
        pend := s.me.pend.map fun y => if y.id == x.id then { y with
          kind := .stq q tag .plain false, spans := y.spans.take k, ans := y.ans.take k } else y })

/-- A trap taken while its side is in the handler, or without a handler, removes the context as a double trap (R178, R189):
shown by trap in a gang of one core. With a handler, both sides stand at the exit entries in the S view with FATAL, INH and
DOUBLE in CAUSE, EPC at their position, empty loop stacks and VL 0; without one, or in its exit routine already (R190), the context is
ended. That the event of a removal takes one count of GTS is the model's choice, log entry 3. -/
def Obligations.ASecondTrapRemovesTheContext : Prop :=
  (∀ (s : State) (c : TrapCode) (id code : Nat) (at_ : Word) (k : Task), s.holdsTrap = false → s.me.task = some id →
    s.task id = some k → k.cores = [s.cur.core] → k.phase = .exiting code at_ →
    ∃ t, exec (.trap c) s = .next t ∧ (∃ k', t.task id = some k' ∧ k'.phase = .discarded code) ∧ ∀ sd, (t.me.side sd).fin = true) ∧
  ∀ (s : State) (c : TrapCode) (id : Nat) (k : Task), s.holdsTrap = false → s.me.task = some id → s.task id = some k →
    k.cores = [s.cur.core] → k.phase = .running → causeInh s.mySide.cause = true ∨ s.me.tvec = 0 →
    ∃ t, exec (.trap c) s = .next t ∧ t.gts = s.gts + 1 ∧
      (s.me.tvec ≠ 0 → (∃ k', t.task id = some k' ∧ k'.phase = .exiting 0x1C s.gts) ∧
        ∀ sd, (t.me.side sd).pc = s.me.tvec + (match sd with
            | .A => 0x100
            | .X => 0x140) ∧
          (t.me.side sd).super = true ∧ (t.me.side sd).loops = [] ∧ (t.me.side sd).vl = 0 ∧
          (t.me.side sd).epc = (s.me.side sd).pc ∧
          (t.me.side sd).cause = BitVec.ofNat 64 (2 ^ 61 + 2 ^ 60 + (if (s.me.side sd).super then 2 ^ 59 else 0) + 2 ^ 8 + 0x1C)) ∧
      (s.me.tvec = 0 → (∃ k', t.task id = some k' ∧ k'.phase = .discarded 0x1C) ∧ ∀ sd, (t.me.side sd).fin = true)

/-- wait and WAIT_EXPIRE (R341): a time that has passed retires at once, another one is waited for until GTS reaches it. wkt and
WICKET_GRANT (R172, R173, R342): a request is made unless one is held or pending, and it is granted in its turn when it fits; a
macro-operation that came meanwhile consumes the grant. -/
def Obligations.WaitsEndAndLouvresAreGranted : Prop :=
  ((∀ (s : State) (a : SrcR), s.Has a.r → s.mySide.waitTo = none →
     ((s.val a.r).toNat ≤ s.gts.toNat → ∃ t, exec (.wait a) s = .next t ∧ SideEffect s t (s.mySide.advance 4)) ∧
     (s.gts.toNat < (s.val a.r).toNat →
       ∃ t, exec (.wait a) s = .next t ∧ SideEffect s t { s.mySide with waitTo := some (s.val a.r) })) ∧
   (∀ (s : State) (c : CoreId) (sd : Side) (v : Word), ((s.core c.no).side sd).waitTo = some v →
     (v.toNat ≤ s.gts.toNat → ∃ t, exec (.waitExpire c sd) s = .next t ∧
       CoreBecomes c.no s t ((s.core c.no).setSide sd (SideSt.advance { (s.core c.no).side sd with waitTo := none } 4))) ∧
     (s.gts.toNat < v.toNat → exec (.waitExpire c sd) s = .next s))) ∧
  ((∀ (s : State) (card : Bool), s.me.wktPend.isSome = true ∨ s.me.wktHeld.isSome = true → s.cur.side = .X ∨ s.Steady →
     ∃ t, exec (.wkt card) s = .next t ∧ SideEffect s t (s.mySide.advance 4)) ∧
   (∀ (s : State) (card : Bool), s.me.wktPend = none → s.me.wktHeld = none → s.cur.core < 2048 → s.cur.side = .X ∨ s.Steady →
     ∃ t, exec (.wkt card) s = .next t ∧
       t.me = ({ s.me with wktPend := some (card, s.me.nextId) } : Core).setSide s.cur.side (s.mySide.advance 4) ∧
       (∀ n, n ≠ s.cur.core → t.core n = s.core n) ∧
       { t with cores := s.cores, panes := s.panes } = s ∧
       (∀ p, p ≠ s.cur.core / 256 → t.pane p = s.pane p) ∧
       t.pane (s.cur.core / 256) = { s.pane (s.cur.core / 256) with
         reqs := (s.pane (s.cur.core / 256)).reqs ++
           [{ n := if card then 2 else 1, who := .ahead s.cur.core, contract := s.isContract s.cur.core }] }) ∧
   (∀ (s : State) (p : Fin 8) (r : WktReq) (c : Nat), (s.pane p.val).next = some r → r.who = .ahead c →
     s.louvresUsed p.val + r.n ≤ (s.pane p.val).limit → s.mopAhead c = none → s.cardAhead c = none →
     ∃ t, exec (.wicketGrant p) s = .next t ∧ (t.pane p.val).reqs = (s.pane p.val).reqs.erase r ∧
       t.core c = { s.core c with wktHeld := (s.core c).wktPend, wktPend := none } ∧
       (∀ n, n ≠ c → t.core n = s.core n) ∧ { t with cores := s.cores, panes := s.panes } = s) ∧
   (∀ (s : State) (p : Fin 8) (r : WktReq) (c : Nat) (m : MacroOp), (s.pane p.val).next = some r → r.who = .ahead c →
     s.louvresUsed p.val + r.n ≤ (s.pane p.val).limit → s.mopAhead c = some m →
     ∃ t, exec (.wicketGrant p) s = .next t ∧ (t.pane p.val).reqs = (s.pane p.val).reqs.erase r ∧
       t.core c = { s.core c with
         wktPend := none, mops := (s.core c).mops.map fun x => if x.id == m.id then { x with granted := true } else x } ∧
       (∀ n, n ≠ c → t.core n = s.core n) ∧ { t with cores := s.cores, panes := s.panes } = s) ∧
   (∀ (s : State) (p : Fin 8) (r : WktReq), (s.pane p.val).next = some r →
     (s.pane p.val).limit < s.louvresUsed p.val + r.n → exec (.wicketGrant p) s = .next s))

namespace Sys2Proof
namespace Machine

/-! ## Accesses -/

/-- The A-side is about to execute a scalar access at ea: it waits for no peer, and its address operands can be read. -/
structure State.AtAccess (s : State) (a : SrcR) (addr : AddrM) (ea : Word) : Prop where
  side : s.cur.side = .A
  peer : s.me.peerWait = none
  ea   : s.ea a addr = .ok ea

/-- The trap of a check of an address: whatever scalar access checks ea raises it. -/
def AccessTraps (s : State) (ea : Word) (size : Nat) (acc : Acc) (code : Nat) (info : Word) (qual : Nat) : Prop :=
  (acc = .read → ∀ f : LdF, s.AtAccess f.a f.addr ea → szBytes f.sz = size → s.Has f.d →
    ∃ t, exec (.ld f) s = .next t ∧ TrapTaken s t code info qual) ∧
  (acc = .write → ∀ f : StF, s.AtAccess f.a f.addr ea → szBytes f.sz = size → s.Has f.d →
    ∃ t, exec (.st f) s = .next t ∧ TrapTaken s t code info qual)

/-- The one open span of an access can be performed: it is the n-th that the event can reach, nothing before it holds it back, and no
load of a restored context is still to be checked again (R82). -/
structure Performable (s : State) (core : Nat) (ok : Access → Nat × Nat → Bool) (n : Nat) (es : List Access) (x : Access)
    (k size : Nat) : Prop where
  spans : x.spans = [(k, size)]
  ans   : x.ans = [none]
  found : findOpen ok [] (s.core core).pend n = some (es, x, 0)
  free  : mayPerform es x 0 = true
  ids   : (s.core core).IdsDistinct
  sure  : ∀ y ∈ (s.core core).pend, y.abandoned = false

/-- The core without an access that has been performed. -/
def Core.without (c : Core) (x : Access) : Core := { c with pend := c.pend.filter fun y => y.id != x.id }

/-- The core with a late value written that an access of it gave (R81): register d takes it and is full, and it is a value that was
written before each younger await, should that one trap (R123). -/
def Core.lateWritten (c : Core) (x : Access) (d : RegNo) (v : Word) : Core :=
  { c.without x with
    a := c.a.set d.val v, aFull := c.aFull.set d.val true
    pend := (c.without x).pend.map fun y => if x.id < y.id then
      { y with snap := y.snap.map fun p => { p with a := p.a.set d.val v, aFull := p.aFull.set d.val true } } else y }

/-- The read events of a core (R81). -/
def readEvent (x : Access) (sp : Nat × Nat) : Bool := x.kind.isLate && !keyIsPeer sp.1

/-- The write events of a core within its pane (R77, R78). -/
def writeEvent (core : Nat) (x : Access) (sp : Nat × Nat) : Bool :=
  x.kind.isPosted && !keyIsPeer sp.1 && !crossesPane core sp

/-- The write events of a core to another pane's DRAM (R100). -/
def crossEvent (core : Nat) (x : Access) (sp : Nat × Nat) : Bool :=
  x.kind.isPosted && !keyIsPeer sp.1 && crossesPane core sp

end Machine
end Sys2Proof

/-- The checks of an address in their order (R20, R8 to R11, R13, R16, R180, R182), shown by ld and st: canonical form, which gives
EINFO as issued and NONCAN; alignment; control space, which only the S view may use and only by dwords; a core's
scratchpad, in the U view within the reservation; a device-virtual address without a translation or without the permission;
a peer outside REACH. -/
def Obligations.AddressesAreCheckedInOrder : Prop :=
  ∀ (s : State) (ea : Word) (sz : Fin 4) (acc : Acc), s.CanTrap → acc = .read ∨ acc = .write →
    (canonical ea.toNat = false → AccessTraps s ea (2 ^ sz.val) acc 0x08 ea 4) ∧
    (canonical ea.toNat = true → ea.toNat % 2 ^ sz.val ≠ 0 → AccessTraps s ea (2 ^ sz.val) acc 0x0A (infoA ea 0) 0) ∧
    (canonical ea.toNat = true → ea.toNat % 2 ^ sz.val = 0 →
      (ea.toNat / 2 ^ 56 = 3 → s.mySide.super = false → AccessTraps s ea (2 ^ sz.val) acc 0x09 (infoA ea 0) 0) ∧
      (ea.toNat / 2 ^ 56 = 3 → s.mySide.super = true → sz ≠ 3 → AccessTraps s ea (2 ^ sz.val) acc 0x0A (infoA ea 0) 0) ∧
      (ea.toNat / 2 ^ 56 = 1 → s.mySide.super = false → s.me.spResv * 2 ^ 16 ≤ ea.toNat % 2 ^ 21 →
        AccessTraps s ea (2 ^ sz.val) acc 0x09 (infoA ea 0) 0) ∧
      (ea.toNat / 2 ^ 56 = 0 → s.leaf s.cur.core s.me.asid.toNat (ea.toNat % 2 ^ 56) = none →
        AccessTraps s ea (2 ^ sz.val) acc 0x08 (infoA ea 0) 0) ∧
      (∀ l, ea.toNat / 2 ^ 56 = 0 → s.leaf s.cur.core s.me.asid.toNat (ea.toNat % 2 ^ 56) = some l →
        l.pa + (ea.toNat % 2 ^ 56 - l.va) < 2 ^ 38 → (l.sv = true ∧ s.mySide.super = false) ∨ (l.w = false ∧ acc = .write) →
        AccessTraps s ea (2 ^ sz.val) acc 0x09 (infoA ea 0) 0) ∧
      (∀ d, d < 64 → ea.toNat / 2 ^ 56 = 0x80 + d → s.reach.getLsbD d = false →
        AccessTraps s ea (2 ^ sz.val) acc 0x0B (infoA ea 0) 0))

/-- ld, st and pref (R26, R27, R236 to R238): once its checks have passed, a load empties its register and issues its access, a store
issues its bytes; a load into a0 reads nothing; control space is read and written at once; an access to a peer is waited for by a load and
posted by a store; an aperture's byte is read at issue. pref only warms a translation, or asks the host for one. That the checks of a probe
of a peer's place are those this device can make is the model's reading (log entry 75). -/
def Obligations.ScalarAccessesIssueOnceChecked : Prop :=
  (∀ (s : State) (f : LdF) (ea : Word), s.AtAccess f.a f.addr ea → s.Has f.d →
    (f.d = 0 → ∀ p, s.place (s.how .read true (2 ^ f.sz.val)) ea = .ok p → ∃ t, exec (.ld f) s = .next t ∧
      OnlyCoreAndTlb s.cur.core s t ∧ t.me = s.me.setSide .A (s.mySide.advance f.addr.len)) ∧
    (f.d ≠ 0 →
      (∀ k, s.place (s.how .read true (2 ^ f.sz.val)) ea = .ok (.mem k) → ∃ t, exec (.ld f) s = .next t ∧
        AccessIssued s t (s.newAccess (.load f.d (2 ^ f.sz.val) f.sx) [(k, 2 ^ f.sz.val)] [] ea) f.d
          (s.mySide.advance f.addr.len)) ∧
      (∀ o, s.place (s.how .read true (2 ^ f.sz.val)) ea = .ok (.ctl o) → s.quiet [(2 ^ 54 + o, 2 ^ f.sz.val)] = .ok () →
        ∃ t, exec (.ld f) s = .next t ∧
          AccessIssued s t (s.newAccess (.value f.d (s.ctlRead o)) [(2 ^ 54 + o, 2 ^ f.sz.val)] [] ea) f.d
            (s.mySide.advance f.addr.len)) ∧
      (∀ n o bs, s.place (s.how .read true (2 ^ f.sz.val)) ea = .ok (.aper n o) →
        s.quiet [(s.apBase n + o, 2 ^ f.sz.val)] = .ok () → (s.viewAs s.cur.core).aperRead n o (2 ^ f.sz.val) = .ok bs →
        ∃ t, exec (.ld f) s = .next t ∧
          AccessIssued s t (s.newAccess (.value f.d (extend (2 ^ f.sz.val) f.sx bs)) [(s.apBase n + o, 2 ^ f.sz.val)] [] ea) f.d
            (s.mySide.advance f.addr.len)) ∧
      (∀ d v, s.place (s.how .read true (2 ^ f.sz.val)) ea = .ok (.peer d v) → ∃ t, exec (.ld f) s = .next t ∧
        OnlyCore s.cur.core s t ∧
        t.me = { s.me with
          nextId := s.me.nextId + 1, aFull := s.me.aFull.set f.d.val false
          pend := s.me.pend ++ [s.newAccess (.load f.d (2 ^ f.sz.val) f.sx) [(peerKey d v, 2 ^ f.sz.val)] [] ea]
          peerWait := some { id := s.me.nextId, fault := none, units := [(0, ea)] } }))) ∧
  (∀ (s : State) (f : StF) (ea : Word), s.AtAccess f.a f.addr ea → s.Has f.d →
    (∀ k, s.place (s.how .write true (2 ^ f.sz.val)) ea = .ok (.mem k) → s.logRoom s.cur.core [(k, 2 ^ f.sz.val)] = .ok () →
      ∃ t, exec (.st f) s = .next t ∧
        AccessIssued s t (s.newAccess (.writes [leBytes (2 ^ f.sz.val) (s.val f.d).toNat]) [(k, 2 ^ f.sz.val)] [] 0) 0
          (s.mySide.advance f.addr.len)) ∧
    (∀ d v, s.place (s.how .write true (2 ^ f.sz.val)) ea = .ok (.peer d v) → ∃ t, exec (.st f) s = .next t ∧
      AccessIssued s t (s.newAccess (.writes [leBytes (2 ^ f.sz.val) (s.val f.d).toNat]) [(peerKey d v, 2 ^ f.sz.val)] [] 0) 0
        (s.mySide.advance f.addr.len)) ∧
    (∀ o, s.place (s.how .write true (2 ^ f.sz.val)) ea = .ok (.ctl o) → s.quiet [(2 ^ 54 + o, 2 ^ f.sz.val)] = .ok () →
      exec (.st f) s = .next ((s.ctlWrite o (s.val f.d)).retire f.addr.len))) ∧
  (∀ (s : State) (a : SrcR) (addr : AddrM) (ea : Word), s.cur.side = .A → s.ea a addr = .ok ea → ∃ t, exec (.pref a addr) s = .next t ∧
    t.me = s.me.setSide .A (s.mySide.advance addr.len) ∧ (ea.toNat / 2 ^ 56 ≠ 4 → OnlyCoreAndTlb s.cur.core s t) ∧
    OnlyCoreAndTlb s.cur.core s { t with pri := s.pri })

/-- STORE_PERFORMED and CROSS_PANE_WRITE_APPLY (R3, R77, R100): the bytes of a store reach memory at its place, no other byte
changes, no register changes, and the access is pending no more. A deterministic task's store to device memory goes to
its log, and memory is as before (R130). -/
def Obligations.StoresReachMemory : Prop :=
  (∀ (s : State) (c : CoreId) (n k size : Nat) (es : List Access) (x : Access) (bs : List Byte), s.MemOk →
    Performable s c.no (writeEvent c.no) n es x k size → x.kind = .writes [bs] → bs.length = size → s.detTask c.no = none →
    ∃ t, exec (.storePerformed c n) s = .next t ∧ Wrote s t k bs ∧ t.core c.no = (s.core c.no).without x ∧
      (∀ m, m ≠ c.no → t.core m = s.core m) ∧ { t with cores := s.cores, mem := s.mem } = s) ∧
  (∀ (s : State) (c : CoreId) (n k size : Nat) (es : List Access) (x : Access) (bs : List Byte) (d : Task),
    Performable s c.no (writeEvent c.no) n es x k size → x.kind = .writes [bs] → bs.length = size → s.detTask c.no = some d →
    keyIsDram k = true →
    ∃ t, exec (.storePerformed c n) s = .next t ∧ t.mem = s.mem ∧ t.core c.no = (s.core c.no).without x ∧
      t.tasks = s.tasks.map fun u => if u.id == d.id then { d with log := logBytes d.log k bs } else u) ∧
  (∀ (s : State) (c : CoreId) (n k size : Nat) (es : List Access) (x : Access) (bs : List Byte), s.MemOk →
    Performable s c.no (crossEvent c.no) n es x k size → x.kind = .writes [bs] → bs.length = size → s.detTask c.no = none →
    (∀ q, q < 8 → q ≠ c.pane.val → clockLe ((s.pane c.pane.val).clock.getD q 0) (s.pane q).sentNo = true) →
    ∃ t, exec (.crossPaneWriteApply c n) s = .next t ∧ Wrote s t k bs ∧ t.core c.no = (s.core c.no).without x ∧
      (t.pane c.pane.val).sentNo = ((s.pane c.pane.val).sentNo + 1) % 2 ^ 16 ∧ (∀ m, m ≠ c.no → t.core m = s.core m) ∧
      { t with cores := s.cores, mem := s.mem, panes := s.panes } = s)

/-- LOAD_COMPLETE (R81, R237): the register of a load takes the little-endian bytes at its place, sign- or zero-extended, and
is full; memory and everything else is as before. -/
def Obligations.LoadsWriteTheirRegister : Prop :=
  (∀ (s : State) (c : CoreId) (n k size : Nat) (es : List Access) (x : Access) (d : RegNo) (sx : Bool), d ≠ 0 →
    size = 1 ∨ size = 2 ∨ size = 4 ∨ size = 8 →
    Performable s c.no readEvent n es x k size → x.kind = .load d size sx → s.detTask c.no = none →
    ∃ t v, exec (.loadComplete c n) s = .next t ∧
      CoreBecomes c.no s t ((s.core c.no).lateWritten x d v) ∧
      (sx = false → v.toNat = leNat (Memory.readN s.mem k size)) ∧
      (sx = true → v.toInt = if leNat (Memory.readN s.mem k size) < 2 ^ (8 * size - 1)
        then (leNat (Memory.readN s.mem k size) : Int) else (leNat (Memory.readN s.mem k size) : Int) - 2 ^ (8 * size))) ∧
  (∀ (s : State) (c : CoreId) (n k size : Nat) (es : List Access) (x : Access) (d : RegNo) (v : Word), d ≠ 0 →
    Performable s c.no readEvent n es x k size → x.kind = .value d v →
    ∃ t, exec (.loadComplete c n) s = .next t ∧ CoreBecomes c.no s t ((s.core c.no).lateWritten x d v))

namespace Sys2Proof
namespace Machine

/-- The new word of an integer atomic of width w on old words below 2^w (R253). -/
def AmoInt (op : AmoOp) (w : Nat) (sgn : Bool) (old b c new : Nat) : Prop :=
  let less : Prop := if sgn then signedOf w old < signedOf w b else old < b
  match op with
  | .add  => new = (old + b) % 2 ^ w
  | .and  => new = old &&& b
  | .or   => new = old ||| b
  | .xor  => new = old ^^^ b
  | .min  => (less → new = old) ∧ (¬ less → new = b)
  | .max  => (less → new = b) ∧ (¬ less → new = old)
  | .swap => new = b
  | .cas  => (old = c → new = b) ∧ (old ≠ c → new = old)

/-- An integer atomic of width w at k has been performed: the new word stands there and no other byte has changed, the old word is in d,
and a pane that it left for another's DRAM has numbered it (R97, R100, R253). -/
def AmoPerformed (s t : State) (c : CoreId) (x : Access) (k w : Nat) (d : RegNo) (op : AmoOp) (tag : Fin 32) (b cmp : Word) : Prop :=
  ∃ new, AmoInt op w (isSigned tag.val) (leNat (Memory.readN s.mem k (w / 8))) (b.toNat % 2 ^ w) (cmp.toNat % 2 ^ w) new ∧
    Wrote s t k (leBytes (w / 8) new) ∧ (∀ m, m ≠ c.no → t.core m = s.core m) ∧
    { t with cores := s.cores, mem := s.mem, panes := s.panes } = s ∧
    (crossesPane c.no (k, w / 8) = false → t.panes = s.panes) ∧
    (crossesPane c.no (k, w / 8) = true → (t.pane c.pane.val).sentNo = ((s.pane c.pane.val).sentNo + 1) % 2 ^ 16) ∧
    (d = 0 → t.core c.no = (s.core c.no).without x) ∧
    (d ≠ 0 → ∃ v, t.core c.no = (s.core c.no).lateWritten x d v ∧
      (tag.val = tI32 → v.toInt = signedOf 32 (leNat (Memory.readN s.mem k (w / 8)))) ∧
      (tag.val ≠ tI32 → v.toNat = leNat (Memory.readN s.mem k (w / 8))))

/-- A queue load can claim a slot: the A-side is at it for the first time and a slot is free (R80, R240). -/
structure State.ReadyToFill (s : State) (q : Fin 4) : Prop where
  side  : s.cur.side = .A
  peer  : s.me.peerWait = none
  held  : s.me.heldEpc = none
  inh   : s.me.heldInh = none
  first : s.mySide.resumes = false
  fresh : (∀ x ∈ s.me.pend, x.id < s.me.nextId) ∧ ∀ e ∈ (s.me.lq[q.val]).ents, e.id < s.me.nextId
  room  : (s.me.lq[q.val]).ents.length < 8

/-- The entry that a queue load claims: undelivered, stamped with the queue's element-group counter (R80, R85, R139). -/
def State.newEntry (s : State) (q : Fin 4) (n : Nat) (tag : Fin 32) : Entry :=
  { id := s.me.nextId, n := n, tag := tag, base := s.me.lq[q.val].ctr, vers := s.me.cbVers, kind := .data, elems := [], valid := [],
    ready := n == 0, delivered := false, held := none }

/-- A queue load has claimed a slot for n elements and issued its reads; an empty one reads nothing. -/
structure FillIssued (s t : State) (q : Fin 4) (n : Nat) (tag : Fin 32) (form : FillForm) (spans : List (Nat × Nat)) (len : Nat)
    (list : Option Word) : Prop extends OnlyCoreAndTlb s.cur.core s t where
  mine : t.me = { s.me with
    nextId := s.me.nextId + (if spans.isEmpty then 1 else 2)
    lq := s.me.lq.set q.val { ents := s.me.lq[q.val].ents ++ [s.newEntry q n tag]
                              ctr := s.me.lq[q.val].ctr + BitVec.ofNat 32 (groups n (tagW tag.val)) }
    pend := s.me.pend ++ (if spans.isEmpty then []
      else [{ s.newAccess (.fill q s.me.nextId form) spans [] 0 list with id := s.me.nextId + 1 }])
    av := s.mySide.advance len }

/-- A queue load that passes its checks of class P completes for every list of pieces that lie in plain memory of this device. -/
def Fills (i : Instr) (s : State) (q : Fin 4) (n : Nat) (tag : Fin 32) (form : FillForm) (ds : List Piece) (len : Nat)
    (list : Option Word := none) : Prop :=
  ∀ ps, s.pieces .read ds = (ps, none) → (∀ p ∈ ps, ∃ k, p = .mem k ∧ k < 2 ^ 63) →
    ∃ t, exec i s = .next t ∧ FillIssued s t q n tag form (s.spansAt ps ds) len list

/-- A store-queue store can claim: the A-side is at it for the first time (R245). -/
structure State.ReadyToClaim (s : State) : Prop where
  side  : s.cur.side = .A
  held  : s.me.heldEpc = none
  inh   : s.me.heldInh = none
  first : s.mySide.resumes = false
  fresh : ∀ x ∈ s.me.pend, x.id < s.me.nextId

/-- A store-queue store whose pieces all pass their checks claims an entry, where the log of a deterministic task has room for it
(R130): its access waits for the data (R245). -/
def Claims (i : Instr) (s : State) (q : Fin 2) (tag : Fin 32) (acc : Acc) (form : StqForm) (range : List (Nat × Nat)) (ds : List Piece)
    (len : Nat) (list : Option Word := none) : Prop :=
  ∀ ps, s.pieces acc ds = (ps, none) → s.logRoom s.cur.core (s.spansAt ps ds) (acc == .amo) = .ok () →
    ∃ t, exec i s = .next t ∧
      AccessIssued s t (s.newAccess (.stq q tag form false) (s.spansAt ps ds) range 0 list) 0 (s.mySide.advance len)

/-- The tag that a queue load names: its TC code, or the tag of the extended form (R239). -/
def loadTag (tc : Fin 8) (tg : Fin 32) : Fin 32 := if tg = 0 then [0x05, 0x04, 0x03, 0x02, 0x0D, 0x0C, 0x0A, 0x0B].getD tc.val 0 else tg

end Machine
end Sys2Proof

/-- amo (R97, R252, R253): it issues one access once its checks have passed; performed, it stores the new word that its
operation gives for the old one, writes the old word to d, sign-extended for i32, and changes no other byte; one on another pane's DRAM
carries its pane's clock (R100). A sum of floats is rounded once, by the rounding mode that the access took with it (R39). swap and cas with
det raise ILLEGAL, and a logic or an order operation on floats ILLEGAL_TAG. A det atomic of a deterministic task is logged as an operation
(R131), and the logs' operations take place in the order in which they are applied. -/
def Obligations.AtomicsReadModifyAndWrite : Prop :=
  (∀ (s : State) (f : AmoF) (ea : Word) (k : Nat), s.cur.side = .A → s.me.peerWait = none → s.eaOff f.a (some f.off) = .ok ea →
    s.Has f.b.r → s.Has f.c → s.Has f.d → amoTagOk (amoTag f.tg) f.op = true → ¬ (f.det = true ∧ (f.op = .swap ∨ f.op = .cas)) →
    s.place (s.how .amo true (tagW (amoTag f.tg).val / 8)) ea = .ok (.mem k) →
    s.logRoom s.cur.core [(k, tagW (amoTag f.tg).val / 8)] true = .ok () →
    ∃ t, exec (.amo f) s = .next t ∧
      AccessIssued s t (s.newAccess (.amo f.d f.op (amoTag f.tg) [s.val f.b.r] (s.val f.c) f.acq f.rel f.det)
        [(k, tagW (amoTag f.tg).val / 8)] [] ea) f.d (s.mySide.advance 12)) ∧
  (∀ (s : State) (f : AmoF), s.CanTrap →
    (f.det = true → f.op = .swap ∨ f.op = .cas → ∃ t, exec (.amo f) s = .next t ∧ TrapTaken s t 0x01 (einfoAux 0)) ∧
    (¬ (f.det = true ∧ (f.op = .swap ∨ f.op = .cas)) → s.cur.side = .A → s.me.peerWait = none → amoTagOk (amoTag f.tg) f.op = false →
      ∃ t, exec (.amo f) s = .next t ∧ TrapTaken s t 0x05 (einfoAux 0))) ∧
  (∀ (s : State) (c : CoreId) (n k w : Nat) (es : List Access) (x : Access) (d : RegNo) (op : AmoOp) (tag : Fin 32) (b cmp : Word)
    (acq rel det : Bool), s.MemOk → isInt tag.val = true → tagW tag.val = w → w = 32 ∨ w = 64 →
    x.kind = .amo d op tag [b] cmp acq rel det → s.detTask c.no = none →
    (d ≠ 0 → Performable s c.no readEvent n es x k (w / 8) → (crossesPane c.no (k, w / 8) = true → s.clockReady c.pane.val = true) →
      ∃ t, exec (.loadComplete c n) s = .next t ∧ AmoPerformed s t c x k w d op tag b cmp) ∧
    (d = 0 → Performable s c.no (writeEvent c.no) n es x k (w / 8) →
      ∃ t, exec (.storePerformed c n) s = .next t ∧ AmoPerformed s t c x k w d op tag b cmp) ∧
    (d = 0 → Performable s c.no (crossEvent c.no) n es x k (w / 8) → s.clockReady c.pane.val = true →
      ∃ t, exec (.crossPaneWriteApply c n) s = .next t ∧ AmoPerformed s t c x k w d op tag b cmp)) ∧
  (∀ (s : State) (c : CoreId) (n k w new : Nat) (es : List Access) (x : Access) (d : RegNo) (tag : Fin 32) (b cmp : Word)
    (acq rel det : Bool), s.MemOk → tag.val = tF32 ∨ tag.val = tF64 → tagW tag.val = w →
    x.kind = .amo d .add tag [b] cmp acq rel det → s.detTask c.no = none → crossesPane c.no (k, w / 8) = false →
    new = (fRound tag.val x.rm false (Machine.Num.add x.rm (fDecode tag.val (leNat (Memory.readN s.mem k (w / 8))))
      (fDecode tag.val (b.toNat % 2 ^ w))).1).bits →
    (d ≠ 0 → Performable s c.no readEvent n es x k (w / 8) → ∃ t v, exec (.loadComplete c n) s = .next t ∧
      Wrote s t k (leBytes (w / 8) new) ∧ v.toNat = leNat (Memory.readN s.mem k (w / 8)) ∧
      t.core c.no = (s.core c.no).lateWritten x d v ∧ ∀ m, m ≠ c.no → t.core m = s.core m) ∧
    (d = 0 → Performable s c.no (writeEvent c.no) n es x k (w / 8) → ∃ t, exec (.storePerformed c n) s = .next t ∧
      Wrote s t k (leBytes (w / 8) new) ∧ t.core c.no = (s.core c.no).without x ∧ ∀ m, m ≠ c.no → t.core m = s.core m)) ∧
  (∀ (s : State) (c : CoreId) (n k w : Nat) (es : List Access) (x : Access) (d : RegNo) (op : AmoOp) (tag : Fin 32) (b cmp : Word)
    (acq rel : Bool) (y : Task), d ≠ 0 → s.detTask c.no = some y → x.kind = .amo d op tag [b] cmp acq rel true → tagW tag.val = w →
    w = 32 ∨ w = 64 → k < 2 ^ 38 → Performable s c.no readEvent n es x k (w / 8) → crossesPane c.no (k, w / 8) = false →
    ∃ t v, exec (.loadComplete c n) s = .next t ∧ t.mem = s.mem ∧ t.core c.no = (s.core c.no).lateWritten x d v ∧
      t.detTask c.no = some { y with log := y.log ++ [.amo k (w / 8) op tag b] } ∧
      (tag.val ≠ tI32 → v.toNat = leNat (s.viewRead c.no k (w / 8)))) ∧
  (∀ (m : List Host.Cell), applyLog m [] = m ∧ (∀ xs ys, applyLog m (xs ++ ys) = applyLog (applyLog m xs) ys) ∧
    ∀ (k w : Nat) (op : AmoOp) (tag : Fin 32) (b : Word), Memory.wf m = true → isInt tag.val = true → tagW tag.val = w →
      w = 32 ∨ w = 64 → op ≠ .swap → op ≠ .cas → ∃ new, AmoInt op w (isSigned tag.val) (leNat (Memory.readN m k (w / 8))) (b.toNat % 2 ^ w) 0 new ∧
        ∀ j, Memory.read (applyLog m [.amo k (w / 8) op tag b]) j =
          if k ≤ j ∧ j < k + w / 8 then (leBytes (w / 8) new).getD (j - k) 0 else Memory.read m j)

/-- arm, arrive and await (R68 to R70, R256): they issue at an arrival word; performed, arm and arrive change the word as R69
says and AWAIT_COMPLETE writes the generation once it has passed; until then it changes nothing. -/
def Obligations.ArrivalWordsCountAndAwaitsComplete : Prop :=
  (∀ (s : State) (a b : SrcR) (k : Nat), s.cur.side = .A → s.Has a.r → s.Has b.r → s.syncPlace .write (s.val a.r) 16 = .ok k →
    (∃ t, exec (.arm a b) s = .next t ∧
      AccessIssued s t (s.newAccess (.arm ((s.val b.r).toNat % 2 ^ 40)) [(k, 16)] [] 0) 0 (s.mySide.advance 4)) ∧
    ∃ t, exec (.arrive a b) s = .next t ∧
      AccessIssued s t (s.newAccess (.arrive ((s.val b.r).toNat % 2 ^ 40)) [(k, 16)] [] 0) 0 (s.mySide.advance 4)) ∧
  (∀ (s : State) (d : RegNo) (a b : SrcR) (k : Nat), s.cur.side = .A → s.Has a.r → s.Has b.r → s.Has d →
    s.syncPlace .read (s.val a.r) 16 = .ok k → s.failRecs s.cur.core = [] → (s.me.pend.filter fun e => e.kind.isAwait).length < 4 →
    ∃ t, exec (.await d a b) s = .next t ∧
      AccessIssued s t { s.newAccess (.await d ((s.val b.r).setWidth 32) (s.val a.r)) [(k, 16)] [] s.mySide.pc with snap := some s.aSnap } d
        (s.mySide.advance 4)) ∧
  (∀ (s : State) (c : CoreId) (n k m : Nat) (es : List Access) (x : Access), s.MemOk →
    Performable s c.no (writeEvent c.no) n es x k 16 → x.kind = .arrive m →
    (s.arrRead k).count + m % 2 ^ 40 < 2 ^ 40 →
    ∃ t, exec (.storePerformed c n) s = .next t ∧ t.core c.no = (s.core c.no).without x ∧
      (∀ j, j < k ∨ k + 16 ≤ j → Memory.read t.mem j = Memory.read s.mem j) ∧
      (t.arrRead k).target = (s.arrRead k).target ∧
      (t.arrRead k).gen % 2 ^ 32 = (if (s.arrRead k).target = 0 then (s.arrRead k).gen
        else ((s.arrRead k).gen + ((s.arrRead k).count + m % 2 ^ 40) / (s.arrRead k).target) % 2 ^ 32) ∧
      (t.arrRead k).count = (if (s.arrRead k).target = 0 then (s.arrRead k).count + m % 2 ^ 40
        else ((s.arrRead k).count + m % 2 ^ 40) % (s.arrRead k).target)) ∧
  (∀ (s : State) (c : CoreId) (n k m : Nat) (es : List Access) (x : Access), s.MemOk →
    Performable s c.no (writeEvent c.no) n es x k 16 → x.kind = .arrive m → 2 ^ 40 ≤ (s.arrRead k).count + m % 2 ^ 40 →
    ∃ t, exec (.storePerformed c n) s = .next t ∧ t.core c.no = (s.core c.no).without x ∧
      (∀ j, j < k ∨ k + 16 ≤ j → Memory.read t.mem j = Memory.read s.mem j) ∧
      (t.arrRead k).target = (s.arrRead k).target ∧ (t.arrRead k).flags = 1 ∧
      ((s.arrRead k).target = 0 → (t.arrRead k).count = 2 ^ 40 - 1 ∧ (t.arrRead k).gen = (s.arrRead k).gen) ∧
      ((s.arrRead k).target ≠ 0 → (t.arrRead k).count = (2 ^ 40 - 1) % (s.arrRead k).target ∧
        (t.arrRead k).gen = ((s.arrRead k).gen + (2 ^ 40 - 1) / (s.arrRead k).target) % 2 ^ 32)) ∧
  (∀ (s : State) (c : CoreId) (n k m : Nat) (es : List Access) (x : Access), s.MemOk →
    Performable s c.no (writeEvent c.no) n es x k 16 → x.kind = .arm m → m < 2 ^ 40 →
    ∃ t, exec (.storePerformed c n) s = .next t ∧ t.core c.no = (s.core c.no).without x ∧
      (∀ j, j < k ∨ k + 16 ≤ j → Memory.read t.mem j = Memory.read s.mem j) ∧
      (t.arrRead k).target = m ∧
      (m = 0 ∨ (s.arrRead k).count < m → (t.arrRead k).count = (s.arrRead k).count ∧ (t.arrRead k).gen = (s.arrRead k).gen) ∧
      (m ≠ 0 → m ≤ (s.arrRead k).count → (t.arrRead k).count = (s.arrRead k).count % m ∧
        (t.arrRead k).gen = ((s.arrRead k).gen + (s.arrRead k).count / m) % 2 ^ 32)) ∧
  (∀ (s : State) (c : CoreId) (n k : Nat) (es : List Access) (x : Access) (d : RegNo) (ag : BitVec 32) (addr : Word), d ≠ 0 →
    Performable s c.no (fun x _ => x.kind.isAwait) n es x k 16 → x.kind = .await d ag addr →
    (1 ≤ ((s.arrRead k).gen + 2 ^ 32 - ag.toNat) % 2 ^ 32 ∧ ((s.arrRead k).gen + 2 ^ 32 - ag.toNat) % 2 ^ 32 < 2 ^ 31 → ∃ t v, exec (.awaitComplete c n) s = .next t ∧
      v.toNat = (s.arrRead k).gen ∧
      CoreBecomes c.no s t ((s.core c.no).lateWritten x d v)) ∧
    (¬ (1 ≤ ((s.arrRead k).gen + 2 ^ 32 - ag.toNat) % 2 ^ 32 ∧ ((s.arrRead k).gen + 2 ^ 32 - ag.toNat) % 2 ^ 32 < 2 ^ 31) → s.failRecs c.no = [] →
      exec (.awaitComplete c n) s = .next s))

/-- fence, fence.sys and fence.sys.t (R88, R98, R106, R107, R255): a fence waits at its instruction with its status register
empty, and completes once everything it covers is performed; a system fence then writes the lost peers to FENCEST and to its
register and clears the loss set; with a record of a fault or, under .t, a lost peer it raises the trap instead. -/
def Obligations.FencesCompleteOnceCovered : Prop :=
  (∀ (s : State), s.mySide.fence = none →
    (∀ n : Fin 4, ∃ t, exec (.fence n) s = .next t ∧
      SideEffect s t { s.mySide with fence := some { scope := fenceScope n, dst := 0, trapT := false } }) ∧
    (∀ d, s.Has d → ∀ tr, ∃ t, exec (if tr then .fenceSysT d else .fenceSys d) s = .next t ∧
      OnlyMyCore s t ∧ t.me = ((s.me.setSide s.cur.side
        { s.mySide with fence := some { scope := .sys, dst := d, trapT := tr } }).setFull s.cur.side d false))) ∧
  (∀ (s u : State) (c : CoreId) (sd : Side) (f : FenceSt), ((s.core c.no).side sd).fence = some f →
    u = { s with cur := { core := c.no, side := sd } } →
    (u.covered f.scope = false → exec (.fenceComplete c sd) s = .next s) ∧
    (u.covered f.scope = true →
      (f.scope ≠ .sys → ∃ t, exec (.fenceComplete c sd) s = .next t ∧
        CoreBecomes c.no s t ((s.core c.no).setSide sd (SideSt.advance { (s.core c.no).side sd with fence := none } 4))) ∧
      (f.scope = .sys → c.no ∈ s.gang c.no → u.faultsOf = [] → f.trapT = false ∨ fencest s.dev u.lossOf = 0 →
        ∃ t, exec (.fenceComplete c sd) s = .next t ∧ { t with cores := s.cores } = s ∧ (∀ n, n ∉ s.gang c.no → t.core n = s.core n) ∧
          (∀ n ∈ s.gang c.no, n ≠ c.no → t.core n = { s.core n with lossSet := 0, lostStores := [] }) ∧
          (t.core c.no).fencest = fencest s.dev u.lossOf ∧ (t.core c.no).lossSet = 0 ∧
          (t.core c.no).full sd f.dst = true ∧
          (t.core c.no).reg sd f.dst = (if f.dst = 0 then 0 else fencest s.dev u.lossOf) ∧
          (∀ sd' r, sd' ≠ sd ∨ r ≠ f.dst → (t.core c.no).rawReg sd' r = (s.core c.no).rawReg sd' r) ∧
          (t.core c.no).side sd = SideSt.advance { (s.core c.no).side sd with fence := none } 4) ∧
      (f.scope = .sys → causeInh ((s.core c.no).side sd).cause = false → (s.core c.no).tvec ≠ 0 → u.holdsTrap = false → s.exiting c.no = false →
        (∀ p, firstFault u.faultsOf = some p → ∃ t, exec (.fenceComplete c sd) s = .next t ∧
          (t.core c.no).side sd = SideSt.enter { (s.core c.no).side sd with fence := none } (s.core c.no).tvec sd
            (trapA (if p.prot then 0x09 else 0x08) p.addr 5)) ∧
        (u.faultsOf = [] → f.trapT = true → fencest s.dev u.lossOf ≠ 0 → ∃ t d, exec (.fenceComplete c sd) s = .next t ∧
          d ≠ s.dev ∧ (fencest s.dev u.lossOf).getLsbD d = true ∧ (∀ e, e < d → e ≠ s.dev → (fencest s.dev u.lossOf).getLsbD e = false) ∧
          (t.core c.no).side sd = SideSt.enter { (s.core c.no).side sd with fence := none } (s.core c.no).tvec sd (trapE 0x0C d)))))  ∧
  (∀ (dev : Nat) (loss : Word), dev < 64 →
    (∀ d, d < 64 → d ≠ dev → (fencest dev loss).getLsbD d = loss.getLsbD d) ∧
    ((fencest dev loss).getLsbD dev = true ↔ ∃ e, e < 64 ∧ e ≠ dev ∧ loss.getLsbD e = true))

/-- ldq, ldqs and ldqx (R239 to R243): in plain memory, each claims a slot of its queue, stamps it, and issues the reads of its
elements: unit-stride, at a byte stride, or at indices; a block-scaled row reads each block's elements and its scale. -/
def Obligations.QueueLoadsClaimASlotAndRead : Prop :=
  (∀ (s : State) (f : LdqF) (ea : Word) (off : Option (BitVec 32)) (tag : Fin 32) (scl : Fin 4), s.ReadyToFill f.q →
    (f.ext = none → off = none ∧ tag = loadTag f.tc 0 ∧ scl = 0) →
    (∀ x, f.ext = some x → off = some x.off ∧ tag = loadTag f.tc x.tg ∧ scl = x.scl) →
    s.eaOff f.a off = .ok ea → tagOk tag.val = true → s.mySide.vl.toNat ≤ s.me.vlmax * 64 / tagW tag.val →
    (isRowTag tag.val = false → scl = 0 →
      Fills (.ldq f) s f.q s.mySide.vl.toNat tag .plain (unitPieces ea s.mySide.vl.toNat (tagW tag.val)) (lenOf f.ext)) ∧
    (isRowTag tag.val = true → scl ≠ 3 → s.mySide.vl = 0 ∨ s.mySide.vl.toNat % 32 = 0 ∧ ea.toNat % 8 = 0 → scl = 1 → s.mySide.vl.toNat ≤ s.me.vlmax →
      Fills (.ldq f) s f.q s.mySide.vl.toNat 0x0D (.row tag 1) (rowPieces ea s.mySide.vl.toNat (tagW tag.val)) (lenOf f.ext)) ∧
    (isRowTag tag.val = true → s.mySide.vl = 0 ∨ s.mySide.vl.toNat % 32 = 0 ∧ ea.toNat % 8 = 0 → scl = 2 →
      Fills (.ldq f) s f.q (s.mySide.vl.toNat / 32) 0x02 (.row tag 2) (rowPieces ea s.mySide.vl.toNat (tagW tag.val)) (lenOf f.ext)) ∧
    (isRowTag tag.val = true → s.mySide.vl = 0 ∨ s.mySide.vl.toNat % 32 = 0 ∧ ea.toNat % 8 = 0 → scl = 0 →
      Fills (.ldq f) s f.q s.mySide.vl.toNat tag (.row tag 0) (rowPieces ea s.mySide.vl.toNat (tagW tag.val)) (lenOf f.ext))) ∧
  (∀ (s : State) (f : LdqsF) (tag : Fin 32), s.ReadyToFill f.q → s.Has f.a.r → s.Has f.b.r → tag = loadTag f.tc (f.ext.getD 0) →
    tagOk tag.val = true → tagW tag.val ≠ 4 → isRowTag tag.val = false → s.mySide.vl.toNat ≤ s.me.vlmax * 64 / tagW tag.val →
    Fills (.ldqs f) s f.q s.mySide.vl.toNat tag .plain
      (stridePieces (s.val f.a.r) (s.val f.b.r) s.mySide.vl.toNat (tagW tag.val)) (lenOf f.ext) ∧
    ∀ idx, s.indices (s.val f.b.r) s.mySide.vl.toNat = .ok idx →
      Fills (.ldqx f) s f.q s.mySide.vl.toNat tag .plain (indexPieces (s.val f.a.r) idx (tagW tag.val)) (lenOf f.ext) (some (s.val f.a.r))) ∧
  (∀ (s : State) (f : LdqF), s.cur.side = .A → s.Has f.a.r → s.CanTrap → f.ext = none →
    s.me.vlmax * 64 / tagW (loadTag f.tc 0).val < s.mySide.vl.toNat →
    ∃ t, exec (.ldq f) s = .next t ∧ TrapTaken s t 0x06 (einfoAux (s.mySide.vl.toNat % 2 ^ 28)))

/-- stq, stqs, stqx, stqp, stab and amoqx (R244, R245, R248, R249, R254): in plain memory, each checks its elements and
claims an entry of its store queue; memory is as before until the data is there. -/
def Obligations.StoreQueueStoresClaimAnEntry : Prop :=
  (∀ (s : State) (f : StqF) (ea : Word) (off : Option (BitVec 32)) (tag : Fin 32), s.ReadyToClaim →
    (f.ext = none → off = none ∧ tag = 0x05) →
    (∀ x, f.ext = some x → off = some x.1 ∧ tag = (if x.2 = 0 then 0x05 else x.2)) →
    s.eaOff f.a off = .ok ea → tagOk tag.val = true → s.mySide.vl.toNat ≤ s.me.vlmax * 64 / tagW tag.val →
    (isRowTag tag.val = false →
      Claims (.stq f) s f.q tag .write .plain [] (unitPieces ea s.mySide.vl.toNat (tagW tag.val)) (lenOf f.ext)) ∧
    (isRowTag tag.val = true → s.mySide.vl = 0 ∨ s.mySide.vl.toNat % 32 = 0 ∧ ea.toNat % 8 = 0 →
      Claims (.stq f) s f.q tag .write .row [] (rowPieces ea s.mySide.vl.toNat (tagW tag.val)) (lenOf f.ext))) ∧
  (∀ (s : State) (f : StqsF) (tag : Fin 32), s.ReadyToClaim → s.Has f.a.r → s.Has f.b.r → tag = stqTag (f.ext.getD 0) →
    tagOk tag.val = true → tagW tag.val ≠ 4 → isRowTag tag.val = false → s.mySide.vl.toNat ≤ s.me.vlmax * 64 / tagW tag.val →
    Claims (.stqs f) s f.q tag .write .plain []
      (stridePieces (s.val f.a.r) (s.val f.b.r) s.mySide.vl.toNat (tagW tag.val)) (lenOf f.ext) ∧
    ∀ idx, s.indices (s.val f.b.r) s.mySide.vl.toNat = .ok idx →
      Claims (.stqx f) s f.q tag .write .plain (scatterRange s (indexPieces (s.val f.a.r) idx (tagW tag.val)))
        (indexPieces (s.val f.a.r) idx (tagW tag.val)) (lenOf f.ext) (some (s.val f.a.r))) ∧
  (∀ (s : State) (f : StqpF), s.ReadyToClaim → s.Has f.a.r → s.Has f.b.r → 1 ≤ (s.val f.b.r).toNat → (s.val f.b.r).toNat ≤ 16 →
    s.mySide.vl.toNat % 1024 = 0 → s.mySide.vl = 0 ∨ (s.val f.a.r).toNat % 128 = 0 →
    Claims (.stqp f) s f.q 0x02 .write (.planes (s.val f.b.r).toNat s.mySide.vl.toNat) []
      ((List.range (s.mySide.vl.toNat / 1024 * (s.val f.b.r).toNat * 16)).map fun j =>
        { idx := j / 16, addr := s.val f.a.r + BitVec.ofNat 64 (8 * j), size := 8 }) 4) ∧
  (∀ (s : State) (f : StabF) (nb : Nat) (ds : List Piece), s.ReadyToClaim → s.Has f.a.r → s.Has f.b.r →
    s.blockChecks .write (s.val f.a.r) (s.val f.b.r) f.wide = .ok (nb, ds) →
    Claims (.stab f) s f.q (if f.wide then 0x12 else 0x11) .write (.blocks f.wide (s.val f.b.r).toNat) [] ds 4) ∧
  (∀ (s : State) (f : AmoqxF) (idx : List Int), s.ReadyToClaim → s.Has f.a.r → s.Has f.b.r → f.op ≠ .cas →
    amoTagOk (amoTag f.tg) f.op = true → s.mySide.vl.toNat ≤ s.me.vlmax * 64 / tagW (amoTag f.tg).val →
    s.indices (s.val f.b.r) s.mySide.vl.toNat = .ok idx →
    Claims (.amoqx f) s f.q (amoTag f.tg) .amo (.amo f.op (amoTag f.tg) f.acq f.rel)
      (scatterRange s (indexPieces (s.val f.a.r) idx (tagW (amoTag f.tg).val)))
      (indexPieces (s.val f.a.r) idx (tagW (amoTag f.tg).val)) 12 (some (s.val f.a.r)))

namespace Sys2Proof
namespace Machine

/-- x is the oldest store of a core that waits for its data, with the accesses before and after it (R84); cut says that a fault holds it. -/
structure State.OldestClaim (s : State) (core : Nat) (es : List Access) (x : Access) (rest : List Access) (q : Fin 2) (tag : Fin 32)
    (form : StqForm) (cut : Bool) : Prop where
  list  : (s.core core).pend = es ++ x :: rest
  older : ∀ y ∈ es, ∀ q t f b, y.kind ≠ .stq q t f b
  kind  : x.kind = .stq q tag form cut
  ids   : (s.core core).IdsDistinct
  stays : s.mayRetract core x.id = false

/-- A store has taken entries from its queue: only its core has changed; the store, now with its data, stands in its place, or is gone
where it has no element; ents are left in the queue, and an invalid element sets MV.STORED, also in what an unwinding of X would
restore. -/
structure DataTaken (s t : State) (core : Nat) (es : List Access) (y : Access) (rest : List Access) (q : Fin 2) (ents : List Entry)
    (bad : Bool) : Prop extends OnlyCore core s t where
  mine : t.core core = { (if bad then (s.core core).markMv 2 else s.core core) with
    pend := es ++ (if y.ans.all (fun a => a.isSome) then [] else [y]) ++ rest
    sq := (s.core core).sq.set q.val { (s.core core).sq[q.val] with ents := ents } }

/-- stq.app is about to run: the A-side is at it and its descriptor at dk, of BASE base and CAPACITY cap, is checked (R89, R90). -/
structure State.AtAppend (s : State) (a : SrcR) (dk : Nat) (base : Word) (cap : Nat) : Prop where
  side  : s.cur.side = .A
  has   : s.Has a.r
  place : s.syncPlace .write (s.val a.r) 32 = .ok dk
  quiet : s.quiet [(dk, 16)] = .ok ()
  base  : base = BitVec.ofNat 64 (leNat (Memory.readN s.mem dk 8))
  cap   : cap = leNat (Memory.readN s.mem (dk + 8) 4)

/-- A descriptor that stq.app can use: CAPACITY is a power of two from 64 to 2^21 and BASE is a multiple of 8 (R89). -/
def goodRing (base : Word) (cap : Nat) : Prop := (∃ k, 6 ≤ k ∧ k ≤ 21 ∧ cap = 2 ^ k) ∧ base.toNat % 8 = 0

/-- No store that waits for its data is pending. -/
def Core.NoClaim (c : Core) : Prop := ∀ x ∈ c.pend, ∀ q t f b, x.kind ≠ .stq q t f b

/-- The access that stq.app issues (R84, R90): it claims an entry, is to read TAIL, and can write the whole ring and its arrival word. -/
def State.appendAccess (s : State) (q : Fin 2) (dk cap : Nat) (base : Word) (ring : List (Nat × Nat)) : Access :=
  { s.newAccess (.stq q 0 (.app cap (s.ringRoom base cap)) false) [(dk + 12, 4)] (ring ++ [(dk + 16, 16)]) base with
    snap := some s.aSnap }

/-- An append x has its turn and an entry e of 8-bit elements or wider that its ring of CAPACITY cap at first has room for (R90). -/
structure State.AppendReady (s : State) (core : Nat) (es : List Access) (x : Access) (rest : List Access) (tk first size cap room : Nat)
    (e : Entry) : Prop where
  tail  : x.spans = [(tk, 4)]
  ring  : ∃ more, x.range = (first, size) :: more
  wide  : 8 ≤ tagW e.tag.val
  fits  : cap * (tagW e.tag.val / 8) ≤ room
  turn  : mayPerform (x.earlier 0 es rest) x 0 = true

/-- The A-side has been taken back to a pending access with the snapshot p and has trapped there (R177). -/
structure TakenBack (s t : State) (core : Nat) (x : Access) (p : ASnap) (k : Trap) : Prop where
  regs  : (t.core core).a = p.a ∧ (t.core core).aFull = p.aFull
  side  : (t.core core).av = SideSt.enter { p.side with asyncs := (s.core core).av.asyncs } (s.core core).tvec .A k
  pend  : (t.core core).pend = (s.core core).pend.filter fun y => y.id < x.id
  other : (∀ n, n ≠ core → t.core n = s.core n) ∧ { t with cores := s.cores, panes := s.panes } = s

/-- Whether a store of blocks waits after an odd GEN (R251). -/
def Access.genWaits (x : Access) : Bool :=
  match x.kind with
  | .stab _ _ _ _ _ st => st == 4
  | _ => false

end Machine
end Sys2Proof

/-- STQ_DATA_ARRIVES, stq.app and STAB_GEN_RETRY (R19, R84, R89, R90, R108, R147, R246, R248, R251, R254): the oldest claim takes the entry
at the head of its queue, blocks two, once no receive can unwind it, cut along its elements, and the entry leaves the queue; a store that a
fault holds has the elements below it written; stq.app claims an entry and issues, or traps on a bad descriptor; in its turn it advances the
descriptor's tail by the entry's length and posts the elements, each to its slot, with an arrival, or takes the A-side back to it and traps
on an entry of 4-bit elements or a ring that leaves its scratchpad (when its checks are made is the model's choice, log entries 33 and 71);
a block found with an even GEN gets it odd first, else it goes on waiting (the model's choice, log entry 31 for what a receive holds back). -/
def Obligations.ClaimedStoresTakeTheirData : Prop :=
  ((∀ (s : State) (c : CoreId) (n : Nat), ∃ t, exec (.stqDataArrives c n) s = .next t ∧
     ((∀ x ∈ (s.core c.no).pend, ∀ q g k r cut, x.kind ≠ .stq q g (.app k r) cut) → OnlyCore c.no s t)) ∧
   (∀ (s : State) (c : CoreId) (es rest : List Access) (x : Access) (q : Fin 2) (tag : Fin 32) (form : StqForm) (e : Entry)
     (ents : List Entry), s.OldestClaim c.no es x rest q tag form false → (∀ w b, form ≠ .blocks w b) → (∀ k r, form ≠ .app k r) →
     (s.core c.no).sq[q.val].ents = e :: ents → (s.core c.no).pushStands q 1 = true →
     ∃ t, exec (.stqDataArrives c q.val) s = .next t ∧
       DataTaken s t c.no es (takeData x tag form e none) rest q ents (e.valid.any fun v => !v)) ∧
   (∀ (s : State) (c : CoreId) (es rest : List Access) (x : Access) (q : Fin 2) (tag : Fin 32) (wide : Bool) (b : Nat) (e d : Entry)
     (ents : List Entry), s.OldestClaim c.no es x rest q tag (.blocks wide b) false →
     (s.core c.no).sq[q.val].ents = e :: d :: ents → (s.core c.no).pushStands q 2 = true →
     ∃ t, exec (.stqDataArrives c q.val) s = .next t ∧
       DataTaken s t c.no es (takeData x tag (.blocks wide b) e (some d)) rest q ents (d.valid.any fun v => !v)) ∧
   (∀ (s : State) (c : CoreId) (es rest : List Access) (x : Access) (q : Fin 2) (tag : Fin 32) (form : StqForm) (e : Entry)
     (ents : List Entry), s.OldestClaim c.no es x rest q tag form true → x.open_ ≠ [] →
     (s.core c.no).sq[q.val].ents = e :: ents → (s.core c.no).pushStands q 1 = true →
     ∃ t, exec (.stqDataArrives c q.val) s = .next t ∧ OnlyCore c.no s t ∧
       t.core c.no = { (if e.valid.any (fun v => !v) then (s.core c.no).markMv 2 else s.core c.no) with
         nextId := (s.core c.no).nextId + 1
         pend := es ++ [{ takeData x tag form e none with id := (s.core c.no).nextId },
           { x with ans := x.ans.map fun _ => some [] }] ++ rest }) ∧
   (∀ (s : State) (c : CoreId) (es rest : List Access) (x : Access) (q k : Fin 2) (tag : Fin 32) (form : StqForm) (cut : Bool),
     s.OldestClaim c.no es x rest q tag form cut →
     k ≠ q ∨ (s.core c.no).sq[q.val].ents = [] ∨ (s.core c.no).pushStands q 1 = false →
     exec (.stqDataArrives c k.val) s = .next s) ∧
   (∀ (s : State) (c : CoreId) (n : Nat), (s.core c.no).NoClaim → exec (.stqDataArrives c n) s = .next s)) ∧
  ((∀ (s : State) (q : Fin 2) (a : SrcR) (dk : Nat) (base : Word) (cap : Nat), s.AtAppend a dk base cap → goodRing base cap →
     ∃ t ring, exec (.stqApp q a) s = .next t ∧ OnlyMyCore s t ∧ t.me = { s.me with
         nextId := s.me.nextId + 2, pend := s.me.pend ++ [s.appendAccess q dk cap base ring], av := s.mySide.advance 4 } ∧
       ∀ p, s.place (s.how .write true 1) base = .ok p → ring = ringSpans (s.keyOf p) (s.ringRoom base cap)) ∧
   (∀ (s : State) (q : Fin 2) (a : SrcR) (dk : Nat) (base : Word) (cap : Nat), s.AtAppend a dk base cap → s.CanTrap → ¬ goodRing base cap →
     ∃ t, exec (.stqApp q a) s = .next t ∧ TrapTaken s t 0x0A (infoA (s.val a.r) 0)) ∧
   (∀ (s : State) (c : CoreId) (es rest : List Access) (x : Access) (q : Fin 2) (tag : Fin 32) (tk first size cap room tail : Nat) (e : Entry)
     (ents : List Entry) (sp : List (Nat × Nat)), s.MemOk → s.OldestClaim c.no es x rest q tag (.app cap room) false →
     s.AppendReady c.no es x rest tk first size cap room e → (s.core c.no).sq[q.val].ents = e :: ents →
     (s.core c.no).pushStands q 1 = true → tail = leNat (Memory.readN s.mem tk 4) →
     sp = (List.range e.elems.length).map (fun j =>
       (first / 2 ^ 21 * 2 ^ 21 + (first % 2 ^ 21 + (tail + j) % cap * (tagW e.tag.val / 8)) % 2 ^ 21, tagW e.tag.val / 8)) →
     ∃ t, exec (.stqDataArrives c q.val) s = .next t ∧ Wrote s t tk (leBytes 4 (tail + e.elems.length)) ∧
       (∀ n, n ≠ c.no → t.core n = s.core n) ∧ { t with cores := s.cores, mem := s.mem } = s ∧
       t.core c.no = { (if e.valid.any (fun v => !v) then (s.core c.no).markMv 2 else s.core c.no) with
         sq := (s.core c.no).sq.set q.val { (s.core c.no).sq[q.val] with ents := ents }
         pend := es ++ ((if e.elems = [] then [] else [{ x with
             kind := .writes (alongSpans sp (entryBytes e false)), spans := sp, ans := sp.map fun _ => none, ofX := true, range := []
             snap := none }]) ++
           [{ x with id := x.id + 1, kind := .arrive e.elems.length, spans := [(tk + 4, 16)], ans := [none], ofX := true, range := []
                     snap := none }]) ++ rest }) ∧
   (∀ (s : State) (c : CoreId) (es rest : List Access) (x : Access) (q : Fin 2) (tag : Fin 32) (cap room : Nat) (e : Entry)
     (ents : List Entry) (p : ASnap), s.OldestClaim c.no es x rest q tag (.app cap room) false →
     (s.core c.no).sq[q.val].ents = e :: ents → (s.core c.no).pushStands q 1 = true → (s.core c.no).retractable = true → x.snap = some p →
     causeInh p.side.cause = false → (s.core c.no).tvec ≠ 0 → s.exiting c.no = false →
     (tagW e.tag.val < 8 → ∃ t, exec (.stqDataArrives c q.val) s = .next t ∧ TakenBack s t c.no x p (trapE 0x05)) ∧
     (8 ≤ tagW e.tag.val → room < cap * (tagW e.tag.val / 8) →
       ∃ t, exec (.stqDataArrives c q.val) s = .next t ∧ TakenBack s t c.no x p (trapA 0x09 x.addr))) ∧
   (∀ (s : State) (c : CoreId) (es rest : List Access) (x : Access) (q : Fin 2) (tag : Fin 32) (cap room : Nat) (e : Entry)
     (ents : List Entry), s.OldestClaim c.no es x rest q tag (.app cap room) false → (s.core c.no).sq[q.val].ents = e :: ents →
     8 ≤ tagW e.tag.val → cap * (tagW e.tag.val / 8) ≤ room → mayPerform (x.earlier 0 es rest) x 0 = false →
     exec (.stqDataArrives c q.val) s = .next s)) ∧
  (∀ (s : State) (c : CoreId) (n : Nat), ∃ t, exec (.stabGenRetry c n) s = .next t ∧ (∀ m, m ≠ c.no → t.core m = s.core m) ∧
    { t with cores := s.cores, mem := s.mem, tasks := s.tasks, panes := s.panes } = s ∧
    (((s.core c.no).pend.filter Access.genWaits)[n]? = none → t = s) ∧
    ∀ (x : Access) (wide : Bool) (b : Nat) (hdrs : List (Word × Word)) (devs : List Byte) (blk k gen : Nat) (h : Word × Word),
      ((s.core c.no).pend.filter Access.genWaits)[n]? = some x → x.kind = .stab wide b hdrs devs blk 4 → hdrs[blk]? = some h →
      k = (x.spans.getD (blk * blockUnits wide b) (0, 0)).1 → gen = leNat (s.viewRead c.no (k + 10) 2) →
      (gen % 2 = 0 → t = ((s.stampOut (paneOf c.no) k).viewWrite c.no (k + 10) (leBytes 2 (gen + 1))).setCore c.no
        ((s.core c.no).mapPend x.id fun y => { y with kind := .stab wide b hdrs devs blk 1 }) ∧
        (s.detTask c.no = none → s.MemOk → Wrote s t (k + 10) (leBytes 2 (gen + 1)))) ∧
      (gen % 2 = 1 → t = s.setCore c.no ((s.core c.no).mapPend x.id fun y => { y with kind := .stab wide b hdrs devs blk 4 })))

namespace Sys2Proof
namespace Machine

/-- The A-side is at an ldab of nb blocks of b elements whose checks have passed, with room for its entries and nothing earlier in its
way; st is how far it is (R249, R250). -/
structure State.AtBlocks (s : State) (f : LdabF) (nb : Nat) (ds : List Piece) (st : LdabSt) : Prop where
  side   : s.cur.side = .A
  hasA   : s.Has f.a.r
  hasB   : s.Has f.b.r
  checks : s.blockChecks .read (s.val f.a.r) (s.val f.b.r) f.wide = .ok (nb, ds)
  room   : (s.me.lq[f.q.val]).ents.length + 2 ≤ 8
  quiet  : s.quiet (s.spansAt (s.pieces .read ds).1 ds) = .ok ()
  state  : st = s.me.ldabTry.getD { blk := 0, attempt := 0, bytes := [], got := [], waiting := false }

end Machine
end Sys2Proof

/-- ldab, LDAB_RETRY and QUEUE_ENTRY_DELIVERED (R57, R79, R249, R250): a block is read a dword a turn, its header, its deviations and its
header again; an odd generation, or a header that has changed, ends the attempt and makes it wait, and the fifth failure raises
ANCHOR_BUSY with the block in ELEM; that it waits in between is the model's reading (log entry 72). All blocks read fill two entries, their
headers and their deviations, zero and invalid where the header is not good. The oldest undelivered entry is
delivered once it is read, and an invalid element of it sets MV.SEEN. -/
def Obligations.BlockLoadsAndDeliveries : Prop :=
  ((∀ (s : State) (f : LdabF) (nb : Nat) (ds : List Piece) (st : LdabSt), s.AtBlocks f nb ds st → st.waiting = false → st.attempt ≠ 5 →
     st.blk = nb → ∃ (t : State) (e1 e2 : Entry), exec (.ldab f) s = .next t ∧ OnlyCoreAndTlb s.cur.core s t ∧
       t.me = { s.me with
         nextId := s.me.nextId + 2, ldabTry := none, av := s.mySide.advance 4
         lq := s.me.lq.set f.q.val { ents := (s.me.lq[f.q.val]).ents ++ [e1, e2], ctr := (t.me.lq[f.q.val]).ctr } } ∧
       e1.kind = .headers ∧ e1.n = st.got.length ∧ e1.base = s.me.lq[f.q.val].ctr ∧ e1.ready = true ∧ e1.delivered = false ∧
       e2.kind = .deviations ∧ e2.n = st.got.length * (s.val f.b.r).toNat ∧ e2.tag = (if f.wide then 0x12 else 0x11) ∧ e2.ready = true ∧
       e2.delivered = false ∧
       e1.elems = st.got.flatMap (fun g => [BitVec.ofNat 64 (leNat (g.1.take 8)), BitVec.ofNat 64 (leNat (g.1.drop 8))]) ∧
       e2.base = s.me.lq[f.q.val].ctr + BitVec.ofNat 32 ((16 * st.got.length + 511) / 512) ∧
       e2.elems = st.got.flatMap (fun g => (g.2.map fun bs => (unpackElems (if f.wide then 16 else 8) bs).map (BitVec.ofNat 64)).getD
         (List.replicate (s.val f.b.r).toNat 0)) ∧
       e2.valid = st.got.flatMap (fun g => List.replicate (s.val f.b.r).toNat g.2.isSome)) ∧
   (∀ (s : State) (f : LdabF) (nb : Nat) (ds : List Piece) (st : LdabSt) (p : Place) (w : List Byte), s.AtBlocks f nb ds st →
     st.waiting = false → st.attempt ≠ 5 → st.blk ≠ nb →
     (attemptPlaces f.wide (s.val f.b.r).toNat ((s.pieces .read ds).1.drop (st.blk * blockUnits f.wide (s.val f.b.r).toNat)))[st.bytes.length / 8 / 2]?
       = some p → s.blockWord p (st.bytes.length / 8 % 2) = .ok w →
     ∃ t, exec (.ldab f) s = .next t ∧ Becomes s t { s.me with ldabTry := some (st.turn f.wide (s.val f.b.r).toNat w) }) ∧
   (∀ (s : State) (f : LdabF) (nb : Nat) (ds : List Piece) (st : LdabSt), s.AtBlocks f nb ds st →
     (st.waiting = true → exec (.ldab f) s = .next s) ∧
     (st.waiting = false → st.attempt = 5 → s.CanTrap → ∃ t, exec (.ldab f) s = .next t ∧
       TrapTaken (s.setMe { s.me with ldabTry := none }) t 0x0D (BitVec.ofNat 64 (st.blk % 2 ^ 32)))) ∧
   (∀ (st : LdabSt) (wide : Bool) (b : Nat) (word bs : List Byte) (u : Nat), bs = st.bytes ++ word → u = blockUnits wide b →
     (bs.length = 16 → leNat ((bs.drop 10).take 2) % 2 = 1 →
       st.turn wide b word = { st with attempt := st.attempt + 1, bytes := [], waiting := true }) ∧
     (bs.length < 16 * (u + 1) → ¬ (bs.length = 16 ∧ leNat ((bs.drop 10).take 2) % 2 = 1) → st.turn wide b word = { st with bytes := bs }) ∧
     (bs.length = 16 * (u + 1) → 1 ≤ u → bs.drop (16 * u) ≠ bs.take 16 →
       st.turn wide b word = { st with attempt := st.attempt + 1, bytes := [], waiting := true }) ∧
     (bs.length = 16 * (u + 1) → 1 ≤ u → bs.drop (16 * u) = bs.take 16 →
       st.turn wide b word = { blk := st.blk + 1, attempt := 0, bytes := [], got := st.got ++ [blockRead wide b bs], waiting := false }))) ∧
  (∀ (s : State) (c : CoreId) (st : LdabSt), (s.core c.no).ldabTry = some st → ∃ t, exec (.ldabRetry c) s = .next t ∧
    CoreBecomes c.no s t { s.core c.no with ldabTry := some { st with waiting := false } }) ∧
  (∀ (s : State) (c : CoreId) (q : Fin 4) (before after : List Entry) (e : Entry), (s.core c.no).lq[q.val].ents = before ++ e :: after →
    (∀ x ∈ before, x.delivered = true) → e.delivered = false → (∀ x ∈ before ++ after, x.id ≠ e.id) →
    (e.ready = true → e.held = none → ∃ t, exec (.queueEntryDelivered c q.val) s = .next t ∧ OnlyCore c.no s t ∧
      t.core c.no = { (if e.valid.any (fun v => !v) then (s.core c.no).markMv 1 else s.core c.no) with
        lq := (s.core c.no).lq.set q.val { (s.core c.no).lq[q.val] with ents := before ++ { e with delivered := true } :: after } }) ∧
    (e.ready = false ∨ e.held.isSome = true → exec (.queueEntryDelivered c q.val) s = .next s))

namespace Sys2Proof
namespace Machine

/-- The register of strip pointer i (R257). -/
def stripReg (i : Nat) : RegNo := Fin.ofNat 32 (28 + i)

/-- The size code of strip pointer i in SPSZ (R257, R258). -/
def sizeCode (spsz i : Nat) : Nat := bits spsz (3 * i + 2) (3 * i)

/-- The widest element of the strip pointers that a mask names; 64 bits where it names none (R259). -/
def StripWidth (spsz : Nat) (mask : Fin 16) (w : Nat) : Prop :=
  ∃ m, (∀ i, i < 4 → bit mask.val i = true → [0, 8, 16, 32, 64, 4, 8, 0].getD (sizeCode spsz i) 0 ≤ m) ∧
    (m = 0 ∨ ∃ i, i < 4 ∧ bit mask.val i = true ∧ m = [0, 8, 16, 32, 64, 4, 8, 0].getD (sizeCode spsz i) 0) ∧ w = if m = 0 then 64 else m

end Machine
end Sys2Proof

/-- vsetl and spcfg (R143, R151, R257 to R259): the granted length is the least of the request and VLMAX for the widest named size,
or for 64 bits, where a member of a LONG gang takes its own part of the request; it goes to d, to VL of the A-side and to a token in the
control queue, and each named strip pointer goes on by its size, from the granted length where d is that pointer. spcfg sets the size codes
and raises ILLEGAL for the reserved code 7 or a bit above 11. -/
def Obligations.StripLengthsAreGranted : Prop :=
  (∀ (s : State) (d : RegNo) (a : SrcR) (mask : Fin 16), s.cur.side = .A → s.Has a.r → s.Has d →
    (∀ i, i < 4 → bit mask.val i = true → s.Has (stripReg i)) →
    (s.me.cq.length < 16 → ∃ (t : State) (vl w m : Nat), exec (.vsetl d a mask) s = .next t ∧ OnlyMyCore s t ∧
      StripWidth s.me.spsz mask w ∧ m = s.me.vlmax * 64 / w ∧
      vl = min (if s.isLong s.cur.core then (s.val a.r).toNat - s.me.gpos * m else (s.val a.r).toNat) m ∧
      t.me = { s.me with
        a := t.me.a, nextId := s.me.nextId + 1
        cq := s.me.cq ++ [{ id := s.me.nextId, vl := BitVec.ofNat 32 vl, w := w, base := s.me.cqCtr }]
        cqCtr := s.me.cqCtr + BitVec.ofNat 32 (groups vl w)
        av := SideSt.advance { s.mySide with vl := BitVec.ofNat 32 vl } 4 } ∧
      (∀ r, r ≠ d → (∀ i, i < 4 → bit mask.val i = true → r ≠ stripReg i) → t.me.reg .A r = s.val r) ∧
      ((∀ i, i < 4 → bit mask.val i = true → d ≠ stripReg i) → t.me.reg .A d = if d = 0 then 0 else BitVec.ofNat 64 vl) ∧
      ∀ i, i < 4 → bit mask.val i = true → t.me.reg .A (stripReg i) =
        (if d = stripReg i then BitVec.ofNat 64 vl else s.val (stripReg i)) + BitVec.ofNat 64
          ([0, vl, 2 * vl, 4 * vl, 8 * vl, (vl + 2 * ((vl + 31) / 32) + 15) / 16 * 8, (vl + (vl + 31) / 32 + 7) / 8 * 8, 0].getD
            (sizeCode s.me.spsz i) 0)) ∧
    (16 ≤ s.me.cq.length → exec (.vsetl d a mask) s = .next s)) ∧
  (∀ (s : State) (a : SrcR), s.cur.side = .A → s.Has a.r →
    ((s.val a.r).toNat < 2 ^ 12 → (∀ i, i < 4 → bits (s.val a.r).toNat (3 * i + 2) (3 * i) ≠ 7) → ∃ t, exec (.spcfg a) s = .next t ∧
      Becomes s t ({ s.me with spsz := (s.val a.r).toNat }.setSide .A (s.mySide.advance 4))) ∧
    (2 ^ 12 ≤ (s.val a.r).toNat ∨ (∃ i, i < 4 ∧ bits (s.val a.r).toNat (3 * i + 2) (3 * i) = 7) → s.CanTrap →
      ∃ t, exec (.spcfg a) s = .next t ∧ TrapTaken s t 0x01 (einfoAux 0)))

namespace Sys2Proof
namespace Machine

/-! ## Vector instructions -/

/-- X is at a vector instruction whose destination exists and can take its result (R80, R140, R323). -/
structure State.AtVector (s : State) (d : VDst) : Prop where
  side : s.cur.side = .X
  dname : s.dstName d = .ok ()
  room : s.destReady d = .ok ()

/-- X is at an instruction that writes a scalar register, or reads one, and d is full. -/
structure State.AtLaneScalar (s : State) (d : RegNo) : Prop where
  side : s.cur.side = .X
  full : s.Has d

/-- A vector source of n elements can be read and holds x. -/
structure State.Reads (s : State) (n : Nat) (a : VSrc) (x : VIn) : Prop where
  sname : s.srcName a = .ok ()
  value : s.vin n a = .ok x

/-- An element of a vector register has become what a result says, or is as before where there is none (R262). -/
def ElemWritten (w : Nat) (old new : VReg) (e : Nat) : Option ERes → Prop
  | some x => new.elems.getD e 0 = BitVec.ofNat 64 x.bits ∧ new.valid.getD e true = x.valid
  | none   => (tagW old.tag.val = w → new.elems.getD e 0 = old.elems.getD e 0) ∧ new.valid.getD e true = old.valid.getD e true

/-- The part of a result that a member of the gang holds has reached its destination (R262, R263): the core, its first element
and its count. An entry begins with what a stop found made of it (R183). -/
def PartWritten (s t : State) (d : VDst) (tag : Nat) (res : List (Option ERes)) (g : Nat × Nat × Nat) : Prop :=
  match d with
  | .reg v => ∃ r : VReg, (t.core g.1).vregs = (s.core g.1).vregs.set v.val r ∧ r.tag = Fin.ofNat 32 tag ∧
      r.mark = max ((s.core g.1).vregs[v.val]).mark g.2.2 ∧ r.bind = ((s.core g.1).vregs[v.val]).bind ∧
      (t.core g.1).sq = (s.core g.1).sq ∧
      ∀ e, ElemWritten (tagW tag) ((s.core g.1).vregs[v.val]) r e
        (if e < g.2.2 ∧ e < (s.core g.1).capW (tagW tag) then res.getD (g.2.1 + e) none else none)
  | .sq q => ∃ x : Entry, (t.core g.1).vregs = (s.core g.1).vregs ∧
      (t.core g.1).sq = (s.core g.1).sq.set q.val { ents := ((s.core g.1).sq[q.val]).ents ++ [x]
                                                    ctr := ((s.core g.1).sq[q.val]).ctr + BitVec.ofNat 32 (groups g.2.2 (tagW tag)) } ∧
      x.n = g.2.2 ∧ x.tag = Fin.ofNat 32 tag ∧ x.kind = .data ∧ x.base = ((s.core g.1).sq[q.val]).ctr ∧ x.ready = true ∧
      ∀ e, e < g.2.2 → g.2.1 + e < res.length → match (s.madeBefore g.1)[e]?, res.getD (g.2.1 + e) none with
        | some y, _      => x.elems.getD e 0 = y.1 ∧ x.valid.getD e true = y.2
        | none, some y   => x.elems.getD e 0 = BitVec.ofNat 64 y.bits ∧ x.valid.getD e true = y.valid
        | none, none     => x.elems.getD e 0 = BitVec.ofNat 64 (zeroBits tag) ∧ x.valid.getD e true = true

/-- A vector instruction of X has written its result, popped its queue and gone on; scalar registers, masks, flags and MV are for
its own statement, and everything else is as before. -/
structure VectorEffect (s t : State) (d : VDst) (tag n : Nat) (res : List (Option ERes)) (q : Option (Fin 4)) (len : Nat) : Prop where
  parts  : ∀ g ∈ s.slices (tagW tag) n, PartWritten s t d tag res g
  popped : ∀ g ∈ s.members, ∀ k : Fin 4, ((t.core g).lq[k.val]).ents =
    if q = some k then ((s.core g).lq[k.val]).ents.drop 1 else ((s.core g).lq[k.val]).ents
  side   : WentOn s t (s.mySide.spent.advance len)
  others : ∀ g ∈ s.members, t.core g = { s.core g with
    vregs := (t.core g).vregs, sq := (t.core g).sq, lq := (t.core g).lq, nextId := (t.core g).nextId, pops := (t.core g).pops
    popMark := (t.core g).popMark, masks := (t.core g).masks, fflg := (t.core g).fflg, mv := (t.core g).mv, xv := (t.core g).xv
    flight := (t.core g).flight }
  frame  : ∀ n, n ∉ s.members → t.core n = s.core n
  device : { t with cores := s.cores, undefCtr := s.undefCtr } = s

/-- The masks that a list of bits leaves: each given bit is written, every other one is as before, and m0 is never written. -/
def MaskWritten (s t : State) (m : Fin 16) (bs : List (Option Bool)) : Prop :=
  (∀ k : Fin 16, k ≠ m ∨ m = 0 → t.me.masks[k.val] = s.me.masks[k.val]) ∧
  (m ≠ 0 → ∀ e, bit (t.me.masks[m.val]) e = match bs.getD e none with
    | some b => b
    | none   => bit (s.me.masks[m.val]) e)

end Machine
end Sys2Proof

/-- Vector sources and results (R80, R85, R151, R262, R263, R213, R275): what a register source gives, in each slice of the gang, and to a
slide or permute that a stop found in flight; a move writes its result, pops its queue and goes on; another instruction also writes FFLG,
MV.SEEN and its offender mask. In a LONG gang each element stands with the member that its own width gives, which is the model's reading
(log entry 82). -/
def Obligations.VectorResultsReachTheirDestination : Prop :=
  (∀ (s : State) (v : RegNo) (n e w : Nat) (g : Nat × Nat × Nat), w = tagW (s.me.vregs[v.val]).tag.val → g ∈ s.slices w n → e < g.2.2 →
    e < (s.core g.1).capW w →
    (∀ f p, s.inFlight = some f → f.old = some p → p.1 ≠ v) →
    (s.readReg v n).bits.getD (g.2.1 + e) 0 = (((s.core g.1).vregs[v.val]).elems.getD e 0).toNat % 2 ^ w ∧
    (s.readReg v n).valid.getD (g.2.1 + e) true = ((s.core g.1).vregs[v.val]).valid.getD e true) ∧
  (∀ (s : State) (v : RegNo) (n e : Nat) (f : InFlight) (x : VReg), s.isLong s.cur.core = false → s.inFlight = some f → f.old = some (v, [x]) →
    e < n → n ≤ 2 ^ 32 → e < s.me.capW (tagW x.tag.val) →
    (s.readReg v n).tag = x.tag.val ∧ (s.readReg v n).bits.getD e 0 = (x.elems.getD e 0).toNat % 2 ^ tagW x.tag.val ∧
    (s.readReg v n).valid.getD e true = x.valid.getD e true) ∧
  (∀ (s : State) (d : VDst) (tag n : Nat) (res : List (Option ERes)) (srcs : List VIn) (q : Option (Fin 4)) (len : Nat),
    s.members.Nodup → s.cur.core ∈ s.members → s.cur.side = .X →
    VectorEffect s (s.vmovedTo d tag n res srcs q len) d tag n res q len ∧
    (s.vmovedTo d tag n res srcs q len).me.masks = s.me.masks ∧ (s.vmovedTo d tag n res srcs q len).me.fflg = s.me.fflg ∧
    (s.vmovedTo d tag n res srcs q len).me.mv = s.me.mv) ∧
  (∀ (s : State) (d : VDst) (tag n : Nat) (res : List (Option ERes)) (srcs : List VIn) (off : Option (Fin 16)) (q : Option (Fin 4))
    (len : Nat), s.members.Nodup → s.cur.core ∈ s.members → s.cur.side = .X → ∃ t : State, t = s.vdoneTo d tag n res srcs off [] q len ∧
    VectorEffect s t d tag n res q len ∧
    (t.me.fflg = res.foldl (fun (f : Nat) r => f ||| (r.map fun x => x.flags).getD 0) s.me.fflg) ∧
    t.me.mv = (if res.any (fun r => (r.map fun x => !x.valid).getD false) then s.me.mv ||| 1 else s.me.mv) ∧
    (off = none → t.me.masks = s.me.masks) ∧
    ∀ m, off = some m → MaskWritten s t m (res.map fun r => r.map fun x => x.off))

namespace Sys2Proof
namespace Machine

/-- The VLMAX that a shape gives a core by its VLCAP and its lane groups (R141). -/
def ShapeMax (shape : Nat) (c : Core) (m : Nat) : Prop :=
  ∃ h, h = ((List.range 8).filter fun i => c.lanes.getLsbD i).length ∧ (h = 0 → m = 0) ∧
    (1 ≤ h → ∃ k, m = min (min shape c.vlcap) (2 ^ k) ∧ 2 ^ k ≤ shape * h / 8 ∧ shape * h / 8 < 2 ^ (k + 1))

end Machine
end Sys2Proof

/-- vcfg, vtag, vsetlx and vgetl (R140 to R143, R149, R151, R265): the shape and VLMAX of every member, which is the least that any of the
gang has for it, with the registers cleared; the tag of a register, its bits read anew; the X-side VL granted without a token, or popped
from the control queue of every member, and the traps of a reserved code, of a token above VLMAX and of tokens that leave a gap. The order
of the elements in a lane, which a tag of another width shows, is the model's reading (log entry 6). -/
def Obligations.VectorShapesTagsAndLengths : Prop :=
  (∀ (s : State) (code : Fin 4) (shape : Nat), s.cur.side = .X → s.me.crecvs = [] → s.members.Nodup → s.cur.core ∈ s.members →
    shape = 16384 / (4 * 2 ^ code.val) →
    ∃ (t : State) (m : Nat), exec (.vcfg code) s = .next t ∧ (∀ n, n ∉ s.members → t.core n = s.core n) ∧ { t with cores := s.cores } = s ∧
      WentOn s t (s.mySide.spent.advance 4) ∧
      (∃ g, (g = s.cur.core ∨ g ∈ s.gang s.cur.core) ∧ ShapeMax shape (s.core g) m) ∧
      (∀ g k, g = s.cur.core ∨ g ∈ s.gang s.cur.core → ShapeMax shape (s.core g) k → m ≤ k) ∧
      ∀ g ∈ s.members, t.core g = { s.core g with
        vnreg := 4 * 2 ^ code.val, vlmax := m, vregs := Vector.replicate 32 VReg.reset, lqBind := Vector.replicate 4 .none
        xv := (t.core g).xv, flight := (t.core g).flight }) ∧
  (∀ (s : State) (d : RegNo) (tag : Fin 32), s.cur.side = .X → d.val < s.me.vnreg → s.me.awaits (.reg d) = false →
    (tagOk tag.val = true → s.members.Nodup → s.cur.core ∈ s.members →
      ∃ t : State, exec (.vtag d tag) s = .next t ∧ (∀ n, n ∉ s.members → t.core n = s.core n) ∧ { t with cores := s.cores } = s ∧
        WentOn s t (s.mySide.spent.advance 4) ∧
        ∀ g ∈ s.members, ∃ v r : VReg, v = (s.core g).vregs[d.val] ∧
          t.core g = { s.core g with vregs := (s.core g).vregs.set d.val r, xv := (t.core g).xv, flight := (t.core g).flight } ∧
          r.tag = tag ∧ r.mark = v.mark ∧ r.valid = v.valid ∧ r.bind = v.bind ∧
          r.vers = (if isCx tag.val then (s.core g).cbVers else v.vers) ∧ (tagW v.tag.val = tagW tag.val → r.elems = v.elems) ∧
          (tagW v.tag.val ≠ 0 → ∀ k, (packLanes (tagW tag.val) r.elems).getD k 0 = (packLanes (tagW v.tag.val) v.elems).getD k 0)) ∧
    (tag.val = 0 ∨ 0x12 < tag.val → s.CanTrap → ∃ t, exec (.vtag d tag) s = .next t ∧ TrapTaken s t 0x05 (einfoAux 0))) ∧
  (∀ (s : State) (d a : RegNo) (w : Fin 32), s.cur.side = .X →
    (1 ≤ w.val → w.val ≤ 5 → s.Has a → s.Has d → ∃ (t : State) (vl : Nat), exec (.vsetlx d a w) s = .next t ∧
      vl = min (s.val a).toNat (s.members.length * (s.me.vlmax * 64 / [0, 8, 16, 32, 64, 4].getD w.val 0)) ∧
      Becomes s t ((s.me.putReg .X d (BitVec.ofNat 64 vl)).wentOn .X
        ((SideSt.spent { s.mySide with vl := BitVec.ofNat 32 vl }).advance 4))) ∧
    (w.val = 0 ∨ 5 < w.val → s.CanTrap → ∃ t, exec (.vsetlx d a w) s = .next t ∧ TrapTaken s t 0x01 (einfoAux 0))) ∧
  (∀ (s : State) (d : RegNo) (ks : List Token) (w vl : Nat), s.cur.side = .X → s.Has d → s.members.Nodup → s.cur.core ∈ s.members →
    s.members.map (fun g => (s.core g).cq.head?) = ks.map some → w = (ks.head?.map fun k => k.w).getD 64 →
    vl = (ks.map fun k => k.vl.toNat).foldl (· + ·) 0 → (∀ g ∈ s.members, ∀ k, (s.core g).cq.head? = some k → s.mayRetract g k.id = false) →
    ((∀ k ∈ ks, k.vl.toNat ≤ s.me.vlmax * 64 / w) → isPrefix (s.sliceLen w) (ks.map fun k => k.vl.toNat) = true →
      ∃ t, exec (.vgetl d) s = .next t ∧ (∀ n, n ∉ s.members → t.core n = s.core n) ∧ { t with cores := s.cores } = s ∧
        WentOn s t ((SideSt.spent { s.mySide with vl := BitVec.ofNat 32 vl }).advance 4) ∧
        t.me.reg .X d = (if d = 0 then 0 else BitVec.ofNat 64 vl) ∧ (∀ r, r ≠ d → t.me.rawReg .X r = s.me.rawReg .X r) ∧
        ∀ g ∈ s.members, t.core g = { s.core g with
          cq := (s.core g).cq.drop 1, pops := (t.core g).pops, popMark := (t.core g).popMark
          s := if g = s.cur.core then (t.core g).s else (s.core g).s, xv := (t.core g).xv, flight := (t.core g).flight }) ∧
    ((∀ k ∈ ks, k.vl.toNat ≤ s.me.vlmax * 64 / w) → isPrefix (s.sliceLen w) (ks.map fun k => k.vl.toNat) = false → s.CanTrap →
      ∃ t, exec (.vgetl d) s = .next t ∧ TrapTaken s t 0x06 (einfoAux (vl % 2 ^ 28))) ∧
    ∀ before k after, ks = before ++ k :: after → (∀ j ∈ before, j.vl.toNat ≤ s.me.vlmax * 64 / w) → s.me.vlmax * 64 / w < k.vl.toNat →
      s.CanTrap → ∃ t, exec (.vgetl d) s = .next t ∧ TrapTaken s t 0x06 (einfoAux (k.vl.toNat % 2 ^ 28))) ∧
  (∀ (s : State) (d : RegNo) (g : Nat), s.cur.side = .X → s.Has d → g ∈ s.members → (s.core g).cq = [] → exec (.vgetl d) s = .next s)

/-- mand, mor, mxor, mnot, mpop and mfirst (R274, R7): the mask bits below the X-side VL, m0 reading as ones and never written, and the
count and the first of the set bits. -/
def Obligations.MasksAreCombinedAndCounted : Prop :=
  (∀ (s : State) (d a b : Fin 16), s.cur.side = .X →
    ∀ p ∈ [(Instr.mand d a b, fun x y => x && y), (.mor d a b, fun x y => x || y), (.mxor d a b, fun x y => x != y),
        (.mnot d a, fun x _ => !x)],
      ∃ t, exec p.1 s = .next t ∧ OnlyMyCore s t ∧
        t.me = { s.me with masks := t.me.masks }.wentOn .X (s.mySide.spent.advance 4) ∧
        MaskWritten s t d ((List.range s.vl).map fun e => some (p.2 (s.me.maskBit a e) (s.me.maskBit b e)))) ∧
  (∀ (s : State) (d : RegNo) (a : Fin 16), s.AtLaneScalar d →
    (∃ (t : State) (v : Word), exec (.mpop d a) s = .next t ∧ LaneEffect s t d v 4 ∧
      v = BitVec.ofNat 64 ((List.range s.vl).filter fun e => s.me.maskBit a e).length) ∧
    ∃ (t : State) (v : Word), exec (.mfirst d a) s = .next t ∧ LaneEffect s t d v 4 ∧
      ((∀ e, e < s.vl → s.me.maskBit a e = false) → v = BitVec.allOnes 64) ∧
      ∀ e, e < s.vl → s.me.maskBit a e = true → (∀ k, k < e → s.me.maskBit a k = false) → v.toNat = e)

namespace Sys2Proof
namespace Machine

/-- An element below n is active under a predicate (R222, R194). -/
def State.isActive (s : State) (p : Pred) (e : Nat) : Bool := s.performs e && s.me.maskBit p.m e != p.pn

/-- A source read whole: its lists have the length of the instruction. -/
structure State.ReadsAll (s : State) (n : Nat) (a : VSrc) (x : VIn) : Prop extends s.Reads n a x where
  bits  : x.bits.length = n
  valid : x.valid.length = n

/-- Element e of a source with its validity. -/
def VIn.elem (x : VIn) (e : Nat) : Nat × Bool := (x.bits.getD e 0, x.valid.getD e true)

/-- Element e of an instruction's result, where it is written, or nothing. -/
def Elem (res : List (Option ERes)) (e : Nat) (x : Option (Nat × Bool)) : Prop :=
  res.getD e none = x.map fun y => ERes.plain y.1 y.2

/-- A move from the state u completes: its n elements are those that elem gives, without a flag. -/
def MovesFrom (i : Instr) (s u : State) (d : VDst) (tag n : Nat) (srcs : List VIn) (q : Option (Fin 4)) (len : Nat)
    (elem : Nat → Option (Nat × Bool)) : Prop :=
  ∃ res : List (Option ERes), exec i s = .next (u.vmovedTo d tag n res srcs q len) ∧ ∀ e, e < n → Elem res e (elem e)

/-- A move completes. -/
def MoveDoes (i : Instr) (s : State) (d : VDst) (tag n : Nat) (srcs : List VIn) (q : Option (Fin 4)) (len : Nat)
    (elem : Nat → Option (Nat × Bool)) : Prop := MovesFrom i s s d tag n srcs q len elem

/-- A move inside the slices of the gang completes: pick gives, for a slice of a first element and a count, the source element at
the same slice that a local index receives. -/
def SliceMoves (i : Instr) (s u : State) (d : VDst) (x : VIn) (n : Nat) (p : Pred) (q : Option (Fin 4)) (len : Nat)
    (pick : Nat → Nat → Nat → Option (Nat × Bool)) : Prop :=
  ∃ res : List (Option ERes), exec i s = .next (u.vmovedTo d x.tag n res [x] q len) ∧
    ∀ g ∈ s.slices (tagW x.tag) n, ∀ e, e < g.2.2 →
      Elem res (g.2.1 + e) (if s.isActive p (g.2.1 + e) then pick g.2.1 g.2.2 e else none)

end Machine
end Sys2Proof

/-- vmv, vbc, vid, vsel, vslup, vsldn, vperm, vxchg, vexpand and vcompress (R222, R266, R273, R275 to R277): the element that each
element of the result receives; an invalid index of vperm gives zero with validity 0 and sets MV.SEEN; a compress or an expand that a stop
found in flight goes on at the count that RSTATE holds. -/
def Obligations.VectorMovesPlaceTheirElements : Prop :=
  (∀ (s : State) (f : V1P) (n : Nat) (x : VIn), s.AtVector f.d → s.vlen f.a.queue = .ok n → s.ReadsAll n f.a x →
    MoveDoes (.vmv f) s f.d x.tag n [x] f.a.queue 4 (fun e => if s.isActive f.p e then some (x.elem e) else none)) ∧
  (∀ (s : State) (d : VDst) (b : RegNo) (p : Pred) (ext : Option (Fin 32)) (t : Nat), s.AtVector d → s.Has b →
    t = ((ext.map fun g => if g = 0 then tI64 else g.val).getD tI64) → tagOk t = true → isCx t = false →
    MoveDoes (.vbc d b p ext) s d t s.vl [] none (lenOf ext)
      (fun e => if s.isActive p e then some ((s.val b).toNat % 2 ^ tagW t, true) else none)) ∧
  (∀ (s : State) (d : VDst) (ext : Option (Fin 32)) (t : Nat), s.AtVector d →
    t = ((ext.map fun g => if g = 0 then tN32 else g.val).getD tN32) → isInt t = true →
    MoveDoes (.vid d ext) s d t s.vl [] none (lenOf ext) (fun e => some (e % 2 ^ tagW t, true))) ∧
  (∀ (s : State) (f : V2P) (n : Nat) (x y : VIn), s.AtVector f.d → s.vlen (pickQ f.a.queue f.b.queue) = .ok n →
    s.ReadsAll n f.a x → s.ReadsAll n f.b y → x.tag = y.tag →
    MoveDoes (.vsel f) s f.d x.tag n [x, y] (pickQ f.a.queue f.b.queue) 4
      (fun e => if s.performs e = false then none else some (if s.isActive f.p e then x.elem e else y.elem e))) ∧
  (∀ (s : State) (f : SlideF) (n : Nat) (k : Word) (x : VIn), s.AtVector f.d → s.vidxZ f.k = .ok k → s.vlen f.a.queue = .ok n →
    s.ReadsAll n f.a x →
    SliceMoves (.vslup f) s s f.d x n f.p f.a.queue f.k.len
      (fun first _ e => if k.toNat ≤ e then some (x.elem (first + (e - k.toNat))) else none) ∧
    SliceMoves (.vsldn f) s s f.d x n f.p f.a.queue f.k.len
      (fun first m e => if e + k.toNat < m then some (x.elem (first + (e + k.toNat))) else some (zeroBits x.tag, true))) ∧
  (∀ (s : State) (f : V2P) (n : Nat) (x y : VIn), s.AtVector f.d → s.vlen (pickQ f.a.queue f.b.queue) = .ok n →
    s.ReadsAll n f.a x → s.ReadsAll n f.b y → isInt y.tag = true →
    SliceMoves (.vperm f) s (if (List.range n).any (fun e => s.isActive f.p e && !y.valid.getD e true) then s.setMe s.me.seen else s)
      f.d x n f.p (pickQ f.a.queue f.b.queue) 4 (fun first m e =>
        let i := (valueOf y.tag (y.bits.getD (first + e) 0)).toInt
        if y.valid.getD (first + e) true = false then some (zeroBits x.tag, false)
        else if 0 ≤ i ∧ i < (m : Int) then some (x.elem (first + i.toNat)) else some (zeroBits x.tag, true))) ∧
  (∀ (s : State) (f : VxchgF) (n : Nat) (k : Word) (x : VIn), s.AtVector f.d → s.isLong s.cur.core = true ∨ s.me.gsize ≤ 1 →
    s.vidxZ f.k = .ok k → s.vlen f.a.queue = .ok n → s.ReadsAll n f.a x →
    ∃ res : List (Option ERes), exec (.vxchg f) s = .next (s.vmovedTo f.d x.tag n res [x] f.a.queue f.k.len) ∧
      ∀ i g, (s.slices (tagW x.tag) n)[i]? = some g → ∀ e, e < g.2.2 → ∃ p : Nat,
        p = (if s.members.length ≤ 1 then 0 else if f.rot then (i + k.toNat) % s.members.length else i ^^^ k.toNat) ∧
        Elem res (g.2.1 + e) (match (s.slices (tagW x.tag) n)[p]? with
          | none   => none
          | some h => if s.isActive f.p (g.2.1 + e) = true ∧ e < h.2.2 then some (x.elem (h.2.1 + e)) else none)) ∧
  (∀ (s : State) (d : RegNo) (a : VSrc) (p : Pred) (n : Nat) (x : VIn), s.AtVector (.reg d) → s.members.length ≤ 1 →
    s.vlen a.queue = .ok n → s.ReadsAll n a x →
    MoveDoes (.vexpand d a p) s (.reg d) x.tag n [x] a.queue 4 (fun e =>
      if s.isActive p e then some (x.elem (s.packedAt n + ((List.range e).filter fun k => s.isActive p k).length)) else none) ∧
    ∃ (es : List Nat) (t : State), es = (List.range n).filter (fun e => s.isActive p e) ∧
      t = s.vmovedTo (.reg d) x.tag (s.packedAt n + es.length) (List.replicate (s.packedAt n) none ++
        es.map fun e => some (ERes.plain (x.elem e).1 (x.elem e).2)) [x] a.queue 4 ∧
      exec (.vcompress d a p) s = .next (t.setMySide { t.mySide with vl := BitVec.ofNat 32 (s.packedAt n + es.length) })) ∧
  ∀ (s : State) (n : Nat), (s.resumeAt = 0 → s.packedAt n = 0) ∧ (s.resumeAt ≠ 0 → s.resumeVal.toNat ≤ s.resumeAt → s.resumeAt ≤ n →
    s.packedAt n = s.resumeVal.toNat)

namespace Sys2Proof
namespace Machine

/-- An entry of a spill frame's bytes (R267). -/
structure SpillPiece (x : Entry) (bs : List Byte) : Prop where
  kind  : x.kind = .spill
  tag   : x.tag.val = tN8
  n     : x.n = bs.length
  elems : x.elems = bs.map fun b => b.zeroExtend 64
  ready : x.ready = true

/-- The bytes are the spill frame of a register with n elements (R73), of which those below cap exist. -/
structure IsFrame (v : VReg) (n cap : Nat) (bs : List Byte) : Prop where
  size  : bs.length = 16 + ceilDiv (n * tagW v.tag.val) 128 * 16 + ceilDiv n 128 * 16
  vl    : leNat (bs.take 4) = n
  hwm   : leNat ((bs.drop 4).take 4) = v.mark
  tag   : bs[8]? = some (BitVec.ofNat 8 v.tag.val)
  zero  : (bs.drop 9).take 7 = List.replicate 7 0
  elems : ∀ e w, e < n → e < cap → tagW v.tag.val = w → 8 ≤ w → leNat ((bs.drop (16 + e * w / 8)).take (w / 8)) = (v.elems.getD e 0).toNat % 2 ^ w
  half  : ∀ e, e < n → e < cap → tagW v.tag.val = 4 →
    (bs.getD (16 + e / 2) 0).toNat / 16 ^ (e % 2) % 16 = (v.elems.getD e 0).toNat % 16
  valid : ∀ e, e < n → e < cap →
    (bs.getD (16 + ceilDiv (n * tagW v.tag.val) 128 * 16 + e / 8) 0).getLsbD (e % 8) = v.valid.getD e true

end Machine
end Sys2Proof

/-- vpush, vpush.h, vappend, vmv.h, vext and vins (R34, R73, R75, R151, R263, R266, R267, R277), on every member of the gang that X drives:
the entries that each pushes, the register that a frame restores, and one element of a register read or written. -/
def Obligations.PushesSpillsAndSingleElements : Prop :=
  (∀ (s : State) (q : Fin 2) (a : RegNo), s.cur.side = .X → a.val < s.me.vnreg → s.me.awaits (.reg a) = false →
    (tagOk (s.me.vregs[a.val]).tag.val = true → s.sqRoom q 1 = .ok () → s.members.Nodup → s.cur.core ∈ s.members →
      ∃ t, exec (.vpush q a) s = .next t ∧ WentOn s t (s.mySide.spent.advance 4) ∧ (∀ n, n ∉ s.members → t.core n = s.core n) ∧
        { t with cores := s.cores } = s ∧
        ∀ g ∈ s.members, ∃ x : Entry, t.core g = { s.core g with
            nextId := (s.core g).nextId + 1, xv := (t.core g).xv, flight := (t.core g).flight
            sq := (s.core g).sq.set q.val { ents := ((s.core g).sq[q.val]).ents ++ [x], ctr := ((t.core g).sq[q.val]).ctr } } ∧
          x.n = ((s.core g).vregs[a.val]).mark ∧ x.tag = ((s.core g).vregs[a.val]).tag ∧ x.kind = .data ∧ x.ready = true ∧
          ∀ e, e < x.n → x.elems.getD e 0 = ((s.core g).vregs[a.val]).elems.getD e 0 ∧
            x.valid.getD e true = ((s.core g).vregs[a.val]).valid.getD e true) ∧
    (tagOk (s.me.vregs[a.val]).tag.val = false → s.CanTrap → ∃ t, exec (.vpush q a) s = .next t ∧ TrapTaken s t 0x05 (einfoAux 0))) ∧
  (∀ (s : State) (q : Fin 2) (a : RegNo), s.cur.side = .X → a.val < s.me.vnreg → s.me.awaits (.reg a) = false →
    (tagOk (s.me.vregs[a.val]).tag.val = true ∨ s.vl = 0 → s.sqRoom q 2 = .ok () → s.members.Nodup → s.cur.core ∈ s.members →
      ∃ t, exec (.vpushH q a) s = .next t ∧ WentOn s t (s.mySide.spent.advance 4) ∧ (∀ n, n ∉ s.members → t.core n = s.core n) ∧
        { t with cores := s.cores, undefCtr := s.undefCtr } = s ∧
        ∀ g ∈ s.slices (tagW (s.me.vregs[a.val]).tag.val) s.vl, ∃ (b : List Byte) (x y : Entry), t.core g.1 = { s.core g.1 with
            nextId := (s.core g.1).nextId + 2, xv := (t.core g.1).xv, flight := (t.core g.1).flight
            sq := (s.core g.1).sq.set q.val { ents := ((s.core g.1).sq[q.val]).ents ++ [x, y], ctr := ((t.core g.1).sq[q.val]).ctr } } ∧
          (((s.core g.1).vregs[a.val]).mark < 2 ^ 32 → ((s.core g.1).vregs[a.val]).tag = (s.me.vregs[a.val]).tag →
            IsFrame ((s.core g.1).vregs[a.val]) g.2.2 ((s.core g.1).capW (tagW (s.me.vregs[a.val]).tag.val)) b) ∧
          SpillPiece x (b.take (8 * (s.core g.1).vlmax)) ∧ SpillPiece y (b.drop (8 * (s.core g.1).vlmax))) ∧
    (tagOk (s.me.vregs[a.val]).tag.val = false → s.vl ≠ 0 → s.CanTrap →
      ∃ t, exec (.vpushH q a) s = .next t ∧ TrapTaken s t 0x05 (einfoAux 0))) ∧
  (∀ (s : State) (q : Fin 2) (a : RegNo) (p : Pred) (x : VIn), s.cur.side = .X → s.Reads s.vl (.reg a) x → s.sqRoom q 1 = .ok () →
    s.members.Nodup → s.cur.core ∈ s.members →
    ∃ t : State, exec (.vappend q a p) s = .next t ∧ WentOn s t (s.mySide.spent.advance 4) ∧ (∀ n, n ∉ s.members → t.core n = s.core n) ∧
      { t with cores := s.cores, undefCtr := s.undefCtr } = s ∧
      ∀ g ∈ s.slices (tagW x.tag) s.vl, ∃ (y : Entry) (es : List Nat) (made : List (Word × Bool)), made = s.madeBefore g.1 ∧ t.core g.1 = { s.core g.1 with
          nextId := (s.core g.1).nextId + 1, xv := (t.core g.1).xv, flight := (t.core g.1).flight
          sq := (s.core g.1).sq.set q.val { ents := ((s.core g.1).sq[q.val]).ents ++ [y], ctr := ((t.core g.1).sq[q.val]).ctr } } ∧
        es = ((List.range g.2.2).filter fun e => s.isActive p (g.2.1 + e)) ∧ y.tag = Fin.ofNat 32 x.tag ∧ y.kind = .data ∧ y.n = made.length + es.length ∧
        y.elems = made.map (fun p => p.1) ++ (es.map fun e => BitVec.ofNat 64 (x.elem (g.2.1 + e)).1) ∧
        y.valid = made.map (fun p => p.2) ++ (es.map fun e => (x.elem (g.2.1 + e)).2)) ∧
  (∀ (s : State) (d : RegNo) (q : Fin 4) (x y : Nat → Entry) (es : Nat → List Entry) (b : Nat → List Byte) (v : Nat → VReg) (n : Nat → Nat),
    s.cur.side = .X → d.val < s.me.vnreg → s.me.awaits (.reg d) = false → s.members.Nodup → s.cur.core ∈ s.members →
    (∀ g ∈ s.members, ((s.core g).lq[q.val]).ents = x g :: y g :: es g ∧ (x g).delivered = true ∧ (y g).delivered = true ∧
      s.mayRetract g (x g).id = false ∧ s.mayRetract g (y g).id = false ∧
      (tagW (x g).tag.val = 0 ∨ (x g).n ≤ (s.core g).vlMaxW (tagW (x g).tag.val)) ∧
      (tagW (y g).tag.val = 0 ∨ (y g).n ≤ (s.core g).vlMaxW (tagW (y g).tag.val)) ∧
      b g <+: entryBytes (x g) false ++ entryBytes (y g) false ∧ IsFrame (v g) (n g) (n g) (b g) ∧ tagOk (v g).tag.val = true ∧
      n g ≤ (s.core g).vlMaxW (tagW (v g).tag.val)) →
    ∃ t : State, exec (.vmvH d q) s = .next t ∧ WentOn s t (s.mySide.spent.advance 4) ∧ (∀ n, n ∉ s.members → t.core n = s.core n) ∧
      { t with cores := s.cores, undefCtr := s.undefCtr } = s ∧
      ∀ g ∈ s.members, ∃ r : VReg, t.core g = { s.core g with
          vregs := (s.core g).vregs.set d.val r, lq := (s.core g).lq.set q.val { (s.core g).lq[q.val] with ents := es g }
          pops := (t.core g).pops, popMark := (t.core g).popMark, xv := (t.core g).xv, flight := (t.core g).flight } ∧
        r.tag = (v g).tag ∧ r.mark = min (v g).mark (n g) ∧ r.bind = ((s.core g).vregs[d.val]).bind ∧
        ∀ e, e < n g → (r.elems.getD e 0).toNat = ((v g).elems.getD e 0).toNat % 2 ^ tagW (v g).tag.val ∧
          r.valid.getD e true = (v g).valid.getD e true) ∧
  (∀ (s : State) (d : RegNo) (a : VSrc) (i : VIdx) (k : Word) (n : Nat) (x : VIn), s.AtLaneScalar d → s.srcName a = .ok () →
    s.vidxZ i = .ok k → s.vlen a.queue = .ok n →
    s.vraw (match a with
      | .reg _ => min (k.toNat + 1) (2 ^ 20)
      | .lq _  => n) a = .ok x →
    tagOk x.tag = true →
    (k.toNat < s.members.length * s.me.vlMaxW (tagW x.tag) → ∃ v : Word,
      exec (.vext d a i) s = .next (((({ s with undefCtr := s.undefCtr + 1 } : State).put d v).popLq a.queue).retireV i.len) ∧
      (k.toNat < x.bits.length → x.bits.getD k.toNat 0 < 2 ^ tagW x.tag →
        (isSigned x.tag = true ∨ isDv x.tag = true → v.toInt = signedOf (tagW x.tag) (x.bits.getD k.toNat 0)) ∧
        (isSigned x.tag = false → isDv x.tag = false → v.toNat = x.bits.getD k.toNat 0))) ∧
    (s.members.length * s.me.vlMaxW (tagW x.tag) ≤ k.toNat → s.CanTrap →
      ∃ t, exec (.vext d a i) s = .next t ∧ TrapTaken s t 0x06 (einfoAux (k.toNat % 2 ^ 28)))) ∧
  (∀ (s : State) (d a : RegNo) (i : VIdx) (k : Word) (w : Nat), s.cur.side = .X → d.val < s.me.vnreg →
    s.me.awaits (.reg d) = false → s.Has a → s.vidxZ i = .ok k → tagOk (s.me.vregs[d.val]).tag.val = true →
    w = tagW (s.me.vregs[d.val]).tag.val →
    (k.toNat < s.members.length * s.me.vlMaxW w → ∃ (t : State) (g e : Nat) (v r : VReg), exec (.vins d a i) s = .next t ∧
      g = s.members.getD (k.toNat / s.sliceLen w) s.cur.core ∧ e = k.toNat % s.sliceLen w ∧ v = (s.core g).vregs[d.val] ∧
      WentOn s t (s.mySide.spent.advance i.len) ∧ { t with cores := s.cores } = s ∧ (∀ n, n ≠ g → n ≠ s.cur.core → t.core n = s.core n) ∧
      t.core g = { s.core g with vregs := (s.core g).vregs.set d.val r, xv := (t.core g).xv, flight := (t.core g).flight } ∧
      (g ≠ s.cur.core → t.me = { s.me with xv := t.me.xv, flight := t.me.flight }) ∧
      r.tag = (s.me.vregs[d.val]).tag ∧ r.mark = max v.mark (e + 1) ∧
      (r.elems.getD e 0).toNat = (s.val a).toNat % 2 ^ w ∧ r.valid.getD e true = true ∧
      (v.tag = (s.me.vregs[d.val]).tag → ∀ j, j ≠ e → r.elems.getD j 0 = v.elems.getD j 0 ∧ r.valid.getD j true = v.valid.getD j true)) ∧
    (s.members.length * s.me.vlMaxW w ≤ k.toNat → s.CanTrap →
      ∃ t, exec (.vins d a i) s = .next t ∧ TrapTaken s t 0x06 (einfoAux (k.toNat % 2 ^ 28))))

namespace Sys2Proof
namespace Machine

/-- An extended form that names no result tag and does not saturate, or the short form. -/
def PlainForm (x : Option ArithX) : Prop := x = none ∨ ∃ e, x = some e ∧ e.tg = 0 ∧ e.sat = false

/-- The sources of a two-source instruction are integers of one tag. -/
structure State.IntSources (s : State) (f : V2F) (n : Nat) (x y : VIn) : Prop extends s.AtVector f.d, s.ReadsAll n f.a x where
  nameB  : s.srcNameB f.b = .ok ()
  len    : s.vlen (pickQ f.a.queue f.b.queue) = .ok n
  valueB : s.vinB n (s.active f.p n) x.tag f.b = .ok (y, [])
  bitsB  : y.bits.length = n
  validB : y.valid.length = n
  tags   : y.tag = x.tag
  int    : isInt x.tag = true
  small  : ∀ e, e < n → x.bits.getD e 0 < 2 ^ tagW x.tag ∧ y.bits.getD e 0 < 2 ^ tagW x.tag
  plain  : PlainForm f.ext

/-- The signed or unsigned value of an element (R36). -/
def intOf (tag x : Nat) : Int := if isSigned tag then signedOf (tagW tag) x else x

/-- An element-wise instruction completes: an inactive element has no result, an active one with an invalid source gives zero with
validity 0, and one with valid sources what op says, without a flag (R47, R262). -/
def ElementWise (i : Instr) (s : State) (d : VDst) (p : Pred) (tag n : Nat) (srcs : List VIn) (valid : Nat → Bool) (q : Option (Fin 4))
    (len : Nat) (op : Nat → Nat → Prop) : Prop :=
  ∃ res : List (Option ERes), exec i s = .next (s.vdoneTo d tag n res srcs none [] q len) ∧ res.length = n ∧
    ∀ e, e < n →
      (s.isActive p e = false → res.getD e none = none) ∧
      (s.isActive p e = true → valid e = false → res.getD e none = some (ERes.plain 0 false)) ∧
      (s.isActive p e = true → valid e = true → ∃ v, res.getD e none = some (ERes.plain v true) ∧ op e v)

/-- The sources of a two-source instruction, for the codebook versions that its result carries into a store queue (R263). -/
def State.carriedBy (s : State) (f : V2F) (n : Nat) : List VIn := s.carried n (vsrcB f.a) ++ s.carried n f.b

/-- A two-source instruction on integers of one tag. -/
def IntDoes (mk : V2F → Instr) (pre : State → V2F → Nat → VIn → VIn → Prop) (op : Nat → Nat → Nat → Nat → Prop) : Prop :=
  ∀ (s : State) (f : V2F) (n : Nat) (x y : VIn), s.IntSources f n x y → pre s f n x y →
    ElementWise (mk f) s f.d f.p x.tag n (s.carriedBy f n) (fun e => x.valid.getD e true && y.valid.getD e true) (pickQ f.a.queue f.b.queue)
      (lenOf f.ext) (fun e v => op x.tag (x.bits.getD e 0) (y.bits.getD e 0) v)

def always (_ : State) (_ : V2F) (_ : Nat) (_ _ : VIn) : Prop := True

/-- The shift count of an element: the scalar, or the element of b as a signed or unsigned value (R270). -/
def State.shiftCount (s : State) (f : V2F) (y : VIn) (e : Nat) : Int :=
  match f.b with
  | .scal r => (s.val r).toInt
  | .reg _  => intOf y.tag (y.bits.getD e 0)
  | .lq _   => intOf y.tag (y.bits.getD e 0)

/-- A shift on integers of one tag: op gives the result for a count from 0 to w − 1, and out the one for any other count. -/
def ShiftDoes (mk : V2F → Instr) (op : Nat → Nat → Nat → Nat → Prop) (out : Nat → Nat → Nat → Prop) : Prop :=
  ∀ (s : State) (f : V2F) (n : Nat) (x y : VIn), s.IntSources f n x y →
    ElementWise (mk f) s f.d f.p x.tag n (s.carriedBy f n) (fun e => x.valid.getD e true && y.valid.getD e true) (pickQ f.a.queue f.b.queue)
      (lenOf f.ext) (fun e v =>
        (0 ≤ s.shiftCount f y e ∧ s.shiftCount f y e < tagW x.tag →
          op x.tag (x.bits.getD e 0) (s.shiftCount f y e).toNat v) ∧
        (¬ (0 ≤ s.shiftCount f y e ∧ s.shiftCount f y e < tagW x.tag) → out x.tag (x.bits.getD e 0) v))

/-- A one-source instruction on one tag. -/
def OneDoes (mk : V1F → Instr) (dom : Nat → Prop) (op : Nat → Nat → Nat → Prop) : Prop :=
  ∀ (s : State) (f : V1F) (n : Nat) (x : VIn), s.AtVector f.d → s.vlen f.a.queue = .ok n → s.ReadsAll n f.a x → dom x.tag →
    PlainForm f.ext → (∀ e, e < n → x.bits.getD e 0 < 2 ^ tagW x.tag) →
    ElementWise (mk f) s f.d f.p x.tag n (s.carried n (vsrcB f.a)) (fun e => x.valid.getD e true) f.a.queue (lenOf f.ext) (fun e v => op x.tag (x.bits.getD e 0) v)

end Machine
end Sys2Proof

/-- Majors 0x1F and 0x20 on integers of one tag (R36, R47, R268, R270): the value of every element of vadd, vsub, vmul, vmulh, vfma, vdiv,
vmin, vmax, vabs, vneg, vand, vor, vxor, vnot, vshl, vshr and vsar, and the sign bit alone that vabs and vneg change in floats. That vsar
of n tags copies the top bit is the model's reading (log entry 47). -/
def Obligations.VectorIntegerArithmetic : Prop :=
  IntDoes .vadd always (fun t x y v => v = (x + y) % 2 ^ tagW t) ∧
  IntDoes .vsub always (fun t x y v => v = (x + 2 ^ tagW t - y) % 2 ^ tagW t) ∧
  IntDoes .vmul always (fun t x y v => v = x * y % 2 ^ tagW t) ∧
  IntDoes .vmulh always (fun t x y v => v < 2 ^ tagW t ∧
    ((v : Int) - intOf t x * intOf t y / 2 ^ tagW t) % 2 ^ tagW t = 0) ∧
  IntDoes .vmin always (fun t x y v => v < 2 ^ tagW t ∧ intOf t v = min (intOf t x) (intOf t y)) ∧
  IntDoes .vmax always (fun t x y v => v < 2 ^ tagW t ∧ intOf t v = max (intOf t x) (intOf t y)) ∧
  IntDoes .vand always (fun _ x y v => v = x &&& y) ∧
  IntDoes .vor always (fun _ x y v => v = x ||| y) ∧
  IntDoes .vxor always (fun _ x y v => v = x ^^^ y) ∧
  IntDoes .vdiv (fun s f n x y => bit s.me.fctl 2 = false ∨
      ∀ e, e < n → s.isActive f.p e = true → x.valid.getD e true = true → y.valid.getD e true = true → y.bits.getD e 0 ≠ 0)
    (fun t x y v => v < 2 ^ tagW t ∧ (y = 0 → v = 2 ^ tagW t - 1) ∧
      (y ≠ 0 → ((v : Int) - Int.tdiv (intOf t x) (intOf t y)) % 2 ^ tagW t = 0)) ∧
  ShiftDoes .vshl (fun t x k v => v = x * 2 ^ k % 2 ^ tagW t) (fun _ _ v => v = 0) ∧
  ShiftDoes .vshr (fun _ x k v => v = x / 2 ^ k) (fun _ _ v => v = 0) ∧
  ShiftDoes .vsar (fun t x k v => v < 2 ^ tagW t ∧ ((v : Int) - signedOf (tagW t) x / 2 ^ k) % 2 ^ tagW t = 0)
    (fun t x v => v = if x < 2 ^ (tagW t - 1) then 0 else 2 ^ tagW t - 1) ∧
  OneDoes .vabs (fun t => isInt t = true) (fun t x v => v < 2 ^ tagW t ∧ ((v : Int) - (intOf t x).natAbs) % 2 ^ tagW t = 0) ∧
  OneDoes .vneg (fun t => isInt t = true) (fun t x v => v = (2 ^ tagW t - x) % 2 ^ tagW t) ∧
  OneDoes .vnot (fun t => isInt t = true) (fun t x v => v = 2 ^ tagW t - 1 - x) ∧
  OneDoes .vabs (fun t => isFloat t = true) (fun t x v => v = x % 2 ^ (tagW t - 1)) ∧
  OneDoes .vneg (fun t => isFloat t = true) (fun t x v => v = (x + 2 ^ (tagW t - 1)) % 2 ^ tagW t) ∧
  (∀ (s : State) (f : VfmaF) (g : V2F) (c : RegNo) (n : Nat) (x y z : VIn), g = { d := f.d, a := f.a, b := f.b, p := f.p, ext := f.ext.map fun x => x.1 } →
    s.IntSources g n x y → (f.ext = none ∧ f.d = .reg c) ∨ (∃ e, f.ext = some (e, c)) → s.ReadsAll n (.reg c) z → z.tag = x.tag →
    (∀ e, e < n → z.bits.getD e 0 < 2 ^ tagW x.tag) →
    ElementWise (.vfma f) s f.d f.p x.tag n (s.carriedBy g n ++ s.carried n (.reg c))
      (fun e => x.valid.getD e true && y.valid.getD e true && z.valid.getD e true)
      (pickQ f.a.queue f.b.queue) (lenOf f.ext)
      (fun e v => v = (x.bits.getD e 0 * y.bits.getD e 0 + z.bits.getD e 0) % 2 ^ tagW x.tag))

/-- Majors 0x1F and 0x20 in every form (R34, R36, R40, R268): whenever the operands give a plan, no flag it raises is enabled and the
destination has room, the instruction completes with the plan's elements; SAT on an instruction without it raises ILLEGAL (R218, R264); an
integer instruction on floats raises ILLEGAL_TAG,
and vdiv of integers with FCTL.DZT raises DIVZERO at the lowest zero divisor. -/
def Obligations.VectorArithmeticCompletesOrTraps : Prop :=
  (∀ p ∈ [(Instr.vadd, VOp.add), (.vsub, .sub), (.vmul, .mul), (.vmulh, .mulh), (.vdiv, .div), (.vmin, .min), (.vmax, .max), (.vand, .and),
      (.vor, .or), (.vxor, .xor), (.vshl, .shl), (.vshr, .shr), (.vsar, .sar)],
    ∀ (s : State) (f : V2F) (y : ArithPlan), s.arithPlan p.2 f.d f.a (some f.b) none f.p f.ext = .ok y → s.destReady f.d = .ok () →
      (∀ r ∈ y.res, ∀ x, r = some x → s.me.fctl / 256 % 32 &&& x.flags = 0) →
      exec (p.1 f) s = .next (s.vdoneTo f.d y.tag y.n y.res y.srcs y.off y.sets y.q (lenOf f.ext))) ∧
  (∀ p ∈ [(Instr.vabs, VOp.abs), (.vneg, .neg), (.vnot, .not)],
    ∀ (s : State) (f : V1F) (y : ArithPlan), s.arithPlan p.2 f.d f.a none none f.p f.ext = .ok y → s.destReady f.d = .ok () →
      (∀ r ∈ y.res, ∀ x, r = some x → s.me.fctl / 256 % 32 &&& x.flags = 0) →
      exec (p.1 f) s = .next (s.vdoneTo f.d y.tag y.n y.res y.srcs y.off y.sets y.q (lenOf f.ext))) ∧
  (∀ (s : State) (f : VfmaF) (c : RegNo) (y : ArithPlan), (f.ext = none ∧ f.d = .reg c) ∨ (∃ e, f.ext = some (e, c)) →
    s.arithPlan .fma f.d f.a (some f.b) (some c) f.p (f.ext.map fun x => x.1) = .ok y → s.destReady f.d = .ok () →
    (∀ r ∈ y.res, ∀ x, r = some x → s.me.fctl / 256 % 32 &&& x.flags = 0) →
    exec (.vfma f) s = .next (s.vdoneTo f.d y.tag y.n y.res y.srcs y.off y.sets y.q (lenOf f.ext))) ∧
  (∀ mk ∈ [Instr.vmulh, .vand, .vor, .vxor, .vshl, .vshr, .vsar], ∀ (s : State) (f : V2F) (n : Nat) (x y : VIn), s.AtVector f.d →
    (∀ e, f.ext = some e → e.sat = false) → s.Reads n f.a x → s.srcNameB f.b = .ok () → s.vlen (pickQ f.a.queue f.b.queue) = .ok n →
    s.vinB n (s.active f.p n) x.tag f.b = .ok (y, []) → y.tag = x.tag → isFloat x.tag = true → (∀ r, f.b = .scal r → s.Has r) →
    s.CanTrap → ∃ t, exec (mk f) s = .next t ∧ TrapTaken s t 0x05 (einfoAux 0)) ∧
  (∀ mk ∈ [Instr.vmulh, .vdiv, .vmin, .vmax, .vand, .vor, .vxor, .vshl, .vshr, .vsar], ∀ (s : State) (f : V2F) (e : ArithX),
    f.ext = some e → e.sat = true → s.CanTrap → ∃ t, exec (mk f) s = .next t ∧ TrapTaken s t 0x01 (einfoAux 0)) ∧
  (∀ (s : State) (f : V2F) (n e : Nat) (x y : VIn), s.IntSources f n x y → bit s.me.fctl 2 = true → e < n → n ≤ 2 ^ 32 - 1 → s.CanTrap →
    (∀ k, k < e → ¬ (s.isActive f.p k = true ∧ x.valid.getD k true = true ∧ y.valid.getD k true = true ∧ y.bits.getD k 0 = 0)) →
    s.isActive f.p e = true → x.valid.getD e true = true → y.valid.getD e true = true → y.bits.getD e 0 = 0 →
    ∃ t, exec (.vdiv f) s = .next t ∧ TrapTaken s t 0x1A (BitVec.ofNat 64 e))

namespace Sys2Proof
namespace Machine

/-- Only the lanes' bookkeeping of the issuing core may differ: its masks, FFLG, MV, X-side and the queue that an instruction pops. -/
structure LanesOnly (s t : State) (q : Option (Fin 4)) (len : Nat) : Prop where
  device : { t with cores := s.cores, undefCtr := s.undefCtr } = s
  others : ∀ n, n ≠ s.cur.core → t.core n = s.core n
  mine   : t.me = { s.me with
    masks := t.me.masks, fflg := t.me.fflg, mv := t.me.mv, xv := s.mySide.spent.advance len, flight := s.me.flight.drop 1, lq := t.me.lq
    pops := t.me.pops, popMark := t.me.popMark }
  popped : ∀ k : Fin 4, (t.me.lq[k.val]).ents = if q = some k then (s.me.lq[k.val]).ents.drop 1 else (s.me.lq[k.val]).ents

/-- The order of a condition of vcmp (R272). -/
def CondHolds (cond : Nat) (a b : Int) : Prop :=
  match cond with
  | 0 => a = b
  | 1 => a ≠ b
  | 2 => a < b
  | 3 => a ≤ b
  | 4 => b < a
  | 5 => b ≤ a
  | 7 => True
  | _ => False

end Machine
end Sys2Proof

/-- vcvt and vcmp (R43, R271, R272): an integer converted to another tag is clamped to it, and its offender bit says so; without
an enabled flag every conversion completes; a compare writes the order of two integers, false for an invalid operand, or the validity
itself; a NaN operand makes only .ne and .un true. -/
def Obligations.ConversionsSaturateAndComparesOrder : Prop :=
  (∀ (s : State) (f : VcvtF) (n : Nat) (x : VIn), s.AtVector f.d → s.ReadsAll n f.a x → s.vlen f.a.queue = .ok n → f.vr = none →
    f.rnd.val ≤ 4 → isInt x.tag = true → isInt f.tg.val = true → (∀ e, e < n → x.bits.getD e 0 < 2 ^ tagW x.tag) →
    ∃ res : List (Option ERes), exec (.vcvt f) s = .next (s.vdoneTo f.d f.tg.val n res (s.carried n (vsrcB f.a)) (some f.ms) [] f.a.queue 12) ∧
      ∀ e, e < n →
        (s.isActive f.p e = false → res.getD e none = none) ∧
        (s.isActive f.p e = true → x.valid.getD e true = false → res.getD e none = some (ERes.plain 0 false)) ∧
        (s.isActive f.p e = true → x.valid.getD e true = true → ∃ r : ERes, res.getD e none = some r ∧ r.valid = true ∧ r.flags = 0 ∧
          r.bits < 2 ^ tagW f.tg.val ∧
          intOf f.tg.val r.bits = max (iMin f.tg.val) (min (iMax f.tg.val) (intOf x.tag (x.bits.getD e 0))) ∧
          (r.off = true ↔ intOf x.tag (x.bits.getD e 0) < iMin f.tg.val ∨ iMax f.tg.val < intOf x.tag (x.bits.getD e 0)))) ∧
  (∀ (s : State) (f : VcvtF) (n : Nat) (x y : VIn) (act : List Bool) (sets : List (Fin 16 × Nat)), s.AtVector f.d → s.Reads n f.a x →
    s.vlen (pickQ f.a.queue (f.vr.bind fun v => v.queue)) = .ok n → act = s.active f.p n → s.scalarised act x = .ok (y, sets) →
    (∀ v, f.vr = some v → ∃ z, s.Reads n v z) → f.rnd.val ≤ 5 →
    isInt f.tg.val = true ∨ isFloat f.tg.val = true ∨ f.tg.val = tSh8 → s.me.fctl / 256 % 32 = 0 →
    ∃ res : List (Option ERes), exec (.vcvt f) s =
        .next (s.vdoneTo f.d f.tg.val n res (s.carried n (vsrcB f.a)) (some f.ms) sets (pickQ f.a.queue (f.vr.bind fun v => v.queue)) 12) ∧
      res.length = n ∧ ∀ e, e < n → (res.getD e none).isSome = s.isActive f.p e) ∧
  (∀ (s : State) (f : VcmpF) (n : Nat) (x y : VIn), s.cur.side = .X → s.isLong s.cur.core = false → f.cond.val ≤ 7 →
    f.sig = false ∨ 2 ≤ f.cond.val ∧ f.cond.val ≤ 5 → s.ReadsAll n f.a x → s.srcNameB f.b = .ok () →
    s.vlen (pickQ f.a.queue f.b.queue) = .ok n → s.vinB n (s.active f.p n) x.tag f.b = .ok (y, []) → y.bits.length = n →
    y.valid.length = n → isInt x.tag = true → isInt y.tag = true →
    ∃ (t : State) (bs : List (Option Bool)), exec (.vcmp f) s = .next t ∧ LanesOnly s t (pickQ f.a.queue f.b.queue) 12 ∧
      t.me.fflg = s.me.fflg ∧ t.me.mv = s.me.mv ∧ MaskWritten s t f.d bs ∧ bs.length = n ∧
      ∀ e, e < n → (s.isActive f.p e = false → bs.getD e none = none) ∧
        (s.isActive f.p e = true → ∃ b, bs.getD e none = some b ∧
          (b = true ↔ x.valid.getD e true = true ∧ y.valid.getD e true = true ∧
            CondHolds f.cond.val (valueOf x.tag (x.bits.getD e 0)).toInt (valueOf y.tag (y.bits.getD e 0)).toInt))) ∧
  (∀ (s : State) (f : VcmpF) (n : Nat) (x y : VIn), s.cur.side = .X → s.isLong s.cur.core = false → f.cond.val ≤ 7 →
    f.sig = false ∨ 2 ≤ f.cond.val ∧ f.cond.val ≤ 5 → s.ReadsAll n f.a x → s.srcNameB f.b = .ok () →
    s.vlen (pickQ f.a.queue f.b.queue) = .ok n → s.vinB n (s.active f.p n) x.tag f.b = .ok (y, []) → y.bits.length = n →
    y.valid.length = n → isFloat x.tag = true → isFloat y.tag = true → s.me.fctl / 256 % 32 = 0 →
    ∃ (t : State) (bs : List (Option Bool)), exec (.vcmp f) s = .next t ∧ LanesOnly s t (pickQ f.a.queue f.b.queue) 12 ∧
      MaskWritten s t f.d bs ∧ bs.length = n ∧
      ∀ e, e < n → s.isActive f.p e = true → x.valid.getD e true = true → y.valid.getD e true = true →
        (fDecode x.tag (x.bits.getD e 0)).isNaN = true ∨ (fDecode y.tag (y.bits.getD e 0)).isNaN = true →
        bs.getD e none = some (decide (f.cond.val = 1 ∨ f.cond.val = 6))) ∧
  (∀ (s : State) (f : VcmpF) (n : Nat) (x : VIn), s.cur.side = .X → s.isLong s.cur.core = false → f.cond.val = 8 → f.sig = false →
    s.ReadsAll n f.a x → s.vlen f.a.queue = .ok n →
    ∃ t : State, exec (.vcmp f) s = .next t ∧ LanesOnly s t f.a.queue 12 ∧ t.me.fflg = s.me.fflg ∧ t.me.mv = s.me.mv ∧
      MaskWritten s t f.d ((List.range n).map fun e => if s.isActive f.p e then some (x.valid.getD e true) else none))

namespace Sys2Proof
namespace Machine

/-- The values of a source that take part in a fold of integers: those of active, valid elements, in order (R278). -/
def State.foldValues (s : State) (p : Pred) (x : VIn) (n : Nat) : List Int :=
  ((List.range n).filter fun e => s.isActive p e && x.valid.getD e true).map fun e => intOf x.tag (x.bits.getD e 0)

/-- The value at which a fold of integers starts: INIT's register in the result tag, or the identity; a restarted fold goes on at
RSTATE, one that a stop found in flight at the running value it had (R278, R194, R183). -/
def State.foldStart (s : State) (x : FoldX) (tag : Nat) : Int :=
  if s.resumeAt ≠ 0 then intOf tag (s.resumeVal.toNat % 2 ^ tagW tag)
  else match x.init with
    | some b => intOf tag ((s.val b).toNat % 2 ^ tagW tag)
    | none   => match x.op.val with
      | 1 => iMax tag
      | 2 => iMin tag
      | 3 => intOf tag (2 ^ tagW tag - 1)
      | _ => 0

/-- What a fold of integers gives, wrapped to the tag (R278). -/
def FoldGives (op tag : Nat) (start : Int) (vs : List Int) (v : Int) : Prop :=
  match op with
  | 0 => ∃ z : Nat, z < 2 ^ tagW tag ∧ v = intOf tag z ∧ ((z : Int) - vs.foldl (· + ·) start) % 2 ^ tagW tag = 0
  | 1 => v = vs.foldl min start
  | 2 => v = vs.foldl max start
  | 3 => v = intOf tag (vs.foldl (fun (a : Nat) x => a &&& wrapTo (tagW tag) x) (wrapTo (tagW tag) start))
  | 4 => v = intOf tag (vs.foldl (fun (a : Nat) x => a ||| wrapTo (tagW tag) x) (wrapTo (tagW tag) start))
  | _ => v = intOf tag (vs.foldl (fun (a : Nat) x => a ^^^ wrapTo (tagW tag) x) (wrapTo (tagW tag) start))

/-- The fields of a fold of integers that keeps its tag and does not saturate. -/
structure State.IntFold (s : State) (a : VSrc) (x : FoldX) (n : Nat) (y : VIn) : Prop extends s.ReadsAll n a y where
  side  : s.cur.side = .X
  len   : s.vlen a.queue = .ok n
  op    : x.op.val ≤ 5
  sat   : x.sat = false
  tag   : x.tg.val = 0 ∨ x.tg.val = y.tag
  init  : ∀ b, x.init = some b → s.Has b
  int   : isInt y.tag = true
  small : ∀ e, e < n → y.bits.getD e 0 < 2 ^ tagW y.tag

end Machine
end Sys2Proof

/-- vred and vscan (R47, R278, R279): the fold of the active valid integers of one tag, its result sign- or zero-extended; an invalid one is
absent and sets MV.SEEN; a scan gives each active element the fold up to it, or before it. Without an enabled flag every form
completes. -/
def Obligations.ReductionsAndScansFold : Prop :=
  (∀ (s : State) (f : VredF) (n : Nat) (y : VIn), s.IntFold f.a f.x n y → s.Has f.d →
    ∃ v : Word, exec (.vred f) s =
        .next (((({ s.setMe (if (List.range n).any (fun e => s.isActive f.p e && !y.valid.getD e true) then s.me.seen else s.me) with
          undefCtr := s.undefCtr + 2 ^ 23 } : State).put f.d v).popLq f.a.queue).retireV 12) ∧
      (isSigned y.tag = true → FoldGives f.x.op.val y.tag (s.foldStart f.x y.tag) (s.foldValues f.p y n) v.toInt) ∧
      (isSigned y.tag = false → FoldGives f.x.op.val y.tag (s.foldStart f.x y.tag) (s.foldValues f.p y n) v.toNat)) ∧
  (∀ (s : State) (f : VredF) (n : Nat) (x y : VIn) (sets : List (Fin 16 × Nat)) (g : Nat × Nat × Nat), s.cur.side = .X → s.Has f.d →
    foldVariant f.x = true →
    s.Reads n f.a x → s.vlen f.a.queue = .ok n → s.scalarised (s.active f.p n) x = .ok (y, sets) → s.foldSetup y f.x = .ok g →
    s.me.fctl / 256 % 32 = 0 →
    ∃ (c : Core) (v : Word), exec (.vred f) s =
        .next (((({ s.setMe c with undefCtr := s.undefCtr + 2 ^ 23 } : State).put f.d v).popLq f.a.queue).retireV 12) ∧
      c = { s.me with masks := c.masks, fflg := c.fflg, mv := c.mv }) ∧
  (∀ (s : State) (f : VscanF) (n : Nat) (y : VIn), s.IntFold f.a f.x n y → s.AtVector f.d →
    ∃ res : List (Option ERes), exec (.vscan f) s =
        .next ((if (List.range n).any (fun e => s.isActive f.p e && !y.valid.getD e true) then s.setMe s.me.seen else s).vdoneTo f.d
          y.tag n res (s.carried n (vsrcB f.a)) none [] f.a.queue 12) ∧
      ∀ e, e < n → (s.isActive f.p e = false → res.getD e none = none) ∧
        (s.isActive f.p e = true → ∃ z, res.getD e none = some (ERes.plain z true) ∧ z < 2 ^ tagW y.tag ∧
          FoldGives f.x.op.val y.tag (s.foldStart f.x y.tag) (s.foldValues f.p y (if f.excl then e else e + 1)) (intOf y.tag z))) ∧
  (∀ (s : State) (f : VscanF) (n : Nat) (x y : VIn) (sets : List (Fin 16 × Nat)) (g : Nat × Nat × Nat), s.AtVector f.d →
    foldVariant f.x = true → s.Reads n f.a x → s.vlen f.a.queue = .ok n → s.scalarised (s.active f.p n) x = .ok (y, sets) → s.foldSetup y f.x = .ok g →
    s.me.fctl / 256 % 32 = 0 →
    ∃ (u : State) (res : List (Option ERes)), exec (.vscan f) s =
        .next (u.vdoneTo f.d g.2.1 n res (s.carried n (vsrcB f.a)) (if f.x.sat then some f.x.ms else none) sets f.a.queue 12) ∧
      (u = s ∨ u = s.setMe s.me.seen) ∧ ∀ e, e < n → (res.getD e none).isSome = s.isActive f.p e)

/-- vrcp, vrsq, vsqrt, vex2, vlg2 and vtanh (R39, R47, R280), and vrng and rng (R282 to R284): without an enabled flag each special function
completes on floats and raises ILLEGAL_TAG on other tags; its results at zeros, infinities, negative numbers and NaNs; the random bits
are those of Mix. -/
def Obligations.SpecialFunctionsAndRandomBits : Prop :=
  (∀ p ∈ [(Instr.vrcp, 0), (.vrsq, 1), (.vsqrt, 2), (.vex2, 3), (.vlg2, 4), (.vtanh, 5)], ∀ (s : State) (f : V1P) (n : Nat) (x : VIn),
    s.AtVector f.d → s.vlen f.a.queue = .ok n → s.ReadsAll n f.a x →
    (isFloat x.tag = true → s.me.fctl / 256 % 32 = 0 → ∃ res : List (Option ERes),
      exec (p.1 f) s = .next (s.vdoneTo f.d x.tag n res (s.carried n (vsrcB f.a)) none [] f.a.queue 4) ∧ ∀ e, e < n →
        (s.isActive f.p e = false → res.getD e none = none) ∧
        (s.isActive f.p e = true → x.valid.getD e true = false → res.getD e none = some (ERes.plain 0 false)) ∧
        (s.isActive f.p e = true → x.valid.getD e true = true → ∃ r : Rounded,
          r = specialFn p.2 x.tag (bits s.me.fctl 1 0) (x.bits.getD e 0) ∧
          res.getD e none = some { bits := r.bits, valid := true, flags := r.flags, off := r.off })) ∧
    (isFloat x.tag = false → isCx x.tag = false → s.CanTrap → ∃ t, exec (p.1 f) s = .next t ∧ TrapTaken s t 0x05 (einfoAux 0))) ∧
  (∀ (t mode b sel : Nat), isFloat t = true → mode < 4 → sel < 6 →
    ((fDecode t b).isNaN = true → (specialFn sel t mode b).bits = fNaN t ∧
      (specialFn sel t mode b).flags = if isSNaN t b then fNV else 0) ∧
    (∀ ng, fDecode t b = .inf ng → (specialFn 0 t mode b).bits = (if ng then 2 ^ (tagW t - 1) else 0) ∧
      (ng = false → (specialFn 1 t mode b).bits = 0 ∧ (specialFn 2 t mode b).bits = fInf t false ∧
        (specialFn 3 t mode b).bits = fInf t false ∧ (specialFn 4 t mode b).bits = fInf t false) ∧
      (ng = true → (specialFn 3 t mode b).bits = 0 ∧ ∀ k ∈ [1, 2, 4], specialFn k t mode b = { bits := fNaN t, flags := fNV, off := false })) ∧
    (∀ ng e, fDecode t b = .fin ng 0 e → specialFn 0 t mode b = { bits := fInf t ng, flags := fDZ, off := false } ∧
      specialFn 1 t mode b = { bits := fInf t ng, flags := fDZ, off := false } ∧
      (specialFn 2 t mode b).bits = (if ng then 2 ^ (tagW t - 1) else 0) ∧
      specialFn 4 t mode b = { bits := fInf t true, flags := fDZ, off := false } ∧
      (specialFn 5 t mode b).bits = (if ng then 2 ^ (tagW t - 1) else 0)) ∧
    (∀ m e, fDecode t b = .fin true m e → m ≠ 0 → ∀ k ∈ [1, 2, 4],
      specialFn k t mode b = { bits := fNaN t, flags := fNV, off := false })) ∧
  (∀ (s : State) (d : RegNo) (a : VSrc) (b : RegNo) (p : Pred) (n : Nat) (x : VIn), s.cur.side = .X → d.val % 2 = 0 →
    d.val + 1 < s.me.vnreg → b.val ≤ 29 → s.Has b → s.Has (b + 1) → s.Has (b + 2) → s.vlen a.queue = .ok n → s.ReadsAll n a x →
    isInt x.tag = true →
    ∃ (lo hi : List (Option ERes)) (u : State), exec (.vrng d a b p) s = .next
        ((({ u with undefCtr := u.undefCtr + 2 ^ 23 } : State).popLq a.queue).retireV 4) ∧
      u = (s.vputTo (.reg d) tN64 n lo []).vputTo (.reg (d + 1)) tN64 n hi [] ∧ ∀ e, e < n →
        (s.isActive p e = false → lo.getD e none = none ∧ hi.getD e none = none) ∧
        (s.isActive p e = true → ∃ m : Word × Word, m = mix (s.val b) (s.val (b + 1)) (s.val (b + 2)) (BitVec.ofNat 64 (x.bits.getD e 0)) ∧
          lo.getD e none = some (ERes.plain m.2.toNat true) ∧ hi.getD e none = some (ERes.plain m.1.toNat true))) ∧
  (∀ (s : State) (d : RegNo) (a b : SrcR) (h : Bool), b.r.val ≠ 31 → s.Has a.r → s.Has b.r → s.Has (b.r + 1) → s.Has d →
    ∃ (t : State) (m : Word × Word), exec (.rng d a b h) s = .next t ∧
      m = mix (s.val b.r) (s.val (b.r + 1)) (s.val a.r) (s.val d) ∧
      LaneEffect s t d (if h then m.1 else m.2) 4)

namespace Sys2Proof
namespace Machine

/-- Every core whose lanes X drives becomes what f says of it, up to its entry numbers and its X-side, and nothing else changes. -/
structure MembersBecome (s t : State) (len : Nat) (f : Nat → Core) : Prop where
  device : { t with cores := s.cores } = s
  others : ∀ n, n ∉ s.members → t.core n = s.core n
  mine   : ∀ g ∈ s.members, t.core g = { f g with
    nextId := (t.core g).nextId, pops := (t.core g).pops, popMark := (t.core g).popMark, xv := (t.core g).xv
    flight := (t.core g).flight }
  side   : WentOn s t (s.mySide.spent.advance len)

/-- The header that a slot of an operand's element stands in is good. -/
def State.hdrOk (s : State) (x : VIn × Fin 16 × Nat) (e : Nat) : Bool := (s.hdrAt (tagW x.1.tag) x.2.1 x.2.2 e).ok

/-- A bound source can be read. -/
structure State.Bound (s : State) (n : Nat) (a : VSrc) (x : VIn × Fin 16 × Nat) : Prop where
  name  : s.srcName a = .ok ()
  value : s.boundSrc n a = .ok x
  bits  : x.1.bits.length = n
  valid : x.1.valid.length = n

/-- Every element of the anchored pair that is active and valid has one anchor and one step (R293). -/
def State.SameBlock (s : State) (x y : VIn × Fin 16 × Nat) (e : Nat) : Prop :=
  Machine.Num.cmp (s.hdrAt (tagW x.1.tag) x.2.1 x.2.2 e).value (s.hdrAt (tagW y.1.tag) y.2.1 y.2.2 e).value = 0 ∧
  (s.hdrAt (tagW x.1.tag) x.2.1 x.2.2 e).step = (s.hdrAt (tagW y.1.tag) y.2.1 y.2.2 e).step

/-- Both elements of an anchored pair are valid. -/
def State.pairOk (s : State) (x y : VIn × Fin 16 × Nat) (e : Nat) : Bool :=
  s.hdrOk x e && s.hdrOk y e && x.1.valid.getD e true && y.1.valid.getD e true

/-- A result is the integer v put into a tag: clamped with its offender bit (R43, R291). -/
def IsClamped (tag : Nat) (v : Int) (r : ERes) : Prop :=
  r.valid = true ∧ r.flags = 0 ∧ r.bits < 2 ^ tagW tag ∧ signedOf (tagW tag) r.bits = max (iMin tag) (min (iMax tag) v) ∧
    (r.off = true ↔ v < iMin tag ∨ iMax tag < v)

/-- kadj changes slot j of the source register on core g: the slot counts, its predicate bit selects it, and its header is good (R290). -/
def State.adjusts (s : State) (f : KadjF) (g j : Nat) : Bool :=
  decide (j < ((s.core g).anchors[f.a.val]).count) && (s.me.maskBit f.p.m j != f.p.pn) && (((s.core g).anchors[f.a.val]).slot j).ok

/-- The anchor that kadj gives a slot: the exact sum, none where f64 does not hold it (R290). -/
def State.adjusted (s : State) (f : KadjF) (g j : Nat) : Option Word :=
  asF64 (Machine.Num.plus (fDecode tF64 (((s.core g).anchors[f.a.val]).slot j).anchor.toNat) (fDecode tF64 (s.val f.b).toNat))

/-- What an instruction that also writes slots of anchor register kd leaves: u, but for that register of each member, which is r (R291). -/
structure SlotsWritten (s u t : State) (kd : Fin 16) (r : Nat → AnchorReg) : Prop where
  device : { t with cores := u.cores } = u
  others : ∀ n, n ∉ s.members → t.core n = u.core n
  mine   : ∀ g ∈ s.members, t.core g = { u.core g with anchors := (u.core g).anchors.set kd.val (r g) }

/-- The anchored result of an element: nothing where it is inactive, zero with validity 0 where it is invalid. -/
def AnchoredElem (s : State) (p : Pred) (good : Nat → Bool) (res : List (Option ERes)) (tag e : Nat) (is : ERes → Prop) : Prop :=
  (s.isActive p e = false → res.getD e none = none) ∧
  (s.isActive p e = true → good e = false → res.getD e none = some (ERes.invalid tag)) ∧
  (s.isActive p e = true → good e = true → ∃ r, res.getD e none = some r ∧ is r)

end Machine
end Sys2Proof

/-- kcfg, kmv, kput and kadj (R7, R286 to R290), on every member: the binding made; an anchor register copied, popped from headers or pushed as headers; one
slot written at the count or at an index not above it, else VL_RANGE; and the anchors moved exactly, or DEVOVF at the lowest slot. -/
def Obligations.BindingsAndAnchorRegisters : Prop :=
  (∀ (s : State) (f : KcfgF), s.cur.side = .X → s.members.Nodup → s.cur.core ∈ s.members →
    (∀ q, f.t = .lq q → ∃ t, exec (.kcfg f) s = .next t ∧ MembersBecome s t (if f.ext then 12 else 4)
      (fun g => { s.core g with lqBind := (s.core g).lqBind.set q.val (Machine.KBind.binding f.k) })) ∧
    (∀ v, f.t = .vreg v → s.vreg v = .ok () → ∃ t, exec (.kcfg f) s = .next t ∧ MembersBecome s t (if f.ext then 12 else 4)
      (fun g => { s.core g with vregs := (s.core g).vregs.set v.val { (s.core g).vregs[v.val] with bind := (Machine.KBind.binding f.k) } }))) ∧
  (∀ (s : State), s.cur.side = .X → s.members.Nodup → s.cur.core ∈ s.members →
    (∀ d a : Fin 16, ∃ t, exec (.kmv (.copy d a)) s = .next t ∧
      MembersBecome s t 4 (fun g => { s.core g with anchors := (s.core g).anchors.set d.val (s.core g).anchors[a.val] })) ∧
    (∀ (d : Fin 16) (q : Fin 4) (es : List Entry), s.heads q = .ok es → (∀ e ∈ es, e.kind = .headers) →
      ∃ t, exec (.kmv (.pop d q)) s = .next t ∧
        MembersBecome s t 4 (fun g => { s.core g with
          anchors := (t.core g).anchors
          lq := (s.core g).lq.set q.val { (s.core g).lq[q.val] with ents := ((s.core g).lq[q.val]).ents.drop 1 } }) ∧
        ∀ g ∈ s.members, ∀ e, ((s.core g).lq[q.val]).ents.head? = some e →
          (∀ k : Fin 16, k ≠ d → (t.core g).anchors[k.val] = (s.core g).anchors[k.val]) ∧
          ((t.core g).anchors[d.val]).count = e.elems.length / 2 ∧
          ∀ j, j < e.elems.length / 2 → (((t.core g).anchors[d.val]).slot j).anchor = e.elems.getD (2 * j) 0 ∧
            (((t.core g).anchors[d.val]).slot j).dword = e.elems.getD (2 * j + 1) 0) ∧
    (∀ (q : Fin 2) (a : Fin 16), s.sqRoom q 1 = .ok () → ∃ t, exec (.kmv (.push q a)) s = .next t ∧
      MembersBecome s t 4 (fun g => { s.core g with sq := (t.core g).sq }) ∧
      ∀ g ∈ s.members, ∃ x : Entry, ((t.core g).sq[q.val]).ents = ((s.core g).sq[q.val]).ents ++ [x] ∧ x.kind = .headers ∧
        x.n = ((s.core g).anchors[a.val]).count ∧ x.base = ((s.core g).sq[q.val]).ctr ∧
        ((t.core g).sq[q.val]).ctr = ((s.core g).sq[q.val]).ctr + BitVec.ofNat 32 ((16 * x.n + 511) / 512) ∧ (∀ k : Fin 2, k ≠ q → (t.core g).sq[k.val] = (s.core g).sq[k.val]) ∧
        ∀ j, j < x.n → x.elems.getD (2 * j) 0 = (((s.core g).anchors[a.val]).slot j).anchor ∧
          x.elems.getD (2 * j + 1) 0 = (((s.core g).anchors[a.val]).slot j).dword)) ∧
  (∀ (s : State) (f : KputF) (i : Nat), s.cur.side = .X → s.Has f.a → s.Has f.b →
    i = (match f.slot with
      | none   => (s.me.anchors[f.d.val]).count
      | some v => v.toNat) →
    (i < 256 → i ≤ (s.me.anchors[f.d.val]).count → s.members.Nodup → s.cur.core ∈ s.members → ∃ (t : State) (r : Nat → AnchorReg),
      exec (.kput f) s = .next t ∧
      MembersBecome s t (lenOf f.slot) (fun g => { s.core g with anchors := (s.core g).anchors.set f.d.val (r g) }) ∧
      ∀ g ∈ s.members, (r g).count = min 256 (max ((s.core g).anchors[f.d.val]).count (i + 1)) ∧
        (r g).slot i = { anchor := s.val f.a, step := (s.val f.b).extractLsb' 0 8, flags := (s.val f.b).extractLsb' 8 8, gen := 0, rsv := 0 } ∧
        ∀ j, j < 256 → j ≠ i → j < ((s.core g).anchors[f.d.val]).count → (r g).slot j = ((s.core g).anchors[f.d.val]).slot j) ∧
    (256 ≤ i ∨ (s.me.anchors[f.d.val]).count < i → s.CanTrap →
      ∃ t, exec (.kput f) s = .next t ∧ TrapTaken s t 0x06 (einfoAux (i % 2 ^ 28)))) ∧
  (∀ (s : State) (f : KadjF), s.cur.side = .X → s.Has f.b →
    ((∀ g ∈ s.members, ∀ j, s.adjusts f g j = true → (s.adjusted f g j).isSome = true) → s.members.Nodup → s.cur.core ∈ s.members →
      ∃ (t : State) (r : Nat → AnchorReg), exec (.kadj f) s = .next t ∧
        MembersBecome s t 4 (fun g => { s.core g with anchors := (s.core g).anchors.set f.d.val (r g) }) ∧
        ∀ g ∈ s.members, (r g).count = ((s.core g).anchors[f.a.val]).count ∧ ∀ j, j < ((s.core g).anchors[f.a.val]).count →
          if s.adjusts f g j = true then ∃ w, s.adjusted f g j = some w ∧ (r g).slot j = { ((s.core g).anchors[f.a.val]).slot j with anchor := w }
          else (r g).slot j = ((s.core g).anchors[f.a.val]).slot j) ∧
    ∀ g i, g ∈ s.members → i < 2 ^ 32 → s.adjusts f g i = true → s.adjusted f g i = none →
      (∀ h ∈ s.members, ∀ j, j < i → s.adjusts f h j = true → (s.adjusted f h j).isSome = true) → s.CanTrap →
      ∃ t, exec (.kadj f) s = .next t ∧ TrapTaken s t 0x0E (BitVec.ofNat 64 (3 * 2 ^ 32 + i)))

namespace Sys2Proof
namespace Machine

/-- An element that counts in a block of reanc: whether it is active, whether it is valid, and its value z times 2^q. -/
def blockElem (q : Int) (z : Bool × Bool × Int) : Bool × Bool × Machine.Num := (z.1, z.2.1, .fin (z.2.2 < 0) z.2.2.natAbs q)

/-- A is the multiple of 2^k nearest half of m times 2^q, counted in 2^k, ties to the even one (R297). -/
def NearestMultiple (m q k A : Int) : Prop :=
  (q - 1 ≤ k → 2 * (A * 2 ^ (k - q + 1).toNat - m).natAbs ≤ 2 ^ (k - q + 1).toNat ∧
    (2 * (A * 2 ^ (k - q + 1).toNat - m).natAbs = 2 ^ (k - q + 1).toNat → A % 2 = 0)) ∧
  (k < q - 1 → A = m * 2 ^ (q - 1 - k).toNat)

/-- One block of reanc (R297), by the least and the greatest value of its active valid elements: the new anchor is the multiple of 2^k
nearest their middle, and each element's deviation is counted from it; a block without such elements leaves its slot alone, and an
anchor that f64 does not represent raises DEVOVF at the first of them. -/
def ReancBlocks : Prop :=
  ∀ (t b : Nat) (k q : Int) (sat : Bool) (zs : List (Bool × Bool × Int)) (rs : List (Option DRes)) (slot : Option Header),
    reancBlock t b k sat (zs.map (blockElem q)) = (rs, slot) →
    ((∀ z ∈ zs, z.1 = false ∨ z.2.1 = false) → slot = none ∧ ∀ (i : Nat) (z : Int), zs[i]? = some (true, false, z) → rs[i]? = some (some (Except.ok (ERes.invalid t) : DRes))) ∧
    ∀ lo hi A : Int, (true, true, lo) ∈ zs → (true, true, hi) ∈ zs → (∀ z : Int, (true, true, z) ∈ zs → lo ≤ z ∧ z ≤ hi) →
      NearestMultiple (lo + hi) q k A →
      (∀ (i : Nat) (z : Bool × Int), zs[i]? = some (false, z) → rs[i]? = some none) ∧
      (∀ w, asF64 (.fin (A < 0) A.natAbs k) = some w →
        slot = some { anchor := w, step := BitVec.ofInt 8 k, flags := headerFlags t b, gen := 0, rsv := 0 } ∧
        ∀ (i : Nat) (z : Int), zs[i]? = some (true, true, z) → rs[i]? = some (some (intoDev t 0 sat true
          (Machine.Num.times (Machine.Num.plus (.fin (z < 0) z.natAbs q) (.fin (!(A < 0)) A.natAbs k)) (.fin false 1 (-k)))))) ∧
      (asF64 (.fin (A < 0) A.natAbs k) = none → slot = none ∧ ∀ (i : Nat) (z : Int), zs[i]? = some (true, true, z) →
        (∀ j, j < i → ∀ y : Int, zs[j]? ≠ some (true, true, y)) → rs[i]? = some (some (Except.error 3 : DRes)))

end Machine
end Sys2Proof

/-- vdadd, vdsub, vddiff, vdmul, vdscl, reanc, vdwide and vdfrom (R43, R47, R291 to R298): the deviations of two operands that share their
blocks, and DEVOVF where they do not or where the result does not fit; differences inside one block; the four terms of a product;
deviations under a new step; new blocks; values written out as f64 and put back as deviations. -/
def Obligations.AnchoredArithmetic : Prop :=
  (∀ p ∈ [(Instr.vdadd, fun x y : Int => x + y), (.vdsub, fun x y => x - y)], ∀ (s : State) (f : VdF) (n t : Nat)
    (x y : VIn × Fin 16 × Nat), s.AtVector f.d → s.vlen (pickQ f.a.queue f.b.queue) = .ok n → s.Bound n f.a x → s.Bound n f.b y →
    x.2.2 = y.2.2 → devTag f.ext (if x.1.tag = tDv16 ∨ y.1.tag = tDv16 then tDv16 else tDv8) = .ok t →
    ((∀ e, e < n → s.isActive f.p e = true → s.pairOk x y e = true → s.SameBlock x y e ∧
        (satOf f.ext = true ∨ iMin t ≤ p.2 (devInt x.1 e) (devInt y.1 e) ∧ p.2 (devInt x.1 e) (devInt y.1 e) ≤ iMax t)) →
      ∃ res : List (Option ERes), exec (p.1 f) s =
          .next (s.vdoneTo f.d t n res [] (some (msOf f.ext)) [] (pickQ f.a.queue f.b.queue) (lenOf f.ext)) ∧
        ∀ e, e < n → AnchoredElem s f.p (s.pairOk x y) res t e (IsClamped t (p.2 (devInt x.1 e) (devInt y.1 e)))) ∧
    ∀ e aux, e < n → n < 2 ^ 32 → (∀ k, k < e → s.isActive f.p k = true → s.pairOk x y k = true → s.SameBlock x y k ∧
        (satOf f.ext = true ∨ iMin t ≤ p.2 (devInt x.1 k) (devInt y.1 k) ∧ p.2 (devInt x.1 k) (devInt y.1 k) ≤ iMax t)) →
      s.isActive f.p e = true → s.pairOk x y e = true →
      (aux = 1 ∧ Machine.Num.cmp (s.hdrAt (tagW x.1.tag) x.2.1 x.2.2 e).value (s.hdrAt (tagW y.1.tag) y.2.1 y.2.2 e).value ≠ 0) ∨
      (aux = 2 ∧ Machine.Num.cmp (s.hdrAt (tagW x.1.tag) x.2.1 x.2.2 e).value (s.hdrAt (tagW y.1.tag) y.2.1 y.2.2 e).value = 0 ∧
        (s.hdrAt (tagW x.1.tag) x.2.1 x.2.2 e).step ≠ (s.hdrAt (tagW y.1.tag) y.2.1 y.2.2 e).step) ∨
      (aux = 0 ∧ s.SameBlock x y e ∧ satOf f.ext = false ∧
        (p.2 (devInt x.1 e) (devInt y.1 e) < iMin t ∨ iMax t < p.2 (devInt x.1 e) (devInt y.1 e))) →
      s.CanTrap → ∃ u, exec (p.1 f) s = .next u ∧ TrapTaken s u 0x0E (BitVec.ofNat 64 (aux * 2 ^ 32 + e))) ∧
  (∀ (s : State) (f : VddiffF) (n : Nat) (k : Word) (x : VIn × Fin 16 × Nat), s.AtVector f.d → s.vlen f.a.queue = .ok n →
    s.Bound n f.a x → s.vidxS f.k = .ok k →
    (s.me.fctl / 256 % 32 = 0 → ∃ (tag : Nat) (res : List (Option ERes)), (tag = tI32 ∨ tag = tF64) ∧
      exec (.vddiff f) s = .next (s.vdoneTo f.d tag n res [] none [] f.a.queue f.k.len)) ∧
    ∀ st : Int, s.isLong s.cur.core = false → n ≤ 2 ^ 32 →
      (∀ e, e < n → (s.hdrAt (tagW x.1.tag) x.2.1 x.2.2 e).stepInt = st) →
      (∀ e p : Nat, e < n → p < n → (p : Int) = e + k.toInt → e / x.2.2 = p / x.2.2) →
      ∃ res : List (Option ERes), exec (.vddiff f) s = .next (s.vdoneTo f.d tI32 n res [] none [] f.a.queue f.k.len) ∧
        (∀ e p : Nat, e < n → p < n → (p : Int) = e + k.toInt →
          AnchoredElem s f.p (fun e => s.hdrOk x e && s.hdrOk x p && x.1.valid.getD e true && x.1.valid.getD p true) res tI32 e
            (fun r => r.valid = true ∧ r.bits < 2 ^ 32 ∧ signedOf 32 r.bits = devInt x.1 p - devInt x.1 e)) ∧
        ∀ e : Nat, e < n → (e : Int) + k.toInt < 0 ∨ (n : Int) ≤ e + k.toInt → res.getD e none = none) ∧
  (∀ (s : State) (f : VdmulF) (n : Nat) (x y : VIn × Fin 16 × Nat), s.cur.side = .X → f.d.val % 4 = 0 → f.d.val + 3 < s.me.vnreg →
    s.vlen (pickQ f.a.queue f.b.queue) = .ok n → s.Bound n f.a x → s.Bound n f.b y → x.2.2 = y.2.2 → s.me.fctl / 256 % 32 = 0 →
    ∃ (rs : Nat → List (Option ERes)) (u : State), exec (.vdmul f) s = .next ((u.popLq (pickQ f.a.queue f.b.queue)).retireV 4) ∧
      u = (List.range 4).foldl (fun t i =>
        (t.vputTo (.reg (f.d + Fin.ofNat 32 i)) (if i < 3 then tF64 else tI32) n (rs i) []).vflags (rs i)) s ∧
      ∀ i e, i < 4 → e < n → AnchoredElem s f.p (s.pairOk x y) (rs i) tI32 e (fun r =>
        let hx := s.hdrAt (tagW x.1.tag) x.2.1 x.2.2 e
        let hy := s.hdrAt (tagW y.1.tag) y.2.1 y.2.2 e
        let dx : Machine.Num := .fin (devInt x.1 e < 0) (devInt x.1 e).natAbs hx.stepInt
        let dy : Machine.Num := .fin (devInt y.1 e < 0) (devInt y.1 e).natAbs hy.stepInt
        (i = 0 → r = (fRound tF64 (bits s.me.fctl 1 0) false (Machine.Num.times hx.value hy.value)).res) ∧
        (i = 1 → r = (fRound tF64 (bits s.me.fctl 1 0) false (Machine.Num.times hx.value dy)).res) ∧
        (i = 2 → r = (fRound tF64 (bits s.me.fctl 1 0) false (Machine.Num.times hy.value dx)).res) ∧
        (i = 3 → r = ERes.plain (wrapTo 32 (devInt x.1 e * devInt y.1 e)) true))) ∧
  (∀ (s : State) (f : VdsclF) (n t : Nat) (k : Int) (ext : Option AnchX) (rnd : Bool) (len : Nat) (x : VIn × Fin 16 × Nat) (kd : Fin 16),
    s.AtVector (.reg f.d) → s.stepOp f.k = .ok (k, ext, rnd, len) → s.members.Nodup → s.cur.core ∈ s.members →
    s.vlen f.a.queue = .ok n → s.Bound n f.a x → (s.me.vregs[f.d.val]).bind = .anchor kd x.2.2 → devTag ext x.1.tag = .ok t →
    -15 ≤ k → k ≤ 15 →
    (∀ e, e < n → s.isActive f.p e = true → -128 ≤ (s.hdrAt (tagW x.1.tag) x.2.1 x.2.2 e).stepInt + k ∧
      (s.hdrAt (tagW x.1.tag) x.2.1 x.2.2 e).stepInt + k ≤ 127) →
    (rnd = true ∧ satOf ext = true ∧ s.me.fctl / 256 % 32 = 0 → ∃ t, exec (.vdscl f) s = .next t ∧ t.mySide = s.mySide.spent.advance len) ∧
    ∀ z : Nat → Int, (∀ e, e < n → s.isActive f.p e = true → s.hdrOk x e = true → x.1.valid.getD e true = true →
      z e * 2 ^ k.toNat = devInt x.1 e * 2 ^ (-k).toNat ∧ (satOf ext = true ∨ iMin t ≤ z e ∧ z e ≤ iMax t)) →
    ∃ (res : List (Option ERes)) (u v : State) (r : Nat → AnchorReg), u = s.vdoneTo (.reg f.d) t n res [] (some (msOf ext)) [] f.a.queue len ∧
      exec (.vdscl f) s = .next v ∧ SlotsWritten s u v kd r ∧
      (∀ e, e < n → AnchoredElem s f.p (fun e => s.hdrOk x e && x.1.valid.getD e true) res t e (IsClamped t (z e))) ∧
      ∀ g ∈ s.slices (tagW x.1.tag) n, ∀ j, j < 256 →
        if ∃ i, i < x.2.2 ∧ j * x.2.2 + i < g.2.2 ∧ s.isActive f.p (g.2.1 + j * x.2.2 + i) = true
        then (r g.1).slot j = { s.hdrAt (tagW x.1.tag) x.2.1 x.2.2 (g.2.1 + j * x.2.2) with
          step := BitVec.ofInt 8 ((s.hdrAt (tagW x.1.tag) x.2.1 x.2.2 (g.2.1 + j * x.2.2)).stepInt + k) }
        else j < ((s.core g.1).anchors[kd.val]).count → (r g.1).slot j = ((s.core g.1).anchors[kd.val]).slot j) ∧
  (∀ (s : State) (f : VdsclF) (n t : Nat) (k : Int) (ext : Option AnchX) (len : Nat) (x : VIn) (kd : Fin 16) (b : Nat)
    (blk : Nat × Nat × Nat → Nat → List (Bool × Bool × Machine.Num)),
    s.AtVector (.reg f.d) → s.stepOp f.k = .ok (k, ext, false, len) → s.members.Nodup → s.cur.core ∈ s.members →
    s.vlen f.a.queue = .ok n → s.ReadsAll n f.a x → isCx x.tag = false → isDv x.tag = false → 4 ≤ b →
    (s.me.vregs[f.d.val]).bind = .anchor kd b → devTag ext tDv16 = .ok t → -128 ≤ k → k ≤ 127 →
    (∀ g ∈ s.slices (tagW t) n, ceilDiv g.2.2 b ≤ 256) → s.me.fctl / 256 % 32 = 0 →
    (∀ g j, blk g j = ((List.range (min b (g.2.2 - j * b))).map fun i => (s.isActive f.p (g.2.1 + j * b + i),
      x.valid.getD (g.2.1 + j * b + i) true, valueOf x.tag (x.bits.getD (g.2.1 + j * b + i) 0)))) →
    (∀ g ∈ s.slices (tagW t) n, ∀ j, j < ceilDiv g.2.2 b → ∀ r ∈ (reancBlock t b k (satOf ext) (blk g j)).1, ∀ a, r ≠ some (.error a)) →
    ∃ (res : List (Option ERes)) (u v : State) (r : Nat → AnchorReg), u = s.vdoneTo (.reg f.d) t n res [] (some (msOf ext)) [] f.a.queue len ∧
      exec (.reanc f) s = .next v ∧ SlotsWritten s u v kd r ∧
      ∀ g ∈ s.slices (tagW t) n, ∀ j, j < ceilDiv g.2.2 b →
        (∀ i y, (reancBlock t b k (satOf ext) (blk g j)).1[i]? = some (some (.ok y)) → res.getD (g.2.1 + j * b + i) none = some y) ∧
        (∀ h, (reancBlock t b k (satOf ext) (blk g j)).2 = some h →
          (r g.1).slot j = h ∧ h.stepInt = k ∧ h.gen = 0 ∧ h.flags = headerFlags t b)) ∧
  ReancBlocks ∧
  (∀ (s : State) (f : V1P) (n : Nat) (x : VIn × Fin 16 × Nat), s.AtVector f.d → s.vlen f.a.queue = .ok n → s.Bound n f.a x →
    s.me.fctl / 256 % 32 = 0 →
    ∃ res : List (Option ERes), exec (.vdwide f) s = .next (s.vdoneTo f.d tF64 n res [] none [] f.a.queue 4) ∧ ∀ e, e < n →
      AnchoredElem s f.p (fun e => s.hdrOk x e && x.1.valid.getD e true) res tF64 e (fun r =>
        r = (fRound tF64 (bits s.me.fctl 1 0) false ((s.hdrAt (tagW x.1.tag) x.2.1 x.2.2 e).anchored (devInt x.1 e))).res)) ∧
  (∀ (s : State) (f : VdfromF) (n t : Nat) (x : VIn) (kd : Fin 16) (b : Nat), s.AtVector (.reg f.d) → s.vlen f.a.queue = .ok n →
    s.ReadsAll n f.a x → x.tag = tF64 → (s.me.vregs[f.d.val]).bind = .anchor kd b → devTag f.ext tDv16 = .ok t →
    s.me.fctl / 256 % 32 = 0 →
    let at_ (e : Nat) : Machine.Num := Machine.Num.times (Machine.Num.plus (fDecode tF64 (x.bits.getD e 0)) (s.hdrAt (tagW t) kd b e).value.neg)
      (.fin false 1 (-(s.hdrAt (tagW t) kd b e).stepInt))
    (∀ e, e < n → s.isActive f.p e = true → (s.hdrAt (tagW t) kd b e).ok = true → x.valid.getD e true = true →
      satOf f.ext = true ∨ (satRound t (bits s.me.fctl 1 0) true (at_ e)).off = false) →
    ∃ res : List (Option ERes), exec (.vdfrom f) s =
        .next (s.vdoneTo (.reg f.d) t n res [] (some (msOf f.ext)) [] f.a.queue (lenOf f.ext)) ∧ ∀ e, e < n →
      AnchoredElem s f.p (fun e => (s.hdrAt (tagW t) kd b e).ok && x.valid.getD e true) res t e (fun r =>
        r = (satRound t (bits s.me.fctl 1 0) true (at_ e)).res))

namespace Sys2Proof
namespace Machine

/-- The modes that R303 allows: scalar entries of any tag to sh8, and short vectors of 2, 4 or 8 elements. -/
def LegalMode (n : Nat) : Prop :=
  let tag := n % 32
  let shape := n / 32 % 8
  let byte := tag = tI8 ∨ tag = tN8 ∨ tag = tSh8
  let half := tag = tI16 ∨ tag = tN16 ∨ tag = tF16 ∨ tag = tBf16
  n < 2 ^ 13 ∧ ((shape = 0 ∧ 1 ≤ tag ∧ tag ≤ 0x0E) ∨ (shape = 1 ∧ (byte ∨ half ∨ tag = tI32 ∨ tag = tN32 ∨ tag = tF32)) ∨
    (shape = 2 ∧ (byte ∨ half)) ∨ (shape = 3 ∧ byte))

/-- A bank has a new version (R299): the copy that held the older one takes the current copy as f changes it. -/
def Core.withVersion (c : Core) (cb : Fin 8) (busy : Bool) (f : BankCopy → BankCopy) : Core :=
  { c with banks := c.banks.set cb.val { cur := { f (c.banks[cb.val]).cur with ver := (c.banks[cb.val]).cur.ver + 1 }
                                         other := (c.banks[cb.val]).cur, busy := busy } }

/-- X is at cbx, and its source is a codebook source of n elements whose bank is loaded: c is the copy that holds its version (R304,
R306). -/
structure State.AtCbx (s : State) (f : V1P) (n : Nat) (x : VIn) (cb : Fin 8) (off : Nat) (c : BankCopy) : Prop where
  side  : s.cur.side = .X
  name  : s.srcName f.a = .ok ()
  dname : s.dstName f.d = .ok ()
  room  : s.destReady f.d = .ok ()
  one   : s.isLong s.cur.core = false
  len   : s.vlen f.a.queue = .ok n
  small : n ≤ 2 ^ 32
  src   : s.vraw n f.a = .ok x
  cx    : isCx x.tag = true
  bits  : x.bits.length = n
  valid : x.valid.length = n
  bind  : x.bind = .codebook cb off
  copy  : c = (s.me.banks[cb.val]).copyAt (versOf (x.versAt 0) cb)
  idle  : (s.me.banks[cb.val]).busy = false ∨ (s.me.banks[cb.val]).cur.ver.val ≠ versOf (x.versAt 0) cb

/-- The entry that element e of a codebook source reads (R50). -/
def entryOf (x : VIn) (off e : Nat) : Nat := (if x.tag = tCx4 then off + x.bits.getD e 0 else x.bits.getD e 0) % 256

end Machine
end Sys2Proof

/-- cbld, CBLD_COMPLETE, cbinv, cbmode, cbst and cbx (R50, R57, R299 to R306): a version is made at issue and loaded from 2 KiB, a dword
an event; entries lose
their valid bits; a mode is taken, or ILLEGAL; the state of a bank is read; each active index expands to the elements of its entry,
and an invalid entry raises CBIDX under FAULT and gives zero under ZERO. -/
def Obligations.CodebookBanksAndExpansion : Prop :=
  (∀ (s : State) (f : CbldF) (ea : Word) (owner : Nat) (ps : List Place) (ds : List Piece), s.cur.side = .A → s.me.cbld = none →
    s.eaOff f.a f.off = .ok ea → canonical ea.toNat = true → ea.toNat % 64 = 0 →
    (ea.toNat / 2 ^ 56 = 1 ∧ owner = s.cur.core) ∨
      (ea.toNat / 2 ^ 56 = 2 ∧ owner = s.cur.core / 256 * 256 + ea.toNat / 2 ^ 21 % 256 ∧ owner ∈ s.gang s.cur.core) →
    ds = (List.range 32).map (fun i => ({ idx := i, addr := ea + BitVec.ofNat 64 (64 * i), size := 64 } : Piece)) →
    s.pieces .read ds = (ps, none) → s.quiet (s.spansAt ps ds) = .ok () →
    s.cardsOver s.cur.core [({ cb := f.cb, keys := s.spansAt ps ds, got := [], core := owner, off := ea.toNat % 2 ^ 21, len := lenOf f.off }
      : CbldSt).span] = [] → s.me.pin2 f.cb = false → s.Steady →
    ∃ t, exec (.cbld f) s = .next t ∧ Becomes s t { s.me.withVersion f.cb true id with
      cbld := some { cb := f.cb, keys := s.spansAt ps ds, got := [], core := owner, off := ea.toNat % 2 ^ 21, len := lenOf f.off } }) ∧
  (∀ (s : State) (c : CoreId) (st : CbldSt) (bs : List Byte), (s.core c.no).cbld = some st →
    bs = st.got ++ Memory.readN s.mem ((st.keys.getD (st.got.length / 8 / 8) (0, 0)).1 + 8 * (st.got.length / 8 % 8)) 8 →
    (bs.length < 2048 → ∃ t, exec (.cbldComplete c) s = .next t ∧
      CoreBecomes c.no s t { s.core c.no with cbld := some { st with got := bs } }) ∧
    (bs.length = 2048 → ∃ (t : State) (b : BankCopy), exec (.cbldComplete c) s = .next t ∧ CoreBecomes c.no s t { s.core c.no with
        banks := (s.core c.no).banks.set st.cb.val { (s.core c.no).banks[st.cb.val] with cur := b, busy := false }
        cbld := none, av := (s.core c.no).av.advance st.len } ∧
      b.ver = ((s.core c.no).banks[st.cb.val]).cur.ver ∧ b.mode = ((s.core c.no).banks[st.cb.val]).cur.mode ∧
      ∀ i, i < 256 → b.valid.getD i false = true ∧ (b.ents.getD i 0).toNat = leNat ((bs.drop (8 * i)).take 8))) ∧
  (∀ (s : State) (cb : Fin 8) (a : SrcR) (first count : Nat), s.cur.side = .A → s.Has a.r → first = (s.val a.r).toNat % 256 →
    count = (s.val a.r).toNat / 256 % 512 →
    ((s.val a.r).toNat < 2 ^ 17 → first + count ≤ 256 →
      (count = 0 → ∃ t, exec (.cbinv cb a) s = .next t ∧ SideEffect s t (s.mySide.spent.advance 4)) ∧
      (count ≠ 0 → s.me.pin2 cb = false → s.Steady → ∃ (t : State) (v : List Bool), exec (.cbinv cb a) s = .next t ∧
        Becomes s t ((s.me.withVersion cb false (fun b => { b with valid := v })).setSide .A (s.mySide.spent.advance 4)) ∧
        ∀ i, i < 256 → v.getD i false = (((s.me.banks[cb.val]).cur.valid.getD i false) && !decide (first ≤ i ∧ i < first + count)))) ∧
    (2 ^ 17 ≤ (s.val a.r).toNat ∨ 256 < first + count → s.CanTrap →
      ∃ t, exec (.cbinv cb a) s = .next t ∧ TrapTaken s t 0x01 (einfoAux 0))) ∧
  (∀ (s : State) (cb : Fin 8) (a : RegOrImm) (v : Word), s.cur.side = .A → s.regOrImmZ a = .ok v →
    (LegalMode v.toNat → s.me.pin2 cb = false → s.Steady → ∃ t, exec (.cbmode cb a) s = .next t ∧
      Becomes s t ((s.me.withVersion cb false (fun b => { b with mode := v.toNat })).setSide .A (s.mySide.spent.advance a.len))) ∧
    (¬ LegalMode v.toNat → s.CanTrap → ∃ t, exec (.cbmode cb a) s = .next t ∧ TrapTaken s t 0x01 (einfoAux 0)) ∧
    (LegalMode v.toNat → s.me.pin2 cb = true → exec (.cbmode cb a) s = .next s)) ∧
  (∀ (s : State) (d : RegNo) (cb : Fin 8), s.cur.side = .A → s.Has d → ∃ (t : State) (v : Word), exec (.cbst d cb) s = .next t ∧
    ScalarEffect s t d v (s.mySide.spent.advance 4) ∧ v.toNat % 16 = (s.me.banks[cb.val]).cur.ver.val ∧
    v.toNat / 16 % 16 = (s.me.banks[cb.val]).other.ver.val ∧ v.getLsbD 8 = s.me.pin2 cb ∧
    v.getLsbD 9 = s.me.pinned cb (s.me.banks[cb.val]).cur.ver.val ∧ v.getLsbD 10 = (s.me.banks[cb.val]).busy ∧ v.toNat < 2 ^ 11) ∧
  (∀ (s : State) (f : V1P) (n mode : Nat) (x : VIn) (es : List (List Nat)) (sets : List (Fin 16 × Nat)), s.AtVector f.d → s.srcName f.a = .ok () →
    s.vlen f.a.queue = .ok n → s.vraw n f.a = .ok x → isCx x.tag = true → s.cur.core ∈ s.members →
    s.expandAll (s.active f.p n) x = .ok (mode, es, sets) →
    (∀ g ∈ s.slices (tagW x.tag) n, g.2.2 * 2 ^ (mode / 32 % 8) ≤ s.me.vlMaxW (tagW (modeTag mode))) →
    ∃ t, exec (.cbx f) s = .next t ∧ WentOn s t (s.mySide.spent.advance 4) ∧ ∀ n, n ∉ s.members → t.core n = s.core n) ∧
  (∀ (s : State) (f : V1P) (n : Nat) (x : VIn) (cb : Fin 8) (off : Nat) (c : BankCopy) (w k : Nat), s.AtCbx f n x cb off c →
    w = tagW (modeTag c.mode) → k = 2 ^ (c.mode / 32 % 8) →
    (modeZero c.mode = true ∨
        (∀ e, e < n → s.isActive f.p e = true → x.valid.getD e true = true → c.valid.getD (entryOf x off e) false = true) →
      n * k ≤ s.me.vlMaxW w →
      ∃ (xs : List (Option (Word × Bool))) (sets : List (Fin 16 × Nat)) (u : State),
        s.putEach f.d (modeTag c.mode) [x] [(s.cur.core, xs)] = .ok u ∧
        exec (.cbx f) s = .next (((u.setMe ((if (List.range n).any (fun e => s.isActive f.p e && !x.valid.getD e true) then u.me.seen
          else u.me).setMasks sets)).popLq f.a.queue).retireV 4) ∧ xs.length = n * k ∧
        (∀ p : Fin 16 × Nat, p ∈ sets ↔ p.1 = modeMz c.mode ∧ p.1 ≠ 0 ∧ p.2 < n ∧ s.isActive f.p p.2 = true ∧
          x.valid.getD p.2 true = true ∧ c.valid.getD (entryOf x off p.2) false = false) ∧
        ∀ e j, e < n → j < k →
          (s.isActive f.p e = false → xs.getD (e * k + j) none = none) ∧
          (s.isActive f.p e = true → x.valid.getD e true = false →
            xs.getD (e * k + j) none = some (BitVec.ofNat 64 (zeroBits (modeTag c.mode)), false)) ∧
          (s.isActive f.p e = true → x.valid.getD e true = true → c.valid.getD (entryOf x off e) false = false →
            xs.getD (e * k + j) none = some (BitVec.ofNat 64 (zeroBits (modeTag c.mode)), true)) ∧
          (s.isActive f.p e = true → x.valid.getD e true = true → c.valid.getD (entryOf x off e) false = true →
            xs.getD (e * k + j) none =
              some (BitVec.ofNat 64 ((c.ents.getD (entryOf x off e) 0).toNat / 2 ^ (j * w) % 2 ^ w), true))) ∧
    (∀ e, e < n → n < 2 ^ 32 → modeZero c.mode = false → s.isActive f.p e = true → x.valid.getD e true = true →
      c.valid.getD (entryOf x off e) false = false →
      (∀ i, i < e → s.isActive f.p i = true → x.valid.getD i true = true → c.valid.getD (entryOf x off i) false = true) → s.CanTrap →
      ∃ t, exec (.cbx f) s = .next t ∧
        TrapTaken s t 0x0F (BitVec.ofNat 64 ((cb.val * 256 + entryOf x off e) * 2 ^ 32 + e))) ∧
    (∀ e : Nat, e < n → modeZero c.mode = true → n * k ≤ s.me.vlMaxW w → modeMz c.mode ≠ 0 → s.isActive f.p e = true →
      x.valid.getD e true = true → c.valid.getD (entryOf x off e) false = false →
      ∃ t, exec (.cbx f) s = .next t ∧ bit (t.me.masks[(modeMz c.mode).val]) e = true ∧
        ∀ v j, f.d = .reg v → n * k ≤ s.me.capW w → j < k → (t.me.vregs[v.val]).tag.val = modeTag c.mode ∧
          (t.me.vregs[v.val]).valid.getD (e * k + j) true = true ∧
          ((t.me.vregs[v.val]).elems.getD (e * k + j) 0).toNat = zeroBits (modeTag c.mode)))

namespace Sys2Proof
namespace Machine

/-- The configuration word of R307, field by field. -/
structure McfgWord (n : Nat) (c : MCfg) : Prop where
  p    : c.p = n % 32
  btag : c.btag.val = n / 2 ^ 5 % 32
  bank : c.bank.val = n / 2 ^ 10 % 8
  off  : c.off = 16 * (n / 2 ^ 13 % 16)
  rows : c.rows = n / 2 ^ 17 % 8 + 1

/-- What R307 calls ILLEGAL in a configuration word. -/
def McfgBad (n : Nat) : Prop := n % 32 = 0 ∨ 16 < n % 32 ∨ 96 < n % 32 * (n / 2 ^ 17 % 8 + 1) ∨ 2 ^ 20 ≤ n

/-- The weight tags that R307 allows. -/
def McfgTag (n : Nat) : Prop :=
  n / 2 ^ 5 % 32 = tI4 ∨ n / 2 ^ 5 % 32 = tI8 ∨ n / 2 ^ 5 % 32 = tSh8 ∨ n / 2 ^ 5 % 32 = tCx4 ∨ n / 2 ^ 5 % 32 = tCx8

/-- A row spec (R313). -/
structure RowSpec (v : Word) (row0 count : Nat) : Prop where
  zero  : v.toNat < 2 ^ 14 ∧ v.toNat / 64 % 4 = 0
  first : row0 = v.toNat % 64
  rows  : count = v.toNat / 256 % 64 + 1
  fits  : row0 + count ≤ 64

/-- No macro-operation of a core writes a tile of a mask. -/
def Core.tilesFree (c : Core) (mask : Nat) : Prop :=
  ∀ m ∈ c.mops, ∀ i, i < m.cfg.rows → bit mask (m.t + i) = false

/-- mmp passes the checks of R308: the configuration, tiles, K, and both operands. -/
structure State.MmpOk (s : State) (f : MmpF) (cfg : MCfg) (a b k : Word) : Prop where
  side  : s.cur.side = .A
  free  : ∀ m ∈ s.me.mops, m.compat = none
  conf  : s.me.mcfg = some cfg
  tiles : f.t.val + cfg.rows ≤ 8
  srcA  : s.Has f.a.r ∧ a = s.val f.a.r
  srcB  : s.Has f.b.r ∧ b = s.val f.b.r
  srcK  : s.vidxZ f.k = .ok k
  steps : k.toNat ≠ 0 ∧ k.toNat % 16 = 0 ∧ k.toNat ≤ 8192
  sel   : a.toNat / 2 ^ 56 = 1 ∧ canonical a.toNat = true ∧ b.toNat / 2 ^ 56 = 1 ∧ canonical b.toNat = true
  align : a.toNat % 128 = 0 ∧ b.toNat % 128 = 0
  aFits : s.inResv a (cfg.rows * (k.toNat / 16) * cfg.p * 128) = true
  bFits : s.inResv b (weightBytes k.toNat (weightShape cfg.btag.val (s.me.banks[cfg.bank.val]).cur.mode)) = true
  mode  : isCx cfg.btag.val = true → weightMode (s.me.banks[cfg.bank.val]).cur.mode = true
  valid : isCx cfg.btag.val = true → modeZero (s.me.banks[cfg.bank.val]).cur.mode = false →
    (s.me.banks[cfg.bank.val]).cur.firstBad cfg.btag.val cfg.off = none

end Machine
end Sys2Proof

/-- mcfg, mcfg.d, mmp, mzero, mlive, mdrain and mchk (R307, R308, R313, R315, R316, R394, R395): a configuration is installed, its checks in
their order; a macro-operation is queued with its tiles live, or retires at once for K = 0, or traps; tiles are zeroed; MLIVE is
written; rows of a tile fill an entry; a check descriptor is installed. -/
def Obligations.MatrixCommandsOfTheASide : Prop :=
  (∀ (s : State) (a : RegOrImm) (v : Word) (d : Bool), s.cur.side = .A → s.regOrImmZ a = .ok v →
    (¬ McfgBad v.toNat → McfgTag v.toNat → s.me.mops = [] → s.Steady →
      (d = false → s.me.mlive = 0 → ∃ (t : State) (c : MCfg), exec (.mcfg a) s = .next t ∧ McfgWord v.toNat c ∧
        Becomes s t ({ s.me with mcfg := some c }.setSide .A (s.mySide.advance a.len))) ∧
      (d = true → s.claimsPushed = .ok () → ∃ (t : State) (c : MCfg), exec (.mcfgD a) s = .next t ∧ McfgWord v.toNat c ∧
        Becomes s t ({ s.me with mcfg := some c, mlive := 0, tiles := t.me.tiles }.setSide .A (s.mySide.advance a.len)) ∧
        ∀ i : Fin 8, (s.me.mlive.getLsbD i.val = true → ∀ x ∈ t.me.tile i, x = 0) ∧
          (s.me.mlive.getLsbD i.val = false → t.me.tile i = s.me.tile i))) ∧
    (McfgBad v.toNat → s.CanTrap → ∃ t, exec (if d then .mcfgD a else .mcfg a) s = .next t ∧ TrapTaken s t 0x01 (einfoAux 0)) ∧
    (¬ McfgBad v.toNat → ¬ McfgTag v.toNat → s.CanTrap →
      ∃ t, exec (if d then .mcfgD a else .mcfg a) s = .next t ∧ TrapTaken s t 0x05 (einfoAux 0)) ∧
    (¬ McfgBad v.toNat → McfgTag v.toNat → s.me.mlive ≠ 0 → s.CanTrap →
      ∃ t, exec (.mcfg a) s = .next t ∧ TrapTaken s t 0x10 (einfoAux s.me.mlive.toNat))) ∧
  (∀ (s : State) (f : MmpF) (cfg : MCfg) (a b k : Word), s.MmpOk f cfg a b k → s.me.mops.length < 2 → s.claimsPushed = .ok () →
    s.Steady → s.me.mcompat = false → (∀ x ∈ s.me.mops, x.granted = true ∨ s.me.wktHeld = none) →
    ∃ (t : State) (m : MacroOp), exec (.mmp f) s = .next t ∧ t.me.mops = s.me.mops ++ [m] ∧ m.id = s.me.nextId ∧ m.t = f.t.val ∧
      m.a = a.toNat % 2 ^ 21 ∧ m.b = b.toNat % 2 ^ 21 ∧ m.k = k.toNat ∧ m.cfg = cfg ∧ m.run = false ∧
      m.ver = (s.me.banks[cfg.bank.val]).cur.ver ∧ m.chk = s.me.chk ∧
      t.me = { s.me with
        nextId := s.me.nextId + 1, mlive := t.me.mlive, mops := t.me.mops, wktHeld := t.me.wktHeld, av := s.mySide.advance f.k.len } ∧
      (∀ i, i < 8 → t.me.mlive.getLsbD i = (s.me.mlive.getLsbD i || decide (f.t.val ≤ i ∧ i < f.t.val + cfg.rows))) ∧
      (∀ n, n ≠ s.cur.core → t.core n = s.core n) ∧ { t with cores := s.cores, panes := s.panes } = s) ∧
  (∀ (s : State) (f : MmpF) (cfg : MCfg), s.cur.side = .A → (∀ m ∈ s.me.mops, m.compat = none) → s.me.mcfg = some cfg →
    f.t.val + cfg.rows ≤ 8 → s.Has f.a.r → s.Has f.b.r →
    (s.vidxZ f.k = .ok 0 → ∃ t, exec (.mmp f) s = .next t ∧ SideEffect s t (s.mySide.advance f.k.len)) ∧
    ∀ k, s.vidxZ f.k = .ok k → k.toNat % 16 ≠ 0 ∨ 8192 < k.toNat → s.CanTrap →
      ∃ t, exec (.mmp f) s = .next t ∧ TrapTaken s t 0x01 (einfoAux (k.toNat % 2 ^ 28))) ∧
  (∀ (s : State) (f : MmpF), s.cur.side = .A → (∀ m ∈ s.me.mops, m.compat = none) → s.Has f.a.r → s.Has f.b.r →
    (∃ k, s.vidxZ f.k = .ok k) → s.me.mcfg = none ∨ (∃ cfg, s.me.mcfg = some cfg ∧ 8 < f.t.val + cfg.rows) → s.CanTrap →
    ∃ t, exec (.mmp f) s = .next t ∧ TrapTaken s t 0x01 (einfoAux 0)) ∧
  (∀ (s : State) (a : RegOrImm) (v : Word), s.cur.side = .A → s.regOrImmZ a = .ok v →
    (v.toNat < 256 → s.me.tilesFree v.toNat → s.claimsPushed = .ok () → s.Steady → ∃ t, exec (.mzero a) s = .next t ∧
      Becomes s t ({ s.me with tiles := t.me.tiles, mlive := s.me.mlive &&& ~~~(v.setWidth 8) }.setSide .A (s.mySide.advance a.len)) ∧
      ∀ i : Fin 8, (v.getLsbD i.val = true → ∀ x ∈ t.me.tile i, x = 0) ∧ (v.getLsbD i.val = false → t.me.tile i = s.me.tile i)) ∧
    (v.toNat < 256 → s.me.mops = [] → s.claimsPushed = .ok () → s.Steady → ∃ t, exec (.mlive a) s = .next t ∧
      Becomes s t ({ s.me with mlive := v.setWidth 8 }.setSide .A (s.mySide.advance a.len))) ∧
    (256 ≤ v.toNat → s.CanTrap → (∃ t, exec (.mzero a) s = .next t ∧ TrapTaken s t 0x01 (einfoAux 0)) ∧
      ∃ t, exec (.mlive a) s = .next t ∧ TrapTaken s t 0x01 (einfoAux 0))) ∧
  (∀ (s : State) (f : MdrainF) (v : Word) (row0 count : Nat), s.cur.side = .A → s.regOrImmZ f.spec = .ok v → RowSpec v row0 count →
    128 * count ≤ s.me.vlMaxW 32 → s.me.tilesFree (2 ^ f.t.val) → (s.me.lq[f.q.val]).ents.length < 8 → s.claimsPushed = .ok () →
    s.Steady → (∀ e ∈ (s.me.lq[f.q.val]).ents, e.id ≠ s.me.nextId) →
    ∃ (t : State) (e : Entry), exec (.mdrain f) s = .next t ∧
      Becomes s t ({ s.me with
        nextId := s.me.nextId + 1
        lq := s.me.lq.set f.q.val { ents := (s.me.lq[f.q.val]).ents ++ [e]
                                    ctr := (s.me.lq[f.q.val]).ctr + BitVec.ofNat 32 (groups (128 * count) 32) } }.setSide .A
          (s.mySide.advance f.spec.len)) ∧
      e.n = 128 * count ∧ e.tag.val = tI32 ∧ e.kind = .data ∧ e.ready = true ∧ e.base = (s.me.lq[f.q.val]).ctr ∧
      ∀ i, i < 128 * count → e.elems.getD i 0 = ((s.me.tile f.t).getD (128 * row0 + i) 0).zeroExtend 64 ∧ e.valid.getD i false = true) ∧
  (∀ (s : State) (a : SrcR) (off : Option (BitVec 32)) (ea : Word) (p : Place) (bs : List Byte), s.cur.side = .A →
    s.eaOff a off = .ok ea → canonical ea.toNat = true → ea.toNat % 32 = 0 → ea.toNat / 2 ^ 56 = 1 →
    s.place (s.how .read true 32) ea = .ok p → s.quiet [(s.keyOf p, 32)] = .ok () → s.Steady → bs = Memory.readN s.mem (s.keyOf p) 32 →
    (cardFld bs 0x10 1 ≤ 15 → 1 ≤ cardFld bs 0x11 1 → cardFld bs 0x11 1 ≤ 24 → cardFld bs 0x12 1 < 2 → cardFld bs 0x13 13 = 0 →
      ∃ (t : State) (d : ChkDesc), exec (.mchk a off) s = .next t ∧
        Becomes s t ({ s.me with chk := some d, sampleCtr := 0, chkcfg := t.me.chkcfg }.setSide .A (s.mySide.advance (lenOf off))) ∧
        d.acopy.toNat = leNat (bs.take 8) ∧ d.bcopy.toNat = leNat ((bs.drop 8).take 8) ∧ d.n = cardFld bs 0x10 1 ∧
        d.e = cardFld bs 0x11 1 ∧ d.qen = (cardFld bs 0x12 1 == 1) ∧ t.me.chkcfg.toNat % 2 ^ 8 = d.n ∧
        t.me.chkcfg.toNat / 2 ^ 8 % 2 ^ 8 = d.e ∧ t.me.chkcfg.getLsbD 63 = d.qen ∧ t.me.chkcfg.getLsbD 62 = s.me.chkcfg.getLsbD 62) ∧
    (15 < cardFld bs 0x10 1 ∨ cardFld bs 0x11 1 = 0 ∨ 24 < cardFld bs 0x11 1 ∨ 2 ≤ cardFld bs 0x12 1 ∨ cardFld bs 0x13 13 ≠ 0 →
      s.CanTrap → ∃ t, exec (.mchk a off) s = .next t ∧ TrapTaken s t 0x01 (einfoAux 0)))

/-- MACRO_OP_START, MACRO_OP_K_STEP, MACRO_OP_COMPLETE, SAMPLE_CHECK_RESULT, tget and tfill (R51 to R53, R309, R311, R314, R315, R317): the
first macro-operation starts with its louvre, adds a K-step to each tile element and clamps the sum, and completes; a sample is counted;
rows of a tile go to elements, and elements to rows. What the event of a failed sample does not get from the manual is the model's choice
(log entry 44). -/
def Obligations.MacroOperationsAndTiles : Prop :=
  (∀ (s : State) (c : CoreId) (m : MacroOp) (ms : List MacroOp), (s.core c.no).mops = m :: ms → m.run = false →
    (m.granted = true → s.mayRetract c.no m.id = false → (∀ k ∈ (s.pane c.pane.val).cards, k.id ∉ m.waits) → m.before = [] →
      ∃ t, exec (.macroOpStart c) s = .next t ∧ CoreBecomes c.no s t { s.core c.no with
        mops := { m with run := true, before := (s.core c.no).mopTiles m } :: ms }) ∧
    (m.granted = false → exec (.macroOpStart c) s = .next s)) ∧
  (∀ (s : State) (c : CoreId) (m : MacroOp) (ms : List MacroOp), (s.core c.no).mops = m :: ms → m.run = true → m.compat = none →
    m.t + m.cfg.rows ≤ 8 → (∀ i : Fin 8, ((s.core c.no).tile i).length = 8192) → (s.core c.no).mstep < m.k / 16 →
    ∃ t, exec (.macroOpKStep c) s = .next t ∧ OnlyCore c.no s t ∧
      t.core c.no = { s.core c.no with
        tiles := (t.core c.no).tiles, msat := (t.core c.no).msat, mstep := (s.core c.no).mstep + 1 } ∧
      (∀ i : Fin 8, i.val < m.t ∨ m.t + m.cfg.rows ≤ i.val → (t.core c.no).tile i = (s.core c.no).tile i) ∧
      ∀ i r col, i < m.cfg.rows → r < 64 → col < 128 →
        (((t.core c.no).tile (Fin.ofNat 8 (m.t + i))).getD (128 * r + col) 0).toInt =
          max (-2147483648) (min 2147483647 ((((s.core c.no).tile (Fin.ofNat 8 (m.t + i))).getD (128 * r + col) 0).toInt +
            ((List.range 16).map fun j =>
              s.planeValue c.no m.a m.cfg.p (m.k / 16) i (s.core c.no).mstep r j *
                ((s.weights c.no m (s.core c.no).mstep).getD (j * 128 + col) (0, false)).1).foldl (· + ·) 0))) ∧
  (∀ (s : State) (core base p ksteps m k r i : Nat) (half : Nat → Nat), 1 ≤ p →
    (∀ j, half j = s.spadByte core (base + ((m * ksteps + k) * p + j) * 128 + 2 * r) +
      256 * s.spadByte core (base + ((m * ksteps + k) * p + j) * 128 + 2 * r + 1)) →
    s.planeValue core base p ksteps m k r i = ((List.range (p - 1)).map fun j =>
      if bit (half j) i then ((2 ^ j : Nat) : Int) else 0).foldl (· + ·) (if bit (half (p - 1)) i then -((2 ^ (p - 1) : Nat) : Int) else 0)) ∧
  (∀ (s : State) (c : CoreId) (m : MacroOp) (ms : List MacroOp), (s.core c.no).mops = m :: ms → m.run = true →
    (m.compat = none → m.k / 16 ≤ (s.core c.no).mstep → m.chk = none ∨ (∃ d, m.chk = some d ∧ d.n = 0) →
      exec (.macroOpComplete c) s = .next ((s.setCore c.no { s.core c.no with mops := ms, mstep := 0 }).askMop c.no)) ∧
    (∀ len, m.compat = some len → 64 * m.cfg.rows ≤ (s.core c.no).av.vstart.toNat → m.chk = none ∨ (∃ d, m.chk = some d ∧ d.n = 0) →
      exec (.macroOpComplete c) s = .next ((s.setCore c.no { s.core c.no with
        mops := ms, mstep := 0, av := SideSt.advance { (s.core c.no).av with vstart := 0 } len }).askMop c.no)) ∧
    (∀ d, m.compat = none → m.k / 16 ≤ (s.core c.no).mstep → m.chk = some d → (s.core c.no).chk = some d → d.n ≠ 0 → m.cfg.rows = 1 → ms = [] →
      s.pendingSamples c.no < 255 → ((s.core c.no).sampleCtr + 1) % 2 ^ d.n = 0 →
      ∃ (t : State) (x : Sample), exec (.macroOpComplete c) s = .next t ∧
        t.core c.no = { s.core c.no with mops := [], mstep := 0, sampleCtr := (s.core c.no).sampleCtr + 1 } ∧
        (t.pane c.pane.val).samples = (s.pane c.pane.val).samples ++ [x] ∧ x.core = c.no ∧ x.tile = m.t ∧ x.k = m.k ∧ x.chk = d ∧
        x.delta = (((s.core c.no).tile (Fin.ofNat 8 m.t)).zip (m.before.getD 0 [])).map (fun p => p.1.toInt - p.2.toInt) ∧
        (∀ n, n ≠ c.no → t.core n = s.core n) ∧ { t with cores := s.cores, panes := s.panes } = s)) ∧
  (∀ (s : State) (pane : Fin 8) (x : Sample) (xs : List Sample) (k c : Nat) (tk : Task), (s.pane pane.val).samples = x :: xs →
    x.task = some k → s.task k = some tk → tk.cores[x.gpos]? = some c →
    ∃ (u t : State), u.core c = { s.core c with
        chkfail := (u.core c).chkfail, av := { (s.core c).av with asyncs := (u.core c).av.asyncs } } ∧
      (∀ n, n ≠ c → u.core n = s.core n) ∧ { u with cores := s.cores, panes := s.panes } = s ∧
      (u.pane pane.val).samples = xs ∧ exec (.sampleCheckResult pane) s = .next t ∧
      (u.core c).chkfail.toNat / 2 ^ 32 = ((s.core c).chkfail.toNat / 2 ^ 32 + 1) % 2 ^ 32 ∧
      (s.sampleFails x = false → t = u ∧ (u.core c).av = (s.core c).av ∧
        (u.core c).chkfail.toNat % 2 ^ 32 = (s.core c).chkfail.toNat % 2 ^ 32) ∧
      (s.sampleFails x = true → t = u.logEvent 6 (pane.val * 2 ^ 13 + 2 ^ 12 + 4) 0xFF x.tile 0 tk.cont.taskid.toNat 0x18 ∧
        (u.core c).chkfail.toNat % 2 ^ 32 = min ((s.core c).chkfail.toNat % 2 ^ 32 + 1) (2 ^ 32 - 1) ∧
        (u.core c).av.asyncs = (if (s.core c).chkcfg.getLsbD 63 then (s.core c).av.asyncs ++ [.quality x.tile] else (s.core c).av.asyncs))) ∧
  (∀ (s : State) (d : VDst) (tl : Fin 8) (spec : VIdx) (v : Word) (row0 count : Nat), s.AtVector d → s.vidxZ spec = .ok v →
    RowSpec v row0 count → 128 * count ≤ s.me.vlMaxW 32 → s.tileSettled tl = .ok () → s.members.Nodup → s.cur.core ∈ s.members →
    ∃ t, exec (.tget d tl spec) s = .next t ∧
      MembersBecome s t spec.len (fun g => { s.core g with vregs := (t.core g).vregs, sq := (t.core g).sq }) ∧
      ∀ g ∈ s.members, PartWritten s t d tI32
        ((((s.core g).tile tl).drop (128 * row0)).take (128 * count) |>.map fun x => some (ERes.plain x.toNat true))
        (g, 0, 128 * count)) ∧
  (∀ (s : State) (tl : Fin 8) (spec : VIdx) (r : RegNo) (v : Word) (row0 count : Nat), s.cur.side = .X → s.vreg r = .ok () →
    s.me.crecvs = [] → s.vidxZ spec = .ok v → RowSpec v row0 count → (s.me.vregs[r.val]).tag.val = tI32 →
    128 * count ≤ s.me.vlMaxW 32 → s.tileSettled tl = .ok () → s.members.Nodup → s.cur.core ∈ s.members →
    ∃ t, exec (.tfill tl spec (.reg r)) s = .next t ∧ (∀ n, n ∉ s.members → t.core n = s.core n) ∧
      { t with cores := s.cores, undefCtr := s.undefCtr } = s ∧ WentOn s t (s.mySide.spent.advance spec.len) ∧
      ∀ g ∈ s.members, t.core g = { s.core g with
          tiles := (t.core g).tiles, mlive := (s.core g).mlive ||| BitVec.ofNat 8 (2 ^ tl.val), xv := (t.core g).xv
          flight := (t.core g).flight } ∧
        (∀ i : Fin 8, i ≠ tl → (t.core g).tile i = (s.core g).tile i) ∧
        (((s.core g).tile tl).length = 8192 → ∀ e, e < 8192 →
          (e < 128 * row0 ∨ 128 * (row0 + count) ≤ e → ((t.core g).tile tl).getD e 0 = ((s.core g).tile tl).getD e 0) ∧
          ∀ i, e = 128 * row0 + i → i < 128 * count → i < (s.core g).capW 32 → ((t.core g).tile tl).getD e 0 =
            (if ((s.core g).vregs[r.val]).valid.getD i true then (((s.core g).vregs[r.val]).elems.getD i 0).setWidth 32 else 0))) ∧
  (∀ (s : State) (tl : Fin 8) (spec : VIdx) (q : Fin 4) (x : Entry) (v : Word) (row0 count n : Nat), s.cur.side = .X →
    s.isLong s.cur.core = false → s.me.crecvs = [] → s.vidxZ spec = .ok v → RowSpec v row0 count → s.vlen (some q) = .ok n →
    (s.me.lq[q.val]).ents.head? = some x → x.tag.val = tI32 → 128 * count ≤ s.me.vlMaxW 32 → s.tileSettled tl = .ok () →
    (s.me.tile tl).length = 8192 →
    ∃ t, exec (.tfill tl spec (.lq q)) s = .next t ∧
      t.me = { s.me with
        lq := s.me.lq.set q.val { s.me.lq[q.val] with ents := (s.me.lq[q.val]).ents.drop 1 }, popMark := t.me.popMark
        tiles := t.me.tiles, mlive := s.me.mlive ||| BitVec.ofNat 8 (2 ^ tl.val), xv := s.mySide.spent.advance spec.len
        flight := s.me.flight.drop 1 } ∧
      (∀ n, n ≠ s.cur.core → t.core n = s.core n) ∧ { t with cores := s.cores, undefCtr := s.undefCtr } = s ∧
      (∀ i : Fin 8, i ≠ tl → t.me.tile i = s.me.tile i) ∧
      ∀ i, i < 128 * count → i < x.n → (t.me.tile tl).getD (128 * row0 + i) 0 =
        (if x.valid.getD i true then (x.elems.getD i 0).setWidth 32 else 0))

namespace Sys2Proof
namespace Machine

/-- The card that cpy or xform copies from its 128 bytes (R111), before its edges. -/
def State.newCard (s : State) (key : Nat) (bs : List Byte) : Card :=
  { id := s.nextCard, core := s.cur.core, seq := s.me.nextId, task := s.me.task, key := key, bytes := bs, asid := s.me.asid.toNat
    super := s.mySide.super, chunk := cardFld bs 0x0C 4, crc := if cardFld bs 0x0C 4 = 0 then 0 else BitVec.ofNat 32 (cardFld bs 0x70 4)
    table := [], tabled := false, out := 0, edges := [], louv := false, mids := [], phase := .accepted, asked := [] }

/-- The A-side is at cpy or xform, and the 128 bytes of its card can be read in its own scratchpad (R111). -/
structure State.AtCard (s : State) (a : RegNo) (key : Nat) (bs : List Byte) : Prop where
  side  : s.cur.side = .A
  reg   : s.Has a
  canon : canonical (s.val a).toNat = true
  align : (s.val a).toNat % 64 = 0
  sel   : (s.val a).toNat / 2 ^ 56 = 1
  first : s.place (s.how .read true 64) (s.val a) = .ok (.mem key)
  last  : ∃ p, s.place (s.how .read true 64) (s.val a + 64) = .ok p
  quiet : s.quiet [(key, 128)] = .ok ()
  bytes : bs = Memory.readN s.mem key 128

/-- The card passes the checks of its regions, its table, its chain and its arrival word (R113, R127, R328); one of no chunk touches no
memory, so only its form and its word are checked (R25). -/
structure State.CardPasses (s : State) (k : Card) : Prop where
  res   : cardReserved k.bytes = true
  space : k.chunks = 0 ∨ ∀ r ∈ k.reads ++ k.writes, r.space ≠ 2 ^ 10 + 3
  src   : k.outside k.reads k.srcSpans = none
  dst   : k.outside k.writes k.dstSpans = none
  table : k.isCopy = true ∨ k.tblAddr = 0 ∨ k.chunks = 0 ∨
    (k.tblAddr % 16 = 0 ∧ k.outside k.reads [(BitVec.ofNat 64 k.tblAddr, 32)] = none ∧
      ∃ n, s.tblLen k = .ok n ∧ k.outside k.reads [(BitVec.ofNat 64 k.tblAddr, n)] = none)
  chain : k.isCopy = true ∨ k.chunks = 0 ∨ cardChainOk k.bytes = true
  aw    : k.aw = 0 ∨ ∃ p, s.syncPlace .write (BitVec.ofNat 64 k.aw) 16 = .ok p

end Machine
end Sys2Proof

/-- cpy, xform, CARD_DISPATCH, CHUNK_COMMIT, CARD_FAIL and CARD_COMPLETE (R111 to R118, R122, R123, R172, R328): a checked card enters the
window behind the cards it conflicts with; it starts or asks for louvres; a chunk is written, counted and reported; a failure is written
back and recorded; a completed card says so and leaves. Which fields of a card count as reserved, and where the checks of a table and of a
buffer's header are made, is the model's reading (log entry 17). -/
def Obligations.CardsAreCheckedRunAndReported : Prop :=
  (∀ (s : State) (a : RegNo) (key : Nat) (bs : List Byte) (kind p : Nat), s.MemOk → s.AtCard a key bs → kind = 1 ∨ kind = 2 →
    cardFld bs 0 1 = kind → s.CardPasses (s.newCard key bs) → p = s.cur.core / 256 → p < 8 → (s.pane p).cards.length < 64 →
    ∃ t, exec (if kind = 1 then .cpy a else .xform a) s = .next t ∧ Wrote s t (key + 0x74) [0, 0, 0, 0] ∧
      t.me = { s.me with nextId := s.me.nextId + 1, av := s.mySide.advance 4 } ∧ (∀ n, n ≠ s.cur.core → t.core n = s.core n) ∧
      t.nextCard = s.nextCard + 1 ∧ { t with cores := s.cores, panes := s.panes, mem := s.mem, nextCard := s.nextCard } = s ∧
      (∀ n, n ≠ p → t.pane n = s.pane n) ∧
      t.pane p = { s.pane p with cards := (s.pane p).cards ++ [{ s.newCard key bs with
        edges := ((s.pane p).cards.filter fun x => (s.newCard key bs).conflicts x).map fun x => x.id }] }) ∧
  (∀ (s : State) (a : RegNo) (kind : Nat), s.cur.side = .A → s.Has a → kind = 1 ∨ kind = 2 → s.CanTrap →
    (canonical (s.val a).toNat = true → (s.val a).toNat % 64 ≠ 0 →
      ∃ t, exec (if kind = 1 then .cpy a else .xform a) s = .next t ∧ TrapTaken s t 0x0A (infoA (s.val a) 0)) ∧
    (canonical (s.val a).toNat = true → (s.val a).toNat % 64 = 0 → (s.val a).toNat / 2 ^ 56 ≠ 1 →
      ∃ t, exec (if kind = 1 then .cpy a else .xform a) s = .next t ∧ TrapTaken s t 0x09 (infoA (s.val a) 0)) ∧
    ∀ key bs, s.AtCard a key bs → cardFld bs 0 1 ≠ kind ∨ cardReserved bs = false →
      ∃ t, exec (if kind = 1 then .cpy a else .xform a) s = .next t ∧ TrapTaken s t 0x01 (einfoAux 0)) ∧
  (∀ (s : State) (p : Fin 8) (n : Nat) (k : Card), s.cardAt p n = some k → s.cardReady p k = true → k.chunk < k.chunks →
    ((s.pane p.val).cards.filter fun x => x.phase.active).length < 3 →
    (∀ x ∈ (s.pane p.val).cards.take n, s.cardReady p x = false ∨ x.chunks ≤ x.chunk) →
    ((s.core k.core).wktHeld = none → s.takesAhead k.core k.seq = false → exec (.cardDispatch p n) s = .next
      ((s.setCard p { k with phase := .waiting }).askWicket k.core 2 (.card k.id))) ∧
    ((s.core k.core).wktHeld = none → s.takesAhead k.core k.seq = true → exec (.cardDispatch p n) s = .next
      (s.setCard p { k with phase := .waiting })) ∧
    (∀ m, (s.core k.core).wktHeld = some (false, m) → m ≤ k.seq → exec (.cardDispatch p n) s = .next
      (((s.setCore k.core { s.core k.core with wktHeld := none }).setCard p { k with phase := .waiting }).askWicket k.core 1 (.card k.id))) ∧
    (∀ m, (s.core k.core).wktHeld = some (true, m) → m ≤ k.seq → k.isCopy = true → k.tblAddr = 0 ∨ k.tabled = true →
      exec (.cardDispatch p n) s = .next ((s.setCore k.core { s.core k.core with wktHeld := none }).setCard p
        (if k.tabled then { k with louv := true, phase := .running }
         else { k with louv := true, phase := .running, table := [], out := 0, mids := [], tabled := true })))) ∧
  (∀ (s : State) (p : Fin 8) (n : Nat) (k k1 : Card), s.cardAt p n = some k → k.phase = .running → k.chunk < k.chunks →
    k.tabled = false → s.prepare k = .ok k1 → exec (.chunkCommit p n) s = .next (s.setCard p k1)) ∧
  (∀ (s : State) (p : Fin 8) (n : Nat) (k : Card) (d : ChunkData) (ws : List (Word × List Byte)) (u : State), s.cardAt p n = some k →
    k.phase = .running → k.tabled = true → k.chunk < k.chunks → s.chunkData k k.chunk = .ok d → s.chunkWrites k k.chunk d = .ok ws →
    (s.commitWrites p k ws = .ok (u, true) → ∃ (t : State) (crc : BitVec 32) (k1 : Card), exec (.chunkCommit p n) s = .next t ∧
      k1 = { s.placeAfter k d with chunk := k.chunk + 1, crc := crc, asked := [] } ∧ (d.crc = none → crc = k.crc) ∧
      (∀ bs, d.crc = some bs → crc.toNat = crc32c k.crc.toNat bs % 2 ^ 32) ∧
      t = (((u.setCard p k1).writeBack k1 0x0C 4 (k.chunk + 1)).writeBack k1 0x70 4 crc.toNat).cardArrives k1
        (if k.encodes then ws.foldl (fun n w => n + w.2.length) 0 else d.out.length)) ∧
    ∀ c b, s.commitWrites p k ws = .error (.fault c b) → ∃ t, exec (.chunkCommit p n) s = .next t ∧ t.mem = s.mem ∧
      (∀ m, t.core m = s.core m) ∧ (t.pane p.val).cards = (s.pane p.val).cards.map fun x =>
        if x.id == k.id then { k with phase := .failing c b } else x) ∧
  (∀ (s : State) (p : Fin 8) (k : Card) (key : Nat) (x : Word × List Byte) (ws : List (Word × List Byte)), s.MemOk →
    ws.flatMap cutWrite = [x] → s.enginePlace k .write x.1 = .ok (.mem key) → k.asked = [] →
    crossesPane k.core (key, x.2.length) = false → s.detTask k.core = none → ∃ u, s.commitWrites p k ws = .ok (u, true) ∧ Wrote s u key x.2 ∧ { u with mem := s.mem } = s) ∧
  (∀ (s : State) (p : Fin 8) (n c b : Nat) (k : Card), s.MemOk → s.cardAt p n = some k → k.phase = .failing c b →
    ∃ t, exec (.cardFail p n) s = .next t ∧ Memory.readN t.mem (k.key + 0x0C) 4 = leBytes 4 k.chunk ∧
      Memory.readN t.mem (k.key + 0x74) 4 = leBytes 4 (2 ^ 31 + 2 ^ 30 + c % 32) ∧
      (∀ j, j < k.key + 0x0C ∨ (k.key + 0x10 ≤ j ∧ j < k.key + 0x74) ∨ k.key + 0x78 ≤ j → Memory.read t.mem j = Memory.read s.mem j) ∧
      (t.pane p.val).cards = ((s.pane p.val).cards.filter fun x => x.id != k.id) ∧ (∀ m, t.core m = s.core m) ∧
      ∀ id tk, k.task = some id → s.task id = some tk → ∃ r : FailRec, t.task id = some { tk with fails := tk.fails ++ [r] } ∧
        r.cause = c ∧ r.chunk = k.chunk ∧ r.boff = b) ∧
  (∀ (s : State) (p : Fin 8) (n : Nat) (k : Card), s.MemOk → s.cardAt p n = some k → k.chunks ≤ k.chunk →
    k.phase = .running ∨ s.cardReady p k = true →
    (k.chunks ≠ 0 → ∃ t, exec (.cardComplete p n) s = .next t ∧ Wrote s t (k.key + 0x74) (leBytes 4 (2 ^ 31)) ∧
      (t.pane p.val).cards = ((s.pane p.val).cards.filter fun x => x.id != k.id) ∧
      { t with mem := s.mem, panes := s.panes } = s ∧ ∀ m, m ≠ p.val → t.pane m = s.pane m) ∧
    (k.chunks = 0 → exec (.cardComplete p n) s = .next (((s.writeBack k 0x74 4 (2 ^ 31)).dropCard p k.id).cardArrives k 0)))

namespace Sys2Proof
namespace Machine

/-! ## Conversations -/

/-- No request of X's conversation instruction is out: it is at its first issue, or in its release phase (R103, R205). -/
def State.NotSent (s : State) : Prop := s.me.conv = none ∨ ∃ k, s.me.conv = some (.release k)

/-- X has sent a request about a conversation to its home (R202, R205): to this device, or as one packet of the critical class. -/
def RequestSent (s t : State) (op : ConvOp) (conv npay : Nat) (rk : ReqKind) : Prop :=
  ∀ r : HomeReq, r = { conv := conv % 2 ^ 14, req := rk
                       party := { dev := Fin.ofNat 64 s.dev, src := s.cur.core / 256 * 2 ^ 13 + s.cur.core % 256
                                  asid := s.me.asid.toNat } } →
    t.me = { s.me with conv := some (.sent op conv), reqNo := s.nextReq } ∧ (∀ n, n ≠ s.cur.core → t.core n = s.core n) ∧
    t.nextReq = s.nextReq + 1 ∧
    (conv / 2 ^ 14 = s.dev →
      t.homeIn = s.homeIn ++ [{ r := r, src := s.cur.core, here := true, rid := s.nextReq }] ∧
      { t with cores := s.cores, homeIn := s.homeIn, nextReq := s.nextReq } = s) ∧
    (conv / 2 ^ 14 ≠ s.dev →
      { t with cores := s.cores, peers := s.peers, nextReq := s.nextReq } = s ∧ (∀ d, d ≠ conv / 2 ^ 14 → t.peer d = s.peer d) ∧
      ∃ (hd : Flit) (pay : List Flit), (t.peer (conv / 2 ^ 14)).egressC = (s.peer (conv / 2 ^ 14)).egressC ++ hd :: pay ∧
        (t.peer (conv / 2 ^ 14)).egress = (s.peer (conv / 2 ^ 14)).egress ∧ pay.length = npay ∧ hd.hdr = true ∧
        hd.npay = npay ∧ hd.seq = (s.peer (conv / 2 ^ 14)).seqC % 2 ^ 16 ∧ hd.cargo = .request s.nextReq r)

/-- A send or a choice whose local checks have passed (R103, R204): it raises PEER_LOST where a store it releases, of any core that X
drives, went to a lost peer, stays in its release phase while one is outstanding or its home cannot be reached, and else sends its request. -/
def SendsAfterRelease (i : Instr) (s : State) (op : ConvOp) (conv npay : Nat) (rk : ReqKind) : Prop :=
  ((∀ g ∈ s.members, ∀ p ∈ (s.core g).lostStores, g = s.cur.core ∧ s.releaseBound ≤ p.1) →
    (s.releaseDone s.releaseBound = true → conv / 2 ^ 14 = s.dev ∨ s.fabMode ≠ 2 →
      ∃ t, exec i s = .next t ∧ RequestSent s t op conv npay rk) ∧
    (s.releaseDone s.releaseBound = false ∨ (conv / 2 ^ 14 ≠ s.dev ∧ s.fabMode = 2) →
      ∃ t, exec i s = .next t ∧ Becomes s t { s.me with conv := some (.release s.releaseBound) })) ∧
  (∀ k, k < 64 → (∃ g ∈ s.members, ∃ p ∈ (s.core g).lostStores, (p.1 < s.releaseBound ∨ g ≠ s.cur.core) ∧ p.2 = k) →
    (∀ g ∈ s.members, ∀ p ∈ (s.core g).lostStores, p.1 < s.releaseBound ∨ g ≠ s.cur.core → k ≤ p.2) → s.CanTrap →
    ∃ t, exec i s = .next t ∧ TrapTaken s t 0x0C (einfoAux k))

/-- EINFO of PEER_UNREACHABLE for a home (R204). -/
def homeInfo (conv : Nat) : Word := infoA (BitVec.ofNat 64 ((0x80 + conv / 2 ^ 14) * 2 ^ 56)) 0

/-- A reply waits for the conversation instruction of a core. -/
def State.Replied (s : State) (c : CoreId) (op : ConvOp) (conv : Nat) (r : HomeReply) : Prop :=
  (s.core c.no).conv = some (.replied op conv r)

/-- X of core c issues. -/
def State.asX (s : State) (c : CoreId) : State := { s with cur := { core := c.no, side := .X } }

end Machine
end Sys2Proof

/-- cjoin, csend, cchoose, cdeleg, cleave and cstate (R103, R204, R209, R320 to R325): local checks trap without a request; a request that
passes them reaches its home. That cdeleg checks the party word before the role is the model's reading (log entry 53). -/
def Obligations.ConversationRequestsAreSent : Prop :=
  (∀ (s : State) (cv : Fin 4) (y : Role) (a : VSrc) (kind : Fin 16) (n : Nat) (x : VIn), s.cur.side = .X → s.NotSent →
    s.me.roles[cv.val] = some y → s.reaches (y.conv / 2 ^ 14) = true → (∀ w ∈ s.me.crecvs, w.sent = false) →
    (SendsAfterRelease (.cchoose cv kind) s (.choose cv kind) y.conv 0 (.send y.role kind true 0x06 [] [])) ∧
    (s.srcName a = .ok () → s.vlen a.queue = .ok n → s.vraw n a = .ok x →
      (tagOk x.tag = true → isCx x.tag = false → n * tagW x.tag ≤ 512 →
        SendsAfterRelease (.csend cv a kind) s (.send cv a kind) y.conv (if x.bits = [] then 0 else 1)
          (.send y.role kind false (Fin.ofNat 32 x.tag) (x.bits.map (BitVec.ofNat 64)) x.valid)) ∧
      (tagOk x.tag = false ∨ isCx x.tag = true → s.CanTrap →
        ∃ t, exec (.csend cv a kind) s = .next t ∧ TrapTaken s t 0x05 (einfoAux 0)) ∧
      (tagOk x.tag = true → isCx x.tag = false → 512 < n * tagW x.tag → s.CanTrap →
        ∃ t, exec (.csend cv a kind) s = .next t ∧ TrapTaken s t 0x06 (einfoAux (n % 2 ^ 28))))) ∧
  (∀ (s : State) (cv : Fin 4) (src : CjoinSrc) (id role len : Nat), s.cur.side = .X → s.NotSent →
    (∀ a b, src = .regs a b → s.Has a.r ∧ s.Has b.r ∧ id = (s.val a.r).toNat ∧ role = (s.val b.r).toNat ∧ len = 4) →
    (∀ v, src = .imm v → id = v.toNat % 2 ^ 20 ∧ role = v.toNat / 2 ^ 20 % 2 ^ 4 ∧ len = 12) →
    (s.me.roles[cv.val] = none → id < 2 ^ 20 → role ≤ 15 →
      (s.reaches (id / 2 ^ 14) = true → ∃ t, exec (.cjoin cv src) s = .next t ∧
        RequestSent s t (.join cv (Fin.ofNat 16 role) len) id 0 (.join (Fin.ofNat 16 role))) ∧
      (s.reaches (id / 2 ^ 14) = false → s.CanTrap → ∃ t, exec (.cjoin cv src) s = .next t ∧ TrapTaken s t 0x0B (homeInfo id))) ∧
    (s.me.roles[cv.val].isSome = true → s.CanTrap →
      ∃ t, exec (.cjoin cv src) s = .next t ∧ TrapTaken s t 0x12 (einfoAux cv.val)) ∧
    (s.me.roles[cv.val] = none → 2 ^ 20 ≤ id ∨ 15 < role → s.CanTrap →
      ∃ t, exec (.cjoin cv src) s = .next t ∧ TrapTaken s t 0x01 (einfoAux 0))) ∧
  (∀ (s : State) (cv : Fin 4) (y : Role), s.cur.side = .X → s.NotSent → s.me.roles[cv.val] = some y →
    (∀ w ∈ s.me.crecvs, w.cv ≠ cv) →
    ∀ i op rk, (i = .cleave cv ∧ op = .leave cv ∧ rk = .leave y.role) ∨
      (∃ (a : SrcR) (p : Party), s.Has a.r ∧ (s.val a.r).toNat < 2 ^ 40 ∧ bits (s.val a.r).toNat 15 6 = 0 ∧
        bit (s.val a.r).toNat 28 = false ∧ p = { dev := Fin.ofNat 64 (s.val a.r).toNat, src := bits (s.val a.r).toNat 31 16
                                                 asid := bits (s.val a.r).toNat 39 32 } ∧
        i = .cdeleg cv a ∧ op = .deleg cv ∧ rk = .deleg y.role p ∧ s.me.crecvs = []) →
      ((s.peer (y.conv / 2 ^ 14)).lost = false → s.reaches (y.conv / 2 ^ 14) = true →
        ∃ t, exec i s = .next t ∧ RequestSent s t op y.conv 0 rk) ∧
      ((s.peer (y.conv / 2 ^ 14)).lost = true → s.CanTrap →
        ∃ t, exec i s = .next t ∧ TrapTaken s t 0x0C (einfoAux (y.conv / 2 ^ 14 % 2 ^ 28))) ∧
      ((s.peer (y.conv / 2 ^ 14)).lost = false → s.reaches (y.conv / 2 ^ 14) = false → s.CanTrap →
        ∃ t, exec i s = .next t ∧ TrapTaken s t 0x0B (homeInfo y.conv))) ∧
  (∀ (s : State) (cv : Fin 4), s.cur.side = .X → s.NotSent → s.me.roles[cv.val] = none → (∀ w ∈ s.me.crecvs, w.cv ≠ cv) →
    ∃ t, exec (.cleave cv) s = .next t ∧ SideEffect s t (s.mySide.advance 4)) ∧
  (∀ (s : State) (cv : Fin 4) (a : SrcR), s.cur.side = .X → s.NotSent → s.Has a.r →
    2 ^ 40 ≤ (s.val a.r).toNat ∨ bits (s.val a.r).toNat 15 6 ≠ 0 ∨ bit (s.val a.r).toNat 28 = true → s.CanTrap →
    ∃ t, exec (.cdeleg cv a) s = .next t ∧ TrapTaken s t 0x01 (einfoAux 0)) ∧
  (∀ (s : State) (cv : Fin 4) (y : Role) (d : RegNo), s.cur.side = .X → s.NotSent → s.me.roles[cv.val] = some y →
    s.reaches (y.conv / 2 ^ 14) = true → s.Has d →
    ∃ t, exec (.cstate d cv) s = .next t ∧ RequestSent s t (.state d cv) y.conv 0 .state) ∧
  (∀ (s : State) (cv : Fin 4) (a : VSrc) (kind : Fin 16) (d : RegNo) (p : SrcR), s.cur.side = .X → s.NotSent → s.CanTrap →
    (s.me.roles[cv.val] = none → ∀ i, i = .csend cv a kind ∨ i = .cchoose cv kind ∨ i = .cstate d cv ∨
        (i = .cdeleg cv p ∧ s.Has p.r ∧ (s.val p.r).toNat < 2 ^ 40 ∧ bits (s.val p.r).toNat 15 6 = 0 ∧
          bit (s.val p.r).toNat 28 = false) →
      ∃ t, exec i s = .next t ∧ TrapTaken s t 0x12 (einfoAux cv.val)) ∧
    ∀ y, s.me.roles[cv.val] = some y → s.reaches (y.conv / 2 ^ 14) = false →
      ∀ i, i = .csend cv a kind ∨ i = .cchoose cv kind ∨ i = .cstate d cv →
        ∃ t, exec i s = .next t ∧ TrapTaken s t 0x0B (homeInfo y.conv))

/-- HOME_REPLY and SEND_RETRY (R204, R205, R207, R209, R325): what the waiting instruction does with its reply. An accepted one retires; a
refusal is its precise trap; RETRY puts a send back into its release phase 1 µs later; where the instruction is gone, a reply changes
nothing it can see. That EINFO keeps the bits of its layout alone is the model's reading (log entry 20). -/
def Obligations.HomeRepliesEndTheWait : Prop :=
  (∀ (s : State) (c : CoreId) (x : Option HomeReply) (conv : Nat),
    (∀ cv role len, s.Replied c (.join cv role len) conv .accepted → ∃ t, exec (.homeReply c x) s = .next t ∧
      CoreBecomes c.no s t { s.core c.no with conv := none, xv := (s.core c.no).xv.advance len }) ∧
    (∀ cv v kind, s.Replied c (.send cv (.reg v) kind) conv .accepted ∨ s.Replied c (.choose cv kind) conv .accepted →
      (s.core c.no).crecvs = [] → ∃ t, exec (.homeReply c x) s = .next t ∧
      CoreBecomes c.no s t { s.core c.no with conv := none, xv := (s.core c.no).xv.advance 4 }) ∧
    (∀ cv q kind, s.Replied c (.send cv (.lq q) kind) conv .accepted → s.isLong c.no = false → ∃ t, exec (.homeReply c x) s = .next t ∧
      OnlyCore c.no s t ∧ (t.core c.no).conv = none ∧ (t.core c.no).xv = (s.core c.no).xv.advance 4 ∧
      ((t.core c.no).lq[q.val]).ents = ((s.core c.no).lq[q.val]).ents.drop 1 ∧
      (∀ k : Fin 4, k ≠ q → (t.core c.no).lq[k.val] = (s.core c.no).lq[k.val]) ∧ (t.core c.no).s = (s.core c.no).s) ∧
    (∀ d cv st term, s.Replied c (.state d cv) conv (.state st term) → ∃ t, exec (.homeReply c x) s = .next t ∧
      CoreBecomes c.no s t { (s.core c.no).putReg .X d (BitVec.ofNat 64 (st.val + if term then 64 else 0)) with
        conv := none, xv := (s.core c.no).xv.advance 4 }) ∧
    (∀ cv y, s.Replied c (.deleg cv) conv .accepted ∨ s.Replied c (.leave cv) conv .accepted →
      (s.core c.no).roles[cv.val] = some y →
      (y.buf = [] → ∃ t, exec (.homeReply c x) s = .next t ∧
        CoreBecomes c.no s t { s.core c.no with
          conv := none, roles := (s.core c.no).roles.set cv.val none, xv := (s.core c.no).xv.advance 4 }) ∧
      ∀ m i, y.buf = [m] → y.conv / 2 ^ 14 = s.dev → i = y.conv % 2 ^ 14 → cvdEn (s.cvd i) = true → (s.conv i).base ≤ m.no →
        (∀ p, (s.conv i).role y.role.val ≠ .moving p) → ∃ t, exec (.homeReply c x) s = .next t ∧
          t.core c.no = { s.core c.no with
            conv := none, roles := (s.core c.no).roles.set cv.val none, xv := (s.core c.no).xv.advance 4 } ∧
          (∀ n, n ≠ c.no → t.core n = s.core n) ∧ { t with cores := s.cores, convs := s.convs } = s ∧
          (∀ j, j ≠ i → t.conv j = s.conv j) ∧
          (t.conv i).queue y.role.val = insertMsg m ((s.conv i).queue y.role.val) ∧
          (t.conv i).awayOf y.role.val = (s.conv i).awayOf y.role.val - 1) ∧
    (∀ op, s.Replied c op conv .retry → ∃ t, exec (.homeReply c x) s = .next t ∧
      CoreBecomes c.no s t { s.core c.no with conv := some (.again op s.gts) }) ∧
    ∀ op r code aux, s.Replied c op conv r → (s.asX c).CanTrap →
      (r = .convRole ∧ code = 0x12 ∧ aux = op.cv.val) ∨ (∃ st : Fin 64, r = .convEnd st ∧ code = 0x13 ∧ aux = st.val) ∨
        (∃ (st : Fin 64) (k role : Fin 16), r = .oot st k role ∧ code = 0x11 ∧
          aux = (st.val * 2 ^ 24 + k.val * 2 ^ 20 + role.val * 2 ^ 16) % 2 ^ 28) ∨
        (r = .lost ∧ code = 0x0C ∧ aux = conv / 2 ^ 14 % 2 ^ 28) →
      ∃ t, exec (.homeReply c x) s = .next { t with cur := s.cur } ∧ TrapTaken (s.asX c) t code (einfoAux aux)) ∧
  (∀ (s : State) (c : CoreId) (op : ConvOp) (conv : Nat) (r : HomeReply), (s.core c.no).conv = some (.sent op conv) →
    conv / 2 ^ 14 ≠ s.dev → ∃ u, exec (.homeReply c (some r)) s = exec (.homeReply c none) u ∧
      u.Replied c op conv r ∧ CoreBecomes c.no s u { s.core c.no with conv := some (.replied op conv r), roles := (u.core c.no).roles } ∧
      (r ≠ .accepted → (u.core c.no).roles = (s.core c.no).roles) ∧
      ∀ cv role len, op = .join cv role len → r = .accepted → (u.core c.no).roles =
        (s.core c.no).roles.set cv.val (some { conv := conv, role := role, buf := [], ended := none, waits := false })) ∧
  (∀ (s : State) (c : CoreId) (op : ConvOp) (conv : Nat) (r : HomeReply), (s.core c.no).conv = some (.void op conv) →
    conv / 2 ^ 14 ≠ s.dev → ∃ t, exec (.homeReply c (some r)) s = .next t ∧ CoreBecomes c.no s t { s.core c.no with
      conv := none, leaving := (t.core c.no).leaving }) ∧
  (∀ (s : State) (c : CoreId) (op : ConvOp) (v : Word), (s.core c.no).conv = some (.again op v) →
    (v.toNat + 1000 ≤ s.gts.toNat → ∃ t, exec (.sendRetry c) s = .next t ∧
      CoreBecomes c.no s t { s.core c.no with conv := some (.release (s.core c.no).nextId) }) ∧
    (s.gts.toNat < v.toNat + 1000 → exec (.sendRetry c) s = .next s))

namespace Sys2Proof
namespace Machine

/-- The n-th request at the home is due, and its party waits for the reply at a core of this device (R203). -/
structure State.HomeTurn (s : State) (n : Nat) (h : HomeIn) (i : Nat) (op : ConvOp) (conv : Nat) : Prop where
  due  : s.homeNth n = some h
  which : h.r.conv % 2 ^ 14 = i
  here : h.here = true
  out  : (s.core h.src).conv = some (.sent op conv)
  no   : (s.core h.src).reqNo = h.rid
  asks : h.rid ≠ 0

/-- The home has answered the n-th request with r: it has left the home and the party's instruction has its reply. -/
structure HomeAnswered (s t : State) (n : Nat) (h : HomeIn) (op : ConvOp) (conv : Nat) (r : HomeReply) : Prop where
  gone  : t.homeIn = s.homeIn.eraseIdx n
  told  : (t.core h.src).conv = some (.replied op conv r)
  mem   : t.mem = s.mem

/-- The home has refused: no conversation has changed. -/
def HomeRefused (s t : State) (n : Nat) (h : HomeIn) (op : ConvOp) (conv : Nat) (r : HomeReply) : Prop :=
  HomeAnswered s t n h op conv r ∧ t.convs = s.convs ∧ t.ctl = s.ctl

/-- One role of a conversation has become x, and everything else of the conversations is as before. -/
def RoleBecomes (s t : State) (i : Nat) (role : Fin 16) (x : RoleSt) : Prop :=
  (t.conv i).role role.val = x ∧ (∀ q : Fin 16, q ≠ role → (t.conv i).role q.val = (s.conv i).role q.val) ∧
  (∀ q : Fin 16, (t.conv i).queue q.val = (s.conv i).queue q.val) ∧ (t.conv i).next = (s.conv i).next ∧
  (∀ j, j ≠ i → t.conv j = s.conv j) ∧ t.ctl = s.ctl

/-- CVD of a conversation reads as this. -/
def State.CvdIs (s : State) (i : Nat) (en term : Bool) (st slot asid : Nat) : Prop :=
  cvdEn (s.cvd i) = en ∧ cvdTerm (s.cvd i) = term ∧ cvdState (s.cvd i) = st ∧ cvdSlot (s.cvd i) = slot ∧ cvdAsid (s.cvd i) = asid

end Machine
end Sys2Proof

/-- HOME_SEND, HOME_JOIN, HOME_LEAVE, HOME_DELEGATE, HOME_STATE_READ and MESSAGE_FORWARD (R202 to R206, R209, R324, R325): the home
decides a request alone; a refusal changes nothing, an accepted send advances the state and is queued for its receivers, and
a message is forwarded while the party's buffer has room, and goes back where its party may not take it. That requests are numbered, and
that a role on its way back holds them up, are the model's choices, log entries 21 and 54. -/
def Obligations.HomesDecideAndForward : Prop :=
  (∀ (s : State) (n i conv x : Nat) (h : HomeIn) (op : ConvOp) (role kind : Fin 16) (ch : Bool) (tag : Fin 32) (xs : List Word)
    (vs : List Bool), s.HomeTurn n h i op conv → h.r.req = .send role kind ch tag xs vs →
    x = protoEntry (s.protoOf i) (cvdState (s.cvd i)) kind.val →
    ((s.conv i).role role.val = .moving h.r.party → exec (.homeSend n) s = .next s) ∧
    (s.openFor i h.r.party.asid = false ∨ (s.conv i).role role.val ≠ .bound h.r.party → (s.conv i).role role.val ≠ .moving h.r.party →
      ∃ t, exec (.homeSend n) s = .next t ∧ HomeRefused s t n h op conv .convRole) ∧
    (s.openFor i h.r.party.asid = true → (s.conv i).role role.val = .bound h.r.party →
      (cvdTerm (s.cvd i) = true → ∃ t, exec (.homeSend n) s = .next t ∧
        HomeRefused s t n h op conv (.convEnd (Fin.ofNat 64 (cvdState (s.cvd i))))) ∧
      (cvdTerm (s.cvd i) = false → x = 0 ∨ entSnd x ≠ role.val ∨ entB x ≠ ch → ∃ t, exec (.homeSend n) s = .next t ∧
        HomeRefused s t n h op conv (.oot (Fin.ofNat 64 (cvdState (s.cvd i))) kind role)) ∧
      (cvdTerm (s.cvd i) = false → x ≠ 0 → entSnd x = role.val → entB x = ch →
        (s.freeSlots i < popcount (entRcv x) 16 → ∃ t, exec (.homeSend n) s = .next t ∧ HomeRefused s t n h op conv .retry) ∧
        (popcount (entRcv x) 16 ≤ s.freeSlots i → ∃ t, exec (.homeSend n) s = .next t ∧ HomeAnswered s t n h op conv .accepted ∧
          t.CvdIs i true (entT x) (entNext x) (cvdSlot (s.cvd i)) (cvdAsid (s.cvd i)) ∧
          (∀ o, o ≠ 0x40000 + 8 * i → t.ctlGet o = s.ctlGet o) ∧ (∀ j, j ≠ i → t.conv j = s.conv j) ∧
          (t.conv i).roles = (s.conv i).roles ∧ (t.conv i).next = (s.conv i).next + 1 ∧
          ∀ q : Fin 16, (t.conv i).queue q.val = (s.conv i).queue q.val ++ if bit (entRcv x) q.val then
            [{ no := (s.conv i).next, kind := kind, state := Fin.ofNat 64 (entNext x), sender := role, term := entT x
               branch := entB x, tag := tag, elems := xs, valid := vs }] else [])))) ∧
  (∀ (s : State) (n i conv : Nat) (h : HomeIn) (op : ConvOp) (role : Fin 16), s.HomeTurn n h i op conv → h.r.req = .join role →
    ((s.openFor i h.r.party.asid = false ∨ protoNRole (s.protoOf i) ≤ role.val ∨
        ((s.conv i).role role.val ≠ .unbound ∧ (s.conv i).role role.val ≠ .offered h.r.party)) →
      ∃ t, exec (.homeJoin n) s = .next t ∧ HomeRefused s t n h op conv .convRole) ∧
    (s.openFor i h.r.party.asid = true → role.val < protoNRole (s.protoOf i) →
      (s.conv i).role role.val = .unbound ∨ (s.conv i).role role.val = .offered h.r.party →
      ((s.conv i).awayOf role.val ≠ 0 → exec (.homeJoin n) s = .next s) ∧
      ((s.conv i).awayOf role.val = 0 → ∃ t, exec (.homeJoin n) s = .next t ∧ HomeAnswered s t n h op conv .accepted ∧
        RoleBecomes s t i role (.bound h.r.party) ∧
        ∀ cv r len, op = .join cv r len → cvdTerm (s.cvd i) = false → (t.core h.src).roles =
          (s.core h.src).roles.set cv.val (some { conv := conv, role := r, buf := [], ended := none, waits := false })))) ∧
  (∀ (s : State) (n i conv : Nat) (h : HomeIn) (op : ConvOp) (role : Fin 16), s.HomeTurn n h i op conv → h.r.req = .leave role →
    (∀ cv r len, op ≠ .join cv r len) →
    (cvdEn (s.cvd i) = true → (s.conv i).role role.val = .bound h.r.party → ∃ t, exec (.homeLeave n) s = .next t ∧
      HomeAnswered s t n h op conv .accepted ∧ RoleBecomes s t i role .unbound) ∧
    (cvdEn (s.cvd i) = false ∨ ((s.conv i).role role.val).isOf h.r.party = false → ∃ t, exec (.homeLeave n) s = .next t ∧
      HomeRefused s t n h op conv .convRole)) ∧
  (∀ (s : State) (n i conv : Nat) (h : HomeIn) (op : ConvOp) (role : Fin 16) (p : Party), s.HomeTurn n h i op conv →
    h.r.req = .deleg role p → (∀ cv r len, op ≠ .join cv r len) →
    (s.openFor i p.asid = true → (s.conv i).role role.val = .bound h.r.party → ∃ t, exec (.homeDelegate n) s = .next t ∧
      HomeAnswered s t n h op conv .accepted ∧ RoleBecomes s t i role (.offered p)) ∧
    ((s.conv i).role role.val = .moving h.r.party → exec (.homeDelegate n) s = .next s) ∧
    (s.openFor i p.asid = false ∨ (s.conv i).role role.val ≠ .bound h.r.party → (s.conv i).role role.val ≠ .moving h.r.party →
      ∃ t, exec (.homeDelegate n) s = .next t ∧
      HomeRefused s t n h op conv .convRole)) ∧
  (∀ (s : State) (n i conv : Nat) (h : HomeIn) (op : ConvOp), s.HomeTurn n h i op conv → h.r.req = .state →
    (cvdEn (s.cvd i) = true → ∃ t, exec (.homeStateRead n) s = .next t ∧
      HomeRefused s t n h op conv (.state (Fin.ofNat 64 (cvdState (s.cvd i))) (cvdTerm (s.cvd i)))) ∧
    (cvdEn (s.cvd i) = false → ∃ t, exec (.homeStateRead n) s = .next t ∧ HomeRefused s t n h op conv .convRole)) ∧
  (∀ (s : State) (i c : Nat) (role : Fin 16) (p : Party) (m : Msg) (ms : List Msg), i < 2 ^ 14 → c = p.src / 2 ^ 13 * 256 + p.src % 256 →
    (s.conv i).role role.val = .bound p → (s.conv i).queue role.val = m :: ms → cvdTerm (s.cvd i) = false →
    (4 ≤ (s.conv i).awayOf role.val → exec (.messageForward (.home i role)) s = .next s) ∧
    ((s.conv i).awayOf role.val < 4 → p.dev.val = s.dev → (s.core c).mayDeliver p (s.dev * 2 ^ 14 + i) role = false → cvdEn (s.cvd i) = true → (s.conv i).base ≤ m.no →
      ∃ t, exec (.messageForward (.home i role)) s = .next t ∧ (t.conv i).queue role.val = insertMsg m ms ∧
        (t.conv i).awayOf role.val = (s.conv i).awayOf role.val ∧ (∀ j, j ≠ i → t.conv j = s.conv j) ∧
        { t with convs := s.convs } = s) ∧
    ((s.conv i).awayOf role.val < 4 → p.dev.val = s.dev → (s.core c).mayDeliver p (s.dev * 2 ^ 14 + i) role = true →
      ∃ t, exec (.messageForward (.home i role)) s = .next t ∧ (t.conv i).queue role.val = ms ∧
        (t.conv i).awayOf role.val = (s.conv i).awayOf role.val + 1 ∧ (∀ j, j ≠ i → t.conv j = s.conv j) ∧
        t.core c = (s.core c).deliver (s.dev * 2 ^ 14 + i) role m ∧ (∀ n, n ≠ c → t.core n = s.core n) ∧
        { t with cores := s.cores, convs := s.convs } = s)) ∧
  (∀ (s : State) (c : CoreId) (cv : Fin 4) (y : Role) (m : Msg), (s.core c.no).roles[cv.val] = some y → y.conv / 2 ^ 14 ≠ s.dev →
    y.buf.length < 4 → (s.core c.no).mayDeliver (s.partyOf c.no) y.conv y.role = true →
    ∃ t, exec (.messageForward (.remote c cv m)) s = .next t ∧
      CoreBecomes c.no s t ((s.core c.no).deliver y.conv y.role m))

namespace Sys2Proof
namespace Machine

/-- A received message stands at its destination on one member: the lead's vector register or entry holds the payload, those of the others
are empty (R150, R323). -/
def DestTaken (c0 c1 : Core) (d : VDst) (m : Msg) (lead : Bool) : Prop :=
  match d with
  | .reg v => c1.sq = c0.sq ∧ c1.nextId = c0.nextId ∧ c1.vregs = c0.vregs.set v.val { c0.vregs[v.val] with
      tag := m.tag, mark := if lead then m.elems.length else 0, elems := if lead then m.elems else []
      valid := if lead then m.valid else [] }
  | .sq q  => c1.vregs = c0.vregs ∧ (∀ k : Fin 2, k ≠ q → c1.sq[k.val] = c0.sq[k.val]) ∧
      ∃ e : Entry, (c1.sq[q.val]).ents = (c0.sq[q.val]).ents ++ [e] ∧ e.tag = m.tag ∧ e.kind = .data ∧
        e.n = (if lead then m.elems.length else 0) ∧ e.elems = (if lead then m.elems else []) ∧ e.valid = (if lead then m.valid else [])

/-- The oldest receive of a core has taken message m (R206, R323): its destination on every member, its status word, and its slot at the
home, which is told. -/
structure MessageTaken (s t : State) (c : CoreId) (w : CrecvSt) (y : Role) (m : Msg) (ms : List Msg) : Prop where
  dest   : ∀ g ∈ (s.asX c).members, DestTaken (s.core g) (t.core g) w.dst m (g == c.no)
  lead   : t.core c.no = { s.core c.no with
    vregs := (t.core c.no).vregs, sq := (t.core c.no).sq, nextId := (t.core c.no).nextId, crecvs := (t.core c.no).crecvs
    pops := (t.core c.no).pops, s := (t.core c.no).s, sFull := (t.core c.no).sFull
    roles := (s.core c.no).roles.set w.cv.val (some { y with buf := ms }) }
  others : ∀ g ∈ (s.asX c).members, g ≠ c.no → t.core g = { s.core g with
    vregs := (t.core g).vregs, sq := (t.core g).sq, nextId := (t.core g).nextId, crecvs := (t.core g).crecvs, pops := (t.core g).pops }
  rest   : ∀ n, n ∉ (s.asX c).members → t.core n = s.core n
  zero   : w.b = 0 → (t.core c.no).s = (s.core c.no).s ∧ (t.core c.no).sFull = (s.core c.no).sFull
  word   : w.b ≠ 0 → ∃ word : Word, (t.core c.no).s = (s.core c.no).s.set w.b.val word ∧
    (t.core c.no).sFull = (s.core c.no).sFull.set w.b.val true ∧ bits word.toNat 3 0 = m.kind.val ∧
    bits word.toNat 9 4 = m.state.val ∧ bits word.toNat 13 10 = m.sender.val ∧ bit word.toNat 14 = m.term ∧
    bit word.toNat 15 = m.branch ∧ bits word.toNat 63 23 = 0 ∧ bits word.toNat 22 16 = (m.elems.length * tagW m.tag.val + 7) / 8 % 128
  here   : ∀ i, y.conv / 2 ^ 14 = s.dev → i = y.conv % 2 ^ 14 → { t with cores := s.cores, convs := s.convs } = s ∧
    (t.conv i).awayOf y.role.val = (s.conv i).awayOf y.role.val - (if m.no < (s.conv i).base then 0 else 1) ∧
    (t.conv i).queue y.role.val = (s.conv i).queue y.role.val
  away   : ∀ d, y.conv / 2 ^ 14 = d → d ≠ s.dev → { t with cores := s.cores, peers := s.peers } = s ∧ (∀ e, e ≠ d → t.peer e = s.peer e) ∧
    ∃ hd : Flit, (t.peer d).egressC = (s.peer d).egressC ++ [hd] ∧ (t.peer d).egress = (s.peer d).egress ∧ hd.hdr = true ∧
      hd.npay = 0 ∧ hd.seq = (s.peer d).seqC % 2 ^ 16 ∧ hd.cargo = .popped y.conv y.role m.no

end Machine
end Sys2Proof

/-- crecv, CRECV_COMPLETE, cprot, CONVERSATION_OPEN and CONVERSATION_CLOSE (R147, R201, R202, R206, R323, R326, R327): a receive empties
its status register and waits; the message goes to the vector register or the store queue and its word to the status register, and its home
learns of it; an ended conversation or a lost role unwinds X to the receive and traps there (what of its younger requests stands is the
model's choice, log entry 31); protocols are checked and loaded, conversations opened and closed, with the requests that reached the home
before decided first. That a reply carries the number of its request (log entry 21), and that a role waits for what is on its way back to
its home (log entry 54), are the model's choices. -/
def Obligations.MessagesAreReceivedProtocolsLoaded : Prop :=
  (∀ (s : State) (d : VDst) (cv : Fin 4) (b : RegNo) (y : Role), s.cur.side = .X → s.dstName d = .ok () → s.Has b →
    (∀ q, d = .sq q → s.me.crecvs = []) → s.me.roles[cv.val] = some y → s.members.Nodup → s.cur.core ∈ s.members →
    ∃ t, exec (.crecv d cv b) s = .next t ∧
      t.me = { s.me.setFull .X b false with
        crecvs := s.me.crecvs ++ [{ cv := cv, dst := d, b := b, snap := s.me.snapshot, young := 0, sent := false, gone := false }]
        xv := s.mySide.advance 4 } ∧
      (∀ g ∈ s.members, g ≠ s.cur.core → t.core g = { s.core g with crecvs := (s.core g).crecvs ++
        [{ cv := cv, dst := d, b := b, snap := (s.core g).snapshot, young := 0, sent := false, gone := false }] }) ∧
      (∀ n, n ∉ s.members → t.core n = s.core n) ∧ { t with cores := s.cores } = s) ∧
  (∀ (s : State) (d : VDst) (cv : Fin 4) (b : RegNo), s.cur.side = .X → s.dstName d = .ok () → s.Has b →
    s.me.roles[cv.val] = none → s.CanTrap → ∃ t, exec (.crecv d cv b) s = .next t ∧ TrapTaken s t 0x12 (einfoAux cv.val)) ∧
  (∀ (s : State) (c : CoreId) (w : CrecvSt) (ws : List CrecvSt) (y : Role), (s.core c.no).crecvs = w :: ws →
    w.gone = false → (s.core c.no).roles[w.cv.val] = some y → (s.asX c).members.Nodup → c.no ∈ (s.asX c).members →
    (∀ m ms, y.buf = m :: ms → (∀ q, w.dst = .sq q → ∀ g ∈ (s.asX c).members, ((s.core g).sq[q.val]).ents.length < 8) →
      ∃ t, exec (.crecvComplete c 0) s = .next t ∧ MessageTaken s t c w y m ms ∧ (t.core c.no).crecvs.length = ws.length) ∧
    (∀ q g, w.dst = .sq q → g ∈ (s.asX c).members → 8 ≤ ((s.core g).sq[q.val]).ents.length → y.buf ≠ [] →
      exec (.crecvComplete c 0) s = .next s) ∧
    (y.buf = [] → y.ended = none → exec (.crecvComplete c 0) s = .next s) ∧
    ∀ st u, y.buf = [] → y.ended = some st → (s.core c.no).conv = none → u = (s.asX c).unwindAll → u.CanTrap →
      ∃ t, exec (.crecvComplete c 0) s = .next { t with cur := s.cur } ∧ TrapTaken u t 0x13 (einfoAux st.val)) ∧
  (∀ (s : State) (c : CoreId) (w : CrecvSt) (ws : List CrecvSt) (u : State), (s.core c.no).crecvs = w :: ws →
    w.gone = true ∨ (s.core c.no).roles[w.cv.val] = none → (s.core c.no).conv = none → u = (s.asX c).unwindAll → u.CanTrap →
    ∃ t, exec (.crecvComplete c 0) s = .next { t with cur := s.cur } ∧ TrapTaken u t 0x12 (einfoAux w.cv.val)) ∧
  (∀ (s : State) (a b : SrcR), s.cur.side = .X → s.mySide.super = true → s.Has a.r → s.Has b.r → s.me.crecvs = [] →
    ((s.val b.r).toNat ≤ 63 → (s.val a.r).toNat / 2 ^ 56 = 0 → (s.val a.r).toNat % 16 = 0 →
      ∀ img, s.readProto (s.val a.r) (List.range 257) = .ok img → s.releaseDone s.releaseBound = true →
        (protoOk img = true → s.slotInUse (s.val b.r).toNat = false → ∃ t, exec (.cprot a b) s = .next t ∧
          t.me = { s.me with conv := none, xv := s.mySide.advance 4 } ∧ (∀ n, n ≠ s.cur.core → t.core n = s.core n) ∧
          { t with cores := s.cores, protos := s.protos } = s ∧ nget t.protos (s.val b.r).toNat = some img ∧
          ∀ k, k ≠ (s.val b.r).toNat → nget t.protos k = nget s.protos k) ∧
        (protoOk img = false ∨ s.slotInUse (s.val b.r).toNat = true → s.CanTrap →
          ∃ t, exec (.cprot a b) s = .next t ∧ TrapTaken s t 0x01 (einfoAux (s.val b.r).toNat))) ∧
    (63 < (s.val b.r).toNat → s.CanTrap →
      ∃ t, exec (.cprot a b) s = .next t ∧ TrapTaken s t 0x01 (einfoAux ((s.val b.r).toNat % 2 ^ 28))) ∧
    ((s.val b.r).toNat ≤ 63 → (s.val a.r).toNat / 2 ^ 56 ≠ 0 → s.CanTrap →
      ∃ t, exec (.cprot a b) s = .next t ∧ TrapTaken s t 0x09 (infoA (s.val a.r) 0)) ∧
    ((s.val b.r).toNat ≤ 63 → (s.val a.r).toNat / 2 ^ 56 = 0 → (s.val a.r).toNat % 16 ≠ 0 → s.CanTrap →
      ∃ t, exec (.cprot a b) s = .next t ∧ TrapTaken s t 0x0A (infoA (s.val a.r) 0))) ∧
  (∀ (s : State) (i : Fin 16384) (v : Word) (p : List Byte), cvdEn (s.cvd i.val) = false → cvdEn v.toNat = true →
    (nget s.protos (cvdSlot v.toNat) = none → exec (.conversationOpen i v) s = .next s) ∧
    (nget s.protos (cvdSlot v.toNat) = some p → bit v.toNat 48 = true → protoNState p ≤ cvdState v.toNat →
      exec (.conversationOpen i v) s = .next s) ∧
    (∀ st, nget s.protos (cvdSlot v.toNat) = some p → st < 64 →
      (bit v.toNat 48 = true ∧ st = cvdState v.toNat ∧ st < protoNState p) ∨ (bit v.toNat 48 = false ∧ st = protoInit p) →
      ∃ t, exec (.conversationOpen i v) s = .next t ∧ t.CvdIs i.val true false st (cvdSlot v.toNat) (cvdAsid v.toNat) ∧
        (∀ q : Fin 16, (t.conv i.val).role q.val = .unbound ∧ (t.conv i.val).queue q.val = [] ∧ (t.conv i.val).awayOf q.val = 0) ∧
        (∀ j, j ≠ i.val → t.conv j = s.conv j) ∧ (∀ o, o ≠ 0x40000 + 8 * i.val → t.ctlGet o = s.ctlGet o) ∧
        { t with ctl := s.ctl, convs := s.convs } = s)) ∧
  (∀ (s : State) (i : Fin 16384) (h : HomeIn), cvdEn (s.cvd i.val) = true → s.homeIn = [h] → h.r.conv % 2 ^ 14 = i.val →
    (s.homeStep 0).homeIn = [] → cvdEn ((s.homeStep 0).cvd i.val) = true →
    exec (.conversationClose i) s = exec (.conversationClose i) (s.homeStep 0)) ∧
  (∀ (s : State) (i : Fin 16384), cvdEn (s.cvd i.val) = true → (∀ h ∈ s.homeIn, h.r.conv % 2 ^ 14 ≠ i.val) →
    ∃ t, exec (.conversationClose i) s = .next t ∧
    t.CvdIs i.val false (cvdTerm (s.cvd i.val)) (cvdState (s.cvd i.val)) (cvdSlot (s.cvd i.val)) (cvdAsid (s.cvd i.val)) ∧
    (∀ q : Fin 16, (t.conv i.val).role q.val = .unbound ∧ (t.conv i.val).queue q.val = []) ∧
    (∀ j, j ≠ i.val → t.conv j = s.conv j) ∧ t.mem = s.mem ∧ t.homeIn = s.homeIn ∧
    ∀ (r : Fin 16) (p : Party) (n : Nat), (∀ q : Fin 16, q ≠ r → (s.conv i.val).role q.val = .unbound) →
      (s.conv i.val).role r.val = .bound p → p.dev.val = s.dev → s.holder p (s.dev * 2 ^ 14 + i.val) r = some n →
      t.core n = (s.core n).unbind (s.dev * 2 ^ 14 + i.val) r ∧ ∀ m, m ≠ n → t.core m = s.core m)

namespace Sys2Proof
namespace Machine

/-! ## Tasks -/

/-- The record in the registers n to n + 3 of the issuing side (R330). -/
def State.spawnRecord (s : State) (n : Nat) : Record :=
  let r (i : Nat) : Word := s.val (Fin.ofNat 32 (n + i))
  { image := r 0, frame := r 1, join := r 2, taskid := (r 3).setWidth 32, gsize := bits (r 3).toNat 39 32
    prio := bits (r 3).toNat 47 40, contract := bits (r 3).toNat 55 48 }

/-- The issuing side is at a spawn of registers n to n + 3, all of them full. -/
structure State.AtSpawn (s : State) (a : RegNo) (n : Nat) : Prop where
  reg  : a.val = n
  low  : 1 ≤ n
  high : n ≤ 28
  full : ∀ i, i < 4 → s.Has (Fin.ofNat 32 (n + i))

/-- A side of a core waits in a barrier of round q and not for a merge. -/
def Core.InRound (c : Core) (sd : Side) (q : Nat) : Prop :=
  (c.side sd).q = q ∧ ∃ b, (c.side sd).bar = some b ∧ b.merge = false

/-- Every member's same side has joined round q of its barrier and made its release, is no side of its own, or the member has finished, both
its sides having ended (R99, R332, R333). -/
def State.RoundOver (s : State) (core : Nat) (sd : Side) (q : Nat) : Prop :=
  ∀ n ∈ s.gang core, ((s.core n).av.fin = true ∧
      ((s.core n).xv.fin = true ∨ (s.isLong core = true ∧ some n ≠ (s.gang core).head?))) ∨
    (q ≤ ((s.core n).side sd).q ∧
      ((s.core n).InRound sd q → ({ s with cur := { core := n, side := sd } } : State).covered .gang = true)) ∨
    (s.isLong core = true ∧ sd = .X ∧ some n ≠ (s.gang core).head?)

/-- A side of the issuing core has ended, c being what its core then is, and what the core had of the wicket has returned (R173). -/
structure EndedAndReturned (s t : State) (c : Core) : Prop where
  now  : t = (s.setMe c).dropWkt s.cur.core
  mine : t.me = { c with wktPend := none, wktHeld := none }
  reqs : ∀ r ∈ (t.pane (s.cur.core / 256)).reqs, r.who ≠ .ahead s.cur.core

/-- A store-queue store is pending that waits for its data, or has it and is not performed; or a peer's answer is awaited (R86). -/
def State.StoresOpen (s : State) : Prop := s.me.peerWait.isSome = true ∨ ∃ x ∈ s.me.pend, x.claims = true

end Machine
end Sys2Proof

/-- spawn and done (R81, R86, R120, R123, R154, R173, R330 to R332): a record that passes its checks is pushed behind what its spawner
ordered; a bad field raises ILLEGAL with its offset, the first one in the model's order of the checks (log entry 32). A side ends once what
it issued is done: the A-side waits for the claimed stores, then raises a card's failure, then waits for the cards, then discards the awaits
that others wait behind (the model's order, log entry 42); its core's grant of a wkt returns. The X-side waits for the entries that it
pushed, unless the A-side has ended (the model's choice, log entry 28). -/
def Obligations.RecordsAreSpawnedAndSidesEnd : Prop :=
  (∀ (s : State) (a : RegNo) (n : Nat) (r : Record) (l : Option Nat), s.AtSpawn a n → r = s.spawnRecord n →
    (1 ≤ r.gsize ∧ r.gsize ≤ 16) → r.prio < 8 → bits (s.val (Fin.ofNat 32 (n + 3))).toNat 63 56 = 0 →
    r.contract = 0xFF ∨ (r.contract < 64 ∧ s.cAdm r.contract = true ∧ s.cVf r.contract = s.myFn) → s.covered .dev = true →
    (s.cur.side = .X → s.me.crecvs = []) → s.queuedRecords s.myFn < 2 ^ 20 → l = s.myTask.bind (fun t => t.launch) →
    ∃ t, exec (.spawn a) s = .next t ∧
      t.queueOf s.myFn r.prio r.contract = s.queueOf s.myFn r.prio r.contract ++ [match s.detTask s.cur.core with
        | none   => .record r l 0 []
        | some d => .record r l d.interval (d.prefixLog ++ d.log)] ∧
      (∀ k, k < 64 → k ≠ r.contract → t.cqueue k = s.cqueue k) ∧
      (∀ f p, p < 8 → r.contract < 64 ∨ f ≠ s.myFn ∨ p ≠ r.prio → (t.fn f).queue p = (s.fn f).queue p) ∧
      t.me = s.me.setSide s.cur.side (s.mySide.advance 4) ∧ (∀ m, m ≠ s.cur.core → t.core m = s.core m) ∧
      { t with cores := s.cores, fns := s.fns, cqueues := s.cqueues, launches := s.launches } = s ∧
      (l = none → t.launches = s.launches) ∧
      ∀ k, l = some k → t.launches = s.launches.map fun x =>
        if (s.launchOf l).isSome ∧ x.id = k then { ((s.launchOf l).getD x) with out := ((s.launchOf l).getD x).out + 1 } else x) ∧
  (∀ (s : State) (a : RegNo), s.CanTrap →
    (a.val = 0 ∨ 28 < a.val → ∃ t, exec (.spawn a) s = .next t ∧ TrapTaken s t 0x01 (einfoAux 0)) ∧
    ∀ n r, s.AtSpawn a n → r = s.spawnRecord n →
      (r.gsize = 0 ∨ 16 < r.gsize → ∃ t, exec (.spawn a) s = .next t ∧ TrapTaken s t 0x01 (einfoAux 0x1C)) ∧
      (1 ≤ r.gsize → r.gsize ≤ 16 → r.contract < 64 ∨ r.contract = 0xFF → 8 ≤ r.prio →
        ∃ t, exec (.spawn a) s = .next t ∧ TrapTaken s t 0x01 (einfoAux 0x1D)) ∧
      (1 ≤ r.gsize → r.gsize ≤ 16 → 64 ≤ r.contract → r.contract ≠ 0xFF →
        ∃ t, exec (.spawn a) s = .next t ∧ TrapTaken s t 0x01 (einfoAux 0x1E)) ∧
      (1 ≤ r.gsize → r.gsize ≤ 16 → r.contract < 64 ∨ r.contract = 0xFF → r.prio < 8 →
        (bits (s.val (Fin.ofNat 32 (n + 3))).toNat 63 56 ≠ 0 →
          ∃ t, exec (.spawn a) s = .next t ∧ TrapTaken s t 0x01 (einfoAux 0x1F)) ∧
        (bits (s.val (Fin.ofNat 32 (n + 3))).toNat 63 56 = 0 → r.contract < 64 →
          s.cAdm r.contract = false ∨ s.cVf r.contract ≠ s.myFn →
          ∃ t, exec (.spawn a) s = .next t ∧ TrapTaken s t 0x01 (einfoAux 0)))) ∧
  (∀ (s : State), s.cur.side = .A → s.StoresOpen → exec .done s = .next s) ∧
  (∀ (s : State), s.cur.side = .A → s.cur.core < 2048 → ¬ s.StoresOpen → (∀ x ∈ s.me.pend, x.kind.isAwait = true) →
    (s.failRecs s.cur.core = [] → (∀ k ∈ (s.pane (s.cur.core / 256)).cards, k.task ≠ s.me.task) →
      (∀ k, s.myTask = some k → k.conflict = none) → ∃ t, exec .done s = .next t ∧
        EndedAndReturned s t { s.me with pend := [], aFull := Vector.replicate 32 true, av := { s.mySide with fin := true } }) ∧
    (∀ k ∈ (s.pane (s.cur.core / 256)).cards, k.task = s.me.task → s.failRecs s.cur.core = [] → exec .done s = .next s) ∧
    ∀ r rs, s.failRecs s.cur.core = r :: rs → s.CanTrap → ∃ t, exec .done s = .next t ∧
      TrapTaken (s.dropFail s.cur.core r) t (r.cause % 32) (BitVec.ofNat 64 (r.chunk % 2 ^ 32 * 2 ^ 32 + r.boff % 2 ^ 32))) ∧
  (∀ (s : State), s.cur.side = .A → (∃ x ∈ s.me.pend, x.kind.isAwait = false) → s.failRecs s.cur.core = [] →
    ((∀ x ∈ s.me.pend, x.kind.isAwait = false) → exec .done s = .next s) ∧
    (¬ s.StoresOpen → (∀ k ∈ (s.pane (s.cur.core / 256)).cards, k.task ≠ s.me.task) → (∃ x ∈ s.me.pend, x.kind.isAwait = true) →
      exec .done s = .next (s.setMe s.me.dropAwaits))) ∧
  (∀ (s : State), s.cur.side = .X → s.cur.core < 2048 → s.me.conv = none → s.isLong s.cur.core = false →
    (s.me.av.fin = false → (∀ q : Fin 2, (s.me.sq[q.val]).ents = []) → ∃ t, exec .done s = .next t ∧
      Becomes s t { s.me with crecvs := [], pops := [], sFull := Vector.replicate 32 true, xv := { s.mySide with fin := true } }) ∧
    (s.me.av.fin = true → ∃ t, exec .done s = .next t ∧
      EndedAndReturned s t { s.me with crecvs := [], pops := [], sFull := Vector.replicate 32 true, xv := { s.mySide with fin := true } }) ∧
    ∀ q : Fin 2, s.me.av.fin = false → (s.me.sq[q.val]).ents ≠ [] → exec .done s = .next s)

/-- gbar, dsync, GBAR_COMPLETE, INTERVAL_CLOSE and MERGE_PART_COMPLETE (R98, R99, R131 to R133, R333, R336): a side joins its count
and goes on when its round is over and every member has made its release; in a deterministic launch dsync waits for the merge, which
applies the logs in ascending task id and fails a task whose log conflicts, the address being the lowest virtual one (the model's reading,
log entry 38). -/
def Obligations.BarriersAndMerges : Prop :=
  (∀ (s : State) (ds : Bool) (i : Instr), (ds = false ∧ i = .gbar) ∨ (ds = true ∧ i = .dsync) → s.mySide.bar = none →
    (ds = false ∨ s.cur.side = .X ∨ (∀ k, s.myTask = some k → k.conflict = none) → ∃ t, exec i s = .next t ∧
      SideEffect s t { s.mySide with q := s.mySide.q + 1, bar := some { isDsync := ds, merge := false } }) ∧
    ∀ k early late, ds = true → s.cur.side = .A → s.myTask = some k → k.conflict = some (early, late) → s.CanTrap →
      ∃ t, exec i s = .next t ∧
        TrapTaken s t 0x14 (BitVec.ofNat 64 (early % 2 ^ 32 * 2 ^ 32 + late % 2 ^ 32))) ∧
  (∀ (s : State) (c : CoreId) (sd : Side) (b : BarSt), ((s.core c.no).side sd).bar = some b → b.merge = false →
    (¬ s.RoundOver c.no sd ((s.core c.no).side sd).q → exec (.gbarComplete c sd) s = .next s) ∧
    (s.RoundOver c.no sd ((s.core c.no).side sd).q →
      (b.isDsync = false ∨ s.detTask c.no = none → ∃ t, exec (.gbarComplete c sd) s = .next t ∧
        CoreBecomes c.no s t ((s.core c.no).setSide sd (SideSt.advance { (s.core c.no).side sd with bar := none } 4))) ∧
      (b.isDsync = true → (s.detTask c.no).isSome = true → ∃ t, exec (.gbarComplete c sd) s = .next t ∧
        CoreBecomes c.no s t ((s.core c.no).setSide sd { (s.core c.no).side sd with bar := some { b with merge := true } })))) ∧
  (∀ (s : State) (l : LaunchSt) (live : List Task), s.launchOf (some l.id) = some l →
    live = s.tasks.filter (fun t => t.launch == some l.id) → l.det = true → l.merging = none → l.next = l.count →
    l.out = live.length → (∀ t ∈ live, t.conflict = none ∧ s.atDsync t = true) → live ≠ [] ∨ l.logs ≠ [] ∨ l.held ≠ [] →
    ∃ (t : State) (xs : List MergeLog), exec (.intervalClose l.id) s = .next t ∧ t.launchOf (some l.id) = some { l with merging := some (xs, []), logs := [] } ∧
      xs.Perm (l.logs ++ live.map fun k =>
        { id := k.cont.taskid.toNat, task := some k.id, log := k.log, failed := false, pane := s.taskPane k }) ∧
      xs.Pairwise (fun a b => a.id ≤ b.id) ∧
      { t with launches := s.launches } = s) ∧
  (∀ (s : State) (l : LaunchSt) (x : MergeLog) (done : List MergeLog), s.launchOf (some l.id) = some l →
    l.merging = some ([x], done) → l.held = [] → x.task = none → (∀ t ∈ s.tasks, t.launch ≠ some l.id) →
    (firstClash (s.unmap (asidOfFn l.fn)) done x.log = none → ∃ t, exec (.mergePartComplete l.id) s = .next t ∧
      t.launchOf (some l.id) = some { l with interval := l.interval + 1, merging := none, base := t.mem } ∧
      { t with mem := s.mem, launches := s.launches, panes := s.panes } = s ∧
      ∀ k ms, s.MemOk → x.log = [.plain k ms] → ∀ j, Memory.read t.mem j =
        if k ≤ j then (ms.getD (j - k) none).getD (Memory.read s.mem j) else Memory.read s.mem j) ∧
    ∀ va early, firstClash (s.unmap (asidOfFn l.fn)) done x.log = some (va, early) → x.id < 2 ^ 32 →
      ∃ t, exec (.mergePartComplete l.id) s = .next t ∧ t.mem = s.mem ∧ t.launchOf (some l.id) = some { l with
        interval := l.interval + 1, merging := none, base := t.mem
        fails := if x.failed then l.fails else l.fails ++ [{ id := x.id, cause := 0x14, early := early, addr := va }] }) ∧
  (∀ (va : Nat → Word) (done : List MergeLog) (log : List LogEnt),
    (firstClash va done log = none ↔ ∀ d ∈ done, clashBytes log d.log = []) ∧
    ∀ a early, firstClash va done log = some (a, early) →
      (∃ d ∈ done, d.id = early ∧ ∃ k ∈ clashBytes log d.log, va k = a) ∧
      ∀ d ∈ done, ∀ k ∈ clashBytes log d.log, a.toNat ≤ (va k).toNat) ∧
  (∀ (s : State) (l : LaunchSt) (x : MergeLog) (done : List MergeLog) (k : Task) (n : Nat), s.launchOf (some l.id) = some l →
    l.merging = some ([x], done) → l.held = [] → firstClash (s.unmap (asidOfFn l.fn)) done x.log = none → s.tasks = [k] → k.launch = some l.id →
    k.conflict = none → k.cores = [n] → ∃ t, exec (.mergePartComplete l.id) s = .next t ∧
      t.tasks = [{ k with interval := k.interval + 1, log := [], prefixLog := [] }] ∧
      (∀ m, m ≠ n → t.core m = s.core m) ∧
      ∀ sd, ((s.core n).side sd).bar = none → (t.core n).side sd = (s.core n).side sd) ∧
  (∀ (s : State) (l : LaunchSt) (x : MergeLog) (done : List MergeLog) (k : Task) (n : Nat) (sd : Side) (b : BarSt),
    s.launchOf (some l.id) = some l → l.merging = some ([x], done) → l.held = [] → firstClash (s.unmap (asidOfFn l.fn)) done x.log = none → s.tasks = [k] →
    k.launch = some l.id → k.conflict = none → k.cores = [n] → ((s.core n).side sd).bar = some b → b.merge = true →
    ∃ t, exec (.mergePartComplete l.id) s = .next t ∧
      (t.core n).side sd = SideSt.advance { (s.core n).side sd with bar := none } 4)

namespace Sys2Proof
namespace Machine

/-! ## Launches and the placement of tasks -/

/-- A function has changed to f, and nothing else of the device but what the other clauses name. -/
def FnBecomes (s t : State) (fn : Nat) (f : Fn) : Prop := t.fn fn = f ∧ ∀ m, m ≠ fn → t.fn m = s.fn m

/-- Only a function has changed. -/
def OnlyFn (s t : State) (fn : Nat) (f : Fn) : Prop := FnBecomes s t fn f ∧ { t with fns := s.fns } = s

/-- A launch has been dropped for a reason of VSTAT (R380, R381, R383): the bit and LASTIDX are set, and vector 1 is sent. -/
def LaunchDropped (s t : State) (fn b idx : Nat) : Prop :=
  (t.fn fn).taking = none ∧ (t.fn fn).vstat.getLsbD b = true ∧ bits (t.fn fn).vstat.toNat 38 7 = idx % 2 ^ 32 ∧
  (∀ k, k < 64 → k ≠ b → k < 7 ∨ 38 < k → (t.fn fn).vstat.getLsbD k = (s.fn fn).vstat.getLsbD k) ∧
  t.msix = s.msix ++ [(fn, 1)] ∧ t.launches = s.launches ∧ t.mem = s.mem

/-- The 64 bytes of a slot that a function's launch path reads, and where they stand (R381). -/
def State.SlotAt (s : State) (fn addr key : Nat) : Prop :=
  addr < 2 ^ 52 ∧ s.place { core := 2 ^ 14 + fn, super := false, asid := asidOfFn fn, acc := .read, scalar := false, size := 64 }
    (BitVec.ofNat 64 (0x04 * 2 ^ 56 + addr)) = .ok (.mem key)

/-- The fields of a launch block are in range (R159). -/
structure FieldsGood (b : List Byte) : Prop where
  flags : leNat ((b.drop 4).take 4) < 4
  det   : bit (leNat ((b.drop 4).take 4)) 0 = false ∧ leNat ((b.drop 0x27).take 1) = 0 ∨
    bit (leNat ((b.drop 4).take 4)) 0 = true ∧ 6 ≤ leNat ((b.drop 0x27).take 1) ∧ leNat ((b.drop 0x27).take 1) ≤ 12
  small : leNat ((b.drop 8).take 8) < 2 ^ 40
  gsize : 1 ≤ leNat ((b.drop 0x24).take 1) ∧ leNat ((b.drop 0x24).take 1) ≤ 16
  prio  : leNat ((b.drop 0x25).take 1) < 8
  contr : leNat ((b.drop 0x26).take 1) < 64 ∨ leNat ((b.drop 0x26).take 1) = 255
  zero  : leNat ((b.drop 0x38).take 8) = 0

/-- STATUS of a launch block names no record or one that can be written (R160). -/
def StatusGood (b : List Byte) : Prop :=
  leNat ((b.drop 0x30).take 8) % 32 = 0 ∧ canonical (leNat ((b.drop 0x30).take 8)) = true ∧
    (leNat ((b.drop 0x30).take 8) / 2 ^ 56 = 0 ∨ leNat ((b.drop 0x30).take 8) / 2 ^ 56 = 4)

/-- A launch block passes its checks (R159, R160). -/
structure BlockGood (b : List Byte) : Prop extends FieldsGood b where
  count : 1 ≤ leNat ((b.drop 8).take 8) ∧ leNat ((b.drop 8).take 8) ≤ 2 ^ 32
  stat  : StatusGood b

/-- The image of a task on core n can be read at its start (R163): its header and its preload stand in a slot, at the base it was given, or
are read now, for the base that the model chooses (R64, R165; log entry 10), where nothing resident is in the way. -/
structure State.ImageReady (s u : State) (k : Task) (n : Nat) (h : ImageHdr) (base kept : Nat) (bytes : List Byte) : Prop where
  slot  : (s.preloadOf k = none ∧ u = s ∧ u.readVirt n (asidOfFn k.fn) (h.pre * 2 ^ 16) h.preptr = .ok bytes ∧
      u.header n (asidOfFn k.fn) k.cont.image = .ok h ∧ base = s.spotOn h.resv n ∧ kept = 0) ∨
    ∃ p, s.preloadOf k = some p ∧ u = { s with preloads := s.preloads.erase p } ∧ imageHdr p.head = some h ∧ p.bases = [base] ∧
      kept = p.pre ∧ bytes = [] ∧ base % 2 ^ 16 = 0
  fits  : bytes.length ≤ h.resv * 2 ^ 16 ∧ h.resv ≤ 32
  free  : u.claimSpad [n] [base] h.resv = u

/-- A placed task is the first of its queue to start (R157): among those before it none is placed for the same queue. -/
def State.StartsFirst (s : State) (k : Task) : Prop :=
  ∃ xs ys, s.tasks = xs ++ k :: ys ∧ ∀ x ∈ xs, x.phase ≠ .placed ∨ x.fn ≠ k.fn ∨ x.cont.prio ≠ k.cont.prio ∨
    x.cont.contract ≠ k.cont.contract

/-- The running task of a pane whose cores the record d would take next (R157, R165), with room for its preload beside the reservation of
every member. -/
structure State.PreloadReady (s : State) (pane : Nat) (k : Task) (d : Cand) (h : ImageHdr) (hd bs : List Byte) : Prop where
  phase : k.phase = .running
  next  : s.candFor pane = some d
  item  : d.slot = none ∧ ∃ r l iv pl, d.item = .record r l iv pl
  late  : s.planFor d = .wait
  size  : d.cont.gsize = k.cores.length
  pane  : paneOf (k.cores.headD 0) = pane ∧ pane ∈ s.panesOf d
  cores : ∀ n ∈ k.cores, n ∈ s.supply d (paneOf (k.cores.headD 0))
  slots : s.preloads = [] ∧ s.saved = []
  head  : s.readVirt (k.cores.headD 0) (asidOfFn d.fn) 64 d.cont.image = .ok hd ∧ imageHdr hd = some h
  bytes : s.readVirt (k.cores.headD 0) (asidOfFn d.fn) (h.pre * 2 ^ 16) h.preptr = .ok bs
  room  : k.cores ≠ [] ∧ ∀ n ∈ k.cores, (s.core n).spResv + h.pre ≤ 32

/-- What an ended or failed task leaves on its core: what belongs to the hardware. -/
def Core.afterTask (c : Core) : Core :=
  { Core.reset with laneok := c.laneok, lanes := c.lanes, parity := c.parity, icache := c.icache }

/-- A task of one core that stands for no contract and has nothing left behind it. -/
structure State.PlainEnd (s : State) (k : Task) (n : Nat) : Prop where
  cores : k.cores = [n]
  idle  : s.contracts = [] ∧ s.preloads = []
  roles : (s.core n).roles = Vector.replicate 4 none ∧ (s.core n).leaving = []

end Machine
end Sys2Proof

/-- LAUNCH, LWBASE_WRITE, LWCNT_WRITE, VSTAT_CLEAR, LAUNCH_FETCH, LAUNCH_FETCH_ATTEMPT, the zero-length accesses and BAR2_ACCESS (R10,
R110, R159 to R161, R378 to R381, R383): launches are queued, taken, read twice, checked by stamp and turned into cursors; dropped ones are
reported; control space is reached by aligned dwords. How often and when a slot is read (log entry 40), and what a register answers of a
function that does not exist or before boot (log entry 55), are the model's choices. -/
def Obligations.LaunchesAreTakenAndReported : Prop :=
  (∀ (s : State) (fn : Fin 129) (size : Nat) (v : Word), s.fnOn fn.val = true →
    (size = 8 → (s.fn fn.val).fifo.length < 64 → ∃ t, exec (.launch fn size v) s = .next t ∧
      OnlyFn s t fn.val { s.fn fn.val with fifo := (s.fn fn.val).fifo ++ [(v.toNat / 2 ^ 32, v.toNat % 2 ^ 32)] }) ∧
    (size = 8 → 64 ≤ (s.fn fn.val).fifo.length → ∃ t, exec (.launch fn size v) s = .next t ∧
      FnBecomes s t fn.val { s.fn fn.val with vstat := (s.fn fn.val).vstat ||| BitVec.ofNat 64 (2 ^ 62) } ∧
      t.msix = s.msix ++ [(fn.val, 1)] ∧ { t with fns := s.fns, msix := s.msix } = s) ∧
    (size ≠ 8 → exec (.launch fn size v) s = .next s) ∧
    ((s.fn fn.val).fifo = [] → (∃ t, exec (.lwbaseWrite fn v) s = .next t ∧
        OnlyFn s t fn.val { s.fn fn.val with lwbase := v &&& BitVec.ofNat 64 (2 ^ 52 - 2 ^ 6) }) ∧
      ∃ t, exec (.lwcntWrite fn v) s = .next t ∧
        OnlyFn s t fn.val { s.fn fn.val with lwcnt := v &&& BitVec.ofNat 64 (2 ^ 32 - 1) }) ∧
    ((s.fn fn.val).fifo ≠ [] → exec (.lwbaseWrite fn v) s = .next s ∧ exec (.lwcntWrite fn v) s = .next s) ∧
    ∃ t f, exec (.vstatClear fn v) s = .next t ∧ OnlyFn s t fn.val { s.fn fn.val with vstat := f } ∧
      ∀ k, k < 64 → f.getLsbD k = ((s.fn fn.val).vstat.getLsbD k &&
        !(v.getLsbD k && decide (k = 63 ∨ k = 62 ∨ k = 61 ∨ k = 59 ∨ k = 58)))) ∧
  (∀ (s : State) (fn : Fin 129) (stamp idx : Nat) (rest : List (Nat × Nat)), s.portOn = true → (s.fn fn.val).taking = none →
    (s.fn fn.val).fifo = (stamp, idx) :: rest →
    ((s.fn fn.val).lwcnt.toNat ≤ idx → ∃ t, exec (.launchFetch fn) s = .next t ∧ LaunchDropped s t fn.val 61 idx ∧
      (t.fn fn.val).fifo = rest) ∧
    (idx < (s.fn fn.val).lwcnt.toNat → ∀ u addr, addr = (s.fn fn.val).lwbase.toNat + 64 * idx →
      u = s.setFn fn.val { s.fn fn.val with fifo := rest, taking := some (stamp, idx, addr), tries := 0, taken := s.gts, first := none } →
      exec (.launchFetch fn) s = exec (.launchFetchAttempt fn) u)) ∧
  (∀ (s : State) (fn : Fin 129) (stamp idx addr key : Nat) (b : List Byte), (s.fn fn.val).taking = some (stamp, idx, addr) →
    s.SlotAt fn.val addr key → b = Memory.readN s.mem key 64 →
    ((s.fn fn.val).first = none → (s.fn fn.val).taken.toNat + 250 * (s.fn fn.val).tries ≤ s.gts.toNat →
      ∃ t, exec (.launchFetchAttempt fn) s = .next t ∧ OnlyFn s t fn.val { s.fn fn.val with first := some b }) ∧
    ∀ b1, (s.fn fn.val).first = some b1 →
    (b1 ≠ b ∨ leNat (b.take 4) ≠ stamp → (s.fn fn.val).tries < 15 → ∃ t, exec (.launchFetchAttempt fn) s = .next t ∧
      OnlyFn s t fn.val { s.fn fn.val with tries := (s.fn fn.val).tries + 1, first := none }) ∧
    (b1 ≠ b ∨ leNat (b.take 4) ≠ stamp → 15 ≤ (s.fn fn.val).tries → ∃ t, exec (.launchFetchAttempt fn) s = .next t ∧
      LaunchDropped s t fn.val 63 idx) ∧
    (b1 = b → leNat (b.take 4) = stamp → leNat ((b.drop 0x30).take 8) % 32 ≠ 0 → ∃ t, exec (.launchFetchAttempt fn) s = .next t ∧
      LaunchDropped s t fn.val 59 idx) ∧
    (b1 = b → leNat (b.take 4) = stamp → BlockGood b → ∃ (t : State) (l : LaunchSt), exec (.launchFetchAttempt fn) s = .next t ∧
      t.launches = s.launches ++ [l] ∧ t.nextLaunch = s.nextLaunch + 1 ∧ (t.fn fn.val).taking = none ∧ t.mem = s.mem ∧
      l.id = s.nextLaunch ∧ l.fn = fn.val ∧ l.count = leNat ((b.drop 8).take 8) ∧ l.next = 0 ∧ l.stateNo = 1 ∧ l.out = 0 ∧ l.fails = [] ∧
      l.det = bit (leNat ((b.drop 4).take 4)) 0 ∧ l.status.toNat = leNat ((b.drop 0x30).take 8) ∧
      l.cont.image.toNat = leNat ((b.drop 0x10).take 8) ∧ l.cont.frame.toNat = leNat ((b.drop 0x18).take 8) ∧
      l.fstride = leNat ((b.drop 0x20).take 4) ∧ l.cont.gsize = leNat ((b.drop 0x24).take 1) ∧
      l.cont.join.toNat = leNat ((b.drop 0x28).take 8) ∧ l.cont.prio = leNat ((b.drop 0x25).take 1) ∧
      l.cont.contract = leNat ((b.drop 0x26).take 1) ∧
      t.queueOf fn.val l.cont.prio l.cont.contract = s.queueOf fn.val l.cont.prio l.cont.contract ++ [.cursor l.id]) ∧
    (b1 = b → leNat (b.take 4) = stamp → StatusGood b →
      ¬ FieldsGood b ∨ leNat ((b.drop 8).take 8) = 0 ∨ 2 ^ 32 < leNat ((b.drop 8).take 8) →
      ∃ (t : State) (l : LaunchSt), exec (.launchFetchAttempt fn) s = .next t ∧ t.launches = s.launches ++ [l] ∧
        t.nextLaunch = s.nextLaunch + 1 ∧ (t.fn fn.val).taking = none ∧ t.mem = s.mem ∧ t.cqueues = s.cqueues ∧
        (∀ p, (t.fn fn.val).queue p = (s.fn fn.val).queue p) ∧ l.id = s.nextLaunch ∧ l.fn = fn.val ∧ l.count = 0 ∧ l.next = 0 ∧ l.out = 0 ∧
        l.fails = [] ∧ l.status.toNat = leNat ((b.drop 0x30).take 8) ∧
        (¬ FieldsGood b → l.stateNo = 5) ∧ (FieldsGood b → leNat ((b.drop 8).take 8) = 0 → l.stateNo = 2) ∧
        (FieldsGood b → 2 ^ 32 < leNat ((b.drop 8).take 8) → l.stateNo = 3))) ∧
  (∀ (s : State) (fn : Fin 129), (s.fn fn.val).first = none → s.gts.toNat < (s.fn fn.val).taken.toNat + 250 * (s.fn fn.val).tries →
    exec (.launchFetchAttempt fn) s = .next s) ∧
  (∀ (s : State) (fn : Fin 129), exec (.inboundZeroLengthWrite fn) s = .next s ∧ exec (.inboundZeroLengthRead fn) s = .next s) ∧
  (∀ (s : State) (off size : Nat) (v : Word),
    (s.portOn = true → size = 8 → off % 8 = 0 → off < 2 ^ 32 →
      exec (.bar2Access off size .read) s = .next { s with barOut := s.barOut ++ [s.ctlRead off] } ∧
      exec (.bar2Access off size (.write v)) s = .next (s.ctlWrite off v)) ∧
    (s.portOn = false ∨ size ≠ 8 ∨ off % 8 ≠ 0 ∨ 2 ^ 32 ≤ off →
      exec (.bar2Access off size .read) s = .next { s with barOut := s.barOut ++ [BitVec.allOnes 64] } ∧
      exec (.bar2Access off size (.write v)) s = .next s)) ∧
  (∀ (s : State) (fn : Fin 129) (v : Word), s.fnOn fn.val = true →
    (∀ p ∈ [(0x00, (0 : Word)), (0x08, s.vstat fn.val), (0x10, (s.fn fn.val).lwbase), (0x18, (s.fn fn.val).lwcnt)],
      exec (.bar2Access p.1 8 (.read0 fn)) s = .next { s with barOut := s.barOut ++ [p.2] }) ∧
    (∀ off, off ∉ [0x00, 0x08, 0x10, 0x18] →
      exec (.bar2Access off 8 (.read0 fn)) s = .next { s with barOut := s.barOut ++ [0] } ∧
      ∀ size, exec (.bar2Access off size (.write0 fn v)) s = .next s) ∧
    exec (.bar2Access 0x00 8 (.write0 fn v)) s = exec (.launch fn 8 v) s ∧
    exec (.bar2Access 0x08 8 (.write0 fn v)) s = exec (.vstatClear fn v) s ∧
    exec (.bar2Access 0x10 8 (.write0 fn v)) s = exec (.lwbaseWrite fn v) s ∧
    exec (.bar2Access 0x18 8 (.write0 fn v)) s = exec (.lwcntWrite fn v) s)

/-- TASK_START, TASK_END, RECORD_PLACEMENT, PRELOAD and STATUS_RECORD_WRITE (R138, R155, R161 to R165, R332, R383): the next record goes to
the idle cores planned for it, its task starts from its image with the state of task start, or fails without a trap; at its end the join
block is counted down; a launch that is over writes its status record. Where a reservation or a preload stands and what a slot holds (log
entry 10), and the U view of the count of a join block (log entry 63), are the model's choices. -/
def Obligations.TasksArePlacedStartedAndEnded : Prop :=
  (∀ (s : State) (c : Cand) (cores : List Nat) (r : Record) (l : Option Nat) (iv : Nat) (pl : List LogEnt), s.nextCand = some c →
    s.planFor c = .place cores → c.item = .record r l iv pl → s.preloads = [] → s.contracts = [] →
    ∃ (t : State) (k : Task), exec .recordPlacement s = .next t ∧ t.tasks = s.tasks ++ [k] ∧ k.id = s.nextTask ∧
      t.nextTask = s.nextTask + 1 ∧ k.cores = cores ∧ k.phase = .placed ∧ k.cont = c.cont ∧ k.launch = c.launch ∧ k.fn = c.fn ∧
      k.interval = c.interval ∧ k.log = [] ∧ k.prefixLog = c.prefixLog ∧ k.placedAt = s.gts ∧
      (∀ n ∈ cores, t.core n = { s.core n with task := some s.nextTask }) ∧ (∀ n, n ∉ cores → t.core n = s.core n) ∧
      t.mem = s.mem ∧ t.launches = s.launches) ∧
  (∀ (s : State), s.preloads = [] → s.nextCand = none → exec .recordPlacement s = .next s) ∧
  (∀ (s : State) (p : Preload), s.contracts = [] → s.nextCand = none → s.preloads = [p] → p.parked = true →
    (∀ n ∈ p.cores, (s.core n).task = none) → (∀ k ∈ s.tasks, k.isStopping = false) → ∃ (t : State) (k : Task),
    exec .recordPlacement s = .next t ∧ t.tasks = s.tasks ++ [k] ∧ k.id = s.nextTask ∧ k.phase = .placed ∧ k.cores = p.cores ∧
      k.cont = p.cont ∧ k.launch = p.launch ∧ t.preloads = [{ p with parked := false }] ∧ t.mem = s.mem ∧
      ∀ n ∈ p.cores, t.core n = { s.core n with task := some s.nextTask }) ∧
  (∀ (s : State) (c : Cand), s.nextCand = some c →
    (s.planFor c = .soon → exec .recordPlacement s = .next s) ∧
    (s.planFor c = .wait → s.preloads = [] → s.contracts = [] →
      (s.misfits c = [] → exec .recordPlacement s = .next s) ∧
      ∀ k, s.misfits c = [k.id] → s.task k.id = some k → k.passedBy ≠ some c.cont → ∃ t, exec .recordPlacement s = .next t ∧
        t.task k.id = some { k with passedBy := some c.cont } ∧ errHead t.errlog = (errHead s.errlog + 1) % 2 ^ 31 ∧
        t.mem = s.mem ∧ t.cores = s.cores)) ∧
  (∀ (s : State) (c : CoreId) (k : Task) (d : Cand) (h : ImageHdr) (hd bs : List Byte), s.MemOk →
    (s.core c.no).task.bind s.task = some k → s.PreloadReady c.pane.val k d h hd bs → bs.length ≤ h.pre * 2 ^ 16 →
    ∃ (t : State) (base : Nat → Nat), exec (.preload c) s = .next t ∧ (∀ n, t.core n = s.core n) ∧ t.tasks = s.tasks ∧
      t.preloads = [{ cores := k.cores, fn := d.fn, cont := d.cont, launch := d.launch, interval := d.interval, prefixLog := d.prefixLog
                      asid := asidOfFn d.fn, resv := h.resv, pre := h.pre, bases := k.cores.map base, head := hd
                      lines := s.entryLines (k.cores.headD 0) (asidOfFn d.fn) d.cont.image h, parked := false }] ∧
      (∀ n ∈ k.cores, ∀ x ∈ regionsAt (base n) h.pre, x ∉ regionsAt (s.core n).spBase (s.core n).spResv) ∧
      (∀ n ∈ k.cores, ∀ i, i < bs.length → Memory.read t.mem (regionKey n (base n) (i / 2 ^ 16) + i % 2 ^ 16) = bs.getD i 0) ∧
      ∀ j, (∀ n ∈ k.cores, ∀ r, r < h.pre → j < regionKey n (base n) r ∨ regionKey n (base n) r + 2 ^ 16 ≤ j) →
        Memory.read t.mem j = Memory.read s.mem j) ∧
  (∀ (s u : State) (k : Task) (n : Nat) (h : ImageHdr) (base kept : Nat) (bytes : List Byte), s.MemOk → s.task k.id = some k →
    k.phase = .placed → s.StartsFirst k → k.cores = [n] → s.ImageReady u k n h base kept bytes → ∃ (t : State) (k' : Task), exec (.taskStart k.id) s = .next t ∧ t.task k.id = some k' ∧
      k'.phase = .running ∧ k'.cores = [n] ∧ k'.long = false ∧ k'.idle = s.gts ∧
      (∀ m, m ≠ n → t.core m = s.core m) ∧
      (t.core n).a = Core.reset.a.set 1 k.cont.frame ∧ (t.core n).s = Core.reset.s ∧ (t.core n).vregs = Core.reset.vregs ∧
      (t.core n).av = { SideSt.reset with pc := k.cont.image + BitVec.ofNat 64 h.aentry } ∧
      (t.core n).xv = { SideSt.reset with pc := k.cont.image + BitVec.ofNat 64 h.xentry } ∧
      (t.core n).vnreg = h.vnreg ∧ (t.core n).tid = k.cont.taskid ∧ (t.core n).gpos = 0 ∧ (t.core n).gsize = k.cont.gsize ∧
      (t.core n).asid.toNat = asidOfFn k.fn % 256 ∧ (t.core n).spResv = h.resv ∧ (t.core n).task = some k.id ∧
      (t.core n).laneok = (s.core n).laneok ∧ (t.core n).lanes = (s.core n).laneok ∧
      (s.preloadOf k = none → ∀ x, x ∈ (t.core n).icache → x ∈ (s.core n).icache) ∧
      (∀ p, s.preloadOf k = some p → p.lines.length ≤ 256 → ∀ x ∈ p.lines, x ∈ (t.core n).icache) ∧
      (t.core n).tvec = s.ctlGet (0x6800 + 8 * asidOfFn k.fn) ∧ (t.core n).spBase = base ∧ t.preloads = u.preloads ∧
      (∀ r i, r < h.resv → i < 2 ^ 16 → Memory.read t.mem (regionKey n base r + i) =
        if r * 2 ^ 16 + i < bytes.length then bytes.getD (r * 2 ^ 16 + i) 0
        else if r < kept then Memory.read s.mem (regionKey n base r + i) else 0) ∧
      ∀ j, (∀ r, r < h.resv → j < regionKey n base r ∨ regionKey n base r + 2 ^ 16 ≤ j) →
        Memory.read t.mem j = Memory.read s.mem j) ∧
  (∀ (s : State) (k x : Task) (xs ys : List Task), s.task k.id = some k → s.tasks = xs ++ k :: ys → x ∈ xs → x.phase = .placed →
    x.fn = k.fn → x.cont.prio = k.cont.prio → x.cont.contract = k.cont.contract → (∀ y ∈ xs, y.id ≠ k.id) →
    exec (.taskStart k.id) s = .next s) ∧
  (∀ (s : State) (k : Task) (n : Nat) (e : Nat × Word), s.task k.id = some k → k.phase = .placed → s.StartsFirst k → k.cores = [n] → k.launch = none →
    s.contracts = [] → s.preloads = [] → s.header n (asidOfFn k.fn) k.cont.image = .error e →
    ∃ t, exec (.taskStart k.id) s = .next t ∧ t.task k.id = none ∧
      t.core n = (s.core n).afterTask ∧
      (∀ m, m ≠ n → t.core m = s.core m) ∧ t.mem = s.mem) ∧
  (∀ (s : State) (k : Task) (n : Nat), s.MemOk → s.task k.id = some k → k.phase = .running → s.PlainEnd k n → s.coreDone k n = true →
    k.launch = none →
    (k.cont.join = 0 → ∃ t, exec (.taskEnd k.id) s = .next t ∧ t.task k.id = none ∧ t.mem = s.mem ∧
      t.core n = (s.core n).afterTask ∧ ∀ m, m ≠ n → t.core m = s.core m) ∧
    ∀ key, k.cont.join ≠ 0 → k.cont.join.toNat < 2 ^ 52 →
      s.place { core := n, super := false, asid := asidOfFn k.fn, acc := .amo, scalar := true, size := 64 } k.cont.join = .ok (.mem key) →
      1 < signedOf 64 (leNat (Memory.readN s.mem key 8)) → ∃ t, exec (.taskEnd k.id) s = .next t ∧ t.task k.id = none ∧
        Wrote s t key (leBytes 8 (leNat (Memory.readN s.mem key 8) - 1)) ∧
        t.core n = (s.core n).afterTask ∧ ∀ m, m ≠ n → t.core m = s.core m) ∧
  (∀ (s : State) (k : Task) (n key : Nat) (r : Record), s.task k.id = some k → k.phase = .running → s.PlainEnd k n →
    s.coreDone k n = true → k.launch = none → k.cont.join ≠ 0 → k.cont.join.toNat < 2 ^ 52 →
    s.place { core := n, super := false, asid := asidOfFn k.fn, acc := .amo, scalar := true, size := 64 } k.cont.join = .ok (.mem key) →
    leNat (Memory.readN s.mem key 8) = 1 → s.MemOk → recordOf (Memory.readN s.mem (key + 0x20) 32) = (r, true) →
    ∃ t, exec (.taskEnd k.id) s = .next t ∧ t.task k.id = none ∧ Wrote s t key (List.replicate 8 0) ∧
      t.queueOf k.fn r.prio r.contract = s.queueOf k.fn r.prio r.contract ++ [.record r none 0 []]) ∧
  (∀ (s : State) (k : Task) (n : Nat) (l : LaunchSt), s.task k.id = some k → s.PlainEnd k n → s.coreDone k n = true →
    k.launch = some l.id → s.launchOf (some l.id) = some l → l.det = false → k.cont.join = 0 →
    (k.phase = .running → ∃ t, exec (.taskEnd k.id) s = .next t ∧ t.task k.id = none ∧
      t.launchOf (some l.id) = some { l with out := l.out - 1 }) ∧
    ∀ c since, k.phase = .exiting c since → k.conflict = none → ∃ t, exec (.taskEnd k.id) s = .next t ∧ t.task k.id = none ∧
      t.launchOf (some l.id) = some { l with
        out := l.out - 1
        fails := l.fails ++ [{ id := k.cont.taskid.toNat, cause := c, early := k.cont.taskid.toNat
                               addr := if 8 ≤ c ∧ c ≤ 0x0B then k.addr else 0 }] }) ∧
  (∀ (s : State) (l : LaunchSt), s.MemOk → s.launchOf (some l.id) = some l → l.next = l.count → l.out = 0 → l.held = [] →
    l.merging = none → l.logs = [] →
    (l.status = 0 → ∃ t, exec (.statusRecordWrite l.id) s = .next t ∧ t.launches = s.launches.filter (fun x => x.id != l.id) ∧
      t.msix = s.msix ++ [(l.fn, 0)] ∧ { t with launches := s.launches, msix := s.msix } = s) ∧
    ∀ key, l.status ≠ 0 → s.statusPlace l = .ok (.mem key) → ∃ t, exec (.statusRecordWrite l.id) s = .next t ∧
      t.launches = s.launches.filter (fun x => x.id != l.id) ∧ t.msix = s.msix ++ [(l.fn, 0)] ∧ (∀ n, t.core n = s.core n) ∧
      (∀ j, j < key ∨ key + 32 ≤ j → Memory.read t.mem j = Memory.read s.mem j) ∧
      (l.fails = [] → l.stateNo < 2 ^ 32 → leNat (Memory.readN t.mem key 4) = l.stateNo ∧
        ∀ j, 4 ≤ j → j < 32 → Memory.read t.mem (key + j) = 0) ∧
      ∀ f, l.fails = [f] → f.id < 2 ^ 32 → f.early < 2 ^ 32 → f.cause < 32 → leNat (Memory.readN t.mem key 4) = 4 ∧
        leNat (Memory.readN t.mem (key + 4) 4) = f.cause ∧ leNat (Memory.readN t.mem (key + 8) 4) = f.early ∧
        leNat (Memory.readN t.mem (key + 0x0C) 4) = f.id ∧ leNat (Memory.readN t.mem (key + 0x10) 8) = f.addr.toNat ∧
        leNat (Memory.readN t.mem (key + 0x18) 4) = 1)

namespace Sys2Proof
namespace Machine

/-! ## Translation -/

/-- A command register has taken a command (R22, R76): it reads KIND and ASID as written, and no other register of control space
has changed. -/
def CommandTaken (s t : State) (off kind asid : Nat) : Prop :=
  t.ctlGet off = BitVec.ofNat 64 (kind * 2 ^ 10 + asid) ∧ ∀ o, o ≠ off → t.ctlGet o = s.ctlGet o

/-- An entry of the translation buffers that a command of XINVC names (R22): its region, its ASID, or every one. -/
def TlbEnt.Named (e : TlbEnt) (kind asid addr : Nat) : Prop :=
  e.host = false ∧ ((kind = 0 ∧ e.asid = asid ∧ e.va ≤ addr ∧ addr < e.va + e.size) ∨ (kind = 1 ∧ e.asid = asid) ∨ 2 ≤ kind)

/-- An entry that maps a page of a function's host-shared space. -/
def TlbEnt.MapsPage (e : TlbEnt) (fn page : Nat) : Prop :=
  e.host = true ∧ e.asid = fn ∧ e.va ≤ page * 4096 ∧ page * 4096 < e.va + e.size

/-- The code cache of a core keeps the lines of which p holds, and nothing else of the core has changed (R76). -/
def LinesKept (s t : State) (n : Nat) (p : CodeLine → Prop) : Prop :=
  t.core n = { s.core n with icache := (t.core n).icache } ∧ (t.core n).icache.Sublist (s.core n).icache ∧
  ∀ x, x ∈ (t.core n).icache ↔ x ∈ (s.core n).icache ∧ p x

/-- A walk of three levels reaches a 64 KiB leaf (R15, R16): the root and the entries of the levels it passes. -/
structure State.WalksTo (s : State) (asid va e1 e2 e3 : Nat) : Prop where
  root  : bit (s.ctlGet (8 * asid)).toNat 63 = true
  size  : va / 2 ^ 30 ≤ bits (s.ctlGet (8 * asid)).toNat 59 38
  in1   : bits (s.ctlGet (8 * asid)).toNat 37 12 * 2 ^ 12 + 8 * (va / 2 ^ 30) < 2 ^ 38
  ent1  : e1 = leNat (Memory.readN s.mem (bits (s.ctlGet (8 * asid)).toNat 37 12 * 2 ^ 12 + 8 * (va / 2 ^ 30)) 8)
  table1 : e1 % 2 = 1 ∧ bit e1 1 = false ∧ bits e1 7 5 = 0 ∧ e1 < 2 ^ 38 ∧ e1 / 256 * 256 % 4096 = 0
  ent2  : e2 = leNat (Memory.readN s.mem (e1 / 256 * 256 + 8 * bits va 29 21) 8)
  table2 : e2 % 2 = 1 ∧ bit e2 1 = false ∧ bits e2 7 5 = 0 ∧ e2 < 2 ^ 38
  ent3  : e3 = leNat (Memory.readN s.mem (e2 / 256 * 256 + 8 * bits va 20 16) 8)
  leaf  : e3 % 2 = 1 ∧ bit e3 1 = true ∧ bits e3 7 5 = 0 ∧ e3 < 2 ^ 41 ∧ e3 / 256 * 256 % 2 ^ 16 = 0

end Machine
end Sys2Proof

/-- PAGE_WALK_COMPLETE, the commands of XINVC and CCINV, INVALIDATION_COMPLETE and CCINV_COMPLETE (R15 to R18, R22, R76): a walk installs
the leaf it finds; a command is taken while none is busy, and ends when every access that used an entry it removes has been performed; the
code lines it names are dropped. Which set an entry belongs to and which one it replaces (log entry 9), and that a command removes
device-virtual entries alone (log entry 74), are the model's choices. -/
def Obligations.WalksInstallAndInvalidationsRemove : Prop :=
  (∀ (s : State) (pane : Fin 8) (asid : Fin 256) (va : Nat), va < 2 ^ 52 →
    (∀ l, s.tlbHit pane.val false asid.val va = none → s.walk asid.val va = some l →
      (paOk (l.pa + (va - l.va)) = false → exec (.pageWalkComplete pane asid va) s = .next s) ∧
      ∀ e : TlbEnt, paOk (l.pa + (va - l.va)) = true → e = l.entry pane.val false asid.val →
        ((s.tlb.filter fun x => x.pane == pane.val && x.set == e.set).length < 8 →
          exec (.pageWalkComplete pane asid va) s = .next { s with tlb := e :: s.tlb }) ∧
        (8 ≤ (s.tlb.filter fun x => x.pane == pane.val && x.set == e.set).length →
          ∃ (t : State) (old : TlbEnt), exec (.pageWalkComplete pane asid va) s = .next t ∧ old ∈ s.tlb ∧ old.pane = pane.val ∧
            old.set = e.set ∧ t.tlb = e :: s.tlb.erase old ∧ t.gone = s.gone ++ [old] ∧
            { t with tlb := s.tlb, gone := s.gone, undefCtr := s.undefCtr } = s)) ∧
    ((s.tlbHit pane.val false asid.val va).isSome = true ∨ s.walk asid.val va = none →
      exec (.pageWalkComplete pane asid va) s = .next s) ∧
    ∀ e1 e2 e3, s.WalksTo asid.val va e1 e2 e3 → s.walk asid.val va = some
      { va := va / 2 ^ 16 * 2 ^ 16, size := 2 ^ 16, pa := e3 / 256 * 256, w := bit e3 2, x := bit e3 3, sv := bit e3 4 }) ∧
  (∀ (s : State) (asid : Fin 256), ∀ p ∈ [(Instr.xinvRegion asid, 0, asid.val), (.xinvAsid asid, 1, asid.val), (.xinvAll, 2, 0)],
    (s.inval.isSome = true → exec p.1 s = .next s) ∧
    (s.inval = none → ∃ t, exec p.1 s = .next t ∧ CommandTaken s t 0x1008 p.2.1 p.2.2 ∧
      t.inval = some (p.2.1, p.2.2, bits (s.ctlGet 0x1000).toNat 51 16 * 2 ^ 16) ∧ bit t.xinvc.toNat 63 = true ∧
      { t with ctl := s.ctl, inval := s.inval } = s)) ∧
  (∀ (s : State) (asid : Fin 256), ∀ p ∈ [(Instr.ccinvAsid asid, 0, asid.val), (.ccinvAll, 1, 0)],
    (s.ccinval.isSome = true → exec p.1 s = .next s) ∧
    (s.ccinval = none → ∃ t, exec p.1 s = .next t ∧ CommandTaken s t 0x3000 p.2.1 p.2.2 ∧
      t.ccinval = some (p.2.1, p.2.2) ∧ bit t.ccinv.toNat 63 = true ∧ { t with ctl := s.ctl, ccinval := s.ccinval } = s)) ∧
  (∀ (s : State) (kind asid addr : Nat), s.inval = some (kind, asid, addr) →
    ((∀ e ∈ s.tlb ++ s.gone, e.Named kind asid addr → s.inUse e.pa e.size = false) → ∃ t, exec .invalidationComplete s = .next t ∧
      t.inval = none ∧ { t with cores := s.cores, tlb := s.tlb, inval := s.inval } = s ∧ t.tlb.Sublist s.tlb ∧
      (∀ e, e ∈ t.tlb ↔ e ∈ s.tlb ∧ ¬ e.Named kind asid addr) ∧ ∀ n, LinesKept s t n fun x =>
        ¬ ((kind = 0 ∧ x.asid = asid ∧ x.va / 2 ^ 16 = addr / 2 ^ 16) ∨ (kind = 1 ∧ x.asid = asid) ∨ 2 ≤ kind ∨
          ∃ e ∈ s.tlb, e.Named kind asid addr ∧ e.asid = x.asid ∧ e.va ≤ x.va ∧ x.va < e.va + e.size)) ∧
    ((∃ e ∈ s.tlb ++ s.gone, e.Named kind asid addr ∧ s.inUse e.pa e.size = true) → exec .invalidationComplete s = .next s)) ∧
  (∀ (s : State), (s.inval = none → exec .invalidationComplete s = .next s) ∧
    (s.ccinval = none → exec .ccinvComplete s = .next s) ∧
    ∀ kind asid, s.ccinval = some (kind, asid) → ∃ t, exec .ccinvComplete s = .next t ∧ t.ccinval = none ∧
      { t with cores := s.cores, ccinval := s.ccinval } = s ∧ ∀ n, LinesKept s t n fun x => kind ≠ 1 ∧ x.asid ≠ asid)

/-- ATS_INVALIDATE_REQUEST, ATS_TRANSLATION_COMPLETION, PRI_RESPONSE and PRI_TIMEOUT (R23, R24, R27): a page's entries go once no
translation of it is in flight; a translation is installed in the panes that wait; a refused or a late page request is marked so that its
element traps, and a free place of the allocation is taken by the request that waits for it. Which entry a translation of the host replaces
is the model's choice (log entry 9). -/
def Obligations.HostPagesAreAskedFor : Prop :=
  (∀ (s : State) (fn : Fin 129) (page : Nat),
    ((∀ e ∈ s.tlb ++ s.gone, e.MapsPage fn.val page → s.inUse (hostKey e.va) e.size = false) →
      (∀ r ∈ s.pri, r.fn = fn.val → r.page = page → r.asking = false) →
      ∃ t, exec (.atsInvalidateRequest fn page) s = .next t ∧ { t with tlb := s.tlb } = s ∧
        ∀ e, e ∈ t.tlb ↔ e ∈ s.tlb ∧ ¬ e.MapsPage fn.val page) ∧
    ((∃ e ∈ s.tlb ++ s.gone, e.MapsPage fn.val page ∧ s.inUse (hostKey e.va) e.size = true) ∨
        (∃ r ∈ s.pri, r.fn = fn.val ∧ r.page = page ∧ r.asking = true) →
      exec (.atsInvalidateRequest fn page) s = .next s)) ∧
  (∀ (s : State) (fn : Fin 129) (a : AtsAns) (r : PriReq), s.pri = [r] → r.fn = fn.val → r.page = a.page → r.state = 0 ∨ r.state = 3 →
    (a.ok = true → a.w = true ∨ r.write = false → ∃ t, exec (.atsTranslationCompletion fn a) s = .next t ∧ t.pri = [] ∧
      { t with tlb := s.tlb, gone := s.gone, undefCtr := s.undefCtr, pri := s.pri } = s ∧
      (∀ c ∈ r.cores, ∃ e ∈ t.tlb, e = { pane := c / 256, host := true, asid := fn.val, va := a.page * 4096, size := 4096
                                         pa := a.page * 4096, w := a.w, x := a.x, s := false }) ∧
      (∀ e ∈ s.tlb, e ∈ t.tlb ∨ e ∈ t.gone) ∧
      ((∀ c ∈ r.cores, (s.tlb.filter fun e => e.pane == c / 256).length < 8) → ∀ e ∈ s.tlb, ¬ e.MapsPage fn.val a.page → e ∈ t.tlb)) ∧
    (a.ok = false → r.state = 0 → 0 < s.priAlloc → exec (.atsTranslationCompletion fn a) s = .next
      { s with pri := [{ r with state := 2, sentAt := s.gts }] }) ∧
    (a.ok = false → r.state = 3 → exec (.atsTranslationCompletion fn a) s = .next { s with pri := [{ r with state := 4 }] }) ∧
    (a.ok = true → a.w = false → r.write = true → r.state = 3 → ∃ t, exec (.atsTranslationCompletion fn a) s = .next t ∧
      t.pri = [{ r with state := 6 }] ∧ { t with tlb := s.tlb, gone := s.gone, undefCtr := s.undefCtr, pri := s.pri } = s)) ∧
  (∀ (s : State) (fn : Fin 129) (a : AtsAns) (r : PriReq), s.pri = [r] → r.fn = fn.val → r.page = a.page → r.state = 7 →
    ∃ t, exec (.atsTranslationCompletion fn a) s = .next t ∧ t.pri = [] ∧
      { t with tlb := s.tlb, gone := s.gone, undefCtr := s.undefCtr, pri := s.pri } = s ∧
      (a.ok = false → t.tlb = s.tlb)) ∧
  (∀ (s : State) (fn : Fin 129) (r : PriReq), s.pri = [r] → r.fn = fn.val → r.state = 2 → r.cores ≠ [] →
    exec (.priResponse fn r.page .success) s = .next { s with pri := [{ r with state := 3 }] } ∧
    exec (.priResponse fn r.page .invalid) s = .next { s with pri := [{ r with state := 4 }] } ∧
    exec (.priResponse fn r.page .failure) s = .next { s with pri := [{ r with state := 4 }] } ∧
    (r.sentAt.toNat + 50000000 ≤ s.gts.toNat → exec (.priTimeout fn r.page) s = .next { s with pri := [{ r with state := 5 }] }) ∧
    (s.gts.toNat < r.sentAt.toNat + 50000000 → exec (.priTimeout fn r.page) s = .next s)) ∧
  (∀ (s : State) (fn : Fin 129) (r q : PriReq), s.pri = [r, q] → r.fn = fn.val → r.state = 2 → r.cores ≠ [] → q.fn = fn.val →
    q.state = 1 → 0 < s.priAlloc →
    exec (.priResponse fn r.page .success) s = .next { s with pri := [{ r with state := 3 }, { q with state := 2, sentAt := s.gts }] })

namespace Sys2Proof
namespace Machine

/-! ## The lattice -/

/-- Flits queued for a peer in one class. -/
def Peer.out (p : Peer) (crit : Bool) : List Flit := if crit then p.egressC else p.egress

/-- The next sequence number of a class. -/
def Peer.seqOf (p : Peer) (crit : Bool) : Nat := if crit then p.seqC else p.seqD

/-- One packet has been queued for a peer: a header flit numbered by its class, and npay payload flits of 64 bytes, which carry the
payload and zeros behind it, all with the CRC of what they hold (R347). -/
structure PacketQueued (s t : State) (d : Nat) (crit : Bool) (npay : Nat) (c : Cargo) : Prop where
  queued : ∃ (hd : Flit) (pay : List Flit), (t.peer d).out crit = (s.peer d).out crit ++ hd :: pay ∧ pay.length = npay ∧
    (∀ f ∈ hd :: pay, flitGood f = true ∧ f.crit = crit) ∧ hd.hdr = true ∧ hd.npay = npay ∧ hd.cargo = c ∧
    hd.seq = (s.peer d).seqOf crit % 2 ^ 16 ∧ ∀ i, i < npay → ∃ f, pay[i]? = some f ∧ f.hdr = false ∧
      f.seq = ((s.peer d).seqOf crit + 1 + i) % 2 ^ 16 ∧ f.bytes.length = 64 ∧
      ∀ j, j < 64 → f.bytes.getD j 0 = (cargoPayload c).getD (64 * i + j) 0
  seqNo  : (t.peer d).seqOf crit = ((s.peer d).seqOf crit + 1 + npay) % 2 ^ 16
  class2 : (t.peer d).out (!crit) = (s.peer d).out (!crit) ∧ (t.peer d).seqOf (!crit) = (s.peer d).seqOf (!crit)
  peers  : ∀ e, e ≠ d → t.peer e = s.peer e

/-- What a peer's access asks for can be performed at a byte of this device's memory (R12). -/
def State.PeerPlace (s : State) (a : PeerAccess) (acc : Acc) (size key : Nat) : Prop :=
  s.virtPlace { core := 0, super := a.super, asid := a.asid, acc := acc, scalar := true, size := size } (BitVec.ofNat 64 a.va) =
    .ok (.mem key)

/-- A scalar load or store of a core is outstanding to peer d in the packet of this tag, and it is the core's only access. -/
structure State.Outstanding (s : State) (c d tag k size : Nat) (x : Access) : Prop where
  found : (s.outstanding d).find? (fun q => q.2.2.2 == tag) = some (c, x, 0, tag)
  only  : (s.core c).pend = [x]
  spans : x.spans = [(k, size)]
  ans   : x.ans = [none]

/-- A transition of MODE that R357 permits. -/
def ModeStep (a b : Nat) (done : Bool) : Prop :=
  (a = 0 ∧ b = 1) ∨ (a = 1 ∧ b = 0) ∨ (a = 1 ∧ b = 2 ∧ done = true) ∨ (a = 2 ∧ b = 3) ∨ (a = 3 ∧ b = 0 ∧ done = true)

/-- Accesses of and to peers (R11, R12). -/
def PeersAreServedAndHeard : Prop :=
  (∀ (s : State) (a : PeerAccess) (key : Nat),
    (∀ n, a.op = .load n → s.PeerPlace a .read n key → ∃ t, exec (.peerAccessArrival a) s = .next t ∧
      PacketQueued s t a.sender.val false ((n + 63) / 64) (.answer a.tag (.data (Memory.readN s.mem key n))) ∧
      { t with peers := s.peers } = s) ∧
    (∀ bs, s.MemOk → a.op = .store bs → s.PeerPlace a .write bs.length key → ∃ t, exec (.peerAccessArrival a) s = .next t ∧
      Wrote s t key bs ∧ PacketQueued s t a.sender.val true 0 (.answer a.tag .ack) ∧
      { t with peers := s.peers, mem := s.mem } = s) ∧
    (∀ op tag b c rm w, s.MemOk → a.op = .amo op tag b c rm → isInt tag.val = true → tagW tag.val = w → w = 32 ∨ w = 64 →
      s.PeerPlace a .amo (w / 8) key → ∃ t new, exec (.peerAccessArrival a) s = .next t ∧
        AmoInt op w (isSigned tag.val) (leNat (Memory.readN s.mem key (w / 8))) (b.toNat % 2 ^ w) (c.toNat % 2 ^ w) new ∧
        Wrote s t key (leBytes (w / 8) new) ∧
        PacketQueued s t a.sender.val false 1 (.answer a.tag (.data (Memory.readN s.mem key (w / 8))))) ∧
    (∀ n k, a.op = .load n → s.virtPlace { core := 0, super := a.super, asid := a.asid, acc := .read, scalar := true, size := n }
        (BitVec.ofNat 64 a.va) = .error (.trap k) → k.code = 8 ∨ k.code = 9 → ∃ t, exec (.peerAccessArrival a) s = .next t ∧
      PacketQueued s t a.sender.val false 0 (.answer a.tag (.fault (k.code == 9))) ∧ { t with peers := s.peers } = s) ∧
    (∀ bs h k, a.op = .store bs →
      h = { core := 0, super := a.super, asid := a.asid, acc := .write, scalar := true, size := bs.length } →
      s.virtPlace h (BitVec.ofNat 64 a.va) = .error (.trap k) → k.code = 8 ∨ k.code = 9 → ∃ t, exec (.peerAccessArrival a) s = .next t ∧
      PacketQueued s t a.sender.val true 0 (.answer a.tag (.fault (k.code == 9))) ∧ { t with peers := s.peers } = s)) ∧
  (∀ (s : State) (d : Fin 64) (c tag k size : Nat) (x : Access), s.Outstanding c d.val tag k size x →
    (∀ r sx bs, x.kind = .load r size sx → r ≠ 0 → bs.length = size → ∃ t, exec (.peerResponse d tag (.data bs)) s = .next t ∧
      CoreBecomes c s t { s.core c with
        pend := [], a := (s.core c).a.set r.val (extend size sx bs), aFull := (s.core c).aFull.set r.val true }) ∧
    (∀ r sx prot w, x.kind = .load r size sx → (s.core c).peerWait = some w → w.id = x.id → w.fault = none →
      ∃ t, exec (.peerResponse d tag (.fault prot)) s = .next t ∧
        CoreBecomes c s t { s.core c with pend := [], peerWait := some { w with fault := some (0, prot) } }) ∧
    (∀ data, x.kind = .writes data → (∃ t, exec (.peerResponse d tag .ack) s = .next t ∧
        CoreBecomes c s t { s.core c with pend := [] }) ∧
      ∀ prot, ∃ t, exec (.peerResponse d tag (.fault prot)) s = .next t ∧ CoreBecomes c s t { s.core c with
        pend := []
        peerFaults := (s.core c).peerFaults ++ [{ peer := k / 2 ^ 56 - 0x80, id := x.id, elem := 0, addr := BitVec.ofNat 64 k
                                                  prot := prot }] })) ∧
  (∀ (s : State) (d : Fin 64) (tag : Nat) (a : PeerAns), (s.outstanding d.val).find? (fun q => q.2.2.2 == tag) = none →
    exec (.peerResponse d tag a) s = .next (s.mapCards fun k => k.hear d.val tag a))

/-- Silence, loss and the handshake of a peer (R107, R352). -/
def SilentPeersAreLost : Prop :=
  (∀ (s : State) (d : Fin 64) (v : Word), (s.peer d.val).outSince = some v →
    ((s.peer d.val).probeAt = none → v.toNat + 16000 ≤ s.gts.toNat → s.fabMode < 2 → s.litTo d.val ≠ [] →
      ∃ t, exec (.peerSilenceTimeout d) s = .next t ∧ (t.peer d.val).probeAt = some s.gts ∧
        PacketQueued s t d.val true 0 .probe ∧ { t with peers := s.peers } = s) ∧
    (s.gts.toNat < v.toNat + 16000 ∨ 2 ≤ s.fabMode ∨ s.litTo d.val = [] → exec (.peerSilenceTimeout d) s = .next s)) ∧
  (∀ (s : State) (d : Fin 64) (v : Word), ∀ p ∈ [((s.peer d.val).probeAt, 4000, Instr.peerLostDeclared d),
      ((s.peer d.val).shake, 20000, .reachHandshakeTimeout d)], p.1 = some v →
    (s.gts.toNat < v.toNat + p.2.1 → exec p.2.2 s = .next s) ∧
    (v.toNat + p.2.1 ≤ s.gts.toNat → ∃ t, exec p.2.2 s = .next t ∧
      (∀ k, k < 64 → t.reach.getLsbD k = (s.reach.getLsbD k && k != d.val)) ∧ (t.peer d.val).lost = true ∧
      (t.peer d.val).window = [] ∧ (t.peer d.val).again = [] ∧ (∀ e, e ≠ d.val → t.peer e = s.peer e) ∧ t.mem = s.mem ∧
      ∀ (c : Nat) (co : Core), s.cores = [(c, co)] →
        (∀ i k, co.pend = [] → co.conv = some (.sent i k) → k / 2 ^ 14 = d.val → (t.core c).conv = some (.replied i k .lost)) ∧
        (∀ x k size r sx, co.pend = [x] → x.spans = [(k, size)] → x.ans = [none] → 2 ^ 63 ≤ k → k / 2 ^ 56 = 0x80 + d.val →
          x.kind = .load r size sx → r ≠ 0 → size = 1 ∨ size = 2 ∨ size = 4 ∨ size = 8 →
          (t.core c).a = co.a.set r.val 0 ∧ (t.core c).aFull = co.aFull.set r.val true ∧
          (t.core c).lossSet = co.lossSet ||| BitVec.ofNat 64 (2 ^ d.val) ∧ (t.core c).pend = []))) ∧
  (∀ (s : State) (v : Word), ∃ t, exec (.reachWrite v) s = .next t ∧ t.reach = v ∧ t.mem = s.mem ∧ t.cores = s.cores ∧
    ∀ d, d < 64 → (v.getLsbD d = false ∨ (s.peer d).lost = false → t.peer d = s.peer d) ∧
      (v.getLsbD d = true → (s.peer d).lost = true → (t.peer d).lost = false ∧ (t.peer d).shake = some s.gts ∧
        (t.peer d).shakeNo = (s.peer d).shakeNo + 1 ∧ (t.peer d).expD = 0 ∧ (t.peer d).expC = 0 ∧ (t.peer d).window = [] ∧
        (∃ hd rest, (t.peer d).egressC = hd :: rest ∧ hd.seq = 0 ∧ hd.cargo = .handshake ((s.peer d).shakeNo + 1) ∧
          ((s.peer d).packetsOf true = [] → rest = [])) ∧
        ((s.peer d).packetsOf false = [] → (t.peer d).seqD = 0 ∧ (t.peer d).egress = []))) ∧
  (∀ (s : State) (d : Fin 64) (v : Word), (s.peer d.val).packetsOf true = [] → (s.peer d.val).packetsOf false = [] →
    ∀ no t, t = s.shakeIn d.val no →
      ((s.peer d.val).shookNo = some no → t = s) ∧
      ((s.peer d.val).shookNo ≠ some no → (t.peer d.val).lost = (s.peer d.val).lost ∧ (t.peer d.val).shake = (s.peer d.val).shake ∧
        (t.peer d.val).expD = 0 ∧ (t.peer d.val).seqD = 0 ∧ { t with peers := s.peers } = s ∧
        ∃ hd : Flit, (t.peer d.val).egressC = [hd] ∧ hd.cargo = .handshakeAck no)) ∧
  (∀ (s : State) (d : Fin 64), ((s.peer d.val).shake = none → exec (.reachHandshakeComplete d) s = .next s) ∧
    ((s.peer d.val).shake.isSome = true → exec (.reachHandshakeComplete d) s = .next
      (s.setPeer d.val { s.peer d.val with shake := none })))

/-- What a peer's packets of one core's access look like (R347, R351). -/
def PacketsArePacked : Prop :=
  (∀ (s : State) (c : Nat) (co : Core) (x : Access) (k n : Nat) (bs : List Byte) (d : Nat), s.cores = [(c, co)] → co.pend = [x] →
    x.kind = .writes [bs] → x.spans = [(k, n)] → x.ans = [none] → x.sent = [] → x.list = none → 2 ^ 63 ≤ k → k / 2 ^ 56 = 0x80 + d →
    PacketQueued s (s.pack d) d false (((bs.take n).length + 63) / 64) (.access
      { sender := Fin.ofNat 64 s.dev, asid := x.asid, super := x.super, va := k % 2 ^ 56, tag := (s.peer d).nextTag
        op := .store (bs.take n) })) ∧
  (∀ (s : State) (c : Nat) (co : Core) (x : Access) (q : Fin 4) (id d n : Nat) (form : FillForm), s.cores = [(c, co)] → co.pend = [x] →
    x.kind = .fill q id form → x.sent = [] → n = x.spans.length → x.ans = List.replicate n none → 2 ≤ n → n ≤ 256 →
    (∀ p ∈ x.spans, 2 ^ 63 ≤ p.1 ∧ p.1 / 2 ^ 56 = 0x80 + d) → (∀ p ∈ x.spans, ∀ r ∈ x.spans, p.1 / 1024 = r.1 / 1024) →
    (x.list = none → PacketQueued s (s.pack d) d false 0 (.accesses (x.spans.zipIdx.map fun p =>
      { sender := Fin.ofNat 64 s.dev, asid := x.asid, super := x.super, va := p.1.1 % 2 ^ 56, tag := (s.peer d).nextTag + p.2
        op := .load p.1.2 }))) ∧
    ∀ b w, x.list = some b → (∀ p ∈ x.spans, p.2 = w) → PacketQueued s (s.pack d) d false ((4 * n + 63) / 64) (.indexed
      { sender := Fin.ofNat 64 s.dev, asid := x.asid, super := x.super, base := b.toNat % 2 ^ 56, size := w
        tag := (s.peer d).nextTag, elems := x.spans.map fun p => (indexOf b.toNat (p.1 % 2 ^ 56) w, .load w) })) ∧
  ∀ (l : IndexList) (va : Nat) (op : PeerOp) (i : Nat), l.elems[i]? = some (indexOf l.base va l.size, op) → l.size ∈ [1, 2, 4, 8] →
    l.base < 2 ^ 56 → va < 2 ^ 56 → (∃ k : Int, -(2 ^ 31) ≤ k ∧ k < 2 ^ 31 ∧ (va : Int) = (l.base : Int) + k * (l.size : Int)) →
    ∃ a, (listAccesses l)[i]? = some a ∧ a.va = va ∧ a.op = op ∧ a.tag = l.tag + i ∧ a.asid = l.asid ∧ a.super = l.super

/-- A flit leaves on fibre k of the lit channels of a peer. -/
def Peer.beamed (p : Peer) (k : Nat) (f : Flit) : Peer := { p with beam := some (k, f) }

/-- Flits sent (R348 to R350, R355); which lit channel of a plane a critical flit takes is the model's choice (log entry 81), and so is what
is done with acknowledgements owed. -/
def FlitsAreSent : Prop :=
  ∀ (s u : State) (d : Fin 64), u = (s.pack d.val).wakeFor d.val → d.val ≠ s.dev →
    (u.fabMode = 2 ∨ u.litTo d.val = [] → exec (.flitTransmit d true) s = .next u ∧ exec (.flitTransmit d false) s = .next u) ∧
    (u.fabMode ≠ 2 → u.litTo d.val ≠ [] → ∀ f fs, (u.peer d.val).egressC = f :: fs → (∀ n ch, f.cargo ≠ .marker n ch) →
      ((u.peer d.val).copy = none → ∃ k, k ∈ u.litTo d.val ∧ ((∃ j ∈ u.litTo d.val, j / 16 % 2 = 0) → k / 16 % 2 = 0) ∧
        exec (.flitTransmit d true) s = .next (State.wakeFor (u.setPeer d.val
          { (u.peer d.val).beamed k f with acks := [], copy := some k }) d.val)) ∧
      ((u.peer d.val).copy.isSome = true → unordered f = false → f ∉ (u.peer d.val).window → ∃ k, k ∈ u.litTo d.val ∧
        ((∃ j ∈ u.litTo d.val, j / 16 % 2 = 1) → k / 16 % 2 = 1) ∧
        exec (.flitTransmit d true) s = .next (State.wakeFor (u.setPeer d.val
          { (u.peer d.val).beamed k f with
            acks := [], copy := none, egressC := fs, window := (u.peer d.val).window ++ [f]
            outSince := some ((u.peer d.val).outSince.getD s.gts) }) d.val))) ∧
    (u.fabMode ≠ 2 → u.litTo d.val ≠ [] → (u.peer d.val).egressC = [] → (u.peer d.val).acks ≠ [] →
      exec (.flitTransmit d true) s = .next (State.wakeFor (u.setPeer d.val { u.peer d.val with acks := [] }) d.val)) ∧
    (u.fabMode ≠ 2 → (u.peer d.val).egressC = [] → (u.peer d.val).acks = [] → exec (.flitTransmit d true) s = .next u) ∧
    (u.fabMode < 2 → u.litTo d.val ≠ [] → (u.peer d.val).shake = none →
      (∀ g gs, (u.peer d.val).again = g :: gs → ∃ k, k ∈ u.litTo d.val ∧ exec (.flitTransmit d false) s = .next
        (State.wakeFor (u.setPeer d.val { (u.peer d.val).beamed k g with again := gs, pos := k + 1 }) d.val)) ∧
      ∀ f fs, (u.peer d.val).again = [] → (u.peer d.val).egress = f :: fs →
        (((u.peer d.val).waiting false).length < 4096 → (u.peer d.val).allow < 512 → u.fabMode = 0 ∨ f.hdr = false →
          ∃ k, k ∈ u.litTo d.val ∧ ((∃ j ∈ u.litTo d.val, (u.peer d.val).pos ≤ j) → (u.peer d.val).pos ≤ k ∧
              ∀ j ∈ u.litTo d.val, (u.peer d.val).pos ≤ j → k ≤ j) ∧
            exec (.flitTransmit d false) s = .next (State.wakeFor (u.setPeer d.val
              { (u.peer d.val).beamed k f with
                egress := fs, window := (u.peer d.val).window ++ [f], allow := (u.peer d.val).allow + 1, pos := k + 1
                outSince := some ((u.peer d.val).outSince.getD s.gts) }) d.val)) ∧
        (4096 ≤ ((u.peer d.val).waiting false).length ∨ 512 ≤ (u.peer d.val).allow ∨ (u.fabMode = 1 ∧ f.hdr = true) →
          exec (.flitTransmit d false) s = .next u))

/-- Flits received (R347 to R350, R402): a bad one is discarded; a good one is acknowledged unless it is dropped, is performed in its turn, and
a copy of one performed changes nothing. That trimmed payload is dropped unacknowledged is the model's reading (log entry 81). -/
def FlitsAreTaken : Prop :=
  ∀ (s : State) (d : Fin 64) (f : Flit) (h : Peer), h = (s.peer d.val).heard s.gts (s.timed d.val) →
    (flitGood f = false → exec (.flitReceive d f) s = .next s) ∧
    (flitGood f = true → unordered f = false → (s.peer d.val).shake.isSome = true →
      exec (.flitReceive d f) s = .next (s.setPeer d.val h)) ∧
    (flitGood f = true → unordered f = false → (s.peer d.val).shake = none → f.crit = true → f.hdr = true → f.npay = 0 →
      (s.peer d.val).heldC = [] →
      (2 ^ 15 ≤ h.ahead true f.seq → exec (.flitReceive d f) s = .next (s.setPeer d.val { h with acks := h.acks ++ [(true, f.seq)] })) ∧
      (0 < h.ahead true f.seq → h.ahead true f.seq < 2 ^ 15 → exec (.flitReceive d f) s = .next
        (s.setPeer d.val { h with acks := h.acks ++ [(true, f.seq)], heldC := [f] })) ∧
      (f.seq = (s.peer d.val).expC → f.seq < 2 ^ 16 → f.cargo = .probe → ∃ t, exec (.flitReceive d f) s = .next t ∧
        PacketQueued s t d.val true 0 .probeAck ∧ (t.peer d.val).expC = (f.seq + 1) % 2 ^ 16 ∧
        (t.peer d.val).acks = (s.peer d.val).acks ++ [(true, f.seq)] ∧ { t with peers := s.peers } = s)) ∧
    (flitGood f = true → unordered f = false → (s.peer d.val).shake = none → f.crit = false → f.hdr = true →
      (f.npay = 0 → f.seq = (s.peer d.val).expD → f.seq < 2 ^ 16 → (s.peer d.val).ingress = [] → (s.peer d.val).trimmed = [] →
        (∀ a, f.cargo = .access a → exec (.flitReceive d f) s = exec (.peerAccessArrival a) (s.setPeer d.val
          { h with acks := h.acks ++ [(false, f.seq)], expD := (f.seq + 1) % 2 ^ 16 })) ∧
        ∀ xs, f.cargo = .accesses xs → exec (.flitReceive d f) s = .next (xs.foldl State.peerArrives (s.setPeer d.val
          { h with acks := h.acks ++ [(false, f.seq)], expD := (f.seq + 1) % 2 ^ 16 }))) ∧
      (2 ^ 15 ≤ h.ahead false f.seq → exec (.flitReceive d f) s = .next
        (s.setPeer d.val { h with acks := h.acks ++ [(false, f.seq)] })) ∧
      (0 < f.npay → s.trimAt ≤ (s.peer d.val).ingress.length → (s.peer d.val).trimmed = [] → 0 < h.ahead false f.seq →
        h.ahead false f.seq < 2 ^ 15 →
        (∀ g ∈ (s.peer d.val).ingress, g.seq ≠ f.seq ∧ 0 < h.ahead false g.seq ∧ inPacket [(f.seq, f.npay)] g.seq = false) →
        exec (.flitReceive d f) s = .next (s.setPeer d.val
          { h with acks := h.acks ++ [(false, f.seq)], ingress := h.ingress ++ [f], trimmed := [(f.seq, f.npay)] }))) ∧
    (flitGood f = true → unordered f = false → (s.peer d.val).shake = none → f.crit = false → f.hdr = false →
      h.ahead false f.seq < 2 ^ 15 → (∀ g ∈ (s.peer d.val).ingress, g.seq ≠ f.seq) → inPacket (s.peer d.val).trimmed f.seq = true →
      exec (.flitReceive d f) s = .next (s.setPeer d.val h))

/-- Flits acknowledged and asked for again (R347, R349, R402); that a request waits for room below FABCFG.TRIM or for the whole packet is
the model's choice (log entry 81). -/
def FlitsAreAcknowledged : Prop :=
  (∀ (s : State) (d : Fin 64) (n : Nat), ∃ t, exec (.flitAcknowledge d n) s = .next t ∧ { t with peers := s.peers } = s ∧
    (∀ e, e ≠ d.val → t.peer e = s.peer e) ∧ t.peer d.val = { s.peer d.val with
      window := (s.peer d.val).window.drop n
      allow := (s.peer d.val).allow - (((s.peer d.val).window.take n).filter fun f => !f.crit).length
      lastGood := s.gts, probeAt := none
      outSince := if (s.peer d.val).window.length ≤ n ∨ s.timed d.val = false then none else some s.gts }) ∧
  (∀ (s : State) (d : Fin 64) (crit : Bool) (seq n : Nat), ∀ t, t = s.resend d.val crit seq n → { t with peers := s.peers } = s ∧
    ∀ fs, fs = (s.peer d.val).window.filter (fun f => f.crit == crit && decide ((f.seq + 2 ^ 16 - seq) % 2 ^ 16 < n)) →
      (crit = true → t.peer d.val = { s.peer d.val with egressC := (s.peer d.val).egressC ++ fs }) ∧
      (crit = false → (s.peer d.val).again = [] → t.peer d.val = { s.peer d.val with again := fs })) ∧
  ∀ (s : State) (d : Fin 64),
    (∀ p ps, (s.peer d.val).trimmed = p :: ps → (s.peer d.val).occupied < s.trimAt ∨ (s.peer d.val).occupied + p.2 ≤ 512 →
      ∃ t, exec (.resendRequest d) s = .next t ∧ PacketQueued s t d.val true 0 (.resend false ((p.1 + 1) % 2 ^ 16) p.2) ∧
        (t.peer d.val).trimmed = ps ∧ { t with peers := s.peers } = s) ∧
    ((s.peer d.val).trimmed = [] → ∀ crit f, (s.peer d.val).heldOf crit = [f] → (s.peer d.val).heldOf (!crit) = [] → f.seq < 2 ^ 16 →
      0 < (s.peer d.val).ahead crit f.seq → ∃ t, exec (.resendRequest d) s = .next t ∧
        PacketQueued s t d.val true 0 (.resend crit ((s.peer d.val).nextOf crit % 2 ^ 16) 1) ∧ { t with peers := s.peers } = s) ∧
    ((s.peer d.val).trimmed = [] → (s.peer d.val).ingress = [] → (s.peer d.val).heldC = [] → exec (.resendRequest d) s = .next s)

/-- Flits sent and received (R347 to R351). -/
def FlitsAreCarried : Prop := PacketsArePacked ∧ FlitsAreSent ∧ FlitsAreTaken ∧ FlitsAreAcknowledged

/-- Channels lit, parked, woken and moved (R353 to R356). -/
def ChannelsAreLitAndMoved : Prop :=
  (∀ (s : State) (f : Fin 256) (v : Word), ∃ t, exec (.lambdaEnWrite f v) s = .next t ∧ t.mem = s.mem ∧ t.cores = s.cores ∧
    (∀ g, g < 256 → g ≠ f.val → t.ctlGet (0x80000 + 8 * g) = s.ctlGet (0x80000 + 8 * g)) ∧
    ∀ lam, lam < 8 →
      t.lamBit f.val 0 lam = (bit v.toNat lam && !s.lamBit f.val 32 lam) ∧ t.lamBit f.val 8 lam = bit v.toNat (8 + lam) ∧
      t.lamBit f.val 32 lam = s.lamBit f.val 32 lam ∧
      (s.fabMode = 1 ∨ s.fabMode = 2 →
        t.lamBit f.val 24 lam = s.lamBit f.val 24 lam ∧ t.lamBit f.val 16 lam = s.lamBit f.val 16 lam) ∧
      (s.fabMode = 0 ∨ s.fabMode = 3 →
        t.lamBit f.val 24 lam = (t.lamBit f.val 0 lam && s.lamBit f.val 24 lam) ∧
        t.lamBit f.val 16 lam = (t.lamBit f.val 0 lam && (s.lamBit f.val 16 lam || !s.lamBit f.val 24 lam)))) ∧
  (∀ (s : State) (ch : Channel) (w : Wake), s.wakes.find? (fun x => x.ch == ch) = some w →
    (s.gts.toNat < w.since.toNat + 3200 → exec (.wakeComplete ch) s = .next s) ∧
    (w.since.toNat + 3200 ≤ s.gts.toNat → ∃ t, exec (.wakeComplete ch) s = .next t ∧ t.lamBit ch.fibre.val 24 ch.lam.val = true ∧
      t.lamBit ch.fibre.val 16 ch.lam.val = false ∧ (∀ x ∈ t.wakes, x.ch ≠ ch) ∧
      (∀ o, o ≠ 0x80000 + 8 * ch.fibre.val → t.ctlGet o = s.ctlGet o) ∧ t.mem = s.mem ∧ t.cores = s.cores)) ∧
  (∀ (s : State) (d : Fin 64),
    (s.depth d.val = (s.peer d.val).depthWas → exec (.autoWake d) s = .next s) ∧
    (s.depth d.val ≠ (s.peer d.val).depthWas → bit (s.ctlGet 0x82008).toNat 63 = true → s.reaches d.val = true →
        bits (s.ctlGet 0x82008).toNat 15 0 ≤ s.depth d.val →
      ∃ t, exec (.autoWake d) s = .next t ∧ t.mem = s.mem ∧ t.cores = s.cores ∧
        t.peer d.val = { s.peer d.val with depthWas := s.depth d.val } ∧ ∀ f, f < 256 →
        t.lamBit f 0 (s.lamTo d.val) = (s.lamBit f 0 (s.lamTo d.val) || (decide (s.octetOf (f / 32) = d.val / 8) &&
          s.lamBit f 8 (s.lamTo d.val) && !s.lamBit f 32 (s.lamTo d.val)))) ∧
    (s.depth d.val ≠ (s.peer d.val).depthWas →
        bit (s.ctlGet 0x82008).toNat 63 = false ∨ s.reaches d.val = false ∨ s.depth d.val < bits (s.ctlGet 0x82008).toNat 15 0 →
      exec (.autoWake d) s = .next (s.setPeer d.val { s.peer d.val with depthWas := s.depth d.val }))) ∧
  (∀ (s : State) (ch : Channel) (w old : Nat), w = (s.ctlGet (0x80800 + 8 * ch.fibre.val)).toNat →
    old = bits w (4 * ch.lam.val + 3) (4 * ch.lam.val) → old < 10 →
    (∀ r, r < 10 → (∀ l, l < 8 → bits w (4 * l + 3) (4 * l) ≠ r) → bit w (32 + r) = false → bit w (42 + r) = false →
      (∀ q, q < r → (∃ l, l < 8 ∧ bits w (4 * l + 3) (4 * l) = q) ∨ bit w (32 + q) = true ∨ bit w (42 + q) = true) →
      ∃ t, exec (.ringMove ch) s = .next t ∧ t.mem = s.mem ∧ t.cores = s.cores ∧ errHead t.errlog = (errHead s.errlog + 1) % 2 ^ 31 ∧
        bits (t.ctlGet (0x80800 + 8 * ch.fibre.val)).toNat (4 * ch.lam.val + 3) (4 * ch.lam.val) = r ∧
        bit (t.ctlGet (0x80800 + 8 * ch.fibre.val)).toNat (32 + old) = true ∧
        t.lamBit ch.fibre.val 24 ch.lam.val = false ∧ t.lamBit ch.fibre.val 0 ch.lam.val = s.lamBit ch.fibre.val 0 ch.lam.val ∧
        t.lamBit ch.fibre.val 16 ch.lam.val = (s.lamBit ch.fibre.val 0 ch.lam.val && !s.lamBit ch.fibre.val 32 ch.lam.val &&
          s.fabMode != 2)) ∧
    ((∀ q, q < 10 → (∃ l, l < 8 ∧ bits w (4 * l + 3) (4 * l) = q) ∨ bit w (32 + q) = true ∨ bit w (42 + q) = true) →
      ∃ t, exec (.ringMove ch) s = .next t ∧ t.mem = s.mem ∧ t.cores = s.cores ∧
        t.lamBit ch.fibre.val 32 ch.lam.val = true ∧ t.lamBit ch.fibre.val 0 ch.lam.val = false ∧
        t.lamBit ch.fibre.val 24 ch.lam.val = false))

/-- The modes of the port and the drain markers (R357, R358). -/
def ModesAreEntered : Prop :=
  (∀ (s : State), ∀ p ∈ [(Instr.fabctlRun, 0), (.fabctlDrain, 1), (.fabctlDark, 2), (.fabctlRelock, 3)],
    (s.fabMode = p.2 → exec p.1 s = .next s) ∧
    (s.fabMode ≠ p.2 → ¬ ModeStep s.fabMode p.2 s.fabDone →
      exec p.1 s = .next (s.ctlSet 0x82000 (BitVec.ofNat 64 (2 ^ 63 + s.fabMode)))) ∧
    (ModeStep s.fabMode p.2 s.fabDone → ∃ t, exec p.1 s = .next t ∧ t.fabMode = p.2 ∧
      bit (t.ctlGet 0x82000).toNat 63 = false ∧ t.mem = s.mem ∧ t.cores = s.cores ∧ t.reach = s.reach ∧
      (p.2 = 1 → t.drainNo = s.drainNo + 1) ∧ (p.2 = 2 → t.markers = []) ∧
      t.octets = (if p.2 = 3 then s.ctlGet 0x82018 else s.octets) ∧
      (p.2 = 1 → ∀ ch, ch ∈ t.markers ↔ s.lamBit ch.fibre.val 24 ch.lam.val = true ∧
        (s.peerOf ch.fibre.val ch.lam.val = s.dev ∨ (s.reaches (s.peerOf ch.fibre.val ch.lam.val) = true ∧
          (s.peer (s.peerOf ch.fibre.val ch.lam.val)).lost = false))) ∧
      (p.2 = 2 → t.wakes = [] ∧ ∀ f l, f < 256 → l < 8 → t.lamBit f 24 l = false ∧ t.lamBit f 16 l = false) ∧
      (p.2 = 3 ∨ p.2 = 0 → ∀ f l, f < 256 → l < 8 → t.lamBit f 0 l = s.lamBit f 0 l ∧
        (s.lamBit f 0 l = false → t.lamBit f 24 l = false ∧ t.lamBit f 16 l = false) ∧
        (s.lamBit f 0 l = true → t.lamBit f 24 l = s.lamBit f 24 l ∧
          t.lamBit f 16 l = (s.lamBit f 16 l || !(s.lamBit f 24 l || s.lamBit f 32 l)))))) ∧
  (∀ (s : State) (no : Nat) (ch : Channel), (no = s.drainNo → ∀ x, x ∈ (s.markerDone no ch).markers ↔ x ∈ s.markers ∧ x ≠ ch) ∧
    (no ≠ s.drainNo → s.markerDone no ch = s)) ∧
  (∀ (s : State) (ch : Channel), exec (.drainMarkerAck ch) s = .next { s with markers := s.markers.filter fun c => !(c == ch) })

end Machine
end Sys2Proof

/-- The fabric port (R11, R12, R102, R107, R345 to R358): peers' accesses are performed and answered, answers reach what asked, silent
peers are lost and taken back by a handshake; flits are queued, sent, acknowledged, received, trimmed and asked for again; channels are
lit, parked, woken and moved; the port's mode changes where R357 permits it. How packets and copies travel, the lowest free ring among them
(log entry 81), and what a handshake does to the numbers (log entry 91), are the model's choices. -/
def Obligations.TheFabricPortCarriesAndReshapes : Prop :=
  PeersAreServedAndHeard ∧ SilentPeersAreLost ∧ FlitsAreCarried ∧ ChannelsAreLitAndMoved ∧ ModesAreEntered

namespace Sys2Proof
namespace Machine

/-! ## Contracts, contexts, removal and errors -/

/-- A task of one core that holds no role, and nothing of the device that waits behind it: no contract, no preload, no role still
to be told about. -/
structure State.LoneTask (s : State) (k : Task) (n : Nat) : Prop where
  found : s.task k.id = some k
  core  : k.cores = [n] ∧ (s.core n).task = some k.id
  roles : (s.core n).roles = Vector.replicate 4 none
  quiet : s.contracts = [] ∧ s.preloads = [] ∧ (s.core n).leaving = [] ∧ ∀ q ∈ s.cores, q.2.leaving = []

/-- The context on core n has been removed (R189): both sides stand at their exit entries in the S view, with what CAUSE and EPC say. -/
def RemovedOn (s t : State) (n id code qual : Nat) (tvec : Word) : Prop :=
  (∃ k', t.task id = some k' ∧ k'.phase = .exiting code s.gts) ∧
  ∀ sd, ((t.core n).side sd).pc = tvec + (match sd with
      | .A => 0x100
      | .X => 0x140) ∧
    ((t.core n).side sd).super = true ∧ ((t.core n).side sd).loops = [] ∧ ((t.core n).side sd).vl = 0 ∧
    ((t.core n).side sd).epc = ((s.core n).side sd).pc ∧
    ((t.core n).side sd).cause = BitVec.ofNat 64 (2 ^ 61 + 2 ^ 60 + (if ((s.core n).side sd).super then 2 ^ 59 else 0) +
      qual * 2 ^ 8 + code)

/-- A side that has ended: it waits for nothing. -/
def SideSt.ended (x : SideSt) : SideSt := { x with fin := true, fence := none, waitTo := none, bar := none, asyncs := [] }

/-- The demand of a contract on each of its panes (R168). -/
def State.demandQ (s : State) (k : Nat) : Rat :=
  ((s.cBudget k + s.cGsize k * 2 * s.cSwus k : Nat) : Rat) /
    ((s.cPeriod k * ((List.range 8).filter fun p => bit (s.cPanes k) p).length : Nat) : Rat)

/-- The contracts that a pane must supply beside contract k (R168). -/
def State.besides (s : State) (k p : Nat) : List Nat :=
  (List.range 64).filter fun j => j != k && s.cAdm j && bit (s.cPanes j) p

/-- The fields of contract k are in range (R167). -/
structure State.ContractGood (s : State) (k : Nat) : Prop where
  panes  : s.cPanes k ≠ 0
  gsize  : 1 ≤ s.cGsize k ∧ s.cGsize k ≤ 16
  vf     : s.cVf k < 128
  period : 100 ≤ s.cPeriod k ∧ s.cPeriod k ≤ 1000000
  budget : 1 ≤ s.cBudget k ∧ s.cBudget k ≤ s.cPeriod k * s.cGsize k

/-- CCTL of a contract: its flags, and its fields as they were. -/
def CctlBecomes (s t : State) (k : Nat) (en adm rej : Bool) : Prop :=
  t.cEn k = en ∧ t.cAdm k = adm ∧ bit (t.cctl k) 61 = rej ∧ t.cVf k = s.cVf k ∧ t.cPanes k = s.cPanes k ∧
  t.cGsize k = s.cGsize k ∧ t.cPrio k = s.cPrio k ∧ bits (t.cctl k) 23 16 = bits (s.cctl k) 23 16

/-- Contracts (R167 to R169). -/
def ContractsAreAdmittedAndCharged : Prop :=
  (∀ (s : State) (k : Fin 64), s.cEn k.val = true → s.cAdm k.val = false →
    (s.ContractGood k.val → (∀ j, j < 64 → s.cAdm j = true → 0 < s.cPeriod j) →
      ((∀ p, p < 8 → bit (s.cPanes k.val) p = true →
          10 * ((k.val :: s.besides k.val p).map s.demandQ).sum ≤ 9 * (s.usableCores p : Rat)) →
        ∃ t, exec (.contractAdmit k) s = .next t ∧ CctlBecomes s t k.val true true false ∧ t.cRemain k.val = s.cBudget k.val ∧
          t.cOverruns k.val = 0 ∧ t.cLate k.val = s.cLate k.val ∧
          t.contract k.val = { start := s.gts, charged := s.gts, used := 0, released := true, owed := s.queueCount k.val } ∧
          { t with ctl := s.ctl, contracts := s.contracts } = s) ∧
      ((∃ p, p < 8 ∧ bit (s.cPanes k.val) p = true ∧
          9 * (s.usableCores p : Rat) < 10 * ((k.val :: s.besides k.val p).map s.demandQ).sum) →
        ∃ t, exec (.contractAdmit k) s = .next t ∧ CctlBecomes s t k.val false false true ∧ { t with ctl := s.ctl } = s)) ∧
    (¬ s.ContractGood k.val → ∃ t, exec (.contractAdmit k) s = .next t ∧ CctlBecomes s t k.val false false true ∧
      { t with ctl := s.ctl } = s)) ∧
  (∀ (s : State) (k : Fin 64), s.cEn k.val = false ∨ s.cAdm k.val = true → exec (.contractAdmit k) s = .next s) ∧
  (∀ (s : State) (k : Fin 64), (s.cEn k.val = false → exec (.contractDisable k) s = .next s) ∧
    (s.cEn k.val = true → ∃ t, exec (.contractDisable k) s = .next t ∧ CctlBecomes s t k.val false false false ∧
      (t.contract k.val).released = false ∧ t.cqueues = s.cqueues ∧ { t with ctl := s.ctl, contracts := s.contracts } = s)) ∧
  (∀ (s : State) (k : Nat), k < 64 → (s.chargeContract k).cRemain k = s.cRemain k - ((s.contract k).used +
    (s.gts.toNat - (s.contract k).charged.toNat) * ((s.contractTasks k).map fun t => t.cont.gsize).sum) / 1000) ∧
  (∀ (s : State) (k : Fin 64), (s.cAdm k.val = false ∨ s.gts.toNat < (s.contract k.val).start.toNat + 1000 * s.cPeriod k.val →
      exec (.contractPeriodStart k) s = .next s) ∧
    (s.cAdm k.val = true → (s.contract k.val).start.toNat + 1000 * s.cPeriod k.val ≤ s.gts.toNat → s.cBudget k.val < 2 ^ 32 →
      ∃ t, exec (.contractPeriodStart k) s = .next t ∧ t.cRemain k.val = s.cBudget k.val ∧
        t.cOverruns k.val = s.cOverruns k.val ∧ t.cLate k.val = s.cLate k.val ∧ t.contract k.val =
          { start := BitVec.ofNat 64 ((s.contract k.val).start.toNat + 1000 * s.cPeriod k.val), charged := s.gts, used := 0
            released := true, owed := s.queueCount k.val } ∧ { t with ctl := s.ctl, contracts := s.contracts } = s)) ∧
  (∀ (s : State) (c : Cand), s.nextCand = some c → s.queueHeads = [c] → s.planFor c = .wait → s.misfits c = [] → s.preloads = [] →
    c.contract < 64 → (s.contract c.contract).owed ≠ 0 → ∃ t, exec .recordPlacement s = .next t ∧
      t.cLate c.contract = min (s.cLate c.contract + 1) 0xFFFF ∧ t.cRemain c.contract = s.cRemain c.contract ∧
      t.contract c.contract = { s.contract c.contract with owed := 0 } ∧
      errHead t.errlog = (errHead s.errlog + 1) % 2 ^ 31 ∧ t.mem = s.mem ∧ t.cores = s.cores ∧ t.tasks = s.tasks) ∧
  (∀ (s u : State) (k : Fin 64), u = s.chargeContract k.val →
    (u.cAdm k.val = false ∨ u.cRemain k.val ≠ 0 ∨ u.contractTasks k.val = [] → exec (.contractOverrun k) s = .next u) ∧
    ∀ x, u.cAdm k.val = true → u.cRemain k.val = 0 → u.contractTasks k.val = [x] → u.task x.id = some x → x.phase = .running →
      ∃ t, exec (.contractOverrun k) s = .next t ∧ t.task x.id = some { x with phase := .stopping true } ∧
        t.cOverruns k.val = min (u.cOverruns k.val + 1) 0xFFFF ∧ (t.contract k.val).released = false ∧
        errHead t.errlog = (errHead s.errlog + 1) % 2 ^ 31 ∧ t.mem = s.mem ∧ t.cores = s.cores)

/-- Stopping, saving and restoring a context (R65, R183, R185, R186, R188). -/
def ContextsAreStoppedSavedRestored : Prop :=
  (∀ (s : State) (k : Task) (why : StopWhy), s.task k.id = some k →
    (k.phase = .running → ∃ t, exec (.stopRequest k.id why) s = .next t ∧
      t.task k.id = some { k with phase := .stopping (why == .overrun) } ∧ { t with tasks := s.tasks } = s) ∧
    (k.isRunning = false → exec (.stopRequest k.id why) s = .next s)) ∧
  (∀ (s : State) (k : Task) (n : Nat) (late : Bool), s.MemOk → s.LoneTask k n → k.phase = .stopping late →
    (s.stopped n = false → exec (.contextSave k.id) s = .next s) ∧
    (s.stopped n = true →
      (s.areaPlace k.fn (s.imageTotal k) = none → late = false → ∃ t, exec (.contextSave k.id) s = .next t ∧
        t.task k.id = some { k with phase := .running } ∧ errHead t.errlog = (errHead s.errlog + 1) % 2 ^ 31 ∧
        t.mem = s.mem ∧ t.cores = s.cores) ∧
      (s.areaPlace k.fn (s.imageTotal k) = none → late = true → (s.core n).tvec ≠ 0 → ∃ t, exec (.contextSave k.id) s = .next t ∧
        RemovedOn s t n k.id 0x19 0 (s.core n).tvec ∧ t.mem = s.mem) ∧
      ∀ base c, s.areaPlace k.fn (s.imageTotal k) = some base → c = savedCore k.id 0 → c ≠ n →
        s.queueOf k.fn k.cont.prio k.cont.contract = [] → k.cont.prio < 8 → ∃ t x, exec (.contextSave k.id) s = .next t ∧
          t.task k.id = some { k with phase := .saved, cores := [c] } ∧ t.core c = (s.core n).toSave ∧
          t.core n = (s.core n).afterTask ∧
          (∀ m, m ≠ n → m ≠ c → t.core m = s.core m) ∧ t.saved = s.saved ++ [x] ∧ x.task = k.id ∧ x.base = base ∧
          x.old = [(n, (s.core n).spBase)] ∧ x.stay = true ∧ x.overrun = late ∧ x.vlmax = (s.core n).vlmax ∧
          x.size = s.imageSize k ∧ x.total = s.imageTotal k ∧
          t.queueOf k.fn k.cont.prio k.cont.contract = [.saved k.id] ∧
          leNat (Memory.readN t.mem base 4) = 0x2C7E0A19 ∧
          (s.imageSize k < 2 ^ 32 → leNat (Memory.readN t.mem (base + 8) 4) = s.imageSize k) ∧
          leNat (Memory.readN t.mem (base + 0xC) 4) = (if s.incomplete k || s.sampled k.id then 1 else 0) ∧
          ∀ j, j < base ∨ base + s.imageSize k ≤ j → Memory.read t.mem j = Memory.read s.mem j)) ∧
  (∀ (s : State) (i c o b : Nat) (lead : CoreId) (x : SavedCtx) (d : Cand) (k : Task), s.MemOk → s.saved[i]? = some x → s.nextCand = some d → d.item = .saved x.task → s.planFor d = .place [lead.no] →
    s.task x.task = some k → k.cores = [c] → 2 ^ 16 ≤ c → (s.core c).roles = Vector.replicate 4 none → (s.core c).pend = [] →
    (s.core c).mops = [] → risesFrom 0 s.cores = true → x.old = [(o, b)] → s.windowRoom lead.pane.val x = true → x.cards = [] →
    x.overrun = false → s.contracts = [] → s.preloads = [] →
    ∃ (t : State) (k' : Task), exec (.contextRestore i lead) s = .next t ∧ t.task x.task = some k' ∧ k'.phase = .running ∧
      k'.cores = [lead.no] ∧ (t.core lead.no).a = (s.core c).a ∧ (t.core lead.no).s = (s.core c).s ∧
      (∀ r : Fin 32, ((t.core lead.no).vregs[r.val]).tag = ((s.core c).vregs[r.val]).tag ∧
        ((t.core lead.no).vregs[r.val]).mark = ((s.core c).vregs[r.val]).mark ∧ ∀ e, e < ((s.core c).vregs[r.val]).mark →
          ((t.core lead.no).vregs[r.val]).elems.getD e 0 = ((s.core c).vregs[r.val]).elems.getD e 0 ∧
          ((t.core lead.no).vregs[r.val]).valid.getD e true = ((s.core c).vregs[r.val]).valid.getD e true) ∧
      (t.core lead.no).masks = (s.core c).masks ∧ (t.core lead.no).av = (s.core c).av ∧
      (t.core lead.no).xv = (s.core c).xv ∧ (t.core lead.no).lq = (s.core c).lq ∧ (t.core lead.no).sq = (s.core c).sq ∧
      (∀ i : Fin 8, (t.core lead.no).tiles[i] = if (s.core c).mlive.getLsbD i.val then (s.core c).tiles[i] else []) ∧
      (t.core lead.no).laneok = (s.core lead.no).laneok ∧ (t.core lead.no).lanes = (s.core lead.no).lanes ∧
      (t.core lead.no).spResv = (s.core c).spResv ∧ (∀ m, m ≠ lead.no → m ≠ c → t.core m = s.core m) ∧
      (x.stay = true → o = lead.no → (t.core lead.no).spBase = b ∧ t.mem = s.mem) ∧
      (x.stay = false → (∀ y ∈ s.saved, y.stay = false) → (∀ y ∈ s.saved, y.task = x.task → y = x) → (s.core c).spResv ≤ 32 → x.spad = [[]] → (t.core lead.no).spBase = 0 ∧
        ∀ j, Memory.read t.mem j = if spadKey lead.no 0 ≤ j ∧ j < spadKey lead.no 0 + (s.core c).spResv * 2 ^ 16 then 0
          else Memory.read s.mem j) ∧
      (x.stay = true → o ≠ lead.no → s.saved = [x] → (s.core c).spResv ≤ 32 → b % 2 ^ 16 = 0 → x.base + x.size + 2 ^ 21 ≤ 2 ^ 42 →
        (t.core lead.no).spBase = 0 ∧ ∀ r q, r < (s.core c).spResv → q < 2 ^ 16 →
          Memory.read t.mem (spadKey lead.no (r * 2 ^ 16) + q) = Memory.read s.mem (regionKey o b r + q)))

/-- Removal by events, and function-level reset (R189 to R191, R384). -/
def ContextsAreRemoved : Prop :=
  (∀ (s : State) (k : Task) (n : Nat) (code : Fin 32), s.LoneTask k n → (s.core n).tvec ≠ 0 → k.phase = .running →
    ∃ t, exec (.remove k.id code) s = .next t ∧ RemovedOn s t n k.id code.val 0 (s.core n).tvec) ∧
  (∀ (s : State) (k : Task) (code : Fin 32), s.task k.id = some k → k.live = false → exec (.remove k.id code) s = .next s) ∧
  (∀ (s : State) (k : Task) (n : Nat), s.LoneTask k n → (s.core n).tvec ≠ 0 → k.phase = .running →
    (k.idle.toNat + 447392427 ≤ s.gts.toNat → ∃ t, exec (.watchdog k.id) s = .next t ∧ RemovedOn s t n k.id 0x1F 0 (s.core n).tvec ∧
      ∀ sd, ((t.core n).side sd).einfo = einfoAux 0) ∧
    (s.gts.toNat < k.idle.toNat + 447392427 → exec (.watchdog k.id) s = .next s)) ∧
  (∀ (s : State) (k : Task) (n code : Nat) (since : Word), s.LoneTask k n → k.phase = .exiting code since →
    (s.gts.toNat < since.toNat + 1747627 → exec (.exitRoutineTimeout k.id) s = .next s) ∧
    (since.toNat + 1747627 ≤ s.gts.toNat → ∃ t, exec (.exitRoutineTimeout k.id) s = .next t ∧
      t.task k.id = some { k with phase := .discarded code } ∧ (t.core n).av = (s.core n).av.ended ∧
      (t.core n).xv = (s.core n).xv.ended ∧ (∀ x ∈ (t.core n).pend, x.kind.underway = true ∧
        ∃ y ∈ (s.core n).pend, y.id = x.id ∧ y.spans = x.spans ∧ y.ans = x.ans) ∧ (∀ m, m ≠ n → t.core m = s.core m) ∧ t.mem = s.mem)) ∧
  (∀ (s : State) (fn : Fin 129), s.portOn = true → s.preloads = [] →
    ∃ t, exec (.functionLevelReset fn) s = .next t ∧ t.fn fn.val = Fn.reset ∧ fn.val ∈ t.resets ∧ bit (t.vstat fn.val).toNat 60 = true ∧
      (∀ l ∈ t.launches, l.fn ≠ fn.val) ∧ t.mem = s.mem ∧
      (fn.val ≠ 128 → ∀ f, f ≠ fn.val → t.fn f = s.fn f) ∧ (fn.val = 128 → ∀ f, f < 129 → t.fn f = Fn.reset) ∧
      ∀ k n, s.tasks = [k] → s.LoneTask k n → k.fn = fn.val → k.phase = .running → t.tasks = [] ∧
        t.core n = (s.core n).afterTask) ∧
  (∀ (s : State) (fn : Fin 129), exec (.functionResetComplete fn) s = .next
    { s with resets := s.resets.filter fun f => f != fn.val })

/-- Hardware errors (R196 to R198). -/
def ErrorsAreLoggedAndRaised : Prop :=
  (∀ (s : State) (c : CoreId) (addr o : Nat), addr < 2 ^ 64 → o = 0x10000 + 32 * (errHead s.errlog % 4096) →
    ∃ t, exec (.correctedError c addr) s = .next t ∧ errHead t.errlog = (errHead s.errlog + 1) % 2 ^ 31 ∧
      t.ctlGet o = s.gts ∧ bits (t.ctlGet (o + 8)).toNat 15 0 = c.pane.val * 2 ^ 13 + c.idx.val ∧
      bits (t.ctlGet (o + 8)).toNat 23 16 = 1 ∧ bits (t.ctlGet (o + 8)).toNat 31 24 = 0xFF ∧
      bits (t.ctlGet (o + 8)).toNat 63 32 = 0xFFFFFFFF ∧ (t.ctlGet (o + 16)).toNat = addr ∧
      { t with ctl := s.ctl, errlog := s.errlog, gts := s.gts } = s) ∧
  (∀ (s : State) (c : CoreId) (sd : Side) (parity : Bool) (addr : Nat) (u : State), u = s.logEvent (if parity then 3 else 2)
      (c.pane.val * 2 ^ 13 + c.idx.val) 0xFF noElem addr (s.taskidOf c.no) 0 →
    u.msix = s.msix ++ [(128, if parity then 5 else 4)] ∧ u.cores = s.cores ∧ u.mem = s.mem ∧
    exec (.uncorrectableError c sd .unused parity addr) s = .next u ∧
    ((s.core c.no).task = none → ∀ p ∈ [ErrPlace.queue, .tile, .codebook, .scratchpad, .dram, .image],
      exec (.uncorrectableError c sd p parity addr) s = .next u) ∧
    ∀ k, s.LoneTask k c.no → (s.core c.no).tvec ≠ 0 → k.phase = .running → k.launch = none →
      (∀ p ∈ [ErrPlace.queue, .tile, .codebook, .scratchpad], ∃ t, exec (.uncorrectableError c sd p parity addr) s = .next t ∧
        RemovedOn u t c.no k.id 0x1E 2 (s.core c.no).tvec ∧ ((t.core c.no).side sd).einfo = einfoAux 0xFF) ∧
      ∀ p ∈ [ErrPlace.dram, .image], ∃ t, exec (.uncorrectableError c sd p parity addr) s = .next t ∧
        RemovedOn u t c.no k.id 0x1E 0 (s.core c.no).tvec ∧ ((t.core c.no).side sd).einfo = einfoAux 0xFF) ∧
  (∀ (s : State) (c : CoreId) (sd : Side) (g : Fin 8) (addr : Nat), (s.core c.no).task = none →
    bit (s.core c.no).laneok.toNat g.val = true →
    (∃ t, exec (.uncorrectableError c sd (.register g) false addr) s = .next t ∧
      (t.core c.no).laneok = (s.core c.no).laneok &&& ~~~(BitVec.ofNat 8 (2 ^ g.val))) ∧
    (nget (s.core c.no).parity g.val = none → ∃ t, exec (.uncorrectableError c sd (.register g) true addr) s = .next t ∧
      (t.core c.no).laneok = (s.core c.no).laneok ∧ nget (t.core c.no).parity g.val = some s.gts) ∧
    ∀ v, nget (s.core c.no).parity g.val = some v → s.gts.toNat ≤ v.toNat + 2 ^ 30 →
      ∃ t, exec (.uncorrectableError c sd (.register g) true addr) s = .next t ∧
        (t.core c.no).laneok = (s.core c.no).laneok &&& ~~~(BitVec.ofNat 8 (2 ^ g.val)))

end Machine
end Sys2Proof

/-- Contracts, contexts, removal and errors (R165, R167 to R169, R183 to R191, R196 to R198, R384): contracts are admitted, charged,
refilled and stopped; contexts are stopped, saved, restored and removed; hardware errors are logged, remove a context or retire a lane
group. The model's choices here are the one count of GTS that an event takes (log entry 3), the range of VF (27), the sizes and the place
of an image (39), what the manual does not say of an event (44), how often a misfit is one (90), and what a function reset discards (51). -/
def Obligations.ContractsContextsAndErrors : Prop :=
  ContractsAreAdmittedAndCharged ∧ ContextsAreStoppedSavedRestored ∧ ContextsAreRemoved ∧ ErrorsAreLoggedAndRaised

namespace Sys2Proof
namespace Machine

/-! ## Boot, attestation and heat -/

/-- The ROM accepts the image of a flash slot (R385, R386): its MARK and LEN are right, its signature holds over everything but
itself, and its SVN is not below the fused rollback counter. -/
structure FirmwareGood (rollback : Nat) (slot : List Byte) (len svn : Nat) : Prop where
  mark : leNat (slot.take 4) = 0x42E7F1A0
  size : len = leNat ((slot.drop 8).take 8) ∧ 128 ≤ len ∧ len ≤ slot.length
  sig  : Config.ecdsaVerify ((slot.drop 0x40).take 64) (sha256 (slot.take 0x40 ++ (slot.take len).drop 0x80)) = true
  svn  : svn = leNat ((slot.drop 4).take 4) ∧ rollback ≤ svn

/-- The device runs the firmware of a slot (R385): scratchpads, DRAM and every core are as reset leaves them, the host's memory as
it was, and the rollback counter is not lower than it was. -/
structure Booted (s t : State) (slot : Nat) : Prop where
  boot  : t.boot.phase = .running ∧ t.boot.slot = slot ∧ t.boot.flash0 = s.boot.flash0 ∧ t.boot.flash1 = s.boot.flash1 ∧
    s.boot.rollback ≤ t.boot.rollback
  clear : ∀ k, Memory.read t.mem k = if keyIsHost k then Memory.read s.mem k else 0
  cores : ∀ n, t.core n = Core.reset
  reach : t.reach = Config.bootReach
  kept  : t.dev = s.dev ∧ t.gts = s.gts

/-- Boot and firmware (R385, R386, R391), and NumVFs (R377). -/
def FirmwareIsBooted : Prop :=
  (∀ (s : State) (len svn : Nat), FirmwareGood s.boot.rollback s.boot.flash0 len svn →
    ∃ t, exec .powerOn s = .next t ∧ Booted s t 0) ∧
  (∀ (s : State) (len svn : Nat), (∀ l v, ¬ FirmwareGood s.boot.rollback s.boot.flash0 l v) →
    FirmwareGood s.boot.rollback s.boot.flash1 len svn → ∃ t, exec .powerOn s = .next t ∧ Booted s t 1) ∧
  (∀ (s : State), (∀ l v, ¬ FirmwareGood s.boot.rollback s.boot.flash0 l v) →
    (∀ l v, ¬ FirmwareGood s.boot.rollback s.boot.flash1 l v) →
    ∃ t, exec .powerOn s = .next t ∧ t.boot = { s.boot with phase := .failed } ∧ t.portOn = false ∧ ∀ fn, t.vstat fn = BitVec.allOnes 64) ∧
  (∀ (s : State) (img : FwImage) (first n : Nat), s.boot.phase = .running ∨ s.boot.phase = .failed →
    (s.boot.slot = 0 → exec (.firmwareUpdate (.update img)) s = .next { s with boot := { s.boot with flash1 := img.bytes } }) ∧
    (s.boot.slot ≠ 0 → exec (.firmwareUpdate (.update img)) s = .next { s with boot := { s.boot with flash0 := img.bytes } }) ∧
    ∃ ws, exec (.firmwareUpdate (.errlog first n)) s = .next { s with spdm := s.spdm ++ [.errlog ws] } ∧ ws.length = n ∧
      ∀ i, i < n → ws[i]? = some (s.ctlRead (0x10000 + 8 * ((first + i) % 16384)))) ∧
  (∀ (s : State) (n : Nat), s.portOn = true →
    exec (.sriovNumvfsWrite n) s = .next { s with numVFs := if n = 128 then 128 else 0 }) ∧
  (∀ (s : State) (op : MgmtOp), s.boot.phase = .off ∨ s.boot.phase = .gated → exec (.firmwareUpdate op) s = .next s) ∧
  ∀ (s : State) (n : Nat), s.portOn = false → exec (.sriovNumvfsWrite n) s = .next s

/-- The management sequencer has answered a request. -/
def Answers (s : State) (i : Instr) (r : SpdmResp) : Prop := exec i s = .next { s with spdm := s.spdm ++ [r] }

/-- Attestation (R387 to R389): what is answered, and over what the measurements are taken. -/
def AttestationIsAnswered : Prop :=
  (∀ (s : State), s.boot.phase = .running ∨ s.boot.phase = .failed →
    Answers s .getVersion (.version 0x12) ∧ Answers s .getCapabilities .capabilities ∧
    (∀ o, Answers s (.negotiateAlgorithms o) (.algorithms o.ecdsaP256 o.sha256)) ∧
    Answers s .getDigests (.digests (sha256 Config.certChain)) ∧
    (∀ off len, Answers s (.getCertificate 0 off len) (.certificate ((Config.certChain.drop off).take len)) ∧
      ∀ k, k ≠ 0 → Answers s (.getCertificate k off len) (.certificate [])) ∧
    (∀ nonce, Answers s (.challenge nonce) (.challengeAuth (Config.sign (nonce ++ sha256 Config.certChain)))) ∧
    (∀ code, Answers s (.spdmUnsupportedRequest code) (.unsupported code)) ∧
    ∀ nonce, ∃ ds, Answers s (.getMeasurements nonce) (.measurements ds (Config.sign (nonce ++ ds.flatten))) ∧ ds.length = 67 ∧
      ds[0]? = some (sha256 (Config.fuseBytes s.boot.rollback)) ∧ ds[1]? = some (sha256 s.runningImage) ∧
      (∀ k, k < 64 → ds[k + 2]? = some (sha256 ((nget s.protos k).getD (List.replicate 32 0)))) ∧
      ds[66]? = some (sha256 ((List.range 64).flatMap fun k => leBytes 8 (s.ctlGet (0x4000 + 0x20 * k)).toNat ++
        leBytes 8 (s.ctlGet (0x4008 + 0x20 * k)).toNat ++ leBytes 8 (s.ctlGet (0x4010 + 0x20 * k)).toNat))) ∧
  (∀ (s : State), s.boot.phase = .off ∨ s.boot.phase = .gated → ∀ nonce code o k off len,
    ∀ i ∈ [Instr.getVersion, .getCapabilities, .negotiateAlgorithms o, .getDigests, .getCertificate k off len, .challenge nonce,
        .getMeasurements nonce, .spdmUnsupportedRequest code],
      exec i s = .next s) ∧
  ∀ (s : State), s.boot.phase = .running → ∀ len svn r, (s.boot.slot = 0 → FirmwareGood r s.boot.flash0 len svn →
      s.runningImage = s.boot.flash0.take len) ∧
    (s.boot.slot ≠ 0 → FirmwareGood r s.boot.flash1 len svn → s.runningImage = s.boot.flash1.take len)

/-- Heat (R390): at 105 °C a pane's wicket has 32 tokens, of four louvres each, and below 100 °C 64 again; at 115 °C every context
is removed with RETRY = 0 and power is gated. The kind of the event of 105 °C is undefined (DESIGN CHOICE, log entry 16). -/
def HeatLimitsAndGates : Prop :=
  (∀ (s : State) (p : Fin 8), ∃ t, exec (.thermalLimit p false) s = .next t ∧ t.pane p.val = { s.pane p.val with limit := 4 * 64 } ∧
    (∀ q, q ≠ p.val → t.pane q = s.pane q) ∧ { t with panes := s.panes } = s) ∧
  (∀ (s : State) (p : Fin 8), ∃ t, exec (.thermalLimit p true) s = .next t ∧ t.pane p.val = { s.pane p.val with limit := 4 * 32 } ∧
    (∀ q, q ≠ p.val → t.pane q = s.pane q) ∧
    { t with panes := s.panes, ctl := s.ctl, gts := s.gts, errlog := s.errlog, msix := s.msix, undefCtr := s.undefCtr } = s ∧
    ((s.pane p.val).limit ≠ 4 * 32 → errHead t.errlog = (errHead s.errlog + 1) % 2 ^ 31) ∧
    ((s.pane p.val).limit = 4 * 32 → t.errlog = s.errlog)) ∧
  (∀ (s : State) (p : Fin 8) (k : Task) (n : Nat), s.tasks = [k] → s.LoneTask k n → (s.core n).tvec ≠ 0 → k.phase = .running →
    ∃ t, exec (.thermalShutdown p) s = .next t ∧ RemovedOn s t n k.id 0x1E 0 (s.core n).tvec ∧
      (∀ sd, ((t.core n).side sd).einfo = einfoAux 0xFF) ∧ t.boot = { s.boot with phase := .gated } ∧ t.portOn = false ∧
      t.ownEvent = none ∧ ∀ c sd, t.canIssue c sd = false) ∧
  (∀ (s : State) (p : Fin 8) (k : Task) (l : LaunchSt), s.tasks = [k] → s.contracts = [] → (∀ q ∈ s.cores, q.2.leaving = []) →
    k.launch = some l.id → s.launchOf (some l.id) = some l → k.phase = .placed ∨ k.phase = .saved →
    (∀ n ∈ k.cores, (s.core n).roles = Vector.replicate 4 none) → (k.phase = .placed → s.saved = []) → ∃ t, exec (.thermalShutdown p) s = .next t ∧ t.tasks = [] ∧
      (∀ x ∈ t.saved, x.task ≠ k.id) ∧ t.launchOf (some l.id) = some { l with
        out := l.out - 1
        fails := l.fails ++ [{ id := k.cont.taskid.toNat, cause := 0x1E, early := k.cont.taskid.toNat, addr := 0 }] } ∧
      errHead t.errlog = (errHead s.errlog + 1) % 2 ^ 31 ∧ t.boot = { s.boot with phase := .gated }) ∧
  ∀ (s : State) (p : Fin 8), s.tasks = [] → (∀ q ∈ s.cores, q.2.leaving = []) →
    exec (.thermalShutdown p) s = .next { s with boot := { s.boot with phase := .gated } }

end Machine
end Sys2Proof

/-- Boot, attestation and heat (R377, R385 to R391): the ROM boots the first good slot, firmware goes into the other slot, the management
sequencer answers SPDM requests, and heat limits the wicket and then gates power. The model's choices here are the open functions of the
ROM, the slots of the chain and the update after a failed boot (log entry 15), what firmware leaves in the registers (41), and when SPDM is
answered (55); SHA-256 is the public standard's (64). -/
def Obligations.BootAttestationAndHeat : Prop := FirmwareIsBooted ∧ AttestationIsAnswered ∧ HeatLimitsAndGates

namespace Sys2Proof
namespace Machine

/-! ## A step -/

/-- A side of a core may issue (R135, R183): the device runs, its task runs or is in its exit routine, and the side waits in no
instruction that has issued. -/
structure State.Ready (s : State) (core : Nat) (sd : Side) : Prop where
  on     : s.boot.phase = .running
  task   : ∃ k, (s.core core).task.bind s.task = some k ∧ (k.phase = .running ∨ ∃ c g, k.phase = .exiting c g)
  open_  : ((s.core core).side sd).fin = false
  waits  : ((s.core core).side sd).fence = none ∧ ((s.core core).side sd).waitTo = none ∧ ((s.core core).side sd).bar = none
  aside  : sd = .A → (s.core core).cbld = none ∧ (∀ m ∈ (s.core core).mops, m.compat = none) ∧
    ∀ x ∈ (s.core core).pend, x.abandoned = false
  xside  : sd = .X → (s.core core).emptyRead = none ∧ (s.core core).behindReceives < 8 ∧
    (s.isLong core = true → some core = (s.gang core).head?)
  quiet  : ((s.core core).side sd).asyncs = []

/-- What a step adds to what an instruction does: stamps of when tasks retired one (R191), and receives that have one more
instruction behind them (R135). -/
structure AddedByIssue (t u : State) (core : Nat) : Prop where
  tasks  : ∀ k, (u.task k).map (fun x => { x with idle := 0 }) = (t.task k).map fun x => { x with idle := 0 }
  others : ∀ n, n ≠ core → u.core n = t.core n
  mine   : { u.core core with crecvs := (t.core core).crecvs } = t.core core
  few    : (t.core core).crecvs = [] → u.core core = t.core core
  device : { u with tasks := t.tasks, cores := t.cores } = t

/-- The step from s ends in t, with what issue adds at a core, with what has arrived in saved images since k (R82, R185) and an event for each
task whose image would not fit and which has begun to end (R185); translations that nothing uses any more are forgotten. -/
def StepEnds (s k t : State) (core : Nat) : Prop :=
  ∃ u v, AddedByIssue t u core ∧ step s = .next v ∧ v = (k.settleUnfit (k.settleImages u)).forgetGone ∧
    (t.saved = [] → (∀ x ∈ t.tasks, x.ending = false) → { v with gone := t.gone } = u)

/-- The step of a sequencer whose turn it is: fetch keeps the code lines it reads (R76), and then the instruction runs. -/
def StepsRunWhatTheyDecode : Prop :=
  (∀ (s s0 s1 k : State) (ts : List Turn) (core n : Nat) (sd : Side) (bs : List Byte) (i : Instr), s.agenda = .seq core sd :: ts →
    s0 = { s with agenda := ts } → s1 = { s0 with cur := { core := core, side := sd } } → s0.Ready core sd →
    s1.reissues = none → s1.fetchAt s1.mySide.pc = .ok bs → k = s1.keepCode s1.mySide.pc bs → decode bs = .ok (i, n) →
    ∀ t, exec i k = .next t → (∀ q ∈ t.cores, q.2.leaving = []) → StepEnds s k t core) ∧
  (∀ (s s0 s1 k : State) (ts : List Turn) (core : Nat) (sd : Side) (bs : List Byte) (e : Reject), s.agenda = .seq core sd :: ts →
    s0 = { s with agenda := ts } → s1 = { s0 with cur := { core := core, side := sd } } → s0.Ready core sd →
    s1.reissues = none → s1.fetchAt s1.mySide.pc = .ok bs → k = s1.keepCode s1.mySide.pc bs → decode bs = .error e → k.CanTrap →
    (∀ q ∈ k.cores, q.2.leaving = []) → ∃ t, TrapTaken k t 0x01 (einfoAux 0) ∧ StepEnds s k t core) ∧
  (∀ (s s0 s1 : State) (ts : List Turn) (core n : Nat) (bs : List Byte) (i : Instr), s.agenda = .seq core .X :: ts →
    s0 = { s with agenda := ts } → s1 = { s0 with cur := { core := core, side := .X } } → s0.Ready core .X →
    s1.reissues = some bs → decode bs = .ok (i, n) →
    ∀ t, exec i s1 = .next t → (∀ q ∈ t.cores, q.2.leaving = []) → StepEnds s s1 t core) ∧
  (∀ (s : State) (addr : Word) (bs : List Byte), ∀ k, k = s.keepCode addr bs → k.me = { s.me with icache := k.me.icache } ∧
    (∀ n, n ≠ s.cur.core → k.core n = s.core n) ∧
    { k with cores := s.cores, tlb := s.tlb, gone := s.gone, undefCtr := s.undefCtr } = s) ∧
  (∀ (s s0 s1 : State) (ts : List Turn) (core : Nat) (w : Word), s.agenda = .seq core .X :: ts →
    s0 = { s with agenda := ts } → s1 = { s0 with cur := { core := core, side := .X } } → s0.canIssue core .X = true →
    s1.me.emptyRead = some w → s1.CanTrap → (∀ q ∈ s1.cores, q.2.leaving = []) → s.saved = [] →
    ∃ t u, TrapTaken s1 t 0x04 w ∧ AddedByIssue t u core ∧ step s = .next u.forgetGone) ∧
  (∀ (s s0 : State) (ts : List Turn) (core : Nat) (sd : Side), s.agenda = .seq core sd :: ts → s0 = { s with agenda := ts } →
    s0.canIssue core sd = false → step s = .next s0) ∧
  (∀ (s s0 : State) (ts : List Turn) (core : Nat) (ks : List Nat), s.agenda = .halfway core ks :: ts → s0 = { s with agenda := ts } →
    ∃ t, step s = .next t ∧ { t with cores := s0.cores } = s0 ∧ (t = s0 ∨
      ((∀ g, g ∉ s0.gang core ∨ (s0.isLong core = false ∧ g ≠ core) → t.core g = s0.core g) ∧
        (∀ g, g ≠ core → { t.core g with
          vregs := (s0.core g).vregs, masks := (s0.core g).masks, anchors := (s0.core g).anchors
          fflg := (s0.core g).fflg, mv := (s0.core g).mv } = s0.core g) ∧
        (t.core core).flight.map (fun f => f.idx) = ks ∧ ks.length ≤ 8 ∧ (t.core core).xv = (s.core core).xv ∧
        (t.core core).av = (s.core core).av ∧ (t.core core).s = (s.core core).s ∧ (t.core core).a = (s.core core).a ∧
        (t.core core).lq = (s.core core).lq ∧ (t.core core).sq = (s.core core).sq ∧ (t.core core).cq = (s.core core).cq ∧
        (t.core core).pend = (s.core core).pend))) ∧
  (∀ (s : State) (ts : List Turn) (ns : Nat), s.agenda = .tick ns :: ts →
    step s = .next { s with agenda := ts, gts := s.gts + BitVec.ofNat 64 ns }) ∧
  ∀ (s t : State), s.agenda = [] → t = { s with gts := s.gts + 1 } → step s = t.take t.ownTurn

/-- These words are this instruction (R210, R215, R219). -/
def Reads (ws : List Nat) (i : Instr) : Prop := decode (ws.flatMap bytesOfWord) = .ok (i, 4 * ws.length)

/-- Words written out from the encodings of the instruction chapters. -/
def WordsAreTheirInstructions : Prop :=
  -- add a5, a6, a7
  Reads [0b00000100101001100011100000000000] (.add { d := 5, a := 6, fa := false, src := .reg 7 false }) ∧
  -- addi a3, a3, 100000
  Reads [0b11111000000000000000000000000000, 100000, 0b00001000011000110000000000000000]
    (.addi { d := 3, a := 3, imm := .long 100000 }) ∧
  -- br three words back
  Reads [0b00101100001111111111111111111101] (.br (.short 0x3FFFFD)) ∧
  -- fence.pane
  Reads [0b01100000000000000000000000000010] (.fence 2) ∧
  -- mcfg.d a6
  Reads [0b01110000000001100000000000001000] (.mcfgD (.reg { r := 6, fe := false })) ∧
  -- vcfg 16
  Reads [0b01110100010000000000000000000000] (.vcfg 2) ∧
  -- vmv v4, lq0
  Reads [0b01111000100000000000001000000000] (.vmv { d := .reg 4, a := .lq 0, p := { m := 0, pn := false } }) ∧
  -- vadd sq0, v1, v2 if m3
  Reads [0b01111100000000010001011001100000]
    (.vadd { d := .sq 0, a := .reg 1, b := .reg 2, p := { m := 3, pn := false }, ext := none }) ∧
  -- vadd sq0, v1, v2 ifn m3, and a selector that the map leaves unassigned
  Reads [0x7C011670] (.vadd { d := .sq 0, a := .reg 1, b := .reg 2, p := { m := 3, pn := true }, ext := none }) ∧
  decode (bytesOfWord 0x7C011668) = .error .selector ∧
  -- vcompress v5, v1 if m2
  Reads [0b10010100101000010000000001000000] (.vcompress 5 (.reg 1) { m := 2, pn := false }) ∧
  -- kmv k1, lq0
  Reads [0b10100100001000000000001000000001] (.kmv (.pop 1 0)) ∧
  -- cbld cb2, [a3]
  Reads [0b10101100010000110000000000000000] (.cbld { cb := 2, a := { r := 3, fe := false }, off := none }) ∧
  -- tget v8, t1, s3
  Reads [0b10110001000000010001100000000000] (.tget (.reg 8) 1 (.reg 3)) ∧
  -- the fixed words 0 and 0xFFFFFFFF, and a prefix before a prefix, are no instruction (R218)
  decode [0, 0, 0, 0] = .error .fixedWord ∧ decode [0xFF, 0xFF, 0xFF, 0xFF] = .error .fixedWord ∧
  decode ([0xF8000000, 0, 0xF8000000].flatMap bytesOfWord) = .error .extTwice

end Machine
end Sys2Proof

/-- A step of a sequencer runs the instruction that the bytes at its program counter decode to, or takes ILLEGAL where they are none; and
words written out from the encodings decode to their instructions (R135, R210, R215, R216, R218, R219). The order of turns (log entry 2),
one count of GTS a turn (log entry 3), and what a stop finds half done (log entry 80), are the model's choices. -/
def Obligations.StepRunsTheDecodedInstruction : Prop := StepsRunWhatTheyDecode ∧ WordsAreTheirInstructions

/-- Decoding the words of a well-formed instruction gives that instruction back, with every operand at every value that its
encoding admits; every well-formed instruction of the opcode map has words, of one or three words (R210 to R219). -/
def Obligations.DecodeInvertsEncode : Prop :=
  (∀ i : Instr, i.wf = true → i.isEvent = false → (encode i).isSome = true) ∧ ∀ i : Instr, i.wf = true → ∀ ws, encode i = some ws →
    i.isEvent = false ∧ decodeWords ws = .ok (i, ws.length) ∧ (ws.length = 1 ∨ ws.length = 3) ∧ (∀ w ∈ ws, w < 2 ^ 32) ∧
    decode (ws.flatMap bytesOfWord) = .ok (i, 4 * ws.length)

namespace Sys2Proof
namespace Machine

/-- What control space reads as right after reset (R28, R353, R356, R358, R359). -/
def ResetControlSpace : Prop :=
  let s := State.reset
  (∀ n, n < 16 → s.ctlRead (0x2000 + 0x20 * n) = 0 ∧ s.ctlRead (0x2008 + 0x20 * n) = 0xFFFF ∧ s.ctlRead (0x2010 + 0x20 * n) = 0) ∧
  (∀ f, f < 256 → s.ctlRead (0x80000 + 8 * f) = 0xFF00FFFF ∧ s.ctlRead (0x80800 + 8 * f) = 0x76543210) ∧
  s.ctlRead 0x82000 = 2 ^ 62 ∧ s.ctlRead 0x82008 = BitVec.ofNat 64 (2 ^ 63 + 448 * 2 ^ 16 + 48) ∧ s.ctlRead 0x82018 = 0xFAC688 ∧
  (∀ n, n < 256 → s.ctlRead (8 * n) = 0) ∧
  (∀ k, k < 64 → ∀ r, r < 4 → s.ctlRead (0x4000 + 0x20 * k + 8 * r) = 0) ∧ ∀ i, i < 16384 → s.ctlRead (0x40000 + 8 * i) = 0

/-- What the device is right after reset: memory reads as zero, no task, launch or conversation, every wicket at 64 tokens, and
nothing runs before power-on (R172, R385). -/
def ResetDevice : Prop :=
  let s := State.reset
  s.MemOk ∧ (∀ k, Memory.read s.mem k = 0) ∧ s.tasks = [] ∧ s.launches = [] ∧ s.saved = [] ∧ (∀ fn, s.fn fn = Fn.reset) ∧
  (∀ i, s.conv i = Conv.reset) ∧ (∀ p, p < 8 → (s.pane p).limit = 4 * 64) ∧ s.numVFs = 0 ∧ s.portOn = false ∧
  (∀ n, (s.core n).task = none) ∧ (∀ c sd, s.canIssue c sd = false) ∧ ∃ t, step s = .next t ∧ { t with gts := s.gts } = s

end Machine
end Sys2Proof

/-- The device right after reset (R28, R172, R353, R356, R358, R359, R385): control space and the device's own state. What the manual gives
no reset value for is the model's choice (log entry 5), and so is the host's memory (log entry 4). -/
def Obligations.ResetLeavesItsValues : Prop := ResetControlSpace ∧ ResetDevice

/-- Every step keeps memory in its canonical form, whatever runs: keys strictly rising, and no byte listed that reads as an unlisted one
does; so that equal memories are equal data, and a byte read after a write is the byte written. The form itself is the model's own (log
entry 4). -/
def Obligations.EveryStepKeepsMemoryCanonical : Prop :=
  ∀ s t : State, s.MemOk → step s = .next t → t.MemOk
end

