-- ==== Sys2Proof/Laws/Maps.lean ====
section
/-!
SUPPORT. Sparse maps: what an entry written or removed reads as, and that the written map stays sorted.
-/

namespace Sys2Proof
namespace Machine

@[simp] theorem nget_nset (m : List (Nat × α)) (k : Nat) (v : α) : nget (nset m k v) k = some v := by
  induction m with
  | nil => simp [nset, nget]
  | cons p m ih =>
    obtain ⟨j, w⟩ := p
    simp only [nset]
    split
    · simp [nget]
    · split
      · simp [nget]
      · rename_i h1 h2
        simp [nget, show ¬ j = k from fun h => h2 h.symm, h1, ih]

theorem nget_nset_ne (m : List (Nat × α)) (k j : Nat) (v : α) (h : j ≠ k) : nget (nset m k v) j = nget m j := by
  induction m with
  | nil => simp [nset, nget, Ne.symm h]
  | cons p m ih =>
    obtain ⟨i, w⟩ := p
    simp only [nset]
    split
    · simp only [nget, Ne.symm h, if_false]
      split
      · split <;> [omega; (split <;> [rfl; omega])]
      · rfl
    · split
      · rename_i h1 h2
        subst h2
        simp [nget, Ne.symm h]
      · simp only [nget, ih]

@[simp] theorem nset_nset (m : List (Nat × α)) (k : Nat) (v w : α) : nset (nset m k v) k w = nset m k w := by
  induction m with
  | nil => simp [nset]
  | cons p m ih =>
    obtain ⟨i, u⟩ := p
    simp only [nset]
    split
    · simp [nset]
    · split
      · simp [nset]
      · rename_i h1 h2; simp [nset, h1, h2, ih]

theorem risesFrom_nset (m : List (Nat × α)) (n k : Nat) (v : α) (hk : n ≤ k) (h : risesFrom n m = true) :
    risesFrom n (nset m k v) = true := by
  induction m generalizing n with
  | nil => simp [nset, risesFrom, hk]
  | cons p m ih =>
    obtain ⟨j, w⟩ := p
    simp only [risesFrom, Bool.and_eq_true, decide_eq_true_eq] at h
    simp only [nset]
    split
    · simp only [risesFrom, Bool.and_eq_true, decide_eq_true_eq]
      exact ⟨hk, by omega, h.2⟩
    · split
      · rename_i h1 h2; subst h2; simp [risesFrom, h]
      · rename_i h1 h2
        simp only [risesFrom, Bool.and_eq_true, decide_eq_true_eq]
        exact ⟨h.1, ih (j + 1) (by omega) h.2⟩

theorem risesFrom_mono (m : List (Nat × α)) (n k : Nat) (hk : k ≤ n) (h : risesFrom n m = true) : risesFrom k m = true := by
  cases m with
  | nil => rfl
  | cons p m => obtain ⟨j, w⟩ := p; simp_all [risesFrom]; omega

theorem risesFrom_ndel (m : List (Nat × α)) (n k : Nat) (h : risesFrom n m = true) : risesFrom n (ndel m k) = true := by
  induction m generalizing n with
  | nil => rfl
  | cons p m ih =>
    obtain ⟨j, w⟩ := p
    have h0 := h
    simp only [risesFrom, Bool.and_eq_true, decide_eq_true_eq] at h
    simp only [ndel]
    split
    · exact h0
    · split
      · exact risesFrom_mono m (j + 1) n (by omega) h.2
      · simp only [risesFrom, Bool.and_eq_true, decide_eq_true_eq]
        exact ⟨h.1, ih (j + 1) h.2⟩

theorem nget_below (m : List (Nat × α)) (n k : Nat) (h : risesFrom n m = true) (hk : k < n) : nget m k = none := by
  cases m with
  | nil => rfl
  | cons p m =>
    obtain ⟨j, w⟩ := p
    simp only [risesFrom, Bool.and_eq_true, decide_eq_true_eq] at h
    have : j ≠ k := by omega
    simp [nget, this]; omega

theorem nget_ndel (m : List (Nat × α)) (n k : Nat) (h : risesFrom n m = true) : nget (ndel m k) k = none := by
  induction m generalizing n with
  | nil => rfl
  | cons p m ih =>
    obtain ⟨j, w⟩ := p
    simp only [risesFrom, Bool.and_eq_true, decide_eq_true_eq] at h
    simp only [ndel]
    split
    · have : j ≠ k := by omega
      simp only [nget, this, *, if_true, if_false]
    · split
      · exact nget_below m (j + 1) k h.2 (by omega)
      · have : j ≠ k := by omega
        simp [nget, this, ih _ h.2]

theorem nget_ndel_ne (m : List (Nat × α)) (n k j : Nat) (h : risesFrom n m = true) (hj : j ≠ k) :
    nget (ndel m k) j = nget m j := by
  induction m generalizing n with
  | nil => rfl
  | cons p m ih =>
    obtain ⟨i, w⟩ := p
    simp only [risesFrom, Bool.and_eq_true, decide_eq_true_eq] at h
    simp only [ndel]
    split
    · rfl
    · split
      · rename_i h1 h2
        subst h2
        simp only [nget, Ne.symm hj, if_false]
        split
        · exact nget_below m (k + 1) j h.2 (by omega)
        · rfl
      · simp only [nget, ih _ h.2]

end Machine
end Sys2Proof
end

