-- ==== Sys2Proof/Laws/Memory.lean ====
section
/-!
SUPPORT. Memory: a byte read after a write, and that every operation keeps the canonical form.
-/

namespace Sys2Proof
namespace Machine

theorem Memory.wf_rises {m : List Host.Cell} (h : Memory.wf m = true) : risesFrom 0 m = true := by
  simp only [Memory.wf, Bool.and_eq_true] at h; exact h.1

theorem all_nset {α : Type} (p : Nat × α → Bool) (m : List (Nat × α)) (k : Nat) (v : α) (hv : p (k, v) = true) (h : m.all p = true) :
    (nset m k v).all p = true := by
  induction m with
  | nil => simp [nset, hv]
  | cons q m ih =>
    obtain ⟨j, w⟩ := q
    simp only [List.all_cons, Bool.and_eq_true] at h
    simp only [nset]
    split
    · simp [hv, h.1, h.2]
    · split
      · rename_i h1 h2; subst h2; simp [hv, h.2]
      · simp [h.1, ih h.2]

theorem all_ndel {α : Type} (p : Nat × α → Bool) (m : List (Nat × α)) (k : Nat) (h : m.all p = true) :
    (ndel m k).all p = true := by
  induction m with
  | nil => rfl
  | cons q m ih =>
    obtain ⟨j, w⟩ := q
    simp only [List.all_cons, Bool.and_eq_true] at h
    simp only [ndel]
    split
    · simp [h.1, h.2]
    · split
      · exact h.2
      · simp [h.1, ih h.2]

/-- A write keeps the canonical form. -/
theorem Memory.wf_write (m : List Host.Cell) (k : Nat) (b : Byte) (h : Memory.wf m = true) :
    Memory.wf (Memory.write m k b) = true := by
  simp only [Memory.wf, Bool.and_eq_true] at h ⊢
  unfold Memory.write
  split
  · exact ⟨risesFrom_ndel _ _ _ h.1, all_ndel _ _ _ h.2⟩
  · exact ⟨risesFrom_nset _ _ _ _ (Nat.zero_le _) h.1, all_nset _ _ _ _ (by simpa using ‹_›) h.2⟩

theorem Memory.wf_writeN (m : List Host.Cell) (k : Nat) (bs : List Byte) (h : Memory.wf m = true) :
    Memory.wf (Memory.writeN m k bs) = true := by
  induction bs generalizing m k with
  | nil => exact h
  | cons b bs ih => exact ih _ _ (Memory.wf_write _ _ _ h)

/-- A byte reads as what was written to it. -/
theorem Memory.read_write (m : List Host.Cell) (k : Nat) (b : Byte) (h : Memory.wf m = true) :
    Memory.read (Memory.write m k b) k = b := by
  by_cases hb : b = Memory.blank
  · simp [Memory.write, Memory.read, hb, nget_ndel _ _ _ (Memory.wf_rises h)]
  · simp [Memory.write, Memory.read, hb]

/-- A write leaves every other byte alone. -/
theorem Memory.read_write_ne (m : List Host.Cell) (k j : Nat) (b : Byte) (h : Memory.wf m = true) (hj : j ≠ k) :
    Memory.read (Memory.write m k b) j = Memory.read m j := by
  by_cases hb : b = Memory.blank
  · simp [Memory.write, Memory.read, hb, nget_ndel_ne _ _ _ _ (Memory.wf_rises h) hj]
  · simp [Memory.write, Memory.read, hb, nget_nset_ne _ _ _ _ hj]

/-- A write of several bytes leaves every byte outside them alone. -/
theorem Memory.read_writeN_out (m : List Host.Cell) (k j : Nat) (bs : List Byte) (h : Memory.wf m = true)
    (hj : j < k ∨ k + bs.length ≤ j) : Memory.read (Memory.writeN m k bs) j = Memory.read m j := by
  induction bs generalizing m k with
  | nil => rfl
  | cons b bs ih =>
    simp only [List.length_cons] at hj
    rw [Memory.writeN, ih _ _ (Memory.wf_write _ _ _ h) (by omega), Memory.read_write_ne _ _ _ _ h (by omega)]

/-- The bytes written read back. -/
theorem Memory.readN_writeN (m : List Host.Cell) (k : Nat) (bs : List Byte) (h : Memory.wf m = true) :
    Memory.readN (Memory.writeN m k bs) k bs.length = bs := by
  induction bs generalizing m k with
  | nil => rfl
  | cons b bs ih =>
    rw [Memory.writeN, List.length_cons, Memory.readN, ih _ _ (Memory.wf_write _ _ _ h),
      Memory.read_writeN_out _ _ _ _ (Memory.wf_write _ _ _ h) (by omega), Memory.read_write _ _ _ h]

@[simp] theorem leBytes_length (n v : Nat) : (leBytes n v).length = n := by
  induction n generalizing v with
  | zero => rfl
  | succ n ih => simp [leBytes, ih]

/-- The bytes of a number give it back, modulo their number. -/
theorem leNat_leBytes (n v : Nat) : leNat (leBytes n v) = v % 256 ^ n := by
  induction n generalizing v with
  | zero => simp [leBytes, leNat, Nat.mod_one]
  | succ n ih =>
    have hp : 256 ^ (n + 1) = 256 * 256 ^ n := by rw [Nat.pow_succ, Nat.mul_comm]
    rw [hp, Nat.mod_mul, leBytes, leNat, ih, BitVec.toNat_ofNat]

end Machine
end Sys2Proof
end

