-- ==== Sys2Proof/Laws/State.lean ====
section
/-!
SUPPORT. Cores, panes and fields of the state after the updates of Machine/Ops.lean, so that no proof unfolds a record
update.
-/

namespace Sys2Proof
namespace Machine

@[simp] theorem core_setCore (s : State) (n : Nat) (c : Core) : (s.setCore n c).core n = c := by
  simp [State.core, State.setCore]
theorem core_setCore_ne (s : State) (n m : Nat) (c : Core) (h : m ≠ n) : (s.setCore n c).core m = s.core m := by
  simp [State.core, State.setCore, nget_nset_ne _ _ _ _ h]
@[simp] theorem setCore_setCore (s : State) (n : Nat) (c d : Core) : (s.setCore n c).setCore n d = s.setCore n d := by
  simp [State.setCore]
@[simp] theorem me_setMe (s : State) (c : Core) : (s.setMe c).me = c := by simp [State.me, State.setMe, State.setCore, State.core]
@[simp] theorem setMe_setMe (s : State) (c d : Core) : (s.setMe c).setMe d = s.setMe d := by
  simp [State.setMe, State.setCore]
@[simp] theorem setCore_cur (s : State) (n : Nat) (c : Core) : (s.setCore n c).cur = s.cur := rfl
@[simp] theorem setCore_mem (s : State) (n : Nat) (c : Core) : (s.setCore n c).mem = s.mem := rfl
@[simp] theorem setCore_ctl (s : State) (n : Nat) (c : Core) : (s.setCore n c).ctl = s.ctl := rfl
@[simp] theorem setCore_tlb (s : State) (n : Nat) (c : Core) : (s.setCore n c).tlb = s.tlb := rfl
@[simp] theorem setCore_gts (s : State) (n : Nat) (c : Core) : (s.setCore n c).gts = s.gts := rfl
@[simp] theorem setCore_tasks (s : State) (n : Nat) (c : Core) : (s.setCore n c).tasks = s.tasks := rfl
@[simp] theorem setCore_panes (s : State) (n : Nat) (c : Core) : (s.setCore n c).panes = s.panes := rfl
@[simp] theorem setMe_cur (s : State) (c : Core) : (s.setMe c).cur = s.cur := rfl
@[simp] theorem setMe_mem (s : State) (c : Core) : (s.setMe c).mem = s.mem := rfl
@[simp] theorem setMe_tasks (s : State) (c : Core) : (s.setMe c).tasks = s.tasks := rfl
@[simp] theorem setMe_undefCtr (s : State) (c : Core) : (s.setMe c).undefCtr = s.undefCtr := rfl
@[simp] theorem side_setSide (c : Core) (sd : Side) (t : SideSt) : (c.setSide sd t).side sd = t := by cases sd <;> rfl
@[simp] theorem setSide_setSide (c : Core) (sd : Side) (t u : SideSt) : (c.setSide sd t).setSide sd u = c.setSide sd u := by
  cases sd <;> rfl
@[simp] theorem mySide_setMySide (s : State) (t : SideSt) : (s.setMySide t).mySide = t := by
  simp [State.mySide, State.setMySide]
theorem setMySide_eq (s : State) (t : SideSt) : s.setMySide t = s.setMe (s.me.setSide s.cur.side t) := rfl
@[simp] theorem me_setMySide (s : State) (t : SideSt) : (s.setMySide t).me = s.me.setSide s.cur.side t := by
  simp [setMySide_eq]
@[simp] theorem setMySide_cur (s : State) (t : SideSt) : (s.setMySide t).cur = s.cur := rfl
@[simp] theorem setMySide_mem (s : State) (t : SideSt) : (s.setMySide t).mem = s.mem := rfl
@[simp] theorem setMySide_tasks (s : State) (t : SideSt) : (s.setMySide t).tasks = s.tasks := rfl
@[simp] theorem setTask_cores (s : State) (t : Task) : (s.setTask t).cores = s.cores := rfl
@[simp] theorem setTask_mem (s : State) (t : Task) : (s.setTask t).mem = s.mem := rfl
@[simp] theorem setTask_cur (s : State) (t : Task) : (s.setTask t).cur = s.cur := rfl
@[simp] theorem ctlSet_mem (s : State) (o : Nat) (v : Word) : (s.ctlSet o v).mem = s.mem := rfl
@[simp] theorem ctlSet_cores (s : State) (o : Nat) (v : Word) : (s.ctlSet o v).cores = s.cores := rfl
@[simp] theorem ctlGet_ctlSet (s : State) (o : Nat) (v : Word) : (s.ctlSet o v).ctlGet o = v := by
  simp [State.ctlGet, State.ctlSet]
theorem ctlGet_ctlSet_ne (s : State) (o p : Nat) (v : Word) (h : p ≠ o) : (s.ctlSet o v).ctlGet p = s.ctlGet p := by
  simp [State.ctlGet, State.ctlSet, nget_nset_ne _ _ _ _ h]

@[simp] theorem setCore_undefCtr (s : State) (n : Nat) (c : Core) : (s.setCore n c).undefCtr = s.undefCtr := rfl
@[simp] theorem setCore_saved (s : State) (n : Nat) (c : Core) : (s.setCore n c).saved = s.saved := rfl
@[simp] theorem setCore_preloads (s : State) (n : Nat) (c : Core) : (s.setCore n c).preloads = s.preloads := rfl
@[simp] theorem setCore_launches (s : State) (n : Nat) (c : Core) : (s.setCore n c).launches = s.launches := rfl
@[simp] theorem setCore_contracts (s : State) (n : Nat) (c : Core) : (s.setCore n c).contracts = s.contracts := rfl
@[simp] theorem setCore_pri (s : State) (n : Nat) (c : Core) : (s.setCore n c).pri = s.pri := rfl
@[simp] theorem setMe_tlb (s : State) (c : Core) : (s.setMe c).tlb = s.tlb := rfl
@[simp] theorem setMe_panes (s : State) (c : Core) : (s.setMe c).panes = s.panes := rfl
@[simp] theorem setMe_pri (s : State) (c : Core) : (s.setMe c).pri = s.pri := rfl
@[simp] theorem setCore_gone (s : State) (n : Nat) (c : Core) : (s.setCore n c).gone = s.gone := rfl
@[simp] theorem setCore_peers (s : State) (n : Nat) (c : Core) : (s.setCore n c).peers = s.peers := rfl
@[simp] theorem setCore_octets (s : State) (n : Nat) (c : Core) : (s.setCore n c).octets = s.octets := rfl
@[simp] theorem setCore_convs (s : State) (n : Nat) (c : Core) : (s.setCore n c).convs = s.convs := rfl
@[simp] theorem setCore_homeIn (s : State) (n : Nat) (c : Core) : (s.setCore n c).homeIn = s.homeIn := rfl
@[simp] theorem setCore_nextReq (s : State) (n : Nat) (c : Core) : (s.setCore n c).nextReq = s.nextReq := rfl
@[simp] theorem setCore_strays (s : State) (n : Nat) (c : Core) : (s.setCore n c).strays = s.strays := rfl
@[simp] theorem setMe_gone (s : State) (c : Core) : (s.setMe c).gone = s.gone := rfl
@[simp] theorem setMe_peers (s : State) (c : Core) : (s.setMe c).peers = s.peers := rfl
@[simp] theorem setMe_octets (s : State) (c : Core) : (s.setMe c).octets = s.octets := rfl
@[simp] theorem setSide_heldInh (c : Core) (sd : Side) (t : SideSt) : (c.setSide sd t).heldInh = c.heldInh := by cases sd <;> rfl
@[simp] theorem setSide_heldEpc (c : Core) (sd : Side) (t : SideSt) : (c.setSide sd t).heldEpc = c.heldEpc := by cases sd <;> rfl
@[simp] theorem setSide_lostStores (c : Core) (sd : Side) (t : SideSt) : (c.setSide sd t).lostStores = c.lostStores := by
  cases sd <;> rfl
@[simp] theorem setSide_reqNo (c : Core) (sd : Side) (t : SideSt) : (c.setSide sd t).reqNo = c.reqNo := by cases sd <;> rfl
@[simp] theorem setMe_saved (s : State) (c : Core) : (s.setMe c).saved = s.saved := rfl
@[simp] theorem setSide_lanes (c : Core) (sd : Side) (t : SideSt) : (c.setSide sd t).lanes = c.lanes := by cases sd <;> rfl
@[simp] theorem setSide_flight (c : Core) (sd : Side) (t : SideSt) : (c.setSide sd t).flight = c.flight := by cases sd <;> rfl
@[simp] theorem setSide_emptyRead (c : Core) (sd : Side) (t : SideSt) : (c.setSide sd t).emptyRead = c.emptyRead := by
  cases sd <;> rfl
@[simp] theorem setSide_icache (c : Core) (sd : Side) (t : SideSt) : (c.setSide sd t).icache = c.icache := by cases sd <;> rfl
@[simp] theorem setSide_pend (c : Core) (sd : Side) (t : SideSt) : (c.setSide sd t).pend = c.pend := by cases sd <;> rfl
/-- All that putting an entry into a buffer can do (R17): it is added, or replaces one of its pane and set, which is kept among those gone. -/
theorem install_cases (s : State) (e : TlbEnt) : s.install e = { s with tlb := e :: s.tlb } ∨
    ∃ old, s.install e = { s with tlb := e :: s.tlb.erase old, gone := s.gone ++ [old], undefCtr := s.undefCtr + 1 } := by
  simp only [State.install]
  split <;> split <;> first | exact .inl rfl | (split <;> first | exact .inl rfl | exact .inr ⟨_, rfl⟩)
theorem install_frame (s : State) (e : TlbEnt) : { s.install e with tlb := s.tlb, gone := s.gone, undefCtr := s.undefCtr } = s := by
  obtain h | ⟨_, h⟩ := install_cases s e <;> rw [h]
@[simp] theorem install_mem (s : State) (e : TlbEnt) : (s.install e).mem = s.mem := by
  obtain h | ⟨_, h⟩ := install_cases s e <;> rw [h]
@[simp] theorem install_cores (s : State) (e : TlbEnt) : (s.install e).cores = s.cores := by
  obtain h | ⟨_, h⟩ := install_cases s e <;> rw [h]
@[simp] theorem put_side (c : Core) (sd : Side) (r : RegNo) (v : Word) : (c.putReg sd r v).side sd = c.side sd := by
  cases sd <;> simp only [Core.putReg, Core.side] <;> split <;> rfl

/-! ## Operands -/

theorem src_ok (s : State) (r : RegNo) (fe : Bool) (h : s.Has r) : s.src r fe = .ok (s.val r) := by
  simp only [State.Has] at h
  simp [State.src, h, State.val]

theorem srcR_ok (s : State) (r : SrcR) (h : s.Has r.r) : s.srcR r = .ok (s.val r.r) := src_ok _ _ _ h

theorem src2_ok (s : State) (f : Src2) (h : s.Has2 f) : s.src2 f = .ok (s.val2 f) := by
  cases f with
  | reg b fb => simp only [State.src2, State.val2]; exact src_ok _ _ _ h
  | imm v => rfl

theorem dst_ok (s : State) (r : RegNo) (h : s.Has r) : s.dst r = .ok () := by
  simp only [State.Has] at h
  simp [State.dst, h, orWait]

/-! ## Frames -/

theorem only_setMe (s : State) (c : Core) : OnlyMyCore s (s.setMe c) := by
  refine ⟨rfl, fun n h => ?_, fun k => rfl⟩
  simp [State.setMe, core_setCore_ne _ _ _ _ h]

theorem becomes_setMe (s : State) (c : Core) : Becomes s (s.setMe c) c := ⟨only_setMe s c, me_setMe s c⟩

theorem only_setCore (s : State) (n : Nat) (c : Core) : OnlyCore n s (s.setCore n c) :=
  ⟨rfl, fun _ h => core_setCore_ne _ _ _ _ h, fun _ => rfl⟩

theorem coreBecomes_setCore (s : State) (n : Nat) (c : Core) : CoreBecomes n s (s.setCore n c) c :=
  ⟨only_setCore s n c, core_setCore s n c⟩

theorem put_setMySide (s : State) (d : RegNo) (v : Word) (t : SideSt) :
    (s.put d v).setMySide t = s.setMe ((s.me.putReg s.cur.side d v).setSide s.cur.side t) := by
  simp only [State.put, State.setMySide, me_setMe, setMe_setMe, setMe_cur]

theorem put_retire (s : State) (d : RegNo) (v : Word) (len : Nat) :
    ((s.put d v).retire len) = s.setMe ((s.me.putReg s.cur.side d v).setSide s.cur.side (s.mySide.advance len)) := by
  rw [State.retire, put_setMySide]
  simp [State.put, State.mySide]

/-- A register written and the side moved: what changes is that, and nothing else. -/
theorem scalarEffect_put (s : State) (d : RegNo) (v : Word) (side : SideSt) :
    ScalarEffect s (s.setMe ((s.me.putReg s.cur.side d v).setSide s.cur.side side)) d v side := by
  refine { toOnlyCore := only_setMe _ _, value := ?_, regs := ?_, core := ?_ } <;> rw [me_setMe]
  · generalize s.cur.side = sd
    cases sd <;> simp only [Core.reg, Core.putReg, Core.setSide, Core.rawReg] <;> split <;> simp_all
  · intro sd r h
    revert h
    generalize s.cur.side = sd2
    cases sd2 <;> cases sd <;> simp only [Core.putReg, Core.setSide, Core.rawReg] <;> split <;> simp_all <;> intro h <;>
      exact Vector.getElem_set_ne _ _ (fun hh => h (Fin.ext hh.symm))
  · generalize s.cur.side = sd
    cases sd <;> simp only [Core.putReg, Core.setSide] <;> split <;> simp_all

theorem sideEffect_setMySide (s : State) (t : SideSt) : SideEffect s (s.setMySide t) t := by
  have h := scalarEffect_put s 0 0 t
  simpa [SideEffect, Core.putReg, setMySide_eq] using h

/-- A precise trap enters the handler. -/
theorem trapTaken_enter (s : State) (h : s.CanTrap) (code : Nat) (info : Word) (hc : code < 32) :
    TrapTaken s (s.conclude (raise { code := code, info := info })) code info := by
  obtain ⟨h1, h2, h3, h4⟩ := h
  have hx : (s.setMe (s.me.dropConv s.cur.side)).exiting s.cur.core = false := by
    have e : (s.setMe (s.me.dropConv s.cur.side)).core s.cur.core = s.me.dropConv s.cur.side := me_setMe s _
    have k : (s.me.dropConv s.cur.side).task = (s.core s.cur.core).task := by cases s.cur.side <;> rfl
    rw [← h4]; simp only [State.exiting, e, k]; rfl
  have hs : (s.setMe (s.me.dropConv s.cur.side)).mySide = s.mySide := by
    simp only [State.mySide, me_setMe, setMe_cur]
    cases hsd : s.cur.side <;> rfl
  have ht : (s.me.dropConv s.cur.side).tvec = s.me.tvec := by cases s.cur.side <;> rfl
  have hcause : causeWord false false false true s.mySide.super 0 code =
      BitVec.ofNat 64 (2 ^ 60 + (if s.mySide.super then 2 ^ 59 else 0) + 0 * 2 ^ 8 + code) := by
    simp [causeWord, Nat.mod_eq_of_lt hc]
  have h2' : (s.me.tvec == 0) = false := beq_eq_false_iff_ne.mpr h2
  have he : s.conclude (raise { code := code, info := info }) = s.setMe ((s.me.dropConv s.cur.side).setSide s.cur.side
      (s.mySide.enter s.me.tvec s.cur.side { code := code, info := info })) := by
    simp only [State.conclude, raise, h3, State.takeTrap, hs, h1, me_setMe, ht, h2', hx, setMySide_eq, setMe_cur, setMe_setMe]
    rfl
  rw [he]
  refine { toOnlyCore := only_setMe _ _, side := ?_, core := ?_ }
  · have hv : (isStream code = true) = (0x15 ≤ code ∧ code ≤ 0x17) := by
      rw [isStream, Bool.and_eq_true, decide_eq_true_eq, decide_eq_true_eq]; rfl
    simp only [SideSt.enter, side_setSide, me_setMe, Bool.false_or, hv, Bool.false_eq_true, if_false, hcause] <;>
      cases s.cur.side <;> rfl
  · simp

end Machine
end Sys2Proof
end

