-- ==== Sys2Proof/Laws/Ops.lean ====
section
/-!
SUPPORT. What the shared operations of Machine/Ops.lean do: events, undefined values, panes, tasks, transfers, removal, and what
becomes of memory under them.
-/

namespace Sys2Proof
namespace Machine

/-! ## Events and undefined values -/

/-- An event changes the ring, the time and the interrupts, and nothing else. -/
theorem logEvent_frame (s : State) (kind src lgrp elem addr task cause : Nat) :
    { s.logEvent kind src lgrp elem addr task cause with ctl := s.ctl, errlog := s.errlog, gts := s.gts, msix := s.msix } = s := rfl

@[simp] theorem logEvent_mem (s : State) (kind src lgrp elem addr task cause : Nat) :
    (s.logEvent kind src lgrp elem addr task cause).mem = s.mem := rfl
@[simp] theorem logEvent_cores (s : State) (kind src lgrp elem addr task cause : Nat) :
    (s.logEvent kind src lgrp elem addr task cause).cores = s.cores := rfl
@[simp] theorem logEvent_tasks (s : State) (kind src lgrp elem addr task cause : Nat) :
    (s.logEvent kind src lgrp elem addr task cause).tasks = s.tasks := rfl
@[simp] theorem logEvent_cur (s : State) (kind src lgrp elem addr task cause : Nat) :
    (s.logEvent kind src lgrp elem addr task cause).cur = s.cur := rfl

theorem errHead_lt (w : Word) : errHead w < 2 ^ 31 := by
  simp only [errHead, bits]
  exact Nat.mod_lt _ (by decide)

theorem errTail_lt (w : Word) : errTail w < 2 ^ 31 := by
  simp only [errTail, bits]
  exact Nat.mod_lt _ (by decide)

/-- The head of the ring goes on by one. -/
theorem logEvent_head (s : State) (kind src lgrp elem addr task cause : Nat) :
    errHead (s.logEvent kind src lgrp elem addr task cause).errlog = (errHead s.errlog + 1) % 2 ^ 31 := by
  have ht := errTail_lt s.errlog
  have hh : (errHead s.errlog + 1) % 2 ^ 31 < 2 ^ 31 := Nat.mod_lt _ (by decide)
  simp only [State.logEvent]
  generalize (errHead s.errlog + 1) % 2 ^ 31 = h at hh ⊢
  generalize errTail s.errlog = t at ht ⊢
  simp only [errHead, bits, BitVec.toNat_ofNat]
  split <;> omega

theorem fresh_frame (s : State) : { s.fresh.2 with undefCtr := s.undefCtr } = s := rfl

/-! ## Panes and tasks -/

@[simp] theorem setPane_mem (s : State) (p : Nat) (q : Pane) : (s.setPane p q).mem = s.mem := by
  simp only [State.setPane]; split <;> rfl
@[simp] theorem setPane_cores (s : State) (p : Nat) (q : Pane) : (s.setPane p q).cores = s.cores := by
  simp only [State.setPane]; split <;> rfl
@[simp] theorem setPane_tasks (s : State) (p : Nat) (q : Pane) : (s.setPane p q).tasks = s.tasks := by
  simp only [State.setPane]; split <;> rfl

theorem pane_setPane (s : State) (p : Nat) (q : Pane) (h : p < 8) : (s.setPane p q).pane p = q := by
  simp [State.setPane, State.pane, h]

theorem pane_setPane_ne (s : State) (p r : Nat) (q : Pane) (h : r ≠ p) : (s.setPane p q).pane r = s.pane r := by
  simp only [State.setPane]
  split
  · simp only [State.pane]
    split
    · exact Vector.getElem_set_ne _ _ (fun hh => h hh.symm)
    · rfl
  · rfl

/-- A task written is found under its number. -/
theorem task_setTask (s : State) (t u : Task) (h : s.task t.id = some u) : (s.setTask t).task t.id = some t := by
  simp only [State.task, State.setTask] at *
  generalize s.tasks = ts at h
  induction ts with
  | nil => cases h
  | cons x xs ih =>
    rw [List.map_cons, List.find?_cons]
    by_cases hx : x.id = t.id
    · simp [hx]
    · rw [List.find?_cons, beq_eq_false_iff_ne.mpr hx] at h
      rw [if_neg (by simpa using hx), beq_eq_false_iff_ne.mpr hx]
      exact ih h

/-- Any other task is as before. -/
theorem task_setTask_ne (s : State) (t : Task) (k : Nat) (h : k ≠ t.id) : (s.setTask t).task k = s.task k := by
  simp only [State.task, State.setTask]
  induction s.tasks with
  | nil => rfl
  | cons x xs ih =>
    rw [List.map_cons, List.find?_cons, List.find?_cons]
    by_cases hx : x.id = t.id
    · rw [if_pos (by simpa using hx), beq_eq_false_iff_ne.mpr (Ne.symm h), hx, beq_eq_false_iff_ne.mpr (Ne.symm h)]
      exact ih
    · rw [if_neg (by simpa using hx), ih]

/-! ## Transfers -/

theorem target_ok (pc : Word) (h : pc.toNat % 4 = 0) : target pc = .ok () := by simp [target, h, orTrap]

theorem sideEffect_goto (s : State) (pc : Word) : SideEffect s (s.goto pc) { s.mySide with pc := pc } :=
  sideEffect_setMySide s _

theorem sideEffect_retire (s : State) (len : Nat) : SideEffect s (s.retire len) (s.mySide.advance len) :=
  sideEffect_setMySide s _

/-! ## Memory under the shared operations -/

theorem foldl_mem (xs : List α) (f : State → α → State) (h : ∀ s x, (f s x).mem = s.mem) (s : State) :
    (xs.foldl f s).mem = s.mem := by
  induction xs generalizing s with
  | nil => rfl
  | cons x xs ih => simp [ih, h]

/-- A predicate of states that each round of a fold keeps, the whole fold keeps. -/
theorem foldl_keeps (p : State → Prop) (xs : List α) (f : State → α → State) (h : ∀ s x, p s → p (f s x)) (s : State) (hs : p s) :
    p (xs.foldl f s) := by
  induction xs generalizing s with
  | nil => exact hs
  | cons x xs ih => exact ih _ (h s x hs)

@[simp] theorem forgetPages_mem (s : State) (n : Nat) : (s.forgetPages n).mem = s.mem := rfl
@[simp] theorem heardPage_mem (s : State) (n fn pg : Nat) (w : Bool) : (s.heardPage n fn pg w).mem = s.mem := rfl

theorem askPage_mem (s : State) (n fn pg : Nat) (w : Bool) : (s.askPage n fn pg w).mem = s.mem := by
  simp only [State.askPage]; split <;> rfl

theorem discardTask_mem (s : State) (n code : Nat) : (s.discardTask n code).mem = s.mem := by
  simp only [State.discardTask]
  repeat (first | (rw [setTask_mem]) | (rw [foldl_mem]; intro _ _; rfl) | split)

/-- Removal leaves memory alone (R189). -/
theorem remove_mem (s : State) (n code qual : Nat) : (s.remove n code qual).mem = s.mem := by
  simp only [State.remove]
  repeat (first | rfl | (rw [discardTask_mem]) | (rw [logEvent_mem]) | (rw [setTask_mem]) | (rw [setPane_mem]) |
    (rw [foldl_mem]; intro _ _; rfl) | split)

theorem noteAddr_mem (s : State) (k : Trap) : (s.noteAddr k).mem = s.mem := by
  simp only [State.noteAddr]
  repeat (first | rfl | split)

/-- A trap leaves memory alone. -/
theorem takeTrap_mem (s : State) (k : Trap) : (s.takeTrap k).mem = s.mem := by
  simp only [State.takeTrap]
  split <;> split <;> (try rw [remove_mem, noteAddr_mem]) <;> rfl

@[simp] theorem keepTrap_mem (s : State) (k : Trap) : (s.keepTrap k).mem = s.mem := by
  simp only [State.keepTrap]; split <;> rfl

/-- An instruction that ends in a wait, a page request or a trap leaves memory alone. -/
theorem conclude_error_mem (s : State) (e : Stop) : (s.conclude (.error e)).mem = s.mem := by
  cases e with
  | wait => rfl
  | page fn pg w => exact askPage_mem _ _ _ _ _
  | trap k =>
    simp only [State.conclude]
    split
    · exact keepTrap_mem _ _
    · exact takeTrap_mem _ _

end Machine
end Sys2Proof
end

