-- ==== Sys2Proof/Laws/PerInstr.lean ====
section
/-!
SUPPORT. One statement per instruction: the side to which placing an instruction gives the turn is the side that alone may issue
it (R219).
-/

namespace Sys2Proof
namespace Laws

/-- The words of an instruction as one number, the first word lowest. -/
def joined : List Nat → Nat
  | []      => 0
  | w :: ws => w + 2 ^ 32 * joined ws

/-- The side of a major opcode and its low selector bits (R219). -/
def sideOfOp (op fn : Nat) : Side :=
  if op = 0x2B then (if fn % 16 = 4 then .X else .A)
  else if (0x1D ≤ op ∧ op ≤ 0x2A) ∨ op = 0x2C ∨ op = 0x2D then .X else .A

theorem word_op (r : RF) : r.word / 2 ^ 26 = r.op.val := by
  have := r.d.isLt; have := r.a.isLt; have := r.b.isLt; have := r.q.isLt; have := r.m.isLt; have := r.fn.isLt
  simp only [RF.word]; omega

theorem word_lt (r : RF) : r.word < 2 ^ 32 := by
  have := r.op.isLt; have := r.d.isLt; have := r.a.isLt; have := r.b.isLt; have := r.q.isLt; have := r.m.isLt; have := r.fn.isLt
  simp only [RF.word]; omega

theorem word_fn (r : RF) : r.word % 16 = r.fn.val % 16 := by
  simp only [RF.word]; omega

theorem xf_word (x : XF) : x.word / 2 ^ 26 = 0x3E ∧ x.word < 2 ^ 32 := by
  have := x.c.isLt; have := x.tg.isLt; have := x.ms.isLt; have := x.mx.isLt; have := x.var.isLt
  simp only [XF.word]; omega

/-- The side of placed words is that of the major opcode of the instruction word, which is no prefix. -/
theorem sideOfWords_enc (i : Instr) (e : Enc) (ws : List Nat) (hi : encodeFields i = some e) (ho : e.2.op.val ≠ 0x3E)
    (h : encode i = some ws) : Machine.sideOfWords (joined ws) = sideOfOp e.2.op.val e.2.fn.val := by
  obtain ⟨x, r⟩ := e
  have h1 := word_op r
  have h2 := word_lt r
  have h3 := word_fn r
  have key : ∀ k, bits k 31 26 = r.word / 2 ^ 26 % 64 → bits k 3 0 = r.word % 16 → r.op.val < 64 →
      bits k 31 26 = r.op.val ∧ bits k 3 0 = r.fn.val % 16 := by
    intro k ha hb hc
    rw [ha, hb, h1, h3]
    exact ⟨Nat.mod_eq_of_lt hc, rfl⟩
  cases x with
  | none =>
    simp only [encode, hi, Option.some.injEq] at h
    subst h
    have hw : bits (joined [r.word]) 31 26 = r.op.val := by
      have := r.op.isLt
      simp only [bits, joined]; omega
    have hi' : bits (joined [r.word]) 31 0 = r.word := by simp only [bits, joined]; omega
    simp only [Machine.sideOfWords, hw, if_neg ho, hi']
    obtain ⟨k1, k2⟩ := key r.word (by simp [bits]) (by simp [bits]) r.op.isLt
    simp only [k1, k2, sideOfOp]
  | some e =>
    simp only [encode, hi, Option.some.injEq] at h
    subst h
    have hx := xf_word e.xf
    have hm := e.imm.isLt
    have hw : bits (joined [e.xf.word, e.imm.toNat, r.word]) 31 26 = 0x3E := by
      simp only [bits, joined]; omega
    have hi' : bits (joined [e.xf.word, e.imm.toNat, r.word]) 95 64 = r.word := by
      simp only [bits, joined]; omega
    simp only [Machine.sideOfWords, hw, if_true, hi']
    obtain ⟨k1, k2⟩ := key r.word (by simp [bits]) (by simp [bits]) r.op.isLt
    simp only [k1, k2, sideOfOp]

/-- Where an encoding has this major opcode and selector, the side follows. -/
theorem side_of (i : Instr) (sd : Side) (he : ∀ e, encodeFields i = some e → e.2.op.val ≠ 0x3E ∧ sideOfOp e.2.op.val e.2.fn.val = sd)
    (ws : List Nat) (h : encode i = some ws) : Machine.sideOfWords (joined ws) = sd := by
  cases hi : encodeFields i with
  | none => simp [encode, hi] at h
  | some e =>
    obtain ⟨h1, h2⟩ := he e hi
    rw [sideOfWords_enc i e ws hi h1 h, h2]

namespace IssueSide

/-- The words of an instruction of one side are placed for that side. -/
def Statement (i : Instr) : Prop :=
  ∀ ws, encode i = some ws → ∀ sd, Machine.ownSide i = some sd → Machine.sideOfWords (joined ws) = sd

/-- An instruction of both sides, or an event, has no side of its own. -/
theorem free (i : Instr) (h : Machine.ownSide i = none) : Statement i := by
  intro ws _ sd hs
  rw [h] at hs
  cases hs

/-- An instruction of one side: its major opcode, and its selector within 0x2B, are of that side. -/
theorem own (i : Instr) (sd : Side) (h : Machine.ownSide i = some sd)
    (he : ∀ e, encodeFields i = some e → e.2.op.val ≠ 0x3E ∧ sideOfOp e.2.op.val e.2.fn.val = sd) : Statement i := by
  intro ws hw sd' hs
  rw [h] at hs
  cases hs
  exact side_of i _ he ws hw

theorem ownMajor (i : Instr) (op : Nat) (sd : Side) (h : Machine.ownSide i = some sd) (h1 : op ≠ 0x3E) (h2 : op ≠ 0x2B)
    (hs : sideOfOp op 0 = sd) (he : ∀ e, encodeFields i = some e → e.2.op.val = op) : Statement i :=
  own i sd h fun e hi => by
    rw [he e hi]
    refine ⟨h1, ?_⟩
    simp only [sideOfOp, if_neg h2] at hs ⊢
    exact hs

theorem add (x0 : AluF) : Statement (.add x0) := free _ rfl
theorem sub (x0 : AluF) : Statement (.sub x0) := free _ rfl
theorem mul (x0 : AluF) : Statement (.mul x0) := free _ rfl
theorem mulh (x0 : AluF) : Statement (.mulh x0) := free _ rfl
theorem mulhn (x0 : AluF) : Statement (.mulhn x0) := free _ rfl
theorem div (x0 : AluF) : Statement (.div x0) := free _ rfl
theorem divn (x0 : AluF) : Statement (.divn x0) := free _ rfl
theorem rem (x0 : AluF) : Statement (.rem x0) := free _ rfl
theorem remn (x0 : AluF) : Statement (.remn x0) := free _ rfl
theorem and (x0 : AluF) : Statement (.and x0) := free _ rfl
theorem or (x0 : AluF) : Statement (.or x0) := free _ rfl
theorem xor (x0 : AluF) : Statement (.xor x0) := free _ rfl
theorem shl (x0 : AluF) : Statement (.shl x0) := free _ rfl
theorem shr (x0 : AluF) : Statement (.shr x0) := free _ rfl
theorem sar (x0 : AluF) : Statement (.sar x0) := free _ rfl
theorem min (x0 : AluF) : Statement (.min x0) := free _ rfl
theorem max (x0 : AluF) : Statement (.max x0) := free _ rfl
theorem slt (x0 : AluF) : Statement (.slt x0) := free _ rfl
theorem sltn (x0 : AluF) : Statement (.sltn x0) := free _ rfl
theorem seq (x0 : AluF) : Statement (.seq x0) := free _ rfl
theorem cmovnz (x0 : AluF) : Statement (.cmovnz x0) := free _ rfl
theorem clz (x0 : UnF) : Statement (.clz x0) := free _ rfl
theorem ctz (x0 : UnF) : Statement (.ctz x0) := free _ rfl
theorem popc (x0 : UnF) : Statement (.popc x0) := free _ rfl
theorem addi (x0 : ImmF) : Statement (.addi x0) := free _ rfl
theorem andi (x0 : ImmF) : Statement (.andi x0) := free _ rfl
theorem ori (x0 : ImmF) : Statement (.ori x0) := free _ rfl
theorem xori (x0 : ImmF) : Statement (.xori x0) := free _ rfl
theorem slti (x0 : ImmF) : Statement (.slti x0) := free _ rfl
theorem li (x0 : RegNo) (x1 : Imm) : Statement (.li x0 x1) := free _ rfl
theorem lih (x0 : RegNo) (x1 : BitVec 16) : Statement (.lih x0 x1) := free _ rfl
theorem shli (x0 : ShImmF) : Statement (.shli x0) := free _ rfl
theorem shri (x0 : ShImmF) : Statement (.shri x0) := free _ rfl
theorem sari (x0 : ShImmF) : Statement (.sari x0) := free _ rfl
theorem bfx (x0 : AluF) : Statement (.bfx x0) := free _ rfl
theorem bfxs (x0 : AluF) : Statement (.bfxs x0) := free _ rfl
theorem bfi (x0 : AluF) : Statement (.bfi x0) := free _ rfl
theorem fsh (x0 : AluF) : Statement (.fsh x0) := free _ rfl
theorem br (x0 : Disp) : Statement (.br x0) := free _ rfl
theorem bz (x0 : RegNo) (x1 : Imm) : Statement (.bz x0 x1) := free _ rfl
theorem bnz (x0 : RegNo) (x1 : Imm) : Statement (.bnz x0 x1) := free _ rfl
theorem call (x0 : Disp) : Statement (.call x0) := free _ rfl
theorem ret : Statement .ret := free _ rfl
theorem jr (x0 : SrcR) : Statement (.jr x0) := free _ rfl
theorem loop (x0 : SrcR) (x1 : BitVec 32) : Statement (.loop x0 x1) := free _ rfl
theorem lidx (x0 : RegNo) (x1 : Fin 32) : Statement (.lidx x0 x1) := free _ rfl
theorem lbrk : Statement .lbrk := free _ rfl
theorem nop : Statement .nop := free _ rfl
theorem ld (x0 : LdF) : Statement (.ld x0) :=
  ownMajor _ 0x12 .A rfl (by decide) (by decide) rfl fun _ h => by obtain ⟨_, _, m, _, _⟩ := x0; cases m <;> (cases h; rfl)
theorem st (x0 : StF) : Statement (.st x0) :=
  ownMajor _ 0x13 .A rfl (by decide) (by decide) rfl fun _ h => by obtain ⟨_, _, m, _⟩ := x0; cases m <;> (cases h; rfl)
theorem pref (x0 : SrcR) (x1 : AddrM) : Statement (.pref x0 x1) :=
  ownMajor _ 0x14 .A rfl (by decide) (by decide) rfl fun _ h => by cases x1 <;> (cases h; rfl)
theorem ldq (x0 : LdqF) : Statement (.ldq x0) :=
  ownMajor _ 0x15 .A rfl (by decide) (by decide) rfl fun _ h => by cases h; rfl
theorem ldqs (x0 : LdqsF) : Statement (.ldqs x0) :=
  ownMajor _ 0x15 .A rfl (by decide) (by decide) rfl fun _ h => by cases h; rfl
theorem ldqx (x0 : LdqsF) : Statement (.ldqx x0) :=
  ownMajor _ 0x15 .A rfl (by decide) (by decide) rfl fun _ h => by cases h; rfl
theorem ldab (x0 : LdabF) : Statement (.ldab x0) :=
  ownMajor _ 0x15 .A rfl (by decide) (by decide) rfl fun _ h => by cases h; rfl
theorem ldabRetry (x0 : CoreId) : Statement (.ldabRetry x0) := free _ rfl
theorem stq (x0 : StqF) : Statement (.stq x0) :=
  ownMajor _ 0x16 .A rfl (by decide) (by decide) rfl fun _ h => by cases h; rfl
theorem stqApp (x0 : Fin 2) (x1 : SrcR) : Statement (.stqApp x0 x1) :=
  ownMajor _ 0x16 .A rfl (by decide) (by decide) rfl fun _ h => by cases h; rfl
theorem stqs (x0 : StqsF) : Statement (.stqs x0) :=
  ownMajor _ 0x16 .A rfl (by decide) (by decide) rfl fun _ h => by cases h; rfl
theorem stqx (x0 : StqsF) : Statement (.stqx x0) :=
  ownMajor _ 0x16 .A rfl (by decide) (by decide) rfl fun _ h => by cases h; rfl
theorem stqp (x0 : StqpF) : Statement (.stqp x0) :=
  ownMajor _ 0x16 .A rfl (by decide) (by decide) rfl fun _ h => by cases h; rfl
theorem stab (x0 : StabF) : Statement (.stab x0) :=
  ownMajor _ 0x16 .A rfl (by decide) (by decide) rfl fun _ h => by cases h; rfl
theorem stqDataArrives (x0 : CoreId) (x1 : Nat) : Statement (.stqDataArrives x0 x1) := free _ rfl
theorem stabGenRetry (x0 : CoreId) (x1 : Nat) : Statement (.stabGenRetry x0 x1) := free _ rfl
theorem amo (x0 : AmoF) : Statement (.amo x0) :=
  ownMajor _ 0x17 .A rfl (by decide) (by decide) rfl fun _ h => by cases h; rfl
theorem amoqx (x0 : AmoqxF) : Statement (.amoqx x0) :=
  ownMajor _ 0x17 .A rfl (by decide) (by decide) rfl fun _ h => by cases h; rfl
theorem loadComplete (x0 : CoreId) (x1 : Nat) : Statement (.loadComplete x0 x1) := free _ rfl
theorem fence (x0 : Fin 4) : Statement (.fence x0) := free _ rfl
theorem fenceSys (x0 : RegNo) : Statement (.fenceSys x0) := free _ rfl
theorem fenceSysT (x0 : RegNo) : Statement (.fenceSysT x0) := free _ rfl
theorem fenceComplete (x0 : CoreId) (x1 : Side) : Statement (.fenceComplete x0 x1) := free _ rfl
theorem arm (x0 : SrcR) (x1 : SrcR) : Statement (.arm x0 x1) :=
  ownMajor _ 0x19 .A rfl (by decide) (by decide) rfl fun _ h => by cases h; rfl
theorem arrive (x0 : SrcR) (x1 : SrcR) : Statement (.arrive x0 x1) :=
  ownMajor _ 0x19 .A rfl (by decide) (by decide) rfl fun _ h => by cases h; rfl
theorem await (x0 : RegNo) (x1 : SrcR) (x2 : SrcR) : Statement (.await x0 x1 x2) :=
  ownMajor _ 0x19 .A rfl (by decide) (by decide) rfl fun _ h => by cases h; rfl
theorem awaitComplete (x0 : CoreId) (x1 : Nat) : Statement (.awaitComplete x0 x1) := free _ rfl
theorem vsetl (x0 : RegNo) (x1 : SrcR) (x2 : Fin 16) : Statement (.vsetl x0 x1 x2) :=
  ownMajor _ 0x1a .A rfl (by decide) (by decide) rfl fun _ h => by cases h; rfl
theorem spcfg (x0 : SrcR) : Statement (.spcfg x0) :=
  ownMajor _ 0x1a .A rfl (by decide) (by decide) rfl fun _ h => by cases h; rfl
theorem cpy (x0 : RegNo) : Statement (.cpy x0) :=
  ownMajor _ 0x1b .A rfl (by decide) (by decide) rfl fun _ h => by cases h; rfl
theorem xform (x0 : RegNo) : Statement (.xform x0) :=
  ownMajor _ 0x1b .A rfl (by decide) (by decide) rfl fun _ h => by cases h; rfl
theorem mcfg (x0 : RegOrImm) : Statement (.mcfg x0) :=
  ownMajor _ 0x1c .A rfl (by decide) (by decide) rfl fun _ h => by cases x0 <;> (cases h; rfl)
theorem mcfgD (x0 : RegOrImm) : Statement (.mcfgD x0) :=
  ownMajor _ 0x1c .A rfl (by decide) (by decide) rfl fun _ h => by cases x0 <;> (cases h; rfl)
theorem mmp (x0 : MmpF) : Statement (.mmp x0) :=
  ownMajor _ 0x1c .A rfl (by decide) (by decide) rfl fun _ h => by obtain ⟨_, _, _, k⟩ := x0; cases k <;> (cases h; rfl)
theorem macroOpStart (x0 : CoreId) : Statement (.macroOpStart x0) := free _ rfl
theorem macroOpKStep (x0 : CoreId) : Statement (.macroOpKStep x0) := free _ rfl
theorem macroOpComplete (x0 : CoreId) : Statement (.macroOpComplete x0) := free _ rfl
theorem mzero (x0 : RegOrImm) : Statement (.mzero x0) :=
  ownMajor _ 0x1c .A rfl (by decide) (by decide) rfl fun _ h => by cases x0 <;> (cases h; rfl)
theorem mlive (x0 : RegOrImm) : Statement (.mlive x0) :=
  ownMajor _ 0x1c .A rfl (by decide) (by decide) rfl fun _ h => by cases x0 <;> (cases h; rfl)
theorem mchk (x0 : SrcR) (x1 : Option (BitVec 32)) : Statement (.mchk x0 x1) :=
  ownMajor _ 0x1c .A rfl (by decide) (by decide) rfl fun _ h => by cases h; rfl
theorem mdrain (x0 : MdrainF) : Statement (.mdrain x0) :=
  ownMajor _ 0x1c .A rfl (by decide) (by decide) rfl fun _ h => by obtain ⟨_, _, k⟩ := x0; cases k <;> (cases h; rfl)
theorem sampleCheckResult (x0 : Fin 8) : Statement (.sampleCheckResult x0) := free _ rfl
theorem vcfg (x0 : Fin 4) : Statement (.vcfg x0) :=
  ownMajor _ 0x1d .X rfl (by decide) (by decide) rfl fun _ h => by cases h; rfl
theorem vtag (x0 : RegNo) (x1 : Fin 32) : Statement (.vtag x0 x1) :=
  ownMajor _ 0x1d .X rfl (by decide) (by decide) rfl fun _ h => by cases h; rfl
theorem vgetl (x0 : RegNo) : Statement (.vgetl x0) :=
  ownMajor _ 0x1d .X rfl (by decide) (by decide) rfl fun _ h => by cases h; rfl
theorem vsetlx (x0 : RegNo) (x1 : RegNo) (x2 : Fin 32) : Statement (.vsetlx x0 x1 x2) :=
  ownMajor _ 0x1d .X rfl (by decide) (by decide) rfl fun _ h => by cases h; rfl
theorem vmv (x0 : V1P) : Statement (.vmv x0) :=
  ownMajor _ 0x1e .X rfl (by decide) (by decide) rfl fun _ h => by cases h; rfl
theorem vmvH (x0 : RegNo) (x1 : Fin 4) : Statement (.vmvH x0 x1) :=
  ownMajor _ 0x1e .X rfl (by decide) (by decide) rfl fun _ h => by cases h; rfl
theorem vpush (x0 : Fin 2) (x1 : RegNo) : Statement (.vpush x0 x1) :=
  ownMajor _ 0x1e .X rfl (by decide) (by decide) rfl fun _ h => by cases h; rfl
theorem vpushH (x0 : Fin 2) (x1 : RegNo) : Statement (.vpushH x0 x1) :=
  ownMajor _ 0x1e .X rfl (by decide) (by decide) rfl fun _ h => by cases h; rfl
theorem vbc (x0 : VDst) (x1 : RegNo) (x2 : Pred) (x3 : Option (Fin 32)) : Statement (.vbc x0 x1 x2 x3) :=
  ownMajor _ 0x1e .X rfl (by decide) (by decide) rfl fun _ h => by cases h; rfl
theorem vid (x0 : VDst) (x1 : Option (Fin 32)) : Statement (.vid x0 x1) :=
  ownMajor _ 0x1e .X rfl (by decide) (by decide) rfl fun _ h => by cases h; rfl
theorem vext (x0 : RegNo) (x1 : VSrc) (x2 : VIdx) : Statement (.vext x0 x1 x2) :=
  ownMajor _ 0x1e .X rfl (by decide) (by decide) rfl fun _ h => by cases x2 <;> (cases h; rfl)
theorem vins (x0 : RegNo) (x1 : RegNo) (x2 : VIdx) : Statement (.vins x0 x1 x2) :=
  ownMajor _ 0x1e .X rfl (by decide) (by decide) rfl fun _ h => by cases x2 <;> (cases h; rfl)
theorem vadd (x0 : V2F) : Statement (.vadd x0) :=
  ownMajor _ 0x1f .X rfl (by decide) (by decide) rfl fun _ h => by cases h; rfl
theorem vsub (x0 : V2F) : Statement (.vsub x0) :=
  ownMajor _ 0x1f .X rfl (by decide) (by decide) rfl fun _ h => by cases h; rfl
theorem vmul (x0 : V2F) : Statement (.vmul x0) :=
  ownMajor _ 0x1f .X rfl (by decide) (by decide) rfl fun _ h => by cases h; rfl
theorem vmulh (x0 : V2F) : Statement (.vmulh x0) :=
  ownMajor _ 0x1f .X rfl (by decide) (by decide) rfl fun _ h => by cases h; rfl
theorem vfma (x0 : VfmaF) : Statement (.vfma x0) :=
  ownMajor _ 0x1f .X rfl (by decide) (by decide) rfl fun _ h => by cases h; rfl
theorem vdiv (x0 : V2F) : Statement (.vdiv x0) :=
  ownMajor _ 0x1f .X rfl (by decide) (by decide) rfl fun _ h => by cases h; rfl
theorem vmin (x0 : V2F) : Statement (.vmin x0) :=
  ownMajor _ 0x1f .X rfl (by decide) (by decide) rfl fun _ h => by cases h; rfl
theorem vmax (x0 : V2F) : Statement (.vmax x0) :=
  ownMajor _ 0x1f .X rfl (by decide) (by decide) rfl fun _ h => by cases h; rfl
theorem vabs (x0 : V1F) : Statement (.vabs x0) :=
  ownMajor _ 0x20 .X rfl (by decide) (by decide) rfl fun _ h => by cases h; rfl
theorem vneg (x0 : V1F) : Statement (.vneg x0) :=
  ownMajor _ 0x20 .X rfl (by decide) (by decide) rfl fun _ h => by cases h; rfl
theorem vand (x0 : V2F) : Statement (.vand x0) :=
  ownMajor _ 0x20 .X rfl (by decide) (by decide) rfl fun _ h => by cases h; rfl
theorem vor (x0 : V2F) : Statement (.vor x0) :=
  ownMajor _ 0x20 .X rfl (by decide) (by decide) rfl fun _ h => by cases h; rfl
theorem vxor (x0 : V2F) : Statement (.vxor x0) :=
  ownMajor _ 0x20 .X rfl (by decide) (by decide) rfl fun _ h => by cases h; rfl
theorem vnot (x0 : V1F) : Statement (.vnot x0) :=
  ownMajor _ 0x20 .X rfl (by decide) (by decide) rfl fun _ h => by cases h; rfl
theorem vshl (x0 : V2F) : Statement (.vshl x0) :=
  ownMajor _ 0x20 .X rfl (by decide) (by decide) rfl fun _ h => by cases h; rfl
theorem vshr (x0 : V2F) : Statement (.vshr x0) :=
  ownMajor _ 0x20 .X rfl (by decide) (by decide) rfl fun _ h => by cases h; rfl
theorem vsar (x0 : V2F) : Statement (.vsar x0) :=
  ownMajor _ 0x20 .X rfl (by decide) (by decide) rfl fun _ h => by cases h; rfl
theorem vcvt (x0 : VcvtF) : Statement (.vcvt x0) :=
  ownMajor _ 0x21 .X rfl (by decide) (by decide) rfl fun _ h => by obtain ⟨_, _, _, _, _, _, k⟩ := x0; cases k <;> (cases h; rfl)
theorem vcmp (x0 : VcmpF) : Statement (.vcmp x0) :=
  ownMajor _ 0x22 .X rfl (by decide) (by decide) rfl fun _ h => by cases h; rfl
theorem vsel (x0 : V2P) : Statement (.vsel x0) :=
  ownMajor _ 0x22 .X rfl (by decide) (by decide) rfl fun _ h => by cases h; rfl
theorem mand (x0 : Fin 16) (x1 : Fin 16) (x2 : Fin 16) : Statement (.mand x0 x1 x2) :=
  ownMajor _ 0x23 .X rfl (by decide) (by decide) rfl fun _ h => by cases h; rfl
theorem mor (x0 : Fin 16) (x1 : Fin 16) (x2 : Fin 16) : Statement (.mor x0 x1 x2) :=
  ownMajor _ 0x23 .X rfl (by decide) (by decide) rfl fun _ h => by cases h; rfl
theorem mxor (x0 : Fin 16) (x1 : Fin 16) (x2 : Fin 16) : Statement (.mxor x0 x1 x2) :=
  ownMajor _ 0x23 .X rfl (by decide) (by decide) rfl fun _ h => by cases h; rfl
theorem mnot (x0 : Fin 16) (x1 : Fin 16) : Statement (.mnot x0 x1) :=
  ownMajor _ 0x23 .X rfl (by decide) (by decide) rfl fun _ h => by cases h; rfl
theorem mpop (x0 : RegNo) (x1 : Fin 16) : Statement (.mpop x0 x1) :=
  ownMajor _ 0x23 .X rfl (by decide) (by decide) rfl fun _ h => by cases h; rfl
theorem mfirst (x0 : RegNo) (x1 : Fin 16) : Statement (.mfirst x0 x1) :=
  ownMajor _ 0x23 .X rfl (by decide) (by decide) rfl fun _ h => by cases h; rfl
theorem vslup (x0 : SlideF) : Statement (.vslup x0) :=
  ownMajor _ 0x24 .X rfl (by decide) (by decide) rfl fun _ h => by obtain ⟨_, _, k, _⟩ := x0; cases k <;> (cases h; rfl)
theorem vsldn (x0 : SlideF) : Statement (.vsldn x0) :=
  ownMajor _ 0x24 .X rfl (by decide) (by decide) rfl fun _ h => by obtain ⟨_, _, k, _⟩ := x0; cases k <;> (cases h; rfl)
theorem vperm (x0 : V2P) : Statement (.vperm x0) :=
  ownMajor _ 0x24 .X rfl (by decide) (by decide) rfl fun _ h => by cases h; rfl
theorem vxchg (x0 : VxchgF) : Statement (.vxchg x0) :=
  ownMajor _ 0x24 .X rfl (by decide) (by decide) rfl fun _ h => by obtain ⟨_, _, k, _, _⟩ := x0; cases k <;> (cases h; rfl)
theorem vcompress (x0 : RegNo) (x1 : VSrc) (x2 : Pred) : Statement (.vcompress x0 x1 x2) :=
  ownMajor _ 0x25 .X rfl (by decide) (by decide) rfl fun _ h => by cases h; rfl
theorem vexpand (x0 : RegNo) (x1 : VSrc) (x2 : Pred) : Statement (.vexpand x0 x1 x2) :=
  ownMajor _ 0x25 .X rfl (by decide) (by decide) rfl fun _ h => by cases h; rfl
theorem vappend (x0 : Fin 2) (x1 : RegNo) (x2 : Pred) : Statement (.vappend x0 x1 x2) :=
  ownMajor _ 0x25 .X rfl (by decide) (by decide) rfl fun _ h => by cases h; rfl
theorem vred (x0 : VredF) : Statement (.vred x0) :=
  ownMajor _ 0x26 .X rfl (by decide) (by decide) rfl fun _ h => by cases h; rfl
theorem vscan (x0 : VscanF) : Statement (.vscan x0) :=
  ownMajor _ 0x26 .X rfl (by decide) (by decide) rfl fun _ h => by cases h; rfl
theorem vrcp (x0 : V1P) : Statement (.vrcp x0) :=
  ownMajor _ 0x27 .X rfl (by decide) (by decide) rfl fun _ h => by cases h; rfl
theorem vrsq (x0 : V1P) : Statement (.vrsq x0) :=
  ownMajor _ 0x27 .X rfl (by decide) (by decide) rfl fun _ h => by cases h; rfl
theorem vsqrt (x0 : V1P) : Statement (.vsqrt x0) :=
  ownMajor _ 0x27 .X rfl (by decide) (by decide) rfl fun _ h => by cases h; rfl
theorem vex2 (x0 : V1P) : Statement (.vex2 x0) :=
  ownMajor _ 0x27 .X rfl (by decide) (by decide) rfl fun _ h => by cases h; rfl
theorem vlg2 (x0 : V1P) : Statement (.vlg2 x0) :=
  ownMajor _ 0x27 .X rfl (by decide) (by decide) rfl fun _ h => by cases h; rfl
theorem vtanh (x0 : V1P) : Statement (.vtanh x0) :=
  ownMajor _ 0x27 .X rfl (by decide) (by decide) rfl fun _ h => by cases h; rfl
theorem vrng (x0 : RegNo) (x1 : VSrc) (x2 : RegNo) (x3 : Pred) : Statement (.vrng x0 x1 x2 x3) :=
  ownMajor _ 0x28 .X rfl (by decide) (by decide) rfl fun _ h => by cases h; rfl
theorem rng (x0 : RegNo) (x1 : SrcR) (x2 : SrcR) (x3 : Bool) : Statement (.rng x0 x1 x2 x3) := free _ rfl
theorem kcfg (x0 : KcfgF) : Statement (.kcfg x0) :=
  ownMajor _ 0x29 .X rfl (by decide) (by decide) rfl fun _ h => by obtain ⟨k, b, _⟩ := x0; cases k <;> cases b <;> (cases h; rfl)
theorem kmv (x0 : KmvF) : Statement (.kmv x0) :=
  ownMajor _ 0x29 .X rfl (by decide) (by decide) rfl fun _ h => by cases x0 <;> (cases h; rfl)
theorem kput (x0 : KputF) : Statement (.kput x0) :=
  ownMajor _ 0x29 .X rfl (by decide) (by decide) rfl fun _ h => by cases h; rfl
theorem kadj (x0 : KadjF) : Statement (.kadj x0) :=
  ownMajor _ 0x29 .X rfl (by decide) (by decide) rfl fun _ h => by cases h; rfl
theorem vdadd (x0 : VdF) : Statement (.vdadd x0) :=
  ownMajor _ 0x2a .X rfl (by decide) (by decide) rfl fun _ h => by cases h; rfl
theorem vdsub (x0 : VdF) : Statement (.vdsub x0) :=
  ownMajor _ 0x2a .X rfl (by decide) (by decide) rfl fun _ h => by cases h; rfl
theorem vddiff (x0 : VddiffF) : Statement (.vddiff x0) :=
  ownMajor _ 0x2a .X rfl (by decide) (by decide) rfl fun _ h => by obtain ⟨_, _, k, _⟩ := x0; cases k <;> (cases h; rfl)
theorem vdmul (x0 : VdmulF) : Statement (.vdmul x0) :=
  ownMajor _ 0x2a .X rfl (by decide) (by decide) rfl fun _ h => by cases h; rfl
theorem vdscl (x0 : VdsclF) : Statement (.vdscl x0) :=
  ownMajor _ 0x2a .X rfl (by decide) (by decide) rfl fun _ h => by obtain ⟨_, _, k, _⟩ := x0; cases k <;> (cases h; rfl)
theorem reanc (x0 : VdsclF) : Statement (.reanc x0) :=
  ownMajor _ 0x2a .X rfl (by decide) (by decide) rfl fun _ h => by obtain ⟨_, _, k, _⟩ := x0; cases k <;> (cases h; rfl)
theorem vdwide (x0 : V1P) : Statement (.vdwide x0) :=
  ownMajor _ 0x2a .X rfl (by decide) (by decide) rfl fun _ h => by cases h; rfl
theorem vdfrom (x0 : VdfromF) : Statement (.vdfrom x0) :=
  ownMajor _ 0x2a .X rfl (by decide) (by decide) rfl fun _ h => by cases h; rfl
theorem cbld (x0 : CbldF) : Statement (.cbld x0) :=
  own _ .A rfl fun _ h => by cases h; exact ⟨(show (0x2B : Nat) ≠ 0x3E by decide), rfl⟩
theorem cbldComplete (x0 : CoreId) : Statement (.cbldComplete x0) := free _ rfl
theorem cbinv (x0 : Fin 8) (x1 : SrcR) : Statement (.cbinv x0 x1) :=
  own _ .A rfl fun _ h => by cases h; exact ⟨(show (0x2B : Nat) ≠ 0x3E by decide), rfl⟩
theorem cbmode (x0 : Fin 8) (x1 : RegOrImm) : Statement (.cbmode x0 x1) :=
  own _ .A rfl fun _ h => by cases x1 <;> (cases h; exact ⟨(show (0x2B : Nat) ≠ 0x3E by decide), rfl⟩)
theorem cbst (x0 : RegNo) (x1 : Fin 8) : Statement (.cbst x0 x1) :=
  own _ .A rfl fun _ h => by cases h; exact ⟨(show (0x2B : Nat) ≠ 0x3E by decide), rfl⟩
theorem cbx (x0 : V1P) : Statement (.cbx x0) :=
  own _ .X rfl fun _ h => by 
    obtain ⟨_, _, ⟨_, k⟩⟩ := x0
    cases h
    refine ⟨(show (0x2B : Nat) ≠ 0x3E by decide), ?_⟩
    cases k
    · exact (show sideOfOp 0x2B 4 = .X by decide)
    · exact (show sideOfOp 0x2B 20 = .X by decide)
theorem tget (x0 : VDst) (x1 : Fin 8) (x2 : VIdx) : Statement (.tget x0 x1 x2) :=
  ownMajor _ 0x2c .X rfl (by decide) (by decide) rfl fun _ h => by cases x2 <;> (cases h; rfl)
theorem tfill (x0 : Fin 8) (x1 : VIdx) (x2 : VSrc) : Statement (.tfill x0 x1 x2) :=
  ownMajor _ 0x2c .X rfl (by decide) (by decide) rfl fun _ h => by cases x1 <;> (cases h; rfl)
theorem cjoin (x0 : Fin 4) (x1 : CjoinSrc) : Statement (.cjoin x0 x1) :=
  ownMajor _ 0x2d .X rfl (by decide) (by decide) rfl fun _ h => by cases x1 <;> (cases h; rfl)
theorem csend (x0 : Fin 4) (x1 : VSrc) (x2 : Fin 16) : Statement (.csend x0 x1 x2) :=
  ownMajor _ 0x2d .X rfl (by decide) (by decide) rfl fun _ h => by cases h; rfl
theorem crecv (x0 : VDst) (x1 : Fin 4) (x2 : RegNo) : Statement (.crecv x0 x1 x2) :=
  ownMajor _ 0x2d .X rfl (by decide) (by decide) rfl fun _ h => by cases h; rfl
theorem crecvComplete (x0 : CoreId) (x1 : Nat) : Statement (.crecvComplete x0 x1) := free _ rfl
theorem cchoose (x0 : Fin 4) (x1 : Fin 16) : Statement (.cchoose x0 x1) :=
  ownMajor _ 0x2d .X rfl (by decide) (by decide) rfl fun _ h => by cases h; rfl
theorem cdeleg (x0 : Fin 4) (x1 : SrcR) : Statement (.cdeleg x0 x1) :=
  ownMajor _ 0x2d .X rfl (by decide) (by decide) rfl fun _ h => by cases h; rfl
theorem cleave (x0 : Fin 4) : Statement (.cleave x0) :=
  ownMajor _ 0x2d .X rfl (by decide) (by decide) rfl fun _ h => by cases h; rfl
theorem cstate (x0 : RegNo) (x1 : Fin 4) : Statement (.cstate x0 x1) :=
  ownMajor _ 0x2d .X rfl (by decide) (by decide) rfl fun _ h => by cases h; rfl
theorem cprot (x0 : SrcR) (x1 : SrcR) : Statement (.cprot x0 x1) :=
  ownMajor _ 0x2d .X rfl (by decide) (by decide) rfl fun _ h => by cases h; rfl
theorem homeReply (x0 : CoreId) (x1 : Option HomeReply) : Statement (.homeReply x0 x1) := free _ rfl
theorem sendRetry (x0 : CoreId) : Statement (.sendRetry x0) := free _ rfl
theorem homeSend (x0 : Nat) : Statement (.homeSend x0) := free _ rfl
theorem homeJoin (x0 : Nat) : Statement (.homeJoin x0) := free _ rfl
theorem homeDelegate (x0 : Nat) : Statement (.homeDelegate x0) := free _ rfl
theorem homeLeave (x0 : Nat) : Statement (.homeLeave x0) := free _ rfl
theorem homeStateRead (x0 : Nat) : Statement (.homeStateRead x0) := free _ rfl
theorem messageForward (x0 : ForwardF) : Statement (.messageForward x0) := free _ rfl
theorem spawn (x0 : RegNo) : Statement (.spawn x0) := free _ rfl
theorem done : Statement .done := free _ rfl
theorem gbar : Statement .gbar := free _ rfl
theorem gbarComplete (x0 : CoreId) (x1 : Side) : Statement (.gbarComplete x0 x1) := free _ rfl
theorem tid (x0 : RegNo) : Statement (.tid x0) := free _ rfl
theorem dsync : Statement .dsync := free _ rfl
theorem trap (x0 : TrapCode) : Statement (.trap x0) := free _ rfl
theorem eret : Statement .eret := free _ rfl
theorem sget (x0 : RegNo) (x1 : Fin 4096) : Statement (.sget x0 x1) := free _ rfl
theorem sput (x0 : RegNo) (x1 : Fin 4096) : Statement (.sput x0 x1) := free _ rfl
theorem wait (x0 : SrcR) : Statement (.wait x0) := free _ rfl
theorem waitExpire (x0 : CoreId) (x1 : Side) : Statement (.waitExpire x0 x1) := free _ rfl
theorem wkt (x0 : Bool) : Statement (.wkt x0) := free _ rfl
theorem gts (x0 : RegNo) : Statement (.gts x0) := free _ rfl
theorem xinvAll : Statement .xinvAll := free _ rfl
theorem invalidationComplete : Statement .invalidationComplete := free _ rfl
theorem ccinvAll : Statement .ccinvAll := free _ rfl
theorem ccinvComplete : Statement .ccinvComplete := free _ rfl
theorem priTimeout (x0 : Fin 129) (x1 : Nat) : Statement (.priTimeout x0 x1) := free _ rfl
theorem queueEntryDelivered (x0 : CoreId) (x1 : Nat) : Statement (.queueEntryDelivered x0 x1) := free _ rfl
theorem crossPaneWriteApply (x0 : CoreId) (x1 : Nat) : Statement (.crossPaneWriteApply x0 x1) := free _ rfl
theorem peerSilenceTimeout (x0 : Fin 64) : Statement (.peerSilenceTimeout x0) := free _ rfl
theorem peerLostDeclared (x0 : Fin 64) : Statement (.peerLostDeclared x0) := free _ rfl
theorem cardDispatch (x0 : Fin 8) (x1 : Nat) : Statement (.cardDispatch x0 x1) := free _ rfl
theorem chunkCommit (x0 : Fin 8) (x1 : Nat) : Statement (.chunkCommit x0 x1) := free _ rfl
theorem cardFail (x0 : Fin 8) (x1 : Nat) : Statement (.cardFail x0 x1) := free _ rfl
theorem cardComplete (x0 : Fin 8) (x1 : Nat) : Statement (.cardComplete x0 x1) := free _ rfl
theorem intervalClose (x0 : Nat) : Statement (.intervalClose x0) := free _ rfl
theorem mergePartComplete (x0 : Nat) : Statement (.mergePartComplete x0) := free _ rfl
theorem launchFetch (x0 : Fin 129) : Statement (.launchFetch x0) := free _ rfl
theorem launchFetchAttempt (x0 : Fin 129) : Statement (.launchFetchAttempt x0) := free _ rfl
theorem recordPlacement : Statement .recordPlacement := free _ rfl
theorem taskStart (x0 : Nat) : Statement (.taskStart x0) := free _ rfl
theorem preload (x0 : CoreId) : Statement (.preload x0) := free _ rfl
theorem taskEnd (x0 : Nat) : Statement (.taskEnd x0) := free _ rfl
theorem statusRecordWrite (x0 : Nat) : Statement (.statusRecordWrite x0) := free _ rfl
theorem contractAdmit (x0 : Fin 64) : Statement (.contractAdmit x0) := free _ rfl
theorem contractPeriodStart (x0 : Fin 64) : Statement (.contractPeriodStart x0) := free _ rfl
theorem contractOverrun (x0 : Fin 64) : Statement (.contractOverrun x0) := free _ rfl
theorem wicketGrant (x0 : Fin 8) : Statement (.wicketGrant x0) := free _ rfl
theorem contextSave (x0 : Nat) : Statement (.contextSave x0) := free _ rfl
theorem contextRestore (x0 : Nat) (x1 : CoreId) : Statement (.contextRestore x0 x1) := free _ rfl
theorem exitRoutineTimeout (x0 : Nat) : Statement (.exitRoutineTimeout x0) := free _ rfl
theorem watchdog (x0 : Nat) : Statement (.watchdog x0) := free _ rfl
theorem functionResetComplete (x0 : Fin 129) : Statement (.functionResetComplete x0) := free _ rfl
theorem flitTransmit (x0 : Fin 64) (x1 : Bool) : Statement (.flitTransmit x0 x1) := free _ rfl
theorem resendRequest (x0 : Fin 64) : Statement (.resendRequest x0) := free _ rfl
theorem reachHandshakeTimeout (x0 : Fin 64) : Statement (.reachHandshakeTimeout x0) := free _ rfl
theorem wakeComplete (x0 : Channel) : Statement (.wakeComplete x0) := free _ rfl
theorem autoWake (x0 : Fin 64) : Statement (.autoWake x0) := free _ rfl
theorem fabctlRun : Statement .fabctlRun := free _ rfl
theorem fabctlDrain : Statement .fabctlDrain := free _ rfl
theorem fabctlDark : Statement .fabctlDark := free _ rfl
theorem fabctlRelock : Statement .fabctlRelock := free _ rfl
theorem powerOn : Statement .powerOn := free _ rfl
theorem getVersion : Statement .getVersion := free _ rfl
theorem getCapabilities : Statement .getCapabilities := free _ rfl
theorem getDigests : Statement .getDigests := free _ rfl
theorem storePerformed (x0 : CoreId) (x1 : Nat) : Statement (.storePerformed x0 x1) := free _ rfl
theorem correctedError (x0 : CoreId) (x1 : Nat) : Statement (.correctedError x0 x1) := free _ rfl
theorem uncorrectableError (x0 : CoreId) (x1 : Side) (x2 : ErrPlace) (x3 : Bool) (x4 : Nat) : Statement (.uncorrectableError x0 x1 x2 x3 x4) := free _ rfl
theorem laneRetired (x0 : CoreId) (x1 : Fin 8) : Statement (.laneRetired x0 x1) := free _ rfl
theorem functionLevelReset (x0 : Fin 129) : Statement (.functionLevelReset x0) := free _ rfl
theorem conversationOpen (x0 : Fin 16384) (x1 : Word) : Statement (.conversationOpen x0 x1) := free _ rfl
theorem conversationClose (x0 : Fin 16384) : Statement (.conversationClose x0) := free _ rfl
theorem flitReceive (x0 : Fin 64) (x1 : Flit) : Statement (.flitReceive x0 x1) := free _ rfl
theorem flitAcknowledge (x0 : Fin 64) (x1 : Nat) : Statement (.flitAcknowledge x0 x1) := free _ rfl
theorem reachWrite (x0 : Word) : Statement (.reachWrite x0) := free _ rfl
theorem reachHandshakeComplete (x0 : Fin 64) : Statement (.reachHandshakeComplete x0) := free _ rfl
theorem lambdaEnWrite (x0 : Fin 256) (x1 : Word) : Statement (.lambdaEnWrite x0 x1) := free _ rfl
theorem ringMove (x0 : Channel) : Statement (.ringMove x0) := free _ rfl
theorem drainMarkerAck (x0 : Channel) : Statement (.drainMarkerAck x0) := free _ rfl
theorem thermalLimit (x0 : Fin 8) (x1 : Bool) : Statement (.thermalLimit x0 x1) := free _ rfl
theorem thermalShutdown (x0 : Fin 8) : Statement (.thermalShutdown x0) := free _ rfl
theorem negotiateAlgorithms (x0 : AlgOffer) : Statement (.negotiateAlgorithms x0) := free _ rfl
theorem getCertificate (x0 : Nat) (x1 : Nat) (x2 : Nat) : Statement (.getCertificate x0 x1 x2) := free _ rfl
theorem challenge (x0 : List Byte) : Statement (.challenge x0) := free _ rfl
theorem getMeasurements (x0 : List Byte) : Statement (.getMeasurements x0) := free _ rfl
theorem spdmUnsupportedRequest (x0 : Byte) : Statement (.spdmUnsupportedRequest x0) := free _ rfl
theorem atsTranslationCompletion (x0 : Fin 129) (x1 : AtsAns) : Statement (.atsTranslationCompletion x0 x1) := free _ rfl
theorem sriovNumvfsWrite (x0 : Nat) : Statement (.sriovNumvfsWrite x0) := free _ rfl
theorem firmwareUpdate (x0 : MgmtOp) : Statement (.firmwareUpdate x0) := free _ rfl
theorem vlcapWrite (x0 : CoreId) (x1 : Word) : Statement (.vlcapWrite x0 x1) := free _ rfl
theorem laneokWrite (x0 : CoreId) (x1 : Word) : Statement (.laneokWrite x0 x1) := free _ rfl
theorem mstepWrite (x0 : CoreId) (x1 : Word) : Statement (.mstepWrite x0 x1) := free _ rfl
theorem registerWrite (x0 : RegTarget) (x1 : Word) : Statement (.registerWrite x0 x1) := free _ rfl
theorem pageWalkComplete (x0 : Fin 8) (x1 : Fin 256) (x2 : Nat) : Statement (.pageWalkComplete x0 x1 x2) := free _ rfl
theorem xinvRegion (x0 : Fin 256) : Statement (.xinvRegion x0) := free _ rfl
theorem xinvAsid (x0 : Fin 256) : Statement (.xinvAsid x0) := free _ rfl
theorem ccinvAsid (x0 : Fin 256) : Statement (.ccinvAsid x0) := free _ rfl
theorem atsInvalidateRequest (x0 : Fin 129) (x1 : Nat) : Statement (.atsInvalidateRequest x0 x1) := free _ rfl
theorem priResponse (x0 : Fin 129) (x1 : Nat) (x2 : PriAns) : Statement (.priResponse x0 x1 x2) := free _ rfl
theorem peerAccessArrival (x0 : PeerAccess) : Statement (.peerAccessArrival x0) := free _ rfl
theorem peerResponse (x0 : Fin 64) (x1 : Nat) (x2 : PeerAns) : Statement (.peerResponse x0 x1 x2) := free _ rfl
theorem inboundZeroLengthWrite (x0 : Fin 129) : Statement (.inboundZeroLengthWrite x0) := free _ rfl
theorem inboundZeroLengthRead (x0 : Fin 129) : Statement (.inboundZeroLengthRead x0) := free _ rfl
theorem launch (x0 : Fin 129) (x1 : Nat) (x2 : Word) : Statement (.launch x0 x1 x2) := free _ rfl
theorem lwbaseWrite (x0 : Fin 129) (x1 : Word) : Statement (.lwbaseWrite x0 x1) := free _ rfl
theorem lwcntWrite (x0 : Fin 129) (x1 : Word) : Statement (.lwcntWrite x0 x1) := free _ rfl
theorem vstatClear (x0 : Fin 129) (x1 : Word) : Statement (.vstatClear x0 x1) := free _ rfl
theorem bar2Access (x0 : Nat) (x1 : Nat) (x2 : BarOp) : Statement (.bar2Access x0 x1 x2) := free _ rfl
theorem stopRequest (x0 : Nat) (x1 : StopWhy) : Statement (.stopRequest x0 x1) := free _ rfl
theorem remove (x0 : Nat) (x1 : Fin 32) : Statement (.remove x0 x1) := free _ rfl
theorem contractDisable (x0 : Fin 64) : Statement (.contractDisable x0) := free _ rfl

end IssueSide
end Laws
end Sys2Proof
end

