-- ==== Sys2Proof/Tests/Base.lean ====
section
/-!
SUPPORT. Small states for the tests: a core that runs a task of its own, and what the tests put into it.
-/

set_option Elab.async false

namespace Sys2Proof
namespace Tests

open Sys2Proof.Machine

/-- A record of a task of one core. -/
def rec0 : Record := { image := 0x1000, frame := 0, join := 0, taskid := 7, gsize := 1, prio := 0, contract := 0xFF }

/-- A running task on core 0. -/
def task0 : Task :=
  { id := 3, cont := rec0, launch := none, fn := 0, cores := [0], long := false, phase := .running, interval := 0, log := [],
    prefixLog := [], fails := [], started := 1, placedAt := 0, idle := 0, conflict := none, addr := 0, passedBy := none }

/-- Core 0 of a running device issues on a side; its handler is at 0x8000. -/
def on (sd : Side) (f : Core → Core) : State :=
  { State.reset with
    cores := [(0, f { Core.reset with task := some 3, tvec := 0x8000, spResv := 4 })]
    tasks := [task0], nextTask := 4, cur := { core := 0, side := sd }, boot := { BootSt.reset with phase := .running } }

/-- The A-side in the S view, at an address. -/
def atA (pc : Word) (f : Core → Core) : State :=
  on .A fun c => f { c with av := { SideSt.reset with pc := pc, super := true } }

/-- The X-side in the S view, at an address. -/
def atX (pc : Word) (f : Core → Core) : State :=
  on .X fun c => f { c with xv := { SideSt.reset with pc := pc, super := true } }

/-- A scalar register of the A-side set. -/
def setA (r : RegNo) (v : Word) (c : Core) : Core := { c with a := c.a.set r.val v }

/-- A scalar register of the X-side set. -/
def setX (r : RegNo) (v : Word) (c : Core) : Core := { c with s := c.s.set r.val v }

/-- A core of this number. -/
def core0 : CoreId := { pane := 0, idx := 0 }

/-- Address space 0 maps its first GiB by this entry, which stands in DRAM at 0x10000. -/
def mapped (pte : Nat) (s : State) : State :=
  { s.ctlSet 0 (BitVec.ofNat 64 (2 ^ 63 + 0x10000)) with mem := Memory.writeN s.mem 0x10000 (leBytes 8 pte) }

/-- A pending access that nothing has performed yet. -/
def acc0 (id : Nat) (kind : AccKind) (k size : Nat) : Access :=
  { id := id, kind := kind, spans := [(k, size)], ans := [none], sent := [], ofX := false, range := [], super := true, asid := 0, addr := 0,
    snap := none, list := none, late := [], rm := 0 }

/-- Core 0 with pending accesses. -/
def pending (xs : List Access) : State := on .A fun c => { c with pend := xs, nextId := 16 }

/-- A configuration of the matrix engine: 4 planes, sh8 weights, 64 rows. -/
def mcfg0 : MCfg := { p := 4, btag := 0x0B, bank := 0, off := 0, rows := 64 }

/-- A macro-operation that has started. -/
def mop0 : MacroOp :=
  { id := 0, t := 0, a := 0, b := 0, k := 1, cfg := mcfg0, ver := 0, wx := (0, 0), waits := [], granted := true, run := true,
    before := [[0]], chk := none, compat := none }

/-- The word that a step leaves in a register of the issuing side. -/
def out (i : Instr) (s : State) (r : RegNo) : Option Nat :=
  match exec i s with
  | .next t    => some (t.val r).toNat
  | .fault _   => none
  | .refused _ => none

/-- Something of the state that an instruction leaves. -/
def aft (i : Instr) (s : State) (f : State → α) : Option α :=
  match exec i s with
  | .next t    => some (f t)
  | .fault _   => none
  | .refused _ => none

end Tests
end Sys2Proof
end

