-- ==== Sys2Proof/Tests/Slice0.lean ====
section
/-!
SUPPORT. Words written out from the encodings of the spec decode to their instructions; ill-formed terms are refused.
-/

set_option Elab.async false

namespace Sys2Proof
namespace Tests

/-- These words are this instruction, and nothing is left over. -/
def reads (q : List Nat × Instr) : Bool := decode (q.1.flatMap bytesOfWord) == .ok (q.2, 4 * q.1.length)

/-- The predicate ifn m3. -/
def p3 : Pred := { m := 3, pn := true }

/-- Major 0x01 (R229): d = 5, a = 6 with FE, b = 7. -/
theorem test_decode_alu_1 : ([
    ([0x04A63C00], .add { d := 5, a := 6, fa := true, src := .reg 7 false }),
    ([0x04A63C01], .sub { d := 5, a := 6, fa := true, src := .reg 7 false }),
    ([0x04A63C02], .mul { d := 5, a := 6, fa := true, src := .reg 7 false }),
    ([0x04A63A03], .mulh { d := 5, a := 6, fa := false, src := .reg 7 true }),
    ([0x04A63C04], .mulhn { d := 5, a := 6, fa := true, src := .reg 7 false }),
    ([0x04A63C05], .div { d := 5, a := 6, fa := true, src := .reg 7 false }),
    ([0x04A63A06], .divn { d := 5, a := 6, fa := false, src := .reg 7 true }),
    ([0x04A63C07], .rem { d := 5, a := 6, fa := true, src := .reg 7 false }),
    ([0x04A63A08], .remn { d := 5, a := 6, fa := false, src := .reg 7 true }),
    ([0x04A63C09], .and { d := 5, a := 6, fa := true, src := .reg 7 false }),
    ([0x04A63A0A], .or { d := 5, a := 6, fa := false, src := .reg 7 true }),
    ([0x04A63C0B], .xor { d := 5, a := 6, fa := true, src := .reg 7 false })] : List (List Nat × Instr)).all reads = true := by
  decide +kernel

/-- Major 0x01 (R229): d = 5, a = 6 with FE, b = 7. -/
theorem test_decode_alu_2 : ([
    ([0x04A63C0C], .shl { d := 5, a := 6, fa := true, src := .reg 7 false }),
    ([0x04A63C0D], .shr { d := 5, a := 6, fa := true, src := .reg 7 false }),
    ([0x04A63C0E], .sar { d := 5, a := 6, fa := true, src := .reg 7 false }),
    ([0x04A63C0F], .min { d := 5, a := 6, fa := true, src := .reg 7 false }),
    ([0x04A63C10], .max { d := 5, a := 6, fa := true, src := .reg 7 false }),
    ([0x04A63C11], .slt { d := 5, a := 6, fa := true, src := .reg 7 false }),
    ([0x04A63A12], .sltn { d := 5, a := 6, fa := false, src := .reg 7 true }),
    ([0x04A63C13], .seq { d := 5, a := 6, fa := true, src := .reg 7 false }),
    ([0x04A63A14], .cmovnz { d := 5, a := 6, fa := false, src := .reg 7 true }),
    ([0x04A60415], .clz { d := 5, a := 6, fa := true }),
    ([0x04A60416], .ctz { d := 5, a := 6, fa := true }),
    ([0x04A60417], .popc { d := 5, a := 6, fa := true })] : List (List Nat × Instr)).all reads = true := by
  decide +kernel

/-- Major 0x01 (R229): d = 5, a = 6 with FE, b = 7. -/
theorem test_decode_alu_3 : ([
    ([0xF8000000, 0x80000001, 0x04A60001], .sub { d := 5, a := 6, fa := false, src := .imm 0x80000001 })] : List (List Nat × Instr)).all reads = true := by
  decide +kernel

/-- Majors 0x02 to 0x0A (R230 to R232). -/
theorem test_decode_immediates_1 : ([
    ([0x0BE18001], .addi { d := 31, a := 1, imm := .short 0x8001 }),
    ([0x0FE18001], .andi { d := 31, a := 1, imm := .short 0x8001 }),
    ([0x13E18001], .ori { d := 31, a := 1, imm := .short 0x8001 }),
    ([0x17E18001], .xori { d := 31, a := 1, imm := .short 0x8001 }),
    ([0x1FE18001], .slti { d := 31, a := 1, imm := .short 0x8001 }),
    ([0x2120FFFF], .li 9 (.short 0xFFFF)),
    ([0xF8000000, 0xDEADBEEF, 0x21200000], .li 9 (.long 0xDEADBEEF)),
    ([0x25201234], .lih 9 0x1234),
    ([0x1843003F], .shli { d := 2, a := 3, n := 63 }),
    ([0x1843403F], .shri { d := 2, a := 3, n := 63 }),
    ([0x1843803F], .sari { d := 2, a := 3, n := 63 }),
    ([0x28432600], .bfx { d := 2, a := 3, fa := true, src := .reg 4 true })] : List (List Nat × Instr)).all reads = true := by
  decide +kernel

/-- Majors 0x02 to 0x0A (R230 to R232). -/
theorem test_decode_immediates_2 : ([
    ([0x28432601], .bfxs { d := 2, a := 3, fa := true, src := .reg 4 true }),
    ([0x28432602], .bfi { d := 2, a := 3, fa := true, src := .reg 4 true }),
    ([0x28432603], .fsh { d := 2, a := 3, fa := true, src := .reg 4 true })] : List (List Nat × Instr)).all reads = true := by
  decide +kernel

/-- Transfers, loops, trap and task words (R137, R233 to R235, R330 to R343). -/
theorem test_decode_transfers_1 : ([
    ([0x2C200001], .br (.short 0x200001)),
    ([0x38000001], .call (.short 1)),
    ([0x30087FFF], .bz 8 (.short 0x7FFF)),
    ([0x34087FFF], .bnz 8 (.short 0x7FFF)),
    ([0x3C000000], .ret),
    ([0x3C080401], .jr { r := 8, fe := true }),
    ([0xF8000000, 0x0000000C, 0x40080400], .loop { r := 8, fe := true } 12),
    ([0x4100F801], .lidx 8 31),
    ([0x40000002], .lbrk),
    ([0x44000000], .nop),
    ([0xB8040000], .spawn 4),
    ([0xB8000001], .done)] : List (List Nat × Instr)).all reads = true := by
  decide +kernel

/-- Transfers, loops, trap and task words (R137, R233 to R235, R330 to R343). -/
theorem test_decode_transfers_2 : ([
    ([0xB8000002], .gbar),
    ([0xB8800003], .tid 4),
    ([0xB8000004], .dsync),
    ([0xBC1FF800], .trap (.short 0x3FF)),
    ([0xBC000001], .eret),
    ([0xBC9FFE02], .sget 4 0xFFF),
    ([0xBC900203], .sput 4 0x801),
    ([0xBC040404], .wait { r := 4, fe := true }),
    ([0xBC000805], .wkt true),
    ([0xBC000005], .wkt false),
    ([0xBC800006], .gts 4)] : List (List Nat × Instr)).all reads = true := by
  decide +kernel

/-- Scalar accesses, queue loads and stores (R236 to R259, R90, R106, R69, R70). -/
theorem test_decode_accesses_1 : ([
    ([0x48220006], .ld { d := 1, a := { r := 2, fe := false }, addr := .base, sz := 2, sx := true }),
    ([0x48221E0B], .ld { d := 1, a := { r := 2, fe := true }, addr := .index { r := 3, fe := true }, sz := 3, sx := false }),
    ([0xF8000000, 0xFFFFFFF8, 0x4C220003], .st { d := 1, a := { r := 2, fe := false }, addr := .off 0xFFFFFFF8, sz := 3 }),
    ([0x50021808], .pref { r := 2, fe := false } (.index { r := 3, fe := false })),
    ([0x5462041C], .ldq { q := 3, a := { r := 2, fe := true }, tc := 7, ext := none }),
    ([0x54421C05], .ldqs { q := 2, a := { r := 2, fe := true }, b := { r := 3, fe := false }, tc := 1, ext := none }),
    ([0x54421C06], .ldqx { q := 2, a := { r := 2, fe := true }, b := { r := 3, fe := false }, tc := 1, ext := none }),
    ([0x54221C07], .ldab { q := 1, a := { r := 2, fe := true }, b := { r := 3, fe := false }, wide := true }),
    ([0x58220400], .stq { q := 1, a := { r := 2, fe := true }, ext := none }),
    ([0x58220408], .stqApp 1 { r := 2, fe := true }),
    ([0x58021C01], .stqs { q := 0, a := { r := 2, fe := true }, b := { r := 3, fe := false }, ext := none }),
    ([0x58021C02], .stqx { q := 0, a := { r := 2, fe := true }, b := { r := 3, fe := false }, ext := none })] : List (List Nat × Instr)).all reads = true := by
  decide +kernel

/-- Scalar accesses, queue loads and stores (R236 to R259, R90, R106, R69, R70). -/
theorem test_decode_accesses_2 : ([
    ([0x58221C03], .stqp { q := 1, a := { r := 2, fe := true }, b := { r := 3, fe := false } }),
    ([0x58221C0C], .stab { q := 1, a := { r := 2, fe := true }, b := { r := 3, fe := false }, wide := true }),
    ([0x60000000], .fence 0),
    ([0x60000001], .fence 1),
    ([0x60000002], .fence 2),
    ([0x60000003], .fence 3),
    ([0x60C00004], .fenceSys 6),
    ([0x60C0000C], .fenceSysT 6),
    ([0x64021C00], .arm { r := 2, fe := true } { r := 3, fe := false }),
    ([0x64021C01], .arrive { r := 2, fe := true } { r := 3, fe := false }),
    ([0x65221C02], .await 9 { r := 2, fe := true } { r := 3, fe := false }),
    ([0x692205E0], .vsetl 9 { r := 2, fe := true } 15)] : List (List Nat × Instr)).all reads = true := by
  decide +kernel

/-- Scalar accesses, queue loads and stores (R236 to R259, R90, R106, R69, R70). -/
theorem test_decode_accesses_3 : ([
    ([0x68020401], .spcfg { r := 2, fe := true }),
    ([0x6C020000], .cpy 2),
    ([0x6C020001], .xform 2),
    ([0xF888000F, 0xFFFFFFFC, 0x5D221C60], .amo { d := 9, a := { r := 2, fe := true }, b := { r := 3, fe := false }, scope := .dev, off := 0xFFFFFFFC, c := 4, tg := 8, op := .cas, acq := true, rel := false, det := false }),
    ([0xF8000014, 0x00000000, 0x5C221A81], .amoqx { q := 1, a := { r := 2, fe := false }, b := { r := 3, fe := true }, scope := .sys, tg := 0, op := .min, acq := false, rel := true })] : List (List Nat × Instr)).all reads = true := by
  decide +kernel

/-- Matrix commands (R307, R308, R313, R316). -/
theorem test_decode_matrix : ([
    ([0x70020400], .mcfg (.reg { r := 2, fe := true })),
    ([0x70020408], .mcfgD (.reg { r := 2, fe := true })),
    ([0x70020402], .mzero (.reg { r := 2, fe := true })),
    ([0x70020403], .mlive (.reg { r := 2, fe := true })),
    ([0xF8000000, 0x00091AC4, 0x70000000], .mcfg (.imm 0x91AC4)),
    ([0x70821CE1], .mmp { t := 7, a := { r := 2, fe := true }, b := { r := 3, fe := false }, k := .reg 4 }),
    ([0xF8000000, 0x00002000, 0x70021821], .mmp { t := 1, a := { r := 2, fe := false }, b := { r := 3, fe := false }, k := .imm 8192 }),
    ([0x70020404], .mchk { r := 2, fe := true } none),
    ([0x704204E5], .mdrain { q := 2, t := 7, spec := .reg { r := 2, fe := true } })] : List (List Nat × Instr)).all reads = true := by
  decide +kernel

/-- Vector shapes, moves and spills (R142, R265 to R267). -/
theorem test_decode_vector_moves_1 : ([
    ([0x74600000], .vcfg 3),
    ([0x74F20001], .vtag 7 18),
    ([0x74E00002], .vgetl 7),
    ([0x74E82803], .vsetlx 7 8 5),
    ([0x78220670], .vmv { d := .sq 1, a := .reg 2, p := p3 }),
    ([0x78830A00], .vmvH 4 3),
    ([0x78290601], .vpush 1 9),
    ([0x78290E01], .vpushH 1 9),
    ([0x78804872], .vbc (.reg 4) 9 p3 none),
    ([0xF8080000, 0x00000000, 0x78204E02], .vbc (.sq 1) 9 Pred.none (some 8)),
    ([0x78800003], .vid (.reg 4) none),
    ([0x78834A04], .vext 4 (.lq 3) (.reg 9))] : List (List Nat × Instr)).all reads = true := by
  decide +kernel

/-- Vector shapes, moves and spills (R142, R265 to R267). -/
theorem test_decode_vector_moves_2 : ([
    ([0x78854805], .vins 4 5 (.reg 9))] : List (List Nat × Instr)).all reads = true := by
  decide +kernel

/-- Majors 0x1F to 0x21 (R263, R264, R268, R269, R271): each queue select, and the fields of the prefix. -/
theorem test_decode_vector_arithmetic_1 : ([
    ([0x7C231070], .vadd { d := .reg 1, a := .reg 3, b := .reg 2, p := p3, ext := none }),
    ([0x7C231271], .vsub { d := .reg 1, a := .lq 3, b := .reg 2, p := p3, ext := none }),
    ([0x7C231472], .vmul { d := .reg 1, a := .reg 3, b := .lq 2, p := p3, ext := none }),
    ([0x7C231673], .vmulh { d := .sq 1, a := .reg 3, b := .reg 2, p := p3, ext := none }),
    ([0x7C231075], .vdiv { d := .reg 1, a := .reg 3, b := .reg 2, p := p3, ext := none }),
    ([0x7C231276], .vmin { d := .reg 1, a := .lq 3, b := .reg 2, p := p3, ext := none }),
    ([0x7C231477], .vmax { d := .reg 1, a := .reg 3, b := .lq 2, p := p3, ext := none }),
    ([0x80231672], .vand { d := .sq 1, a := .reg 3, b := .reg 2, p := p3, ext := none }),
    ([0x80231073], .vor { d := .reg 1, a := .reg 3, b := .reg 2, p := p3, ext := none }),
    ([0x80231274], .vxor { d := .reg 1, a := .lq 3, b := .reg 2, p := p3, ext := none }),
    ([0x80231476], .vshl { d := .reg 1, a := .reg 3, b := .lq 2, p := p3, ext := none }),
    ([0x80231677], .vshr { d := .sq 1, a := .reg 3, b := .reg 2, p := p3, ext := none })] : List (List Nat × Instr)).all reads = true := by
  decide +kernel

/-- Majors 0x1F to 0x21 (R263, R264, R268, R269, R271): each queue select, and the fields of the prefix. -/
theorem test_decode_vector_arithmetic_2 : ([
    ([0x80231078], .vsar { d := .reg 1, a := .reg 3, b := .reg 2, p := p3, ext := none }),
    ([0x80830260], .vabs { d := .reg 4, a := .lq 3, p := { m := 3, pn := false }, ext := none }),
    ([0x80830261], .vneg { d := .reg 4, a := .lq 3, p := { m := 3, pn := false }, ext := none }),
    ([0x80830265], .vnot { d := .reg 4, a := .lq 3, p := { m := 3, pn := false }, ext := none }),
    ([0x7C831474], .vfma { d := .reg 4, a := .reg 3, b := .lq 2, p := p3, ext := none }),
    ([0xFAACA003, 0x00000000, 0x7C234E74], .vfma { d := .sq 1, a := .reg 3, b := .scal 9, p := p3, ext := some ({ tg := 12, ms := 10, sat := true }, 21) }),
    ([0xF8026003, 0x00000000, 0x7C612000], .vadd { d := .reg 3, a := .reg 1, b := .scal 4, p := Pred.none, ext := some { tg := 2, ms := 6, sat := true } }),
    ([0xF8025005, 0x00000000, 0x84823870], .vcvt { d := .reg 4, a := .reg 2, p := p3, tg := 2, ms := 5, rnd := 5, vr := some (.reg 7) })] : List (List Nat × Instr)).all reads = true := by
  decide +kernel

/-- Compares, masks, selections, slides, folds and special functions (R272 to R284). -/
theorem test_decode_vector_masks_1 : ([
    ([0xF8000032, 0x00000000, 0x89223870], .vcmp { d := 9, a := .reg 2, b := .scal 7, p := p3, cond := 2, sig := true }),
    ([0x88831071], .vsel { d := .reg 4, a := .reg 3, b := .reg 2, p := p3 }),
    ([0x8C227800], .mand 1 2 15),
    ([0x8C227801], .mor 1 2 15),
    ([0x8C227802], .mxor 1 2 15),
    ([0x8C2F0003], .mnot 1 15),
    ([0x8FEF0004], .mpop 31 15),
    ([0x8FEF0005], .mfirst 31 15),
    ([0x90831270], .vslup { d := .reg 4, a := .lq 3, k := .reg 2, p := p3 }),
    ([0x90831271], .vsldn { d := .reg 4, a := .lq 3, k := .reg 2, p := p3 }),
    ([0x90831472], .vperm { d := .reg 4, a := .reg 3, b := .lq 2, p := p3 }),
    ([0x90831073], .vxchg { d := .reg 4, a := .reg 3, k := .reg 2, rot := false, p := p3 })] : List (List Nat × Instr)).all reads = true := by
  decide +kernel

/-- Compares, masks, selections, slides, folds and special functions (R272 to R284). -/
theorem test_decode_vector_masks_2 : ([
    ([0x94830270], .vcompress 4 (.lq 3) p3),
    ([0x94830271], .vexpand 4 (.lq 3) p3),
    ([0x94230672], .vappend 1 3 p3),
    ([0xF8057028, 0x00000000, 0x98823870], .vred { d := 4, a := .reg 2, p := p3, x := { op := 0, sat := true, init := some 7, tg := 5, ms := 7 } }),
    ([0xF8000012, 0x00000000, 0x98220671], .vscan { d := .sq 1, a := .reg 2, p := p3, x := { op := 2, sat := false, init := none, tg := 0, ms := 0 }, excl := true }),
    ([0x9C830270], .vrcp { d := .reg 4, a := .lq 3, p := p3 }),
    ([0x9C830271], .vrsq { d := .reg 4, a := .lq 3, p := p3 }),
    ([0x9C830272], .vsqrt { d := .reg 4, a := .lq 3, p := p3 }),
    ([0x9C830273], .vex2 { d := .reg 4, a := .lq 3, p := p3 }),
    ([0x9C830274], .vlg2 { d := .reg 4, a := .lq 3, p := p3 }),
    ([0x9C830275], .vtanh { d := .reg 4, a := .lq 3, p := p3 }),
    ([0xA083EA70], .vrng 4 (.lq 3) 29 p3)] : List (List Nat × Instr)).all reads = true := by
  decide +kernel

/-- Compares, masks, selections, slides, folds and special functions (R272 to R284). -/
theorem test_decode_vector_masks_3 : ([
    ([0xA083EC21], .rng 4 { r := 3, fe := true } { r := 29, fe := false } true)] : List (List Nat × Instr)).all reads = true := by
  decide +kernel

/-- Major 0x29 and 0x2A (R287 to R298). -/
theorem test_decode_anchors_1 : ([
    ([0xA46F3000], .kcfg { t := .vreg 3, k := .anchor 15 6, ext := false }),
    ([0xF800001F, 0x00000000, 0xA4674000], .kcfg { t := .lq 3, k := .codebook 7 15, ext := true }),
    ([0xA5EE0001], .kmv (.copy 15 14)),
    ([0xA42E0601], .kmv (.push 1 14)),
    ([0xA5E32002], .kput { d := 15, a := 3, b := 4, slot := none }),
    ([0xF8000000, 0x000000FF, 0xA5E32002], .kput { d := 15, a := 3, b := 4, slot := some 255 }),
    ([0xA4224873], .kadj { d := 1, a := 2, b := 9, p := p3 }),
    ([0xA8231670], .vdadd { d := .sq 1, a := .reg 3, b := .reg 2, p := p3, ext := none }),
    ([0xA8231671], .vdsub { d := .sq 1, a := .reg 3, b := .reg 2, p := p3, ext := none }),
    ([0xA8831272], .vddiff { d := .reg 4, a := .lq 3, k := .reg 2, p := p3 }),
    ([0xA8831473], .vdmul { d := 4, a := .reg 3, b := .lq 2, p := p3 }),
    ([0xA8831274], .vdscl { d := 4, a := .lq 3, k := .reg 2, p := p3 })] : List (List Nat × Instr)).all reads = true := by
  decide +kernel

/-- Major 0x29 and 0x2A (R287 to R298). -/
theorem test_decode_anchors_2 : ([
    ([0xA8831275], .reanc { d := 4, a := .lq 3, k := .reg 2, p := p3 }),
    ([0xF8116003, 0xFFFFFFF1, 0xA8830074], .vdscl { d := 4, a := .reg 3, k := .imm 0xFFFFFFF1 { tg := 17, ms := 6, sat := true } true, p := p3 }),
    ([0xA8830276], .vdwide { d := .reg 4, a := .lq 3, p := p3 }),
    ([0xA8830277], .vdfrom { d := 4, a := .lq 3, p := p3, ext := none })] : List (List Nat × Instr)).all reads = true := by
  decide +kernel

/-- Codebooks, tiles and conversations (R301 to R326). -/
theorem test_decode_codebooks_1 : ([
    ([0xACE20400], .cbld { cb := 7, a := { r := 2, fe := true }, off := none }),
    ([0xACE20401], .cbinv 7 { r := 2, fe := true }),
    ([0xACE20402], .cbmode 7 (.reg { r := 2, fe := true })),
    ([0xAFE03803], .cbst 31 7),
    ([0xAC830274], .cbx { d := .reg 4, a := .lq 3, p := p3 }),
    ([0xB0274E00], .tget (.sq 1) 7 (.reg 9)),
    ([0xB0E91401], .tfill 7 (.reg 9) (.lq 2)),
    ([0xB4622400], .cjoin 3 (.regs { r := 2, fe := true } { r := 4, fe := false })),
    ([0xF8000000, 0x00F00001, 0xB4600000], .cjoin 3 (.imm 0xF00001)),
    ([0xB4627A01], .csend 3 (.lq 2) 15),
    ([0xB4234E02], .crecv (.sq 1) 3 9),
    ([0xB4607803], .cchoose 3 15)] : List (List Nat × Instr)).all reads = true := by
  decide +kernel

/-- Codebooks, tiles and conversations (R301 to R326). -/
theorem test_decode_codebooks_2 : ([
    ([0xB4620404], .cdeleg 3 { r := 2, fe := true }),
    ([0xB4600005], .cleave 3),
    ([0xB7E30006], .cstate 31 3),
    ([0xB4022407], .cprot { r := 2, fe := true } { r := 4, fe := false })] : List (List Nat × Instr)).all reads = true := by
  decide +kernel

/-- Words that are no instruction, each refused by its name (R213 to R219). -/
theorem test_decode_refusals : ([
    ([0x00000000], .fixedWord), ([0xFFFFFFFF], .fixedWord),
    ([0xC0000000], .major), ([0x04000018], .selector), ([0x7C00000B], .selector),
    -- a bit above the role number, a bit of an unused field, an immediate that must be zero under a prefix
    ([0xB4800005], .reserved), ([0x3C000002], .selector), ([0xF8000000, 1, 0x08000001], .reserved),
    -- QS 2 where b is no source, bits above a queue number, ifn m0
    ([0x78000400], .queue), ([0x78040200], .reserved), ([0x78000010], .queue),
    ([0x5C000000], .needsExt), ([0x98000000], .needsExt), ([0xF8000000, 0, 0x44000000], .noExt),
    ([0xF8000000, 0, 0xF8000000], .extTwice), ([0xF8000000, 0], .short)]
    : List (List Nat × Reject)).all (fun q => decode (q.1.flatMap bytesOfWord) == .error q.2) = true := by
  decide +kernel

def m0n : Pred := { m := 0, pn := true }
def va : VSrc := .reg 1
def qa : VSrc := .lq 1
def vd : VDst := .reg 2
def qd : VDst := .sq 1
def rr : SrcR := { r := 1, fe := false }
def ax (sat : Bool) : Option ArithX := some { tg := 0, ms := 0, sat := sat }
def fx : FoldX := { op := 0, sat := false, init := none, tg := 0, ms := 0 }

/-- One ill-formed term for each check of well-formedness; the check refuses it. -/
theorem test_ill_formed_terms : ([
    -- reserved bits of a field spec, a count of 64
    .bfx { d := 1, a := 2, fa := false, src := .imm 0x8000 }, .bfxs { d := 1, a := 2, fa := false, src := .imm 0x40 },
    .bfi { d := 1, a := 2, fa := false, src := .imm 0x80 }, .fsh { d := 1, a := 2, fa := false, src := .imm 64 },
    -- accesses: SZ 3 with S, a tag beside a tag code, a compare register without cas, cas in amoqx
    .ld { d := 1, a := rr, addr := .base, sz := 3, sx := true }, .ldq { q := 0, a := rr, tc := 1, ext := some { off := 0, tg := 5, scl := 0 } },
    .ldqs { q := 0, a := rr, b := rr, tc := 1, ext := some 5 }, .ldqx { q := 0, a := rr, b := rr, tc := 1, ext := some 5 },
    .amo { d := 1, a := rr, b := rr, scope := .pane, off := 0, c := 3, tg := 0, op := .add, acq := false, rel := false, det := false },
    .amoqx { q := 0, a := rr, b := rr, scope := .pane, tg := 0, op := .cas, acq := false, rel := false },
    -- ifn m0
    .vmv { d := vd, a := va, p := m0n }, .vbc vd 1 m0n none, .vadd { d := vd, a := va, b := .reg 1, p := m0n, ext := none },
    .vabs { d := vd, a := va, p := m0n, ext := none }, .vfma { d := vd, a := va, b := .reg 1, p := m0n, ext := none },
    .vcvt { d := vd, a := va, p := m0n, tg := 2, ms := 0, rnd := 0, vr := none }, .vcmp { d := 1, a := va, b := .reg 1, p := m0n, cond := 0, sig := false },
    .vsel { d := vd, a := va, b := va, p := m0n }, .vslup { d := vd, a := va, k := .reg 1, p := m0n }, .vperm { d := vd, a := va, b := va, p := m0n },
    .vxchg { d := vd, a := va, k := .reg 1, rot := false, p := m0n }, .vcompress 1 va m0n, .vexpand 1 va m0n, .vappend 0 1 m0n,
    .vred { d := 1, a := va, p := m0n, x := fx }, .vscan { d := vd, a := va, p := m0n, x := fx, excl := false }, .vrcp { d := vd, a := va, p := m0n },
    .vrng 2 va 1 m0n, .kadj { d := 1, a := 1, b := 1, p := m0n }, .vdadd { d := vd, a := va, b := va, p := m0n, ext := none },
    .vddiff { d := vd, a := va, k := .reg 1, p := m0n }, .vdmul { d := 4, a := va, b := va, p := m0n }, .vdscl { d := 1, a := va, k := .reg 1, p := m0n },
    .vdfrom { d := 1, a := va, p := m0n, ext := none }, .cbx { d := vd, a := va, p := m0n }, .vdwide { d := vd, a := va, p := m0n },
    -- two queues
    .vmv { d := qd, a := qa, p := Pred.none }, .vadd { d := vd, a := qa, b := .lq 2, p := Pred.none, ext := none },
    .vfma { d := qd, a := qa, b := .reg 1, p := Pred.none, ext := ax false |>.map fun x => (x, 1) }, .vabs { d := qd, a := qa, p := Pred.none, ext := none },
    .vcvt { d := qd, a := va, p := Pred.none, tg := 2, ms := 0, rnd := 5, vr := some qa }, .vcmp { d := 1, a := qa, b := .lq 2, p := Pred.none, cond := 0, sig := false },
    .vsel { d := qd, a := va, b := qa, p := Pred.none }, .vslup { d := qd, a := qa, k := .reg 1, p := Pred.none },
    .vxchg { d := qd, a := qa, k := .imm 1, rot := true, p := Pred.none }, .vscan { d := qd, a := qa, p := Pred.none, x := fx, excl := false },
    .vdadd { d := qd, a := qa, b := va, p := Pred.none, ext := none }, .vddiff { d := qd, a := qa, k := .reg 1, p := Pred.none },
    .vdmul { d := 4, a := qa, b := .lq 2, p := Pred.none },
    -- SAT where there is none, a scalar or a queue in the short form, a random vector without stochastic rounding and the reverse
    .vmulh { d := vd, a := va, b := .reg 1, p := Pred.none, ext := ax true }, .vnot { d := vd, a := va, p := Pred.none, ext := ax true },
    .vadd { d := vd, a := va, b := .scal 1, p := Pred.none, ext := none }, .vfma { d := vd, a := va, b := .scal 1, p := Pred.none, ext := none },
    .vfma { d := qd, a := va, b := .reg 1, p := Pred.none, ext := none }, .vcvt { d := vd, a := va, p := Pred.none, tg := 2, ms := 0, rnd := 5, vr := none },
    .vcvt { d := vd, a := va, p := Pred.none, tg := 2, ms := 0, rnd := 0, vr := some va },
    -- what stands in the extended form only, RND outside vdscl, bits above an immediate operand
    .vxchg { d := vd, a := va, k := .reg 1, rot := true, p := Pred.none }, .kcfg { t := .lq 0, k := .none, ext := false },
    .kcfg { t := .vreg 0, k := .codebook 0 0, ext := false }, .reanc { d := 1, a := va, k := .imm 0 { tg := 0, ms := 0, sat := false } true, p := Pred.none },
    .cjoin 0 (.imm 0x1000000), .trap (.long 0x10000000)]
    : List Instr).all (fun i => !i.wf) = true := by
  decide +kernel

end Tests
end Sys2Proof
end

