-- ==== Sys2Proof/Tests/WitnessVector.lean ====
section
/-!
SUPPORT. Witnesses for the statements about vector shapes, masks, moves, spills and integer arithmetic.
-/

set_option Elab.async false

namespace Sys2Proof
namespace Tests

open Sys2Proof.Machine

/-- A vector register of a tag that holds elements, all valid. -/
def vreg (tag : Fin 32) (es : List Word) : VReg :=
  { tag := tag, mark := es.length, elems := es, valid := es.map fun _ => true, vers := 0, bind := .none }

/-- The X-side with a length, vector registers 1 and 2, and a change of its core. -/
def lanes (n : Nat) (v1 v2 : VReg) (f : Core → Core) : State :=
  on .X fun c => f { c with xv := { c.xv with vl := BitVec.ofNat 32 n, pc := 0x40 }, vregs := (c.vregs.set 1 v1).set 2 v2 }

/-- Two i32 registers of two elements. -/
def pair (a b c d : Word) : State := lanes 2 (vreg 4 [a, b]) (vreg 4 [c, d]) id

theorem atVector : (pair 1 2 3 4).AtVector (.reg 3) ∧ (pair 1 2 3 4).AtVector (.sq 1) := by
  refine ⟨⟨rfl, ?_, ?_⟩, rfl, ?_, ?_⟩ <;> decide +kernel

theorem readsPair : (pair 1 2 3 4).ReadsAll 2 (.reg 1) ((pair 1 2 3 4).readReg 1 2) ∧
    (pair 1 2 3 4).ReadsAll 2 (.reg 2) ((pair 1 2 3 4).readReg 2 2) := by
  refine ⟨⟨⟨?_, ?_⟩, ?_, ?_⟩, ⟨?_, ?_⟩, ?_, ?_⟩ <;> decide +kernel

theorem test_witness_results : (pair 1 2 3 4).isLong 0 = false ∧ 1 < 2 ∧ 1 < (pair 1 2 3 4).me.capW (tagW 4) ∧
    (pair 1 2 3 4).members.Nodup ∧ (pair 1 2 3 4).cur.core ∈ (pair 1 2 3 4).members ∧ (pair 1 2 3 4).cur.side = .X ∧
    (pair 1 2 3 4).AtVector (.reg 3) ∧ (pair 1 2 3 4).ReadsAll 2 (.reg 1) ((pair 1 2 3 4).readReg 1 2) := by
  refine ⟨?_, ?_, ?_, ?_, ?_, rfl, atVector.1, readsPair.1⟩ <;> decide +kernel

/-- Two cores of a LONG gang, with a token for each. -/
def duo (f g : Core → Core) : State :=
  { pair 1 2 3 4 with
    cores := [(0, f { (pair 1 2 3 4).me with gsize := 2 }), (1, g { (pair 1 2 3 4).me with gsize := 2, gpos := 1 })]
    tasks := [{ task0 with cores := [0, 1], long := true, cont := { rec0 with gsize := 2 } }] }

/-- A slide over its own source that a stop found in flight after 64 elements, with a copy of the register it replaces; a compress after
64 elements of which 3 were active. -/
theorem test_witness_in_flight :
    let f : InFlight := { InFlight.none with idx := 64, run := some 3, old := some (1, [vreg 4 [5, 6]]) }
    let s := lanes 2 (vreg 4 [1, 2]) (vreg 4 [3, 4]) fun c => { c with flight := [f] }
    s.isLong s.cur.core = false ∧ s.inFlight = some f ∧ 1 < s.me.capW (tagW 4) ∧ s.resumeAt = 64 ∧ s.resumeVal.toNat ≤ s.resumeAt ∧
    s.resumeAt ≤ 300 ∧ (s.readReg 1 2).bits = [5, 6] ∧ (s.readReg 2 2).bits = [3, 4] ∧ s.packedAt 300 = 3 := by
  decide +kernel

/-- Where each element of a two-core gang stands: the last of the first slice and the first of the second. -/
theorem test_witness_slices : (let s := duo id id
    s.slices 32 1025 = [(0, 0, 1024), (1, 1024, 1)] ∧ 1023 < (s.core 0).capW 32 ∧ 0 < (s.core 1).capW 32 ∧
    s.members.Nodup ∧ s.cur.core ∈ s.members) := by
  decide +kernel

/-- A core without a lane group has no VLMAX; one with all of them has its shape's, or its VLCAP. -/
theorem test_witness_shape_max : ShapeMax 512 { Core.reset with lanes := 0 } 0 ∧ ShapeMax 512 Core.reset 512 ∧
    ShapeMax 4096 { Core.reset with vlcap := 64 } 64 ∧ ShapeMax 512 { Core.reset with lanes := 0x7F } 256 :=
  ⟨⟨0, by decide +kernel, fun _ => rfl, fun h => absurd h (by decide)⟩, ⟨8, by decide +kernel, by decide, fun _ => ⟨9, by decide +kernel⟩⟩,
   ⟨8, by decide +kernel, by decide, fun _ => ⟨12, by decide +kernel⟩⟩, 7, by decide +kernel, by decide, fun _ => ⟨8, by decide +kernel⟩⟩

/-- vcfg and vtag: a shape, a tag that is known, and the least and greatest tags that are not. -/
theorem test_witness_shapes : (pair 1 2 3 4).me.crecvs = [] ∧ (pair 1 2 3 4).members.Nodup ∧ (0 : Nat) ∈ (pair 1 2 3 4).members ∧
    (1 : RegNo).val < (pair 1 2 3 4).me.vnreg ∧ (pair 1 2 3 4).me.awaits (.reg 1) = false ∧ tagOk 0x12 = true ∧
    (0x12 : Nat) < (0x13 : Fin 32).val ∧ (pair 1 2 3 4).CanTrap := by
  refine ⟨rfl, ?_, ?_, ?_, ?_, ?_, ?_, rfl, by decide, rfl, rfl⟩ <;> decide +kernel

/-- vsetlx with its least and greatest width and a reserved one; vgetl with a token, without one, and with one that is too long. -/
theorem test_witness_lengths : (pair 1 2 3 4).Has 5 ∧ (1 ≤ (1 : Fin 32).val ∧ (5 : Fin 32).val ≤ 5) ∧ 5 < (6 : Fin 32).val ∧
    (let k : Token := { id := 0, vl := 2, w := 64, base := 0 }
     let s := lanes 2 (vreg 4 []) (vreg 4 []) fun c => { c with cq := [k] }
     s.members.map (fun g => (s.core g).cq.head?) = [k].map some ∧ (∀ x ∈ [k], x.vl.toNat ≤ s.me.vlmax * 64 / 64) ∧
     isPrefix (s.sliceLen 64) ([k].map fun x => x.vl.toNat) = true) ∧
    (pair 1 2 3 4).me.cq = [] ∧
    (let k : Token := { id := 0, vl := 513, w := 64, base := 0 }
     let s := lanes 2 (vreg 4 []) (vreg 4 []) fun c => { c with cq := [k] }
     s.members.map (fun g => (s.core g).cq.head?) = [k].map some ∧ [k] = [] ++ k :: [] ∧ s.me.vlmax * 64 / k.w < k.vl.toNat) ∧
    (let k : Token := { id := 0, vl := 1, w := 64, base := 0 }
     let s := duo (fun c => { c with cq := [k] }) (fun c => { c with cq := [k] })
     s.members.map (fun g => (s.core g).cq.head?) = [k, k].map some ∧ (∀ x ∈ [k, k], x.vl.toNat ≤ s.me.vlmax * 64 / 64) ∧
     isPrefix (s.sliceLen 64) ([k, k].map fun x => x.vl.toNat) = false ∧ s.me.cq ≠ [] ∧ (s.core 1).cq.drop 1 = []) ∧
    (duo id id).CanTrap := by
  refine ⟨rfl, ?_, ?_, ?_, rfl, ?_, ?_, rfl, ?_, rfl, rfl⟩ <;> decide +kernel

/-- Masks: mfirst finds no element, and one. -/
theorem test_witness_masks : (pair 1 2 3 4).AtLaneScalar 5 ∧ (∀ e, e < (pair 1 2 3 4).vl → (pair 1 2 3 4).me.maskBit 1 e = false) ∧
    (let s := lanes 2 (vreg 4 []) (vreg 4 []) fun c => { c with masks := c.masks.set 1 2 }
     1 < s.vl ∧ s.me.maskBit 1 1 = true ∧ ∀ k, k < 1 → s.me.maskBit 1 k = false) := by
  refine ⟨⟨rfl, rfl⟩, ?_, ?_⟩ <;> decide +kernel

/-- Moves: sources of one tag, a length, a shift by 0 and by the whole length, a scalar, and tags to build. -/
theorem test_witness_moves : (pair 1 2 3 4).resumeAt = 0 ∧ (pair 1 2 3 4).isActive Pred.none 0 = true ∧ (pair 1 2 3 4).vlen (VSrc.reg 1).queue = .ok 2 ∧ (pair 1 2 3 4).vlen (pickQ (VSrc.reg 1).queue (VSrc.reg 2).queue) = .ok 2 ∧
    ((pair 1 2 3 4).readReg 1 2).tag = ((pair 1 2 3 4).readReg 2 2).tag ∧ isInt ((pair 1 2 3 4).readReg 2 2).tag = true ∧
    (pair 1 2 3 4).vidxZ (.imm 0) = .ok 0 ∧ (pair 1 2 3 4).vidxZ (.imm 2) = .ok 2 ∧ (pair 1 2 3 4).Has 6 ∧
    (tagOk tI64 = true ∧ isCx tI64 = false ∧ isInt tN32 = true) ∧ (pair 1 2 3 4).me.gsize ≤ 1 ∧ (pair 1 2 3 4).members.length ≤ 1 := by
  refine ⟨?_, ?_, ?_, ?_, ?_, ?_, ?_, ?_, rfl, ?_, ?_, ?_⟩ <;> decide +kernel

/-- Pushes and appends: room in the queue, a register with a tag. -/
theorem test_witness_pushes : (1 : RegNo).val < (pair 1 2 3 4).me.vnreg ∧ (pair 1 2 3 4).me.awaits (.reg 1) = false ∧
    tagOk ((pair 1 2 3 4).me.vregs[(1 : RegNo).val]).tag.val = true ∧ (pair 1 2 3 4).sqRoom 0 1 = .ok () ∧ (pair 1 2 3 4).sqRoom 1 2 = .ok () ∧
    ((pair 1 2 3 4).me.vregs[(1 : RegNo).val]).mark < 2 ^ 32 ∧
    (pair 1 2 3 4).Reads (pair 1 2 3 4).vl (.reg 1) ((pair 1 2 3 4).readReg 1 2) ∧
    (let s := lanes 2 (vreg 0 []) (vreg 0 []) id
     tagOk (s.me.vregs[(1 : RegNo).val]).tag.val = false ∧ s.vl ≠ 0 ∧ s.CanTrap) ∧ (lanes 0 (vreg 0 []) (vreg 0 []) id).vl = 0 := by
  refine ⟨?_, ?_, ?_, ?_, ?_, ?_, ⟨?_, ?_⟩, ⟨?_, ?_, rfl, ?_, rfl, rfl⟩, ?_⟩ <;> decide +kernel

/-- The frame of a register of one i8 element 7: header, one row of elements, one of validity. -/
def frame1 : List Byte :=
  [1, 0, 0, 0, 1, 0, 0, 0, 2, 0, 0, 0, 0, 0, 0, 0] ++ (7 :: List.replicate 15 0) ++ (1 :: List.replicate 15 0)

/-- A delivered entry of a spill frame's bytes. -/
def spillEnt (id : Nat) (bs : List Byte) : Entry :=
  { id := id, n := bs.length, tag := 6, base := 0, vers := 0, kind := .spill, elems := bs.map fun b => b.zeroExtend 64,
    valid := bs.map fun _ => true, ready := true, delivered := true, held := none }

theorem isFrame1 : IsFrame (vreg 2 [7]) 1 1 frame1 where
  size  := by decide
  vl    := by decide
  hwm   := by decide
  tag   := by decide
  zero  := by decide
  elems := by intro e w he _ hw _; subst hw; have : e = 0 := by omega
              subst this; decide
  half  := by intro e _ _ h; exact absurd h (by decide)
  valid := by intro e he _; have : e = 0 := by omega
              subst this; decide

/-- vmv.h: two entries of a spill, the first of 40 bytes, whose frame holds one element; one entry of the same bytes does not suffice. -/
theorem test_witness_restores :
    (let s := lanes 2 (vreg 4 []) (vreg 4 []) fun c =>
       { c with lq := c.lq.set 0 { ents := [spillEnt 1 (frame1.take 40), spillEnt 2 (frame1.drop 40)], ctr := 0 } }
     (s.me.lq[(0 : Fin 4).val]).ents = spillEnt 1 (frame1.take 40) :: spillEnt 2 (frame1.drop 40) :: [] ∧
     s.mayRetract 0 1 = false ∧ s.mayRetract 0 2 = false ∧
     40 ≤ s.me.vlMaxW (tagW (spillEnt 1 (frame1.take 40)).tag.val) ∧ 1 ≤ s.me.vlMaxW (tagW (vreg 2 [7]).tag.val)) ∧
    frame1 <+: entryBytes (spillEnt 1 (frame1.take 40)) false ++ entryBytes (spillEnt 2 (frame1.drop 40)) false ∧
    tagOk (vreg 2 [7]).tag.val = true := by
  refine ⟨⟨rfl, ?_, ?_, ?_, ?_⟩, ?_, ?_⟩ <;> decide +kernel

/-- vext and vins: an index inside the register and one at its capacity. -/
theorem test_witness_single_elements : (pair 1 2 3 4).srcName (.reg 1) = .ok () ∧
    (pair 1 2 3 4).vraw (min ((1 : Word).toNat + 1) (2 ^ 20)) (.reg 1) = .ok ((pair 1 2 3 4).readReg 1 2) ∧
    tagOk ((pair 1 2 3 4).readReg 1 2).tag = true ∧
    1 < (pair 1 2 3 4).members.length * (pair 1 2 3 4).me.vlMaxW (tagW ((pair 1 2 3 4).readReg 1 2).tag) ∧
    1 < ((pair 1 2 3 4).readReg 1 2).bits.length ∧ ((pair 1 2 3 4).readReg 1 2).bits.getD 1 0 < 2 ^ tagW ((pair 1 2 3 4).readReg 1 2).tag ∧
    (pair 1 2 3 4).members.length * (pair 1 2 3 4).me.vlMaxW (tagW ((pair 1 2 3 4).readReg 1 2).tag) ≤ (1024 : Word).toNat ∧
    (1023 : Word).toNat < (pair 1 2 3 4).me.vlMaxW (tagW ((pair 1 2 3 4).me.vregs[(1 : RegNo).val]).tag.val) ∧
    (pair 1 2 3 4).me.vlMaxW (tagW ((pair 1 2 3 4).me.vregs[(1 : RegNo).val]).tag.val) ≤ (1024 : Word).toNat := by
  decide +kernel

def v2 : V2F := { d := .reg 3, a := .reg 1, b := .reg 2, p := Pred.none, ext := none }

/-- Integer sources: of one tag, every element below 2^32. -/
theorem intSources : (pair 1 2 3 4).IntSources v2 2 ((pair 1 2 3 4).readReg 1 2) ((pair 1 2 3 4).readReg 2 2) := by
  refine { toAtVector := atVector.1, toReadsAll := readsPair.1, nameB := ?_, len := ?_, valueB := ?_, bitsB := ?_, validB := ?_, tags := ?_,
           int := ?_, small := ?_, plain := .inl rfl } <;> decide +kernel

end Tests
end Sys2Proof
end

