-- ==== Sys2Proof/Tests/WitnessElements.lean ====
section
/-!
SUPPORT. Witnesses for the statements about element-wise arithmetic, conversions, compares, folds and special functions.
-/

set_option Elab.async false

namespace Sys2Proof
namespace Tests

open Sys2Proof.Machine

def two : State := pair 1 2 3 4

def twoF : State := lanes 2 (vreg 0x0D [0x3FF0000000000000, 0x7FF8000000000000]) (vreg 0x0D [0, 0x4000000000000000]) id

theorem readsTwoF : twoF.ReadsAll 2 (.reg 1) (twoF.readReg 1 2) ∧ twoF.AtVector (.reg 3) := by
  refine ⟨⟨⟨?_, ?_⟩, ?_, ?_⟩, rfl, ?_, ?_⟩ <;> decide +kernel

def v1 : V1F := { d := .reg 3, a := .reg 1, p := Pred.none, ext := none }
def vp : V1P := { d := .reg 3, a := .reg 1, p := Pred.none }
def vf : VfmaF := { d := .reg 3, a := .reg 1, b := .reg 2, p := Pred.none, ext := none }

/-- Shifts by 0, by w − 1, by w and by −1; a division by elements that are not 0, and by one that is 0 without FCTL.DZT; the third
operand of vfma; the sources of vabs, vneg and vnot. -/
theorem test_witness_integer_arithmetic :
    ((pair 1 2 0 31).shiftCount v2 ((pair 1 2 0 31).readReg 2 2) 0 = 0 ∧ (pair 1 2 0 31).shiftCount v2 ((pair 1 2 0 31).readReg 2 2) 1 = 31 ∧
     tagW ((pair 1 2 0 31).readReg 1 2).tag = 32 ∧ (pair 1 2 32 0xFFFFFFFF).shiftCount v2 ((pair 1 2 32 0xFFFFFFFF).readReg 2 2) 0 = 32 ∧
     (pair 1 2 32 0xFFFFFFFF).shiftCount v2 ((pair 1 2 32 0xFFFFFFFF).readReg 2 2) 1 = -1) ∧
    (bit (pair 1 2 0 4).me.fctl 2 = false ∧ (∀ e, e < 2 → ((pair 1 2 3 4).readReg 2 2).bits.getD e 0 ≠ 0) ∧
     ((pair 1 2 0 4).readReg 2 2).bits.getD 0 0 = 0) ∧
    (vf.ext = none ∧ vf.d = .reg 3) ∧
    (two.vlen v1.a.queue = .ok 2 ∧ isInt (two.readReg 1 2).tag = true ∧ ∀ e, e < 2 → (two.readReg 1 2).bits.getD e 0 < 2 ^ tagW (two.readReg 1 2).tag) ∧
    (isFloat (twoF.readReg 1 2).tag = true ∧ twoF.vlen v1.a.queue = .ok 2 ∧
     ∀ e, e < 2 → (twoF.readReg 1 2).bits.getD e 0 < 2 ^ tagW (twoF.readReg 1 2).tag) := by
  refine ⟨?_, ?_, ⟨rfl, rfl⟩, ?_, ?_⟩ <;> decide +kernel

theorem test_witness_fma_addend :
    let s := on .X fun c => { c with xv := { c.xv with vl := 2, pc := 0x40 }, vregs := ((c.vregs.set 1 (vreg 4 [1, 2])).set 2 (vreg 4 [3, 4])).set 3 (vreg 4 [5, 6]) }
    s.ReadsAll 2 (.reg 3) (s.readReg 3 2) ∧ (s.readReg 3 2).tag = (s.readReg 1 2).tag := by
  refine ⟨⟨⟨?_, ?_⟩, ?_, ?_⟩, ?_⟩ <;> decide +kernel

/-- A plan that raises no enabled flag, of two operands, of one and of three; floats at vand; a zero divisor under FCTL.DZT at element 1. -/
theorem test_witness_plans :
    ((two.arithPlan .add v2.d v2.a (some v2.b) none v2.p v2.ext).isOk = true ∧ two.destReady v2.d = .ok () ∧
     (two.arithPlan .not v1.d v1.a none none v1.p v1.ext).isOk = true ∧ (two.me.fctl / 256 % 32 = 0)) ∧
    (let s := on .X fun c => { c with xv := { c.xv with vl := 2, pc := 0x40 }, vregs := ((c.vregs.set 1 (vreg 4 [1, 2])).set 2 (vreg 4 [3, 4])).set 3 (vreg 4 [5, 6]) }
     (s.arithPlan .fma vf.d vf.a (some vf.b) (some 3) vf.p none).isOk = true) ∧
    (twoF.srcNameB v2.b = .ok () ∧ twoF.vlen (pickQ v2.a.queue v2.b.queue) = .ok 2 ∧
     twoF.vinB 2 (twoF.active v2.p 2) (twoF.readReg 1 2).tag v2.b = .ok (twoF.readReg 2 2, []) ∧
     (twoF.readReg 2 2).tag = (twoF.readReg 1 2).tag ∧ isFloat (twoF.readReg 1 2).tag = true ∧ twoF.CanTrap) ∧
    (let s := lanes 2 (vreg 4 [1, 2]) (vreg 4 [3, 0]) fun c => { c with fctl := 4 }
     bit s.me.fctl 2 = true ∧ (s.readReg 2 2).bits.getD 0 0 ≠ 0 ∧ s.isActive v2.p 1 = true ∧ (s.readReg 1 2).valid.getD 1 true = true ∧
     (s.readReg 2 2).valid.getD 1 true = true ∧ (s.readReg 2 2).bits.getD 1 0 = 0 ∧ s.CanTrap) := by
  refine ⟨?_, ?_, ⟨?_, ?_, ?_, ?_, ?_, rfl, ?_, rfl, rfl⟩, ?_, ?_, ?_, ?_, ?_, ?_, rfl, ?_, rfl, rfl⟩ <;> decide +kernel

/-- vcvt of integers, in RND 0 and 4, and of floats in RND 5; the operands of vcmp, with a NaN at element 1. -/
theorem test_witness_conversions :
    (isInt (two.readReg 1 2).tag = true ∧ isInt (tI8) = true ∧ (4 : Fin 8).val ≤ 4 ∧ two.vlen (VSrc.reg 1).queue = .ok 2 ∧
     intOf (two.readReg 1 2).tag ((two.readReg 1 2).bits.getD 0 0) = 1) ∧
    ((twoF.scalarised (twoF.active Pred.none 2) (twoF.readReg 1 2)).isOk = true ∧ twoF.me.fctl / 256 % 32 = 0 ∧ isFloat tF32 = true) ∧
    (two.srcNameB (.reg 2) = .ok () ∧ two.vlen (pickQ (VSrc.reg 1).queue (VSrcB.reg 2).queue) = .ok 2 ∧
     two.vinB 2 (two.active Pred.none 2) (two.readReg 1 2).tag (.reg 2) = .ok (two.readReg 2 2, []) ∧
     (two.readReg 2 2).bits.length = 2 ∧ (two.readReg 2 2).valid.length = 2 ∧ isInt (two.readReg 2 2).tag = true ∧ two.isLong two.cur.core = false) ∧
    (twoF.vinB 2 (twoF.active Pred.none 2) (twoF.readReg 1 2).tag (.reg 2) = .ok (twoF.readReg 2 2, []) ∧
     (twoF.readReg 2 2).bits.length = 2 ∧ (twoF.readReg 2 2).valid.length = 2 ∧ isFloat (twoF.readReg 2 2).tag = true ∧
     (fDecode (twoF.readReg 1 2).tag ((twoF.readReg 1 2).bits.getD 1 0)).isNaN = true) := by
  decide +kernel

/-- SAT on an instruction that does not have it. -/
theorem test_witness_sat : let e : ArithX := { tg := 0, ms := 0, sat := true }
    e.sat = true ∧ (lanes 2 (vreg 4 []) (vreg 4 []) id).CanTrap := ⟨rfl, rfl, by decide +kernel, rfl, rfl⟩

def foldOf (op : Fin 8) : FoldX := { op := op, sat := false, init := none, tg := 0, ms := 0 }

theorem intFold (op : Fin 8) (b : Option RegNo) (h : op.val ≤ 5) (hb : ∀ r, b = some r → two.Has r) :
    two.IntFold (.reg 1) { foldOf op with init := b } 2 (two.readReg 1 2) where
  toReadsAll := readsPair.1
  side  := rfl
  len   := by decide +kernel
  op    := h
  sat   := rfl
  tag   := .inl rfl
  init  := hb
  int   := by decide +kernel
  small := by decide +kernel

/-- A fold of integers by the first operation from the identity and by the last from a register; a fold of floats. -/
theorem test_witness_folds : two.IntFold (.reg 1) (foldOf 0) 2 (two.readReg 1 2) ∧
    two.IntFold (.reg 1) { foldOf 5 with init := some 9 } 2 (two.readReg 1 2) ∧ two.Has 5 ∧ foldVariant (foldOf 0) = true ∧
    (twoF.foldSetup (twoF.readReg 1 2) (foldOf 0)).isOk = true ∧ (twoF.scalarised (twoF.active Pred.none 2) (twoF.readReg 1 2)).isOk = true := by
  refine ⟨intFold 0 none (by decide) (by simp), intFold 5 (some 9) (by decide) (by rintro _ ⟨⟩; rfl), rfl, ?_, ?_, ?_⟩ <;> decide +kernel

/-- Special functions: floats, integers; a NaN, both infinities, both zeros and a negative number. -/
theorem test_witness_special_functions :
    (isFloat (twoF.readReg 1 2).tag = true ∧ twoF.vlen vp.a.queue = .ok 2 ∧ twoF.me.fctl / 256 % 32 = 0 ∧
     isFloat (two.readReg 1 2).tag = false ∧ isCx (two.readReg 1 2).tag = false ∧ two.CanTrap) ∧
    ((fDecode tF64 0x7FF8000000000000).isNaN = true ∧ fDecode tF64 0x7FF0000000000000 = .inf false ∧ fDecode tF64 0xFFF0000000000000 = .inf true ∧
     (∃ e, fDecode tF64 0 = .fin false 0 e) ∧ (∃ e, fDecode tF64 0x8000000000000000 = .fin true 0 e) ∧
     ∃ m e, fDecode tF64 0xBFF0000000000000 = .fin true m e ∧ m ≠ 0) ∧
    ((2 : RegNo).val % 2 = 0 ∧ (2 : RegNo).val + 1 < two.me.vnreg ∧ (29 : RegNo).val ≤ 29 ∧ two.Has 29 ∧ two.Has (29 + 1) ∧ two.Has (29 + 2)) ∧
    ((30 : RegNo).val ≠ 31 ∧ (atA 0x40 id).Has 30 ∧ (atA 0x40 id).Has (30 + 1)) := by
  refine ⟨⟨?_, ?_, ?_, ?_, ?_, rfl, ?_, rfl, rfl⟩, ⟨?_, rfl, rfl, ⟨_, rfl⟩, ⟨_, rfl⟩, _, _, rfl, ?_⟩, ⟨rfl, ?_, ?_, rfl, rfl, rfl⟩, ?_, rfl, rfl⟩ <;> decide +kernel

end Tests
end Sys2Proof
end

