-- ==== Sys2Proof/Tests/WitnessAnchor.lean ====
section
/-!
SUPPORT. Witnesses for the statements about anchor registers, anchored arithmetic and codebook banks.
-/

set_option Elab.async false

namespace Sys2Proof
namespace Tests

open Sys2Proof.Machine

/-- A header of blocks of 4 deviations of 8 bits. -/
def hdr (anchor : Word) (step : BitVec 8) : Header := { anchor := anchor, step := step, flags := 0, gen := 0, rsv := 0 }

/-- One slot in each of anchor registers 0 and 1; vector registers 1 and 2 hold deviations bound to them in blocks of 4, and register 3
is bound to anchor register 2. -/
def devs (h0 h1 : Header) (x y : Word) : State :=
  lanes 2 { vreg 0x11 [x, 2] with bind := .anchor 0 4 } { vreg 0x11 [y, 4] with bind := .anchor 1 4 } fun c => { c with
    anchors := (c.anchors.set 0 { count := 1, slots := [h0] }).set 1 { count := 1, slots := [h1] }
    vregs := (c.vregs.set 3 { vreg 0x12 [0, 0] with bind := .anchor 2 4 }).set 4 (vreg 0x0D [0x3FF0000000000000, 0x4000000000000000]) }

def d0 : State := devs (hdr 0x3FF0000000000000 0) (hdr 0x3FF0000000000000 0) 1 3

theorem devPlain : d0.AtVector (.reg 3) ∧ d0.Has 5 ∧ d0.Has 6 ∧ d0.CanTrap := by
  refine ⟨⟨rfl, ?_, ?_⟩, rfl, rfl, rfl, ?_, rfl, rfl⟩ <;> decide +kernel

theorem bound (a : VSrc) (h : a = .reg 1 ∨ a = .reg 2) :
    ∃ x k b, d0.Bound 2 a (x, k, b) ∧ x.tag = 0x11 ∧ b = 4 ∧ d0.hdrOk (x, k, b) 0 = true ∧ x.valid.getD 0 true = true := by
  obtain rfl | rfl := h
  · refine ⟨d0.readReg 1 2, 0, 4, ⟨?_, ?_, ?_, ?_⟩, ?_, rfl, ?_, ?_⟩ <;> decide +kernel
  · refine ⟨d0.readReg 2 2, 1, 4, ⟨?_, ?_, ?_, ?_⟩, ?_, rfl, ?_, ?_⟩ <;> decide +kernel

/-- An entry of one header. -/
def headerEnt : Entry :=
  { id := 1, n := 1, tag := 0, base := 0, vers := 0, kind := .headers, elems := [0x3FF0000000000000, 0], valid := [true, true], ready := true,
    delivered := true, held := none }

def kadj0 : KadjF := { d := 0, a := 0, b := 6, p := Pred.none }

/-- kcfg, kmv, kput at the count, above it and at 256, kadj without and with an anchor that does not move exactly. -/
theorem test_witness_bindings :
    (d0.members.Nodup ∧ d0.cur.core ∈ d0.members ∧ d0.vreg 1 = .ok () ∧ d0.sqRoom 1 1 = .ok ()) ∧
    (let s := lanes 2 (vreg 4 []) (vreg 4 []) fun c => { c with lq := c.lq.set 3 { ents := [headerEnt], ctr := 0 } }
     s.heads 3 = .ok [headerEnt]) ∧
    ((d0.me.anchors[(0 : Fin 16).val]).count = 1 ∧ ((5 : BitVec 32)).toNat > (d0.me.anchors[(0 : Fin 16).val]).count ∧ 256 ≤ ((256 : BitVec 32)).toNat) ∧
    (d0.adjusts kadj0 0 0 = true ∧ (d0.adjusted kadj0 0 0).isSome = true ∧ d0.adjusts kadj0 0 1 = false ∧ d0.members = [0]) ∧
    (let s := lanes 2 (vreg 4 []) (vreg 4 []) fun c => setX 6 0x3CA0000000000000 { c with
       anchors := c.anchors.set 0 { count := 1, slots := [hdr 0x3FF0000000000000 0] } }
     s.Has 6 ∧ s.adjusts kadj0 0 0 = true ∧ s.adjusted kadj0 0 0 = none ∧ 0 ∈ s.members ∧ s.CanTrap) := by
  refine ⟨?_, ?_, ?_, ?_, rfl, ?_, ?_, ?_, rfl, ?_, rfl, rfl⟩ <;> decide +kernel

/-- reanc of a block of active valid elements, one of them inactive and one invalid: the least and the greatest of them, a tie between two
multiples, a step that is finer than the elements, and an anchor that is too great; and a block without one. -/
theorem test_witness_reanc_blocks :
    (let zs : List (Bool × Bool × Int) := [(true, true, -3), (false, true, 9), (true, false, 9), (true, true, 5)]
     (∀ z : Int, (true, true, z) ∈ zs → -3 ≤ z ∧ z ≤ 5) ∧ NearestMultiple (-3 + 5) 0 0 1 ∧ NearestMultiple (-3 + 5) 0 1 0 ∧ NearestMultiple (-3 + 5) 0 (-3) 8 ∧
     (asF64 (.fin ((1 : Int) < 0) (1 : Int).natAbs 0)).isSome = true ∧ asF64 (.fin ((1 : Int) < 0) (1 : Int).natAbs 1100) = none) ∧
    ∀ z ∈ [(true, false, (9 : Int)), (false, true, 9)], z.1 = false ∨ z.2.1 = false := by
  refine ⟨⟨?_, ⟨?_, ?_⟩, ⟨?_, ?_⟩, ⟨?_, ?_⟩, ?_, ?_⟩, ?_⟩
  · intro z h
    simp at h
    omega
  all_goals decide +kernel

/-- vdadd and vdsub: blocks that agree, anchors that differ, steps that differ, and a sum above dv8. -/
theorem test_witness_sums :
    (d0.vlen (pickQ (VSrc.reg 1).queue (VSrc.reg 2).queue) = .ok 2 ∧ devTag none tDv8 = .ok tDv8) ∧
    d0.SameBlock (d0.readReg 1 2, 0, 4) (d0.readReg 2 2, 1, 4) 0 ∧
    (let s := devs (hdr 0x3FF0000000000000 0) (hdr 0 0) 1 3
     Machine.Num.cmp (s.hdrAt 8 0 4 0).value (s.hdrAt 8 1 4 0).value ≠ 0) ∧
    (let s := devs (hdr 0x3FF0000000000000 0) (hdr 0x3FF0000000000000 1) 1 3
     Machine.Num.cmp (s.hdrAt 8 0 4 0).value (s.hdrAt 8 1 4 0).value = 0 ∧ (s.hdrAt 8 0 4 0).step ≠ (s.hdrAt 8 1 4 0).step) ∧
    (let s := devs (hdr 0x3FF0000000000000 0) (hdr 0x3FF0000000000000 0) 127 1
     s.SameBlock (s.readReg 1 2, 0, 4) (s.readReg 2 2, 1, 4) 0 ∧ iMax tDv8 < devInt (s.readReg 1 2) 0 + devInt (s.readReg 2 2) 0) := by
  refine ⟨?_, ⟨?_, ?_⟩, ?_, ?_, ⟨?_, ?_⟩, ?_⟩ <;> decide +kernel

/-- vddiff inside one block; the destinations of vdmul; vdscl by 0 and the greatest change of step; reanc of f64; vdwide and vdfrom. -/
theorem test_witness_anchored :
    (d0.vidxS (.imm 1) = .ok 1 ∧ d0.me.fctl / 256 % 32 = 0 ∧ d0.isLong d0.cur.core = false ∧
     (∀ e, e < 2 → (d0.hdrAt 8 0 4 e).stepInt = 0) ∧ ∀ e, e < 2 → ∀ p, p < 2 → e / 4 = p / 4) ∧
    ((4 : RegNo).val % 4 = 0 ∧ (4 : RegNo).val + 3 < d0.me.vnreg) ∧
    (d0.stepOp (.imm 15 { tg := 0, ms := 0, sat := true } false) = .ok (15, some { tg := 0, ms := 0, sat := true }, false, 12) ∧
     d0.stepOp (.reg 5) = .ok (0, none, false, 4) ∧ (d0.me.vregs[(3 : RegNo).val]).bind = .anchor 2 4 ∧ devTag none 0x11 = .ok 0x11 ∧
     (∀ e, e < 2 → devInt (d0.readReg 1 2) e * 2 ^ (0 : Int).toNat = devInt (d0.readReg 1 2) e * 2 ^ (-0 : Int).toNat ∧
       iMin 0x11 ≤ devInt (d0.readReg 1 2) e ∧ devInt (d0.readReg 1 2) e ≤ iMax 0x11)) ∧
    (isCx (d0.readReg 4 2).tag = false ∧ isDv (d0.readReg 4 2).tag = false ∧ devTag none tDv16 = .ok tDv16 ∧ ceilDiv 2 4 ≤ 256 ∧
     (∀ r ∈ (reancBlock tDv16 4 0 false [(true, true, valueOf tF64 0x3FF0000000000000), (true, true, valueOf tF64 0x4000000000000000)]).1,
       r.isSome && r.all (fun x => x.isOk) = true)) ∧
    ((d0.readReg 4 2).tag = tF64 ∧ (satRound tDv16 0 true (.fin false 1 0)).off = false ∧ (d0.hdrAt 16 2 4 0).ok = false) := by
  refine ⟨?_, ?_, ?_, ?_, ?_⟩ <;> decide +kernel

theorem test_witness_anchored_gang :
    d0.stepOp (.imm 0 { tg := 0, ms := 0, sat := true } true) = .ok (0, some { tg := 0, ms := 0, sat := true }, true, 12) ∧
    d0.members.Nodup ∧ d0.cur.core ∈ d0.members ∧ d0.slices (tagW tDv16) 2 = [(0, 0, 2)] := by
  refine ⟨?_, ?_, ?_, ?_⟩ <;> decide +kernel

theorem reanc_reads : d0.ReadsAll 2 (.reg 4) (d0.readReg 4 2) := by
  refine ⟨⟨?_, ?_⟩, ?_, ?_⟩ <;> decide +kernel

/-- A codebook bank whose first two entries are valid, in a mode of 2 elements an entry; vector register 1 holds indices. -/
def coded (mode : Nat) (i : Word) : State :=
  lanes 2 { vreg 0x10 [0, i] with bind := .codebook 0 0 } (vreg 4 []) fun c => { c with
    banks := c.banks.set 0 { cur := { ver := 0, ents := [1, 2], valid := [true, true], mode := mode }, other := (c.banks[0]).other, busy := false } }

theorem atCbx (mode : Nat) (i : Word)
    (h : let s := coded mode i
         s.srcName vp.a = .ok () ∧ s.dstName vp.d = .ok () ∧ s.destReady vp.d = .ok () ∧ s.isLong s.cur.core = false ∧ s.vlen vp.a.queue = .ok 2 ∧
         s.vraw 2 vp.a = .ok (s.readReg 1 2) ∧ isCx (s.readReg 1 2).tag = true ∧ (s.readReg 1 2).bits.length = 2 ∧
         (s.readReg 1 2).valid.length = 2 ∧ (s.readReg 1 2).bind = .codebook 0 0 ∧
         (s.me.banks[0]).cur = (s.me.banks[0]).copyAt (versOf ((s.readReg 1 2).versAt 0) 0) ∧ (s.me.banks[0]).busy = false) :
    (coded mode i).AtCbx vp 2 ((coded mode i).readReg 1 2) 0 0 ((coded mode i).me.banks[0]).cur :=
  { side := rfl, name := h.1, dname := h.2.1, room := h.2.2.1, one := h.2.2.2.1, len := h.2.2.2.2.1, small := by decide
    src := h.2.2.2.2.2.1, cx := h.2.2.2.2.2.2.1, bits := h.2.2.2.2.2.2.2.1, valid := h.2.2.2.2.2.2.2.2.1
    bind := h.2.2.2.2.2.2.2.2.2.1, copy := h.2.2.2.2.2.2.2.2.2.2.1, idle := .inl h.2.2.2.2.2.2.2.2.2.2.2 }

theorem test_witness_codebook_sources : (coded 0x22 1).AtCbx vp 2 ((coded 0x22 1).readReg 1 2) 0 0 ((coded 0x22 1).me.banks[0]).cur ∧
    (coded 0x22 2).AtCbx vp 2 ((coded 0x22 2).readReg 1 2) 0 0 ((coded 0x22 2).me.banks[0]).cur ∧
    (coded 0x322 2).AtCbx vp 2 ((coded 0x322 2).readReg 1 2) 0 0 ((coded 0x322 2).me.banks[0]).cur :=
  ⟨atCbx _ _ (by decide +kernel), atCbx _ _ (by decide +kernel), atCbx _ _ (by decide +kernel)⟩

/-- cbx: entries that are valid, one that is not under FAULT, and under ZERO with a mask. -/
theorem test_witness_expansion :
    (let s := coded 0x22 1
     tagW (modeTag 0x22) = 8 ∧ 2 * 2 ^ (0x322 / 32 % 8) ≤ s.me.capW 8 ∧ 2 * 2 ^ (0x22 / 32 % 8) ≤ s.me.vlMaxW 8 ∧
     ∀ e, e < 2 → ((s.me.banks[0]).cur.valid.getD (entryOf (s.readReg 1 2) 0 e) false) = true) ∧
    (let s := coded 0x22 2
     modeZero 0x22 = false ∧ entryOf (s.readReg 1 2) 0 1 = 2 ∧ (s.me.banks[0]).cur.valid.getD (entryOf (s.readReg 1 2) 0 1) false = false ∧
     ((s.me.banks[0]).cur.valid.getD (entryOf (s.readReg 1 2) 0 0) false) = true ∧ s.isActive vp.p 1 = true) ∧
    modeZero 0x322 = true ∧ modeMz 0x322 ≠ 0 := by
  refine ⟨?_, ?_, ?_⟩ <;> decide +kernel

/-- cbx of a whole register, as an instruction of every member. -/
theorem test_witness_expanded :
    (let s := coded 0x22 1
     s.srcName vp.a = .ok () ∧ s.dstName vp.d = .ok () ∧ s.destReady vp.d = .ok () ∧ s.vlen vp.a.queue = .ok 2 ∧
     s.vraw 2 vp.a = .ok (s.readReg 1 2) ∧ isCx (s.readReg 1 2).tag = true ∧ s.cur.core ∈ s.members ∧
     s.expandAll (s.active vp.p 2) (s.readReg 1 2) = .ok (0x22, [[1, 0], [2, 0]], []) ∧
       ∀ g ∈ s.slices (tagW (s.readReg 1 2).tag) 2, g.2.2 * 2 ^ (0x22 / 32 % 8) ≤ s.me.vlMaxW (tagW (modeTag 0x22))) := by
  refine ⟨?_, ?_, ?_, ?_, ?_, ?_, ?_, ?_, ?_⟩ <;> decide +kernel

/-- CBLD_COMPLETE with dwords to come, and with the last one. -/
theorem test_witness_cbld_complete :
    (let st : CbldSt := { cb := 0, keys := (List.range 32).map fun i => (spadKey 0 (0x800 + 64 * i), 64), got := [], core := 0, off := 0x800, len := 4 }
     let s := on .A fun c => { c with cbld := some st }
     (s.core core0.no).cbld = some st ∧ (st.got ++ Memory.readN s.mem ((st.keys.getD 0 (0, 0)).1 + 8 * 0) 8).length < 2048) ∧
    (let st : CbldSt := { cb := 0, keys := (List.range 32).map fun i => (spadKey 0 (0x800 + 64 * i), 64), got := List.replicate 2040 0, core := 0, off := 0x800,
                          len := 4 }
     let s := on .A fun c => { c with cbld := some st }
     (s.core core0.no).cbld = some st ∧ (st.got ++ Memory.readN s.mem ((st.keys.getD 31 (0, 0)).1 + 8 * 7) 8).length = 2048) := by
  decide +kernel

/-- cbld from the core's own scratchpad. -/
theorem test_witness_cbld :
    let s := on .A (setA 3 0x0100000000000800)
    let ra : SrcR := { r := 3, fe := false }
    let ds := (List.range 32).map fun i => ({ idx := i, addr := 0x0100000000000800 + BitVec.ofNat 64 (64 * i), size := 64 } : Piece)
    s.me.cbld = none ∧ s.eaOff ra none = .ok 0x0100000000000800 ∧ canonical (0x0100000000000800 : Word).toNat = true ∧
    (0x0100000000000800 : Word).toNat % 64 = 0 ∧ (0x0100000000000800 : Word).toNat / 2 ^ 56 = 1 ∧ (s.pieces .read ds).2 = none ∧
    s.quiet (s.spansAt (s.pieces .read ds).1 ds) = .ok () ∧
    s.cardsOver s.cur.core [({ cb := 0, keys := s.spansAt (s.pieces .read ds).1 ds, got := [], core := 0, off := 0x800, len := 4 } : CbldSt).span] = [] ∧
    s.me.pin2 0 = false := by
  decide +kernel

/-- cbinv of nothing, of entries 255 and of one too many; cbmode of the least and the greatest mode of its width and of others. -/
theorem test_witness_banks :
    ((on .A (setA 3 0x000FF)).val 3).toNat / 256 % 512 = 0 ∧ 0xFF + ((on .A (setA 3 0x001FF)).val 3).toNat / 256 % 512 = 256 ∧
    256 < 0xFF + ((on .A (setA 3 0x002FF)).val 3).toNat / 256 % 512 ∧ (on .A id).me.pin2 0 = false ∧ LegalMode 1 ∧ LegalMode 0x1F6E ∧
    ¬ LegalMode 0 ∧ ¬ LegalMode 0x2001 ∧ (on .A id).regOrImmZ (.imm 1) = .ok 1 ∧ (on .A (setA 3 0x000FF)).Has 3 := by
  refine ⟨?_, ?_, ?_, ?_, ?_, ?_, ?_, ?_, ?_, rfl⟩
  all_goals first | decide +kernel | (unfold LegalMode; decide +kernel)

end Tests
end Sys2Proof
end

