-- ==== Sys2Proof/Tests/WitnessMatrix.lean ====
section
/-!
SUPPORT. Witnesses for the statements about the matrix engine and its tiles.
-/

set_option Elab.async false

namespace Sys2Proof
namespace Tests

open Sys2Proof.Machine

/-- 12 planes of sh8 weights in 8 row tiles. -/
def mcfg8 : MCfg := { p := 12, btag := 0x0E, bank := 0, off := 0, rows := 8 }

/-- The word of mcfg8. -/
def word8 : Word := 0xE01CC

/-- mcfg and mcfg.d: a word that is allowed, the bounds of its fields, a tag that is not a weight's, and live tiles. -/
theorem test_witness_mcfg : McfgWord word8.toNat mcfg8 ∧ ¬ McfgBad word8.toNat ∧ McfgTag word8.toNat ∧ McfgBad 0 ∧ McfgBad 17 ∧
    McfgBad (word8.toNat + 1) ∧ McfgBad (2 ^ 20 + word8.toNat) ∧ ¬ McfgBad 0x0005 ∧ ¬ McfgTag 0x0005 ∧
    (on .A (setA 3 word8)).regOrImmZ (.reg { r := 3, fe := false }) = .ok word8 ∧ (on .A id).me.mops = [] ∧ (on .A id).me.mlive = 0 ∧
    (on .A id).claimsPushed = .ok () ∧ (on .A fun c => { c with mlive := 1 }).me.mlive ≠ 0 ∧ (on .A id).CanTrap := by
  refine ⟨⟨?_, ?_, ?_, ?_, ?_⟩, ?_, ?_, ?_, ?_, ?_, ?_, ?_, ?_, ?_, ?_, ?_, ?_, ?_, rfl, ?_, rfl, rfl⟩
  all_goals first | decide +kernel | (unfold McfgBad; decide +kernel) | (unfold McfgTag; decide +kernel)

/-- A core with a configuration, operands in s3 and s5 and commands of its own. -/
def mcore (cfg : Option MCfg) (ms : List MacroOp) : State :=
  on .A fun c => setA 3 0x0100000000000000 (setA 5 0x0100000000010000 { c with mcfg := cfg, mops := ms })

def mmp0 (k : BitVec 32) : MmpF := { t := 0, a := { r := 3, fe := false }, b := { r := 5, fe := false }, k := .imm k }

theorem mmpOk : (mcore (some mcfg8) []).MmpOk (mmp0 16) mcfg8 0x0100000000000000 0x0100000000010000 16 where
  side  := rfl
  free  := by decide +kernel
  conf  := rfl
  tiles := by decide
  srcA  := ⟨rfl, rfl⟩
  srcB  := ⟨rfl, rfl⟩
  srcK  := by decide +kernel
  steps := by decide
  sel   := by decide
  align := by decide
  aFits := by decide +kernel
  bFits := by decide +kernel
  mode  := by decide +kernel
  valid := by decide +kernel

/-- mmp: queued, with K = 0, with a K that is no multiple of 16, with one above 8192, without a configuration and beyond tile 7. -/
theorem test_witness_mmp : (mcore (some mcfg8) []).MmpOk (mmp0 16) mcfg8 0x0100000000000000 0x0100000000010000 16 ∧
    ((mcore (some mcfg8) []).me.mops.length < 2 ∧ (mcore (some mcfg8) []).claimsPushed = .ok () ∧ (mcore (some mcfg8) []).me.mcompat = false) ∧
    ((mcore (some mcfg8) []).vidxZ (.imm 0) = .ok 0 ∧ (mcore (some mcfg8) []).vidxZ (.imm 8208) = .ok 8208 ∧ 8192 < (8208 : Word).toNat ∧
     (15 : Word).toNat % 16 ≠ 0) ∧
    (mcore none []).me.mcfg = none ∧ 8 < (1 : Fin 8).val + mcfg8.rows ∧ (mcore none []).CanTrap := by
  refine ⟨mmpOk, ?_, ?_, rfl, ?_, rfl, ?_, rfl, rfl⟩ <;> decide +kernel

/-- mzero, mlive and mdrain: the greatest mask and one too great, rows up to 63. -/
theorem test_witness_tiles : (on .A id).regOrImmZ (.imm 255) = .ok 255 ∧ (255 : Word).toNat < 256 ∧ (on .A id).me.tilesFree 255 ∧
    256 ≤ (256 : Word).toNat ∧ RowSpec 0x0038 56 1 ∧ RowSpec 0x0738 56 8 ∧ 128 * 8 ≤ (on .A id).me.vlMaxW 32 ∧
    ((on .A id).me.lq[0]).ents.length < 8 := by
  refine ⟨?_, ?_, ?_, ?_, ⟨?_, ?_, ?_, ?_⟩, ⟨?_, ?_, ?_, ?_⟩, ?_, ?_⟩
  all_goals first | decide +kernel | (unfold Core.tilesFree; decide +kernel)

/-- mchk: a descriptor that is allowed, with N 15 and E 24, and others that are not. -/
theorem test_witness_mchk :
    let s := on .A (setA 3 0x0100000000000100)
    let s1 := { s with mem := Memory.writeN s.mem (spadKey 0 0x110) [15, 24, 1] }
    s1.eaOff { r := 3, fe := false } none = .ok 0x0100000000000100 ∧ s1.place (s1.how .read true 32) 0x0100000000000100 = .ok (.mem (spadKey 0 0x100)) ∧
    s1.quiet [(s1.keyOf (.mem (spadKey 0 0x100)), 32)] = .ok () ∧
    (let bs := Memory.readN s1.mem (spadKey 0 0x100) 32
     cardFld bs 0x10 1 = 15 ∧ cardFld bs 0x11 1 = 24 ∧ cardFld bs 0x12 1 = 1 ∧ cardFld bs 0x13 13 = 0) ∧
    cardFld (Memory.readN s.mem (spadKey 0 0x100) 32) 0x11 1 = 0 := by
  decide +kernel

def mop1 : MacroOp := { mop0 with cfg := { mcfg8 with rows := 1 }, k := 16, run := false, before := [] }

/-- A macro-operation that starts, one that waits for its louvre, one at its first K-step and one that has done it. -/
theorem test_witness_macro_operations :
    (let s := mcore none [mop1]
     (s.core core0.no).mops = mop1 :: [] ∧ mop1.run = false ∧ mop1.granted = true ∧ s.mayRetract core0.no mop1.id = false ∧ mop1.before = [] ∧ (∀ k ∈ (s.pane core0.pane.val).cards, k.id ∉ mop1.waits)) ∧
    ({ mop1 with granted := false } : MacroOp).granted = false ∧
    (let m := { mop1 with run := true }
     let s := mcore none [m]
     (s.core core0.no).mops = m :: [] ∧ m.t + m.cfg.rows ≤ 8 ∧ (∀ i : Fin 8, ((s.core core0.no).tile i).length = 8192) ∧
     (s.core core0.no).mstep < m.k / 16) ∧
    (let m := { mop1 with run := true, chk := some { no := 0, acopy := 0, bcopy := 0, n := 15, e := 1, qen := true } }
     let s := on .A fun c => { c with mops := [m], mstep := 1, sampleCtr := 2 ^ 15 - 1, chk := m.chk }
     (s.core core0.no).chk = m.chk ∧ m.k / 16 ≤ (s.core core0.no).mstep ∧ s.pendingSamples core0.no < 255 ∧ ((s.core core0.no).sampleCtr + 1) % 2 ^ 15 = 0) ∧
    (let m := { mop1 with run := true, compat := some 4 }
     let s := on .A fun c => { c with mops := [m], av := { c.av with vstart := 64 } }
     64 * m.cfg.rows ≤ (s.core core0.no).av.vstart.toNat) := by
  decide +kernel

def sample1 : Sample :=
  { core := 0, task := some 3, gpos := 0, tile := 0, m := 0, k := 16, delta := [],
    chk := { no := 0, acopy := 0, bcopy := 0, n := 1, e := 1, qen := true }, asid := 0, super := false, copies := none }

theorem test_witness_samples :
    let s := (on .A id).setPane 0 { (on .A id).pane 0 with samples := [sample1] }
    (s.pane (0 : Fin 8).val).samples = sample1 :: [] ∧ s.task 3 = some task0 ∧ task0.cores[sample1.gpos]? = some 0 := by
  decide +kernel

/-- tget and tfill: rows of a tile that is settled, a register of i32 and an entry of i32. -/
theorem test_witness_tile_moves : (pair 1 2 3 4).AtVector (.reg 3) ∧ (pair 1 2 3 4).vidxZ (.imm 0x738) = .ok 0x738 ∧ RowSpec 0x0738 56 8 ∧
    128 * 8 ≤ (pair 1 2 3 4).me.vlMaxW 32 ∧ (pair 1 2 3 4).tileSettled 7 = .ok () ∧ (pair 1 2 3 4).vreg 1 = .ok () ∧ (pair 1 2 3 4).me.crecvs = [] ∧
    ((pair 1 2 3 4).me.vregs[(1 : RegNo).val]).tag.val = tI32 ∧ ((pair 1 2 3 4).me.tile 7).length = 8192 ∧
    (let e : Entry := { id := 1, n := 2, tag := 4, base := 0, vers := 0, kind := .data, elems := [1, 2], valid := [true, true], ready := true,
                        delivered := true, held := none }
     let s := lanes 2 (vreg 4 []) (vreg 4 []) fun c => { c with lq := c.lq.set 0 { ents := [e], ctr := 0 } }
     s.vlen (some 0) = .ok 2 ∧ (s.me.lq[(0 : Fin 4).val]).ents.head? = some e ∧ e.tag.val = tI32) := by
  refine ⟨atVector.1, ?_, ⟨?_, ?_, ?_, ?_⟩, ?_, ?_, ?_, ?_, ?_, ?_, ?_⟩ <;> decide +kernel

end Tests
end Sys2Proof
end

