-- ==== Sys2Proof/Tests/WitnessCards.lean ====
section
/-!
SUPPORT. Witnesses for the statements about job cards.
-/

set_option Elab.async false

namespace Sys2Proof
namespace Tests

open Sys2Proof.Machine

/-- A copy card: one row of 16 bytes from 0x1000 of the core's scratchpad to an address, with its regions. -/
def copyBytes (kind : Byte) (dst : Word) : List Byte :=
  (kind :: List.replicate 15 0) ++ leBytes 8 0x0100000000001000 ++ leBytes 8 dst.toNat ++ leBytes 4 16 ++ leBytes 4 1 ++ List.replicate 24 0 ++
    leBytes 8 0x0100000000001000 ++ leBytes 8 16 ++ List.replicate 16 0 ++ leBytes 8 dst.toNat ++ leBytes 8 16 ++ List.replicate 16 0

def dst0 : Word := 0x0100000000002000

/-- A core whose s3 points at those bytes in its scratchpad, and cards in the window of its pane. -/
def carded (bs : List Byte) (ks : List Card) : State :=
  let s := on .A (setA 3 0x0100000000000100)
  ({ s with mem := Memory.writeN s.mem (spadKey 0 0x100) bs, nextCard := 8 } : State).setPane 0 { s.pane 0 with cards := ks }

/-- The card that copyBytes describes, in a phase. -/
def card (dst : Word) (ph : CardPhase) : Card :=
  { (carded (copyBytes 1 dst) []).newCard (spadKey 0 0x100) (copyBytes 1 dst) with phase := ph, id := 5, chunk := 0 }

theorem atCard (bs : List Byte) (ks : List Card)
    (h : let s := carded bs ks
         s.place (s.how .read true 64) (s.val 3) = .ok (.mem (spadKey 0 0x100)) ∧
         s.place (s.how .read true 64) (s.val 3 + 64) = .ok (.mem (spadKey 0 0x140)) ∧ s.quiet [(spadKey 0 0x100, 128)] = .ok () ∧
         bs = Memory.readN s.mem (spadKey 0 0x100) 128) : (carded bs ks).AtCard 3 (spadKey 0 0x100) bs :=
  { side := rfl, reg := rfl, canon := by rw [show (carded bs ks).val 3 = 0x0100000000000100 from rfl]; decide
    align := by rw [show (carded bs ks).val 3 = 0x0100000000000100 from rfl]; decide
    sel := by rw [show (carded bs ks).val 3 = 0x0100000000000100 from rfl]; decide
    first := h.1, last := ⟨_, h.2.1⟩, quiet := h.2.2.1, bytes := h.2.2.2 }

theorem cardPasses : (carded (copyBytes 1 dst0) []).CardPasses ((carded (copyBytes 1 dst0) []).newCard (spadKey 0 0x100) (copyBytes 1 dst0)) where
  res   := by decide +kernel
  space := .inr (by decide +kernel)
  src   := by decide +kernel
  dst   := by decide +kernel
  table := .inl (by decide +kernel)
  chain := .inl (by decide +kernel)
  aw    := .inl (by decide +kernel)

/-- cpy with a card that passes, with one of another kind, and at addresses that are misaligned or in another space. -/
theorem test_witness_submit : (carded (copyBytes 1 dst0) []).MemOk ∧ (carded (copyBytes 1 dst0) []).AtCard 3 (spadKey 0 0x100) (copyBytes 1 dst0) ∧
    cardFld (copyBytes 1 dst0) 0 1 = 1 ∧ (carded (copyBytes 1 dst0) []).CardPasses ((carded (copyBytes 1 dst0) []).newCard (spadKey 0 0x100) (copyBytes 1 dst0)) ∧
    ((carded (copyBytes 1 dst0) []).pane 0).cards.length < 64 ∧ (carded (copyBytes 3 dst0) []).AtCard 3 (spadKey 0 0x100) (copyBytes 3 dst0) ∧
    cardFld (copyBytes 3 dst0) 0 1 ≠ 1 ∧ (carded (copyBytes 3 dst0) []).CanTrap ∧
    ((on .A (setA 3 0x0100000000000120)).val 3).toNat % 64 ≠ 0 ∧ ((on .A (setA 3 0x0200000000000000)).val 3).toNat / 2 ^ 56 ≠ 1 := by
  refine ⟨?_, atCard _ _ ?_, ?_, cardPasses, ?_, atCard _ _ ?_, ?_, ⟨rfl, ?_, rfl, rfl⟩, ?_, ?_⟩
  · show Memory.wf _ = true
    decide +kernel
  all_goals decide +kernel

/-- CARD_DISPATCH without a kept louvre, and with each kind of it. -/
theorem test_witness_dispatch :
    let k := card dst0 .accepted
    let s := carded (copyBytes 1 dst0) [k]
    s.cardAt 0 0 = some k ∧ s.cardReady 0 k = true ∧ k.chunk < k.chunks ∧
    ((s.pane (0 : Fin 8).val).cards.filter fun x => x.phase.active).length < 3 ∧ (s.core k.core).wktHeld = none ∧
    s.takesAhead k.core k.seq = false ∧ (s.setCore 0 { s.core 0 with wktPend := some (false, k.seq) }).takesAhead k.core k.seq = true ∧
    (∀ x ∈ (s.pane (0 : Fin 8).val).cards.take 0, s.cardReady 0 x = false ∨ x.chunks ≤ x.chunk) ∧ k.tblAddr = 0 ∧
    ((s.setCore 0 { s.core 0 with wktHeld := some (false, k.seq) }).core k.core).wktHeld = some (false, k.seq) ∧ k.isCopy = true := by
  decide +kernel

/-- CHUNK_COMMIT of a card whose table is still to be copied, of a chunk that is written, and of one whose destination no translation maps. -/
theorem test_witness_commit :
    (let k := card dst0 .running
     let s := carded (copyBytes 1 dst0) [k]
     s.cardAt 0 0 = some k ∧ k.phase = .running ∧ k.chunk < k.chunks ∧ k.tabled = false ∧ s.prepare k = .ok { k with tabled := true }) ∧
    (let k := { card dst0 .running with tabled := true }
     let s := carded (copyBytes 1 dst0) [k]
     s.cardAt 0 0 = some k ∧ k.chunk < k.chunks ∧ (s.chunkData k 0) = .ok { out := List.replicate 16 0, crc := none } ∧
     s.chunkWrites k 0 { out := List.replicate 16 0, crc := none } = .ok [(dst0, List.replicate 16 0)] ∧
     (s.commitWrites 0 k [(dst0, List.replicate 16 0)]).map (fun u => u.2) = .ok true ∧
     [(dst0, List.replicate 16 (0 : Byte))].flatMap cutWrite = [(dst0, List.replicate 16 0)] ∧
     s.enginePlace k .write dst0 = .ok (.mem (spadKey 0 0x2000)) ∧ k.asked = [] ∧ crossesPane k.core (spadKey 0 0x2000, 16) = false ∧ s.detTask k.core = none) ∧
    (let k := { card 0x0000000000002000 .running with tabled := true }
     let s := carded (copyBytes 1 0x0000000000002000) [k]
     (s.commitWrites 0 k [(0x0000000000002000, List.replicate 16 0)]).map (fun u => u.2) = .error (.fault 8 0)) := by
  decide +kernel

/-- CARD_FAIL and CARD_COMPLETE: a card that has failed, one with its chunks done, and one without any. -/
theorem test_witness_card_ends :
    (let k := card dst0 (.failing 8 0)
     let s := carded (copyBytes 1 dst0) [k]
     s.cardAt 0 0 = some k ∧ k.task = some 3 ∧ s.task 3 = some task0) ∧
    (let k := { card dst0 .running with chunk := 1 }
     let s := carded (copyBytes 1 dst0) [k]
     s.cardAt 0 0 = some k ∧ k.chunks ≤ k.chunk ∧ k.chunks ≠ 0) ∧
    (let k : Card := { card dst0 .accepted with bytes := (copyBytes 1 dst0).take 0x20 ++ List.replicate 0x60 0 }
     let s := carded (copyBytes 1 dst0) [k]
     s.cardAt 0 0 = some k ∧ k.chunks = 0 ∧ s.cardReady 0 k = true) := by
  decide +kernel

end Tests
end Sys2Proof
end

