-- ==== Sys2Proof/Tests/WitnessConversation.lean ====
section
/-!
SUPPORT. Witnesses for the statements about conversations, their homes and their messages.
-/

set_option Elab.async false

namespace Sys2Proof
namespace Tests

open Sys2Proof.Machine

def role0 (buf : List Msg) : Role := { conv := 1, role := 0, buf := buf, ended := none, waits := false }

def msg0 : Msg := { no := 0, kind := 0, state := 1, sender := 0, term := false, branch := false, tag := 4, elems := [7], valid := [true] }

/-- X may hold role 0 of conversation 1 of this device; devices as reach says. -/
def conversing (y : Option Role) (reach : Word) (f : Core → Core) : State :=
  let s := atX 0x40 fun c => f { c with roles := c.roles.set 0 y }
  { s with reach := reach }

theorem notSent : (conversing (some (role0 [])) 1 id).NotSent := .inl rfl

/-- csend and cchoose: a role, a home that is reached, a message that fits and one of 17 elements of 32 bits; a release that is done, one
that waits, a store behind it to a lost peer, and stores before it to lost peers 1 and 2. -/
theorem test_witness_sends :
    (let s := lanes 2 (vreg 4 [1, 2]) (vreg 4 []) fun c => { c with roles := c.roles.set 0 (some (role0 [])) }
     s.vlen (VSrc.reg 1).queue = .ok 2 ∧ s.srcName (.reg 1) = .ok () ∧ s.vraw 2 (.reg 1) = .ok (s.readReg 1 2) ∧
     tagOk (s.readReg 1 2).tag = true ∧ isCx (s.readReg 1 2).tag = false ∧ 2 * tagW (s.readReg 1 2).tag ≤ 512 ∧
     512 < 17 * tagW (s.readReg 1 2).tag ∧ (∀ g ∈ s.members, ∀ p ∈ (s.core g).lostStores, g = s.cur.core ∧ s.releaseBound ≤ p.1) ∧ s.releaseDone s.releaseBound = true) ∧
    (conversing (some (role0 [])) 1 id).reaches 0 = true ∧
    (let s := conversing (some (role0 [])) 1 fun c => { c with pend := [acc0 5 (.writes [[0]]) 0x100 8], nextId := 16 }
     s.releaseDone s.releaseBound = false) ∧
    (let s := conversing (some (role0 [])) 1 fun c => { c with lostStores := [(16, 3)], nextId := 16 }
     ∀ g ∈ s.members, ∀ p ∈ (s.core g).lostStores, g = s.cur.core ∧ s.releaseBound ≤ p.1) ∧
    (let s := conversing (some (role0 [])) 1 fun c => { c with lostStores := [(15, 2), (14, 1), (16, 0)], nextId := 16 }
     (∃ g ∈ s.members, ∃ p ∈ (s.core g).lostStores, (p.1 < s.releaseBound ∨ g ≠ s.cur.core) ∧ p.2 = 1) ∧
       ∀ g ∈ s.members, ∀ p ∈ (s.core g).lostStores, p.1 < s.releaseBound ∨ g ≠ s.cur.core → 1 ≤ p.2) ∧
    (conversing (some (role0 [])) 1 id).CanTrap := by
  refine ⟨?_, ?_, ?_, ?_, ?_, rfl, ?_, rfl, rfl⟩ <;> decide +kernel

/-- cjoin, cleave, cdeleg and cstate: the least and greatest conversation, one too great; a party with its reserved bits clear, and not. -/
theorem test_witness_joins : (conversing none 1 id).NotSent ∧ (conversing none 1 id).me.roles[(0 : Fin 4).val] = none ∧
    ((conversing none 1 id).reaches 0 = true ∧ (conversing none 1 id).reaches 63 = false ∧ 2 ^ 20 ≤ 2 ^ 20 ∧ (2 ^ 20 - 1) / 2 ^ 14 = 63) ∧
    (let v : Word := (conversing (some (role0 [])) 1 (setX 3 0xFF1FFFFF3F)).val 3
     v.toNat < 2 ^ 40 ∧ bits v.toNat 15 6 ≠ 0) ∧
    (let v : Word := (conversing (some (role0 [])) 1 (setX 3 0xFFEFFF003F)).val 3
     v.toNat < 2 ^ 40 ∧ bits v.toNat 15 6 = 0 ∧ bit v.toNat 28 = false) ∧
    ((conversing (some (role0 [])) 1 id).peer 0).lost = false ∧ (conversing (some (role0 [])) 0 id).reaches 0 = false := by
  refine ⟨.inl rfl, rfl, ?_, ?_, ?_, ?_, ?_⟩ <;> decide +kernel

/-- Conversation 1 stands at a state of protocol 0, which has 2 states, 2 roles and 1 kind: role 0 sends it to role 1 from state 0. -/
def home (cvd : Word) (roles : List RoleSt) (q : List Msg) (away : Nat) (req : ReqKind) (op : ConvOp) : State :=
  let s := conversing none 1 fun c => { c with conv := some (.sent op 1), reqNo := 1 }
  let p : Party := { dev := 0, src := 0, asid := 0 }
  ({ s with
    protos := [(0, [0xA5, 0xC0, 2, 2, 1, 0] ++ List.replicate 10 0 ++ [0x80, 0, 0, 4])]
    convs := [(1, { Conv.reset with roles := roles, queues := [[], q], away := [0, away] })]
    homeIn := [{ r := { conv := 1, party := p, req := req }, src := 0, here := true, rid := 1 }] } : State).ctlSet (0x40000 + 8) cvd

def party0 : Party := { dev := 0, src := 0, asid := 0 }

def sendReq : ReqKind := .send 0 0 false 4 [7] [true]

/-- Replies to each kind of request, of this device and of another one, to an instruction that is gone, and a request that is tried
again. -/
theorem test_witness_replies :
    (conversing (some (role0 [])) 1 fun c => { c with conv := some (.replied (.leave 0) 1 .accepted) }).Replied core0 (.leave 0) 1 .accepted ∧
    (conversing (some (role0 [msg0])) 1 fun c => { c with conv := some (.replied (.deleg 0) 1 .accepted) }).Replied core0 (.deleg 0) 1 .accepted ∧
    (let s := home 0x8000000000000000 [.offered party0] [] 1 (.deleg 0 party0) (.deleg 0)
     cvdEn (s.cvd 1) = true ∧ (s.conv 1).base ≤ msg0.no ∧ (s.conv 1).role 0 = .offered party0 ∧ 1 / 2 ^ 14 = s.dev) ∧
    (conversing none 1 fun c => { c with conv := some (.replied (.join 0 15 4) 1 .convRole) }).Replied core0 (.join 0 15 4) 1 .convRole ∧
    ((conversing none 1 fun c => { c with conv := some (.sent (.join 0 15 4) (2 ^ 14)) }).core core0.no).conv = some (.sent (.join 0 15 4) (2 ^ 14)) ∧
    ((conversing none 1 fun c => { c with conv := some (.again (.leave 0) 0) }).core core0.no).conv = some (.again (.leave 0) 0) ∧
    ((conversing none 1 fun c => { c with conv := some (.void (.leave 0) (2 ^ 14)) }).core core0.no).conv = some (.void (.leave 0) (2 ^ 14)) ∧
    2 ^ 14 / 2 ^ 14 ≠ (conversing none 1 id).dev ∧ (conversing none 1 id).gts.toNat < (0 : Word).toNat + 1000 ∧ ({ (conversing none 1 id) with gts := 1000 } : State).gts.toNat = 1000 :=
  ⟨rfl, rfl, by decide +kernel, rfl, rfl, rfl, rfl, by decide +kernel, by decide +kernel, rfl⟩

theorem homeTurn (cvd : Word) (roles : List RoleSt) (q : List Msg) (away : Nat) (req : ReqKind) (op : ConvOp) :
    (home cvd roles q away req op).HomeTurn 0 { r := { conv := 1, party := party0, req := req }, src := 0, here := true, rid := 1 } 1 op 1 :=
  ⟨rfl, rfl, rfl, rfl, rfl, Nat.one_ne_zero⟩

/-- HOME_SEND: accepted, in a state without a transition, after the end, and by a party that is not bound; no slot left. -/
theorem test_witness_home_send :
    (let s := home 0x8000000000000000 [.bound party0] [] 0 sendReq (.choose 0 0)
     let x := protoEntry (s.protoOf 1) (cvdState (s.cvd 1)) 0
     s.openFor 1 0 = true ∧ (s.conv 1).role 0 = .bound party0 ∧ cvdTerm (s.cvd 1) = false ∧ x ≠ 0 ∧ entSnd x = 0 ∧ entB x = false ∧
     popcount (entRcv x) 16 = 1 ∧ popcount (entRcv x) 16 ≤ s.freeSlots 1) ∧
    (let s := home 0x8100000000000000 [.bound party0] [] 0 sendReq (.choose 0 0)
     protoEntry (s.protoOf 1) (cvdState (s.cvd 1)) 0 = 0) ∧
    cvdTerm ((home 0xC100000000000000 [.bound party0] [] 0 sendReq (.choose 0 0)).cvd 1) = true ∧
    ((home 0x8000000000000000 [] [] 0 sendReq (.choose 0 0)).conv 1).role 0 ≠ .bound party0 ∧
    ((home 0x8000000000000000 [.moving party0] [] 0 sendReq (.choose 0 0)).conv 1).role 0 = .moving party0 ∧
    (home 0x8000000000000000 [.bound party0] (List.replicate 64 msg0) 0 sendReq (.choose 0 0)).freeSlots 1 = 0 := by
  decide +kernel

/-- HOME_JOIN, HOME_LEAVE, HOME_DELEGATE and HOME_STATE_READ. -/
theorem test_witness_home_joins :
    (let s := home 0x8000000000000000 [] [] 0 (.join 1) (.join 0 1 4)
     s.openFor 1 0 = true ∧ (1 : Fin 16).val < protoNRole (s.protoOf 1) ∧ (s.conv 1).role 1 = .unbound ∧ (s.conv 1).awayOf 1 = 0 ∧
     protoNRole (s.protoOf 1) ≤ (2 : Fin 16).val ∧ cvdTerm (s.cvd 1) = false) ∧
    ((home 0x8000000000000000 [] [] 2 (.join 1) (.join 0 1 4)).conv 1).awayOf 1 ≠ 0 ∧
    ((home 0x8000000000000000 [.bound party0] [] 0 (.deleg 0 party0) (.deleg 0)).conv 1).role 0 = .bound party0 ∧
    ((home 0 [.bound party0] [] 0 (.leave 0) (.leave 0)).openFor 1 0 = false) ∧
    cvdEn ((home 0x8000000000000000 [] [] 0 .state (.state 3 0)).cvd 1) = true ∧ cvdEn ((home 0 [] [] 0 .state (.state 3 0)).cvd 1) = false := by
  decide +kernel

/-- MESSAGE_FORWARD to a core of this device whose buffer has room, to one whose restored role its home has not bound yet, and where the buffer is full;
and a message that comes from a home on another device. -/
theorem test_witness_forward :
    let s := { home 0x8000000000000000 [.unbound, .bound party0] [msg0] 3 .state (.state 3 0) with
      cores := (conversing (some { role0 [] with role := 1 }) 1 id).cores }
    (s.conv 1).role 1 = .bound party0 ∧ (s.conv 1).queue 1 = msg0 :: [] ∧ cvdTerm (s.cvd 1) = false ∧ (s.conv 1).awayOf 1 < 4 ∧
    (s.core 0).mayDeliver party0 (s.dev * 2 ^ 14 + 1) 1 = true ∧ party0.dev.val = s.dev ∧ party0.src / 2 ^ 13 * 256 + party0.src % 256 = 0 ∧
    (let u := { s with cores := (conversing (some { role0 [] with role := 1, waits := true }) 1 id).cores }
     (u.core 0).mayDeliver party0 (u.dev * 2 ^ 14 + 1) 1 = false ∧ cvdEn (u.cvd 1) = true ∧
     (u.conv 1).base ≤ msg0.no) ∧
    (let y : Role := { role0 [] with conv := 2 ^ 14 }
     let u := conversing (some y) 1 id
     (u.core core0.no).roles[(0 : Fin 4).val] = some y ∧ y.conv / 2 ^ 14 ≠ u.dev ∧ y.buf.length < 4 ∧
     (u.core core0.no).mayDeliver (u.partyOf core0.no) y.conv y.role = true) ∧
    4 ≤ ((home 0x8000000000000000 [.unbound, .bound party0] [msg0] 4 .state (.state 3 0)).conv 1).awayOf 1 ∧
    ({ role0 [] with conv := 2 ^ 14 } : Role).conv / 2 ^ 14 ≠ s.dev := by
  decide +kernel

def recv0 (s : State) (gone : Bool) : CrecvSt :=
  { cv := 0, dst := .reg 1, b := 3, snap := s.me.snapshot, young := 0, sent := false, gone := gone }

/-- crecv at its issue; CRECV_COMPLETE with a message for a register and for a queue with room and without, without one, after the end and
after the loss of the role. -/
theorem test_witness_receives :
    ((conversing (some (role0 [])) 1 id).dstName (.reg 1) = .ok () ∧ (conversing (some (role0 [])) 1 id).dstName (.sq 1) = .ok () ∧
     (conversing (some (role0 [])) 1 id).me.crecvs = [] ∧ (conversing (some (role0 [])) 1 id).Has 3) ∧
    (let w := recv0 (conversing (some (role0 [msg0])) 1 id) false
     let s := conversing (some (role0 [msg0])) 1 fun c => { c with crecvs := [w] }
     (s.core core0.no).crecvs = w :: [] ∧ w.gone = false ∧ (s.core core0.no).roles[w.cv.val] = some (role0 [msg0]) ∧
     (s.asX core0).members = [core0.no] ∧ ((s.core core0.no).sq[1]).ents.length < 8) ∧
    8 ≤ ((conversing none 1 fun c => { c with sq := c.sq.set 1 { ents := List.replicate 8 (spillEnt 1 []), ctr := 0 } }).core 0).sq[1].ents.length ∧
    ((role0 []).buf = [] ∧ (role0 []).ended = none) ∧
    (let w := recv0 (conversing (some (role0 [])) 1 id) false
     let s := conversing (some { role0 [] with ended := some 1 }) 1 fun c => { c with crecvs := [w] }
     (s.core core0.no).conv = none ∧ (s.asX core0).unwindAll.CanTrap) ∧
    (let w := recv0 (conversing (some (role0 [])) 1 id) true
     let s := conversing none 1 fun c => { c with crecvs := [w] }
     w.gone = true ∧ (s.core core0.no).conv = none ∧ (s.asX core0).unwindAll.CanTrap) := by
  refine ⟨⟨?_, ?_, rfl, rfl⟩, ?_, ?_, ?_, ⟨rfl, ?_, ?_, ?_, ?_⟩, rfl, rfl, ?_, ?_, ?_, ?_⟩ <;> decide +kernel

/-- S3 points at a definition in memory that the translation buffer maps, s4 holds the slot 63. -/
def protocol (bs : List Byte) : State :=
  { atX 0x40 fun c => setX 3 0x1000 (setX 4 63 c) with
    tlb := [{ pane := 0, host := false, asid := 0, va := 0, size := 2 ^ 30, pa := 0, w := false, x := false, s := false }]
    mem := Memory.writeN [] 0x1000 bs }

def proto0 : List Byte := [0xA5, 0xC0, 2, 2, 1, 0] ++ List.replicate 10 0 ++ [0x80, 0, 0, 4]

/-- The 16-byte blocks of that definition. -/
def block0 (j : Nat) : List Byte :=
  if j = 0 then proto0.take 16 else if j = 1 then proto0.drop 16 ++ List.replicate 12 0 else List.replicate 16 0

theorem readProto_blocks (s : State) (a : Word) (f : Nat → List Byte) (js : List Nat)
    (h : ∀ j ∈ js, (match s.place (s.how .read false 16) (a + BitVec.ofNat 64 (16 * j)) with
      | .ok p    => s.readPlace p 16
      | .error e => .error e) = .ok (f j)) : s.readProto a js = .ok (js.flatMap f) := by
  induction js with
  | nil => rfl
  | cons j js ih =>
    have hj := h j (by simp)
    have ht := ih fun k hk => h k (by simp [hk])
    simp only [State.readProto, ht]
    cases hp : s.place (s.how .read false 16) (a + BitVec.ofNat 64 (16 * j)) with
    | error e => simp [hp] at hj
    | ok p =>
      simp only [hp] at hj
      simp [bind, Except.bind, hj, pure, Except.pure]

theorem blocks0 : (List.range 257).flatMap block0 = proto0 ++ List.replicate 4092 0 := by
  rw [List.flatMap_def, show (List.range 257).map block0 = proto0.take 16 :: (proto0.drop 16 ++ List.replicate 12 0) ::
    List.replicate 255 (List.replicate 16 0) by decide +kernel]
  rw [List.flatten_cons, List.flatten_cons, List.flatten_replicate_replicate, show (4092 : Nat) = 12 + 255 * 16 by decide,
    ← List.replicate_append_replicate, ← List.append_assoc, ← List.append_assoc, ← List.append_assoc, List.take_append_drop]

theorem entry0 (st k : Nat) : protoEntry (proto0 ++ List.replicate 4092 0) st k = if 16 * st + k = 0 then 0x04000080 else 0 := by
  unfold protoEntry
  generalize 16 * st + k = n
  obtain rfl | hn := Nat.eq_zero_or_pos n
  · decide +kernel
  · rw [if_neg (by omega), List.drop_append, List.drop_eq_nil_of_le (by simp [proto0]; omega), List.nil_append, List.drop_replicate,
      List.take_replicate]
    generalize min 4 _ = m
    induction m with
    | zero => rfl
    | succ m ih => simpa [List.replicate_succ, leNat] using ih

theorem protoOk0 : protoOk (proto0 ++ List.replicate 4092 0) = true := by
  have hn : protoNState (proto0 ++ List.replicate 4092 0) = 2 := rfl
  have hr : protoNRole (proto0 ++ List.replicate 4092 0) = 2 := rfl
  have hk : protoNKind (proto0 ++ List.replicate 4092 0) = 1 := rfl
  have hi : protoInit (proto0 ++ List.replicate 4092 0) = 0 := rfl
  have h2 : leNat ((proto0 ++ List.replicate 4092 0).take 2) = 0xC0A5 := rfl
  have h3 : ((proto0 ++ List.replicate 4092 0).drop 6).take 10 = List.replicate 10 0 := rfl
  unfold protoOk
  simp only [branchOk, entryOk, entry0, hn, hr, hk, hi, h2, h3]
  decide +kernel

theorem protoReads : (protocol proto0).readProto ((protocol proto0).val 3) (List.range 257) = .ok (proto0 ++ List.replicate 4092 0) := by
  rw [← blocks0]
  exact readProto_blocks _ _ _ _ (by decide +kernel)
/-- cprot: the greatest slot and one too great, an address of another space and one that is misaligned; a definition that is one and one
that is none. -/
theorem test_witness_protocols :
    (let s := protocol proto0
     s.mySide.super = true ∧ s.Has 3 ∧ s.Has 4 ∧ s.me.crecvs = [] ∧ (s.val 4).toNat ≤ 63 ∧ (s.val 3).toNat / 2 ^ 56 = 0 ∧
     (s.val 3).toNat % 16 = 0 ∧ s.slotInUse 63 = false ∧ s.releaseDone s.releaseBound = true ∧
     s.readProto (s.val 3) (List.range 257) = .ok (proto0 ++ List.replicate 4092 0)) ∧ protoOk (proto0 ++ List.replicate 4092 0) = true ∧
    leNat ((List.replicate 4112 (0 : Byte)).take 2) ≠ 0xC0A5 ∧ 63 < (64 : Word).toNat ∧ (0x0100000000000000 : Word).toNat / 2 ^ 56 ≠ 0 ∧ (8 : Word).toNat % 16 ≠ 0 := by
  refine ⟨⟨rfl, rfl, rfl, rfl, ?_, ?_, ?_, ?_, ?_, protoReads⟩, protoOk0, ?_, ?_, ?_, ?_⟩ <;> decide +kernel

/-- CONVERSATION_OPEN of a slot without a protocol, at an initial state, at one that is given and at one that is out of range; CLOSE without
a request before it, and with one. -/
theorem test_witness_opens :
    (let s := home 0 [] [] 0 .state (.state 3 0)
     cvdEn (s.cvd 1) = false ∧ cvdEn (0x8004000000000000 : Word).toNat = true ∧ nget s.protos (cvdSlot (0x8004000000000000 : Word).toNat) = none ∧
     (nget s.protos (cvdSlot (0x8000000000000000 : Word).toNat)).isSome = true ∧ bit (0x8001000000000000 : Word).toNat 48 = true ∧
     cvdState (0x8101000000000000 : Word).toNat = 1 ∧ cvdState (0x8201000000000000 : Word).toNat = 2 ∧ protoNState (s.protoOf 1) = 2) ∧
    (let s := ({ conversing (some (role0 [])) 1 id with convs := [(1, { Conv.reset with roles := [.bound party0] })] } : State).ctlSet (0x40000 + 8) 0x8000000000000000
     cvdEn (s.cvd 1) = true ∧ s.homeIn = [] ∧ (s.conv 1).role 0 = .bound party0 ∧ s.holder party0 (s.dev * 2 ^ 14 + 1) 0 = some 0 ∧
     ∀ q : Fin 16, q ≠ 0 → (s.conv 1).role q.val = .unbound) ∧
    (let s := home 0x8000000000000000 [.bound party0] [] 0 (.leave 0) (.leave 0)
     cvdEn (s.cvd 1) = true ∧ s.homeIn = [{ r := { conv := 1, party := party0, req := .leave 0 }, src := 0, here := true, rid := 1 }] ∧
     (s.homeStep 0).homeIn = [] ∧ cvdEn ((s.homeStep 0).cvd 1) = true) := by
  decide +kernel

end Tests
end Sys2Proof
end

