-- ==== Sys2Proof/Tests/WitnessTasks.lean ====
section
/-!
SUPPORT. Witnesses for the statements about spawning, barriers, merges, launches and tasks.
-/

set_option Elab.async false

namespace Sys2Proof
namespace Tests

open Sys2Proof.Machine

/-- A spawn of s4 to s7, whose last register is the given word. -/
def spawning (w : Word) : State := on .A (fun c => setA 4 0x1000 (setA 7 w c))

theorem atSpawn (w : Word) : (spawning w).AtSpawn 4 4 where
  reg  := rfl
  low  := by decide
  high := by decide
  full := by
    intro i hi
    have : i = 0 ∨ i = 1 ∨ i = 2 ∨ i = 3 := by omega
    obtain rfl | rfl | rfl | rfl := this <;> rfl

/-- spawn: the least and the greatest gang, and each field that is bad; a contract that is not admitted. -/
theorem test_witness_spawn : (spawning 0x00FF000100000007).AtSpawn 4 4 ∧
    (let r := (spawning 0x00FF071000000007).spawnRecord 4
     r.gsize = 16 ∧ r.prio = 7 ∧ r.contract = 0xFF) ∧
    (bits (0x00FF071000000007 : Word).toNat 63 56 = 0 ∧ (spawning 0).covered .dev = true ∧ (spawning 0).queuedRecords (spawning 0).myFn < 2 ^ 20) ∧
    ((spawning 0x00FF000000000007).spawnRecord 4).gsize = 0 ∧ ((spawning 0x00FF001100000007).spawnRecord 4).gsize = 17 ∧
    ((spawning 0x00FF080100000007).spawnRecord 4).prio = 8 ∧ ((spawning 0x0040000100000007).spawnRecord 4).contract = 64 ∧
    bits (0x01FF000100000007 : Word).toNat 63 56 ≠ 0 ∧ (spawning 0x003F000100000007).cAdm 63 = false ∧ (spawning 0).CanTrap := by
  refine ⟨atSpawn _, ?_, ?_, ?_, ?_, ?_, ?_, ?_, ?_, rfl, ?_, rfl, rfl⟩ <;> decide +kernel

/-- done on A: with nothing behind it, with a card of the task, with a failure and with a store that is not performed; on X. -/
theorem test_witness_done :
    ((on .A id).cur.core < 2048 ∧ ¬ (on .A id).StoresOpen ∧ (∀ x ∈ (on .A id).me.pend, x.kind.isAwait = true) ∧ (on .A id).failRecs (on .A id).cur.core = [] ∧
     (∀ k ∈ ((on .A id).pane ((on .A id).cur.core / 256)).cards, k.task ≠ (on .A id).me.task) ∧ (on .A id).myTask = some task0 ∧
     task0.conflict = none) ∧
    (∃ k ∈ ((carded [] [card dst0 .accepted]).pane 0).cards, k.task = (carded [] [card dst0 .accepted]).me.task) ∧
    (let r : FailRec := { key := none, cause := 8, chunk := 0, boff := 0 }
     let s := { on .A id with tasks := [{ task0 with fails := [r] }] }
     s.failRecs s.cur.core = r :: [] ∧ s.CanTrap) ∧
    (let s := pending [acc0 5 (.writes [[0]]) 0x100 8]
     (∃ x ∈ s.me.pend, x.kind.isAwait = false) ∧ ∀ x ∈ s.me.pend, x.kind.isAwait = false) ∧
    (pending [acc0 5 (.stq 0 5 .plain false) 0x100 8]).StoresOpen ∧
    (let s := pending [acc0 5 (.writes [[0]]) 0x100 8, acc0 6 (.await 4 0 0) 0x200 16]
     ¬ s.StoresOpen ∧ (∀ k ∈ (s.pane (s.cur.core / 256)).cards, k.task ≠ s.me.task) ∧
     (∃ x ∈ s.me.pend, x.kind.isAwait = false) ∧ ∃ x ∈ s.me.pend, x.kind.isAwait = true) ∧
    ((on .X id).cur.core < 2048 ∧ (on .X id).me.conv = none ∧ (on .X id).isLong (on .X id).cur.core = false ∧ ∀ q : Fin 2, ((on .X id).me.sq[q.val]).ents = []) ∧
    (on .X id).me.av.fin = false ∧ (on .X fun c => { c with av := { c.av with fin := true } }).me.av.fin = true ∧
    ((on .X fun c => { c with sq := c.sq.set 1 { ents := [headerEnt], ctr := 0 } }).me.sq[(1 : Fin 2).val]).ents ≠ [] := by
  refine ⟨⟨?_, ?_, ?_⟩, ⟨card dst0 .accepted, ?_, ?_⟩, ⟨?_, rfl, ?_, rfl, rfl⟩, ?_, ?_, ⟨?_, ?_⟩, ?_, ?_, ?_, ?_⟩
  case refine_2 => unfold State.StoresOpen; decide +kernel
  case refine_9 => unfold State.StoresOpen; decide +kernel
  case refine_10 => unfold State.StoresOpen; decide +kernel
  all_goals decide +kernel

def bar0 (ds mg : Bool) : BarSt := { isDsync := ds, merge := mg }

/-- A launch that is deterministic and over but for one task, which waits at dsync. -/
def det0 : LaunchSt :=
  { id := 2, fn := 0, det := true, rerun := false, count := 1, next := 1, cont := rec0, fstride := 0, vlfix := 9, status := 0, out := 1, stateNo := 1,
    fails := [], interval := 0, held := [], base := [], logs := [], merging := none }

def detTask0 : Task := { task0 with launch := some 2, log := [.plain 0x100 [some 1]] }

/-- Core 0 runs that task and both its sides wait in their barriers. -/
def detRun (l : LaunchSt) (b : Option BarSt) : State :=
  { on .A fun c => { c with av := { c.av with q := 1, bar := b }, xv := { c.xv with q := 1, bar := b } } with
    tasks := [detTask0], launches := [l] }

/-- gbar and dsync: a side at no barrier; one whose round is over, and one that waits for the other; a task that has a conflict. -/
theorem test_witness_barriers : (on .A id).mySide.bar = none ∧
    (((detRun det0 (some (bar0 true false))).core core0.no).side .A).bar = some (bar0 true false) ∧
    (detRun det0 (some (bar0 true false))).RoundOver core0.no .A 1 ∧
    ¬ (on .A fun c => { c with av := { c.av with q := 0 } }).RoundOver core0.no .A 1 ∧ ((detRun det0 none).detTask core0.no).isSome = true ∧
    (on .A id).detTask core0.no = none ∧ 
    (let s := { on .A id with tasks := [{ task0 with conflict := some (1, 2) }] }
     s.myTask = some { task0 with conflict := some (1, 2) } ∧ s.CanTrap) := by
  refine ⟨rfl, rfl, ?_, ?_, ?_, ?_, rfl, rfl, ?_, rfl, rfl⟩
  · intro n hn
    rw [show (detRun det0 (some (bar0 true false))).gang core0.no = [0] from rfl, List.mem_singleton] at hn
    subst hn
    exact .inr (.inl ⟨by decide +kernel, fun _ => by decide +kernel⟩)
  · intro h
    obtain h | ⟨h, -⟩ | ⟨h, -⟩ := h 0 (by decide +kernel)
    all_goals revert h; decide +kernel
  all_goals decide +kernel

/-- INTERVAL_CLOSE; the last part of a merge without and with a conflict, of a task that has ended, and of one that waits. -/
theorem test_witness_merges :
    (let s := detRun det0 (some (bar0 true true))
     s.launchOf (some det0.id) = some det0 ∧ s.tasks.filter (fun t => t.launch == some det0.id) = [detTask0] ∧ det0.merging = none ∧
     det0.next = det0.count ∧ det0.out = 1 ∧ s.atDsync detTask0 = true) ∧
    (let x : MergeLog := { id := 7, task := none, log := [.plain 0x100 [some 1]], failed := false, pane := 0 }
     let l := { det0 with merging := some ([x], []) }
     let s : State := { detRun l none with tasks := [] }
     s.launchOf (some l.id) = some l ∧ firstClash (s.unmap (asidOfFn l.fn)) [] x.log = none ∧
     (firstClash (s.unmap (asidOfFn l.fn)) [{ id := 6, task := none, log := [.plain 0x100 [some 2]], failed := false, pane := 0 }] x.log).isSome = true ∧
     clashBytes [.plain 0x100 [some 2]] x.log = [0x100] ∧ clashBytes [.plain 0x101 [some 2]] x.log = []) ∧
    (let x : MergeLog := { id := 7, task := some 3, log := [.plain 0x100 [some 1]], failed := false, pane := 0 }
     let l := { det0 with merging := some ([x], []) }
     let s := detRun l (some (bar0 true true))
     s.launchOf (some l.id) = some l ∧ s.tasks = [detTask0] ∧ detTask0.cores = [0] ∧ ((s.core 0).side .A).bar = some (bar0 true true) ∧
     (((detRun l none).core 0).side .A).bar = none) := by
  decide +kernel

/-- A function whose launch FIFO and taking are given, before a launch window at 0x1000 of 4 slots of host memory that holds a block. -/
def launching (fifo : List (Nat × Nat)) (taking : Option (Nat × Nat × Nat)) (tries : Nat) (block : List Byte) : State :=
  { State.reset with
    boot := { BootSt.reset with phase := .running }, numVFs := 128
    tlb := [{ pane := 64, host := true, asid := 0, va := 0x1000, size := 4096, pa := 0x1000, w := true, x := false, s := false }]
    fns := [(0, { Fn.reset with lwbase := 0x1000, lwcnt := 4, fifo := fifo, taking := taking, tries := tries })]
    mem := Memory.writeN [] (hostKey 0x1000) block, gts := 0x10000 }

/-- A block of stamp 9: one unit, a gang of one, no contract. -/
def launchBlock : List Byte :=
  leBytes 4 9 ++ leBytes 4 0 ++ leBytes 8 1 ++ leBytes 8 0x1000 ++ leBytes 8 0 ++ leBytes 4 0 ++ [1, 0, 0xFF, 0] ++ List.replicate 24 0

/-- LAUNCH of 8 bytes with room and without it, and of another size; an index inside and outside the window. -/
theorem test_witness_launch : (launching [] none 0 []).fnOn 0 = true ∧ (((launching [] none 0 []).fn 0).fifo.length < 64) ∧
    64 ≤ ((launching (List.replicate 64 (1, 0)) none 0 []).fn 0).fifo.length ∧ (launching [] none 0 []).portOn = true ∧
    ((launching [(9, 4)] none 0 []).fn 0).fifo = (9, 4) :: [] ∧ ((launching [(9, 4)] none 0 []).fn 0).lwcnt.toNat ≤ 4 ∧
    3 < ((launching [(9, 3)] none 0 []).fn 0).lwcnt.toNat ∧ ((launching [] none 0 []).fn 0).taking = none := by
  decide +kernel

/-- LAUNCH_FETCH_ATTEMPT: the stamp that is not there yet at the first and the last try, a block with a bad status address, a good one; and
a try before its time. -/
theorem test_witness_attempts :
    (let s := launching [] (some (9, 0, 0x1000)) 0 launchBlock
     (s.fn 0).taking = some (9, 0, 0x1000) ∧ (s.fn 0).first = none ∧ (s.fn 0).taken.toNat + 250 * (s.fn 0).tries ≤ s.gts.toNat ∧ s.SlotAt 0 0x1000 (hostKey 0x1000) ∧
     BlockGood (Memory.readN s.mem (hostKey 0x1000) 64) ∧
     ((s.setFn 0 { s.fn 0 with first := some launchBlock }).fn 0).first = some (Memory.readN s.mem (hostKey 0x1000) 64) ∧ leNat ((Memory.readN s.mem (hostKey 0x1000) 64).take 4) = 9) ∧
    leNat ((Memory.readN (launching [] (some (8, 0, 0x1000)) 0 launchBlock).mem (hostKey 0x1000) 64).take 4) ≠ 8 ∧
    15 ≤ ((launching [] (some (8, 0, 0x1000)) 15 launchBlock).fn 0).tries ∧
    leNat (((launchBlock.take 0x30 ++ leBytes 8 8 ++ leBytes 8 0).drop 0x30).take 8) % 32 ≠ 0 ∧
    ({ launching [] (some (9, 0, 0x1000)) 1 launchBlock with gts := 249 } : State).gts.toNat < ((launching [] (some (9, 0, 0x1000)) 1 launchBlock).fn 0).taken.toNat + 250 * 1 := by
  refine ⟨⟨?_, ?_, ?_, ⟨?_, ?_⟩, ⟨⟨?_, ?_, ?_, ?_, ?_, ?_, ?_⟩, ?_, ?_, ?_, ?_⟩, ?_, ?_⟩, ?_, ?_, ?_, ?_⟩ <;> decide +kernel

/-- Blocks that pass their status check and have a bad field, no unit and too many. -/
theorem test_witness_bad_blocks :
    (let b := launchBlock.take 0x24 ++ [17] ++ launchBlock.drop 0x25
     StatusGood b ∧ ¬ FieldsGood b) ∧
    (let b := launchBlock.take 8 ++ leBytes 8 0 ++ launchBlock.drop 16
     StatusGood b ∧ FieldsGood b ∧ leNat ((b.drop 8).take 8) = 0) ∧
    (let b := launchBlock.take 8 ++ leBytes 8 (2 ^ 32 + 1) ++ launchBlock.drop 16
     StatusGood b ∧ FieldsGood b ∧ 2 ^ 32 < leNat ((b.drop 8).take 8)) := by
  refine ⟨⟨⟨?_, ?_, ?_⟩, fun h => absurd h.gsize ?_⟩, ⟨⟨?_, ?_, ?_⟩, ⟨?_, ?_, ?_, ?_, ?_, ?_, ?_⟩, ?_⟩,
    ⟨?_, ?_, ?_⟩, ⟨?_, ?_, ?_, ?_, ?_, ?_, ?_⟩, ?_⟩ <;> decide +kernel

/-- A record of an image at 0x1000 that waits in a queue of function 0, while core 0 runs a task of its own or is idle. -/
def waiting (ts : List Task) (mem : List Host.Cell) : State :=
  { State.reset with
    boot := { BootSt.reset with phase := .running }, numVFs := 128
    tlb := [{ pane := 0, host := false, asid := 0, va := 0, size := 2 ^ 30, pa := 0, w := true, x := true, s := false }]
    fns := [(0, { Fn.reset with queues := [[.record { rec0 with gsize := 1 } none 0 []]] })]
    cores := (ts.map fun t => (t.cores.headD 0, { Core.reset with task := some t.id })), tasks := ts, nextTask := 4, mem := mem }

def cand0 : Cand :=
  { slot := none, fn := 0, prio := 0, contract := 0xFF, pos := 0, item := .record rec0 none 0 [], cont := rec0, launch := none, interval := 0, prefixLog := [] }

/-- RECORD_PLACEMENT with an idle core, and without a record. -/
theorem test_witness_placement : (waiting [] []).nextCand = some cand0 ∧ (waiting [] []).planFor cand0 = .place [0] ∧
    State.reset.nextCand = none := by
  decide +kernel

/-- An image header of a kernel without a preload. -/
def header0 : List Byte :=
  leBytes 4 0x5A170E8B ++ leBytes 4 2 ++ leBytes 4 0x40 ++ leBytes 4 0x80 ++ [1, 0, 0, 0] ++ List.replicate 44 0

def image0 : List Host.Cell := Memory.writeN [] 0x1000 header0

theorem imageOk : Memory.wf image0 = true := by decide +kernel

def hdr0 : ImageHdr := { long := false, vnreg := 8, aentry := 0x40, xentry := 0x80, resv := 1, pre := 0, preptr := 0 }

def placed0 : Task := { task0 with phase := .placed }

/-- A preload of that record on core 0, which fills a region of its scratchpad. -/
def pre0 (parked : Bool) : Preload :=
  { cores := [0], fn := 0, cont := rec0, launch := none, interval := 0, prefixLog := [], asid := 0, resv := 1, pre := 1, bases := [0], head := header0
    lines := [], parked := parked }

/-- TASK_START of an image, without and with a preload in its slot, and of what is none. -/
theorem test_witness_starts :
    (let s := waiting [placed0] image0
     s.MemOk ∧ s.task 3 = some placed0 ∧ s.StartsFirst placed0 ∧ s.ImageReady s placed0 0 hdr0 0 0 []) ∧
    (let s := { waiting [placed0] image0 with preloads := [pre0 false] }
     s.MemOk ∧ s.ImageReady { s with preloads := s.preloads.erase (pre0 false) } placed0 0 hdr0 0 1 []) ∧
    (waiting [placed0] []).header 0 0 0x1000 = .error (1, 0) := by
  refine ⟨⟨imageOk, ?_, ⟨[], [], rfl, nofun⟩, .inl ⟨?_, rfl, ?_, ?_, ?_, rfl⟩, ?_, ?_⟩,
    ⟨imageOk, .inr ⟨pre0 false, ?_, rfl, ?_, rfl, rfl, rfl, rfl⟩, ?_, ?_⟩, ?_⟩ <;> decide +kernel

/-- A record of contract 0, which may run on pane 0 alone, whose one core with lane groups runs a task of another contract. -/
def busy (ph : TaskPhase) : State :=
  let t : Task := { task0 with phase := ph, cont := { rec0 with contract := 1 } }
  let s := waiting [t] image0
  ({ s with
    cores := s.cores ++ (List.range 255).map fun i => (i + 1, { Core.reset with laneok := 0 })
    fns := [], cqueues := [(0, [.record { rec0 with contract := 0 } none 0 []])]
    contracts := [(0, { start := 0, charged := 0, used := 0, released := true, owed := 0 })] } : State).ctlSet 0x4000
      (BitVec.ofNat 64 (2 ^ 63 + 2 ^ 62 + 2 ^ 40 + 2 ^ 32))

def candC : Cand :=
  { slot := none, fn := 0, prio := 0, contract := 0, pos := 0, item := .record { rec0 with contract := 0 } none 0 [], cont := { rec0 with contract := 0 },
    launch := none, interval := 0, prefixLog := [] }

/-- RECORD_PLACEMENT of a record that waits for cores, and of one for which a task is being stopped; PRELOAD of the former. -/
theorem test_witness_waits_for_cores :
    (let s := busy .running
     s.nextCand = some candC ∧ s.planFor candC = .wait ∧ s.preloads = [] ∧ (s.contract candC.contract).owed = 0) ∧
    ((busy (.stopping false)).nextCand = some candC ∧ (busy (.stopping false)).planFor candC = .soon) := by
  decide +kernel

/-- RECORD_PLACEMENT of that record where the one task to be stopped for it would not fit in its area; TASK_START of a task of the same queue
as one that was placed before it. -/
theorem test_witness_passed_over :
    (let k : Task := { task0 with cont := rec0 }
     let s := { busy .running with tasks := [k] }
     s.nextCand = some candC ∧ s.planFor candC = .wait ∧ s.misfits candC = [k.id] ∧ s.task k.id = some k ∧ k.passedBy ≠ some candC.cont) ∧
    (let s := waiting [placed0, { placed0 with id := 5 }] image0
     s.task 5 = some { placed0 with id := 5 } ∧ s.tasks = [placed0] ++ { placed0 with id := 5 } :: [] ∧ placed0.phase = .placed) := by
  decide +kernel

theorem test_witness_preload :
    (let s := busy .running
     let t : Task := { task0 with cont := { rec0 with contract := 1 } }
     s.MemOk ∧ (s.core core0.no).task.bind s.task = some t ∧ s.PreloadReady 0 t candC hdr0 header0 []) := by
  refine ⟨imageOk, ?_, ⟨?_, ?_, ⟨?_, _, _, _, _, rfl⟩, ?_, ?_, ?_, ?_, ?_, ⟨?_, ?_⟩, ?_, ?_⟩⟩ <;> decide +kernel

/-- RECORD_PLACEMENT with nothing in the queues and a parked preload. -/
theorem test_witness_parked :
    (let s := { State.reset with preloads := [pre0 true] }
     s.contracts = [] ∧ s.nextCand = none ∧ (pre0 true).parked = true ∧ (∀ n ∈ (pre0 true).cores, (s.core n).task = none) ∧
     ∀ k ∈ s.tasks, k.isStopping = false) := by
  decide +kernel

/-- Core 0 has ended its task, with a join block at 0x2000 that counts n. -/
def ending (t : Task) (n : Nat) : State :=
  { on .A fun c => { c with av := { c.av with fin := true }, xv := { c.xv with fin := true } } with
    tasks := [t], launches := [{ det0 with det := false }]
    tlb := [{ pane := 0, host := false, asid := 0, va := 0, size := 2 ^ 30, pa := 0, w := true, x := true, s := false }]
    mem := Memory.writeN [] 0x2000 (leBytes 8 n ++ List.replicate 24 0 ++ leBytes 8 0x1000 ++ List.replicate 20 0 ++ [1, 0, 0xFF, 0]) }

/-- TASK_END without a join block, with one that counts 2, with one that counts 1, and in a launch, from the exit routine too. -/
theorem test_witness_ends :
    (ending task0 2).PlainEnd task0 0 ∧ (ending task0 2).coreDone task0 0 = true ∧ (ending task0 2).task 3 = some task0 ∧ task0.cont.join = 0 ∧
    (let t := { task0 with cont := { rec0 with join := 0x2000 } }
     (ending t 2).place { core := 0, super := false, asid := 0, acc := .amo, scalar := true, size := 64 } 0x2000 = .ok (.mem 0x2000) ∧
     1 < signedOf 64 (leNat (Memory.readN (ending t 2).mem 0x2000 8)) ∧ leNat (Memory.readN (ending t 1).mem 0x2000 8) = 1 ∧
     (recordOf (Memory.readN (ending t 1).mem (0x2000 + 0x20) 32)).2 = true ∧ Memory.wf (ending t 1).mem = true ∧ asidOfFn 0 = 0) ∧
    (let t := { task0 with launch := some 2, phase := .exiting 8 0 }
     (ending t 2).launchOf (some 2) = some { det0 with det := false } ∧ (ending t 2).coreDone t 0 = true ∧ t.conflict = none) := by
  refine ⟨⟨rfl, ⟨rfl, rfl⟩, ?_, rfl⟩, ?_, ?_, ?_, ?_, ?_⟩ <;> decide +kernel

/-- STATUS_RECORD_WRITE of a launch that is over, without and with a status address. -/
theorem test_witness_status :
    (let l := { det0 with out := 0 }
     ({ launching [] none 0 [] with launches := [l] } : State).launchOf (some l.id) = some l ∧ l.next = l.count ∧ l.status = 0) ∧
    (let l := { det0 with out := 0, status := 0x0400000000001000, fails := [{ id := 1, cause := 8, early := 1, addr := 0 }] }
     (launching [] none 0 []).statusPlace l = .ok (.mem (hostKey 0x1000))) := by
  decide +kernel

end Tests
end Sys2Proof
end

