-- ==== Sys2Proof/Tests/WitnessDevice.lean ====
section
/-!
SUPPORT. Witnesses for the statements about translation, the fabric port, contracts, contexts, errors, boot and heat.
-/

set_option Elab.async false

namespace Sys2Proof
namespace Tests

open Sys2Proof.Machine

/-- A table of three levels that maps the page of address 0 to 0x30000, for reads and writes. -/
def tables : State :=
  { State.reset.ctlSet 0 (BitVec.ofNat 64 (2 ^ 63 + 0x10000)) with
    mem := Memory.writeN (Memory.writeN (Memory.writeN [] 0x10000 (leBytes 8 0x20001)) 0x20000 (leBytes 8 0x21001)) 0x21000 (leBytes 8 0x30007) }

def ent0 : TlbEnt := { pane := 0, host := false, asid := 0, va := 0, size := 2 ^ 16, pa := 0x30000, w := true, x := false, s := false }

/-- PAGE_WALK_COMPLETE of a page that is mapped and of one that is not; commands of XINVC; an entry that is named and in
use, one not, and one in use that is held no more. -/
theorem test_witness_walks : tables.WalksTo 0 0xFFFF 0x20001 0x21001 0x30007 ∧ tables.tlbHit 0 false 0 0xFFFF = none ∧
    tables.walk 0 0x10000 = none ∧ tables.inval = none ∧ tables.ccinval = none ∧
    (let s := { tables with tlb := [ent0], inval := some (0, 0, 0xFFFF) }
     ent0.Named 0 0 0xFFFF ∧ s.inUse ent0.pa ent0.size = false) ∧
    (let s := { pending [acc0 5 (.writes [[0]]) 0x30000 8] with tlb := [ent0], inval := some (1, 0, 0) }
     s.inUse ent0.pa ent0.size = true ∧ ent0 ∈ s.tlb ++ s.gone) ∧
    (let s := { pending [acc0 5 (.writes [[0]]) 0x30000 8] with gone := [ent0], inval := some (1, 0, 0) }
     s.inUse ent0.pa ent0.size = true ∧ ent0 ∈ s.tlb ++ s.gone) := by
  refine ⟨⟨?_, ?_, ?_, ?_, ?_, ?_, ?_, ?_, ?_⟩, ?_, ?_, rfl, rfl, ⟨⟨rfl, .inl ⟨rfl, rfl, ?_, ?_⟩⟩, ?_⟩, ?_, ?_⟩ <;> decide +kernel

/-- A walk to a leaf outside DRAM and the apertures, and one that finds the buffers of its pane full. -/
theorem test_witness_walk_outside : (mapped (2 ^ 39 + 3) State.reset).tlbHit 0 false 0 0 = none ∧
    (mapped (2 ^ 39 + 3) State.reset).walk 0 0 = some { va := 0, size := 2 ^ 30, pa := 2 ^ 39, w := false, x := false, sv := false } ∧ paOk (2 ^ 39 + (0 - 0)) = false ∧
    tables.walk 0 0 = some { va := 0, size := 2 ^ 16, pa := 0x30000, w := true, x := false, sv := false } ∧ paOk (0x30000 + (0 - 0)) = true := by
  decide +kernel

/-- The first level of tables maps GiB j to address 0, and the buffer of pane 0 holds eight entries of GiB i. -/
def giBs (i j : Nat) : State :=
  { State.reset.ctlSet 0 (BitVec.ofNat 64 (2 ^ 63 + 1024 * 2 ^ 38 + 0x10000)) with
    tlb := List.replicate 8 { pane := 0, host := false, asid := 0, va := i * 2 ^ 30, size := 2 ^ 30, pa := 0, w := false, x := false, s := false }
    mem := Memory.writeN [] (0x10000 + 8 * j) (leBytes 8 3) }

theorem giBs_walk (i j : Nat) (h : j < 1025) : (giBs i j).walk 0 (j * 2 ^ 30) =
    some { va := j * 2 ^ 30, size := 2 ^ 30, pa := 0, w := false, x := false, sv := false } := by
  have hd : (giBs i j).dram64 (0x10000 + 8 * j) = 3 := by
    show leNat (Memory.readN (Memory.writeN [] (0x10000 + 8 * j) (leBytes 8 3)) (0x10000 + 8 * j) (leBytes 8 3).length) = 3
    rw [Memory.readN_writeN _ _ _ rfl]
    decide
  have hr : ((giBs i j).ctlGet (8 * 0)).toNat = 2 ^ 63 + 1024 * 2 ^ 38 + 0x10000 := by
    show ((State.reset.ctlSet 0 (BitVec.ofNat 64 (2 ^ 63 + 1024 * 2 ^ 38 + 0x10000))).ctlGet 0).toNat = _
    decide +kernel
  have hb : bits (2 ^ 63 + 1024 * 2 ^ 38 + 0x10000) 37 12 * 2 ^ 12 = 0x10000 := by decide
  have hc : bits (2 ^ 63 + 1024 * 2 ^ 38 + 0x10000) 59 38 = 1024 := by decide
  have he : bit (2 ^ 63 + 1024 * 2 ^ 38 + 0x10000) 63 = true := by decide
  have hj : j * 2 ^ 30 / 2 ^ 30 = j := by omega
  unfold State.walk
  simp only [hr, hb, hc, he, hj, hd]
  have h1 : ¬ (1024 < j) := by omega
  simp [h1, show pteOk 3 = true by decide, show bit 3 1 = true by decide, leafOf]
  exact ⟨by omega, by decide⟩

/-- Two of 1025 GiBs have the same set. -/
theorem same_set (f : Nat → Nat) : ∃ i j, j < 1025 ∧ i ≠ j ∧ f i % 1024 = f j % 1024 := by
  obtain ⟨i, _, j, hj, hne, hf⟩ := Finset.exists_ne_map_eq_of_card_lt_of_maps_to (s := Finset.range 1025) (t := Finset.range 1024)
    (f := fun i => f i % 1024) (by rw [Finset.card_range, Finset.card_range]; omega)
    (fun x _ => Finset.mem_coe.2 (Finset.mem_range.2 (Nat.mod_lt _ (by omega))))
  exact ⟨i, j, Finset.mem_range.1 hj, hne, hf⟩

/-- An address that no entry covers is not buffered. -/
theorem miss (s : State) (pane asid va : Nat) (host : Bool) (h : ∀ e ∈ s.tlb, ¬ (e.va ≤ va ∧ va < e.va + e.size)) :
    s.tlbHit pane host asid va = none := by
  unfold State.tlbHit
  split
  · rfl
  · rename_i e he
    have h1 := List.find?_some he
    simp only [Bool.and_eq_true, decide_eq_true_eq] at h1
    exact absurd ⟨h1.1.2, h1.2⟩ (h e (List.mem_of_find?_eq_some he))

theorem giBs_miss (i j : Nat) (h : i ≠ j) : (giBs i j).tlbHit 0 false 0 (j * 2 ^ 30) = none := by
  apply miss
  intro e he
  have h2 : e.va = i * 2 ^ 30 ∧ e.size = 2 ^ 30 := by
    unfold giBs at he
    rw [(List.mem_replicate.1 he).2]
    exact ⟨rfl, rfl⟩
  rw [h2.1, h2.2]
  omega

/-- A walk whose leaf belongs to a set that is full (R17): of 1025 GiBs two have the same set, whichever sets Config gives them. -/
theorem test_witness_walk_full : ∃ i j, ((giBs i j).tlbHit 0 false 0 (j * 2 ^ 30) = none ∧ j * 2 ^ 30 < 2 ^ 52 ∧
    (giBs i j).walk 0 (j * 2 ^ 30) = some { va := j * 2 ^ 30, size := 2 ^ 30, pa := 0, w := false, x := false, sv := false }) ∧
    ((giBs i j).tlb.filter fun x => x.pane == (0 : Fin 8).val && x.set ==
      (Leaf.entry { va := j * 2 ^ 30, size := 2 ^ 30, pa := 0, w := false, x := false, sv := false } 0 false 0).set).length = 8 := by
  obtain ⟨i, j, hj, hne, hf⟩ := same_set fun i => Config.tlbSet false 0 (i * 2 ^ 30) (2 ^ 30)
  refine ⟨i, j, ⟨giBs_miss i j hne, ?_, giBs_walk i j hj⟩, ?_⟩
  · omega
  · simp only [giBs, List.filter_replicate]
    rw [if_pos]
    · simp
    · simp only [Leaf.entry, TlbEnt.set] at hf ⊢
      simpa using hf
/-- Page requests in each state of an answer, and a second one that waits for its allocation. -/
theorem test_witness_pages :
    let r : PriReq := { fn := 0, page := 1, write := true, sentAt := 0, state := 2, cores := [0] }
    let s := { on .A id with pri := [r, { r with page := 2, state := 1 }], gts := 50000000 }
    s.pri = [r, { r with page := 2, state := 1 }] ∧ r.fn = (0 : Fin 129).val ∧ r.cores ≠ [] ∧ 0 < s.priAlloc ∧
    r.sentAt.toNat + 50000000 ≤ s.gts.toNat ∧ (on .A id).gts.toNat < r.sentAt.toNat + 50000000 ∧
    ({ r with state := 0 } : PriReq).state = 0 ∧ ({ r with state := 3 } : PriReq).state = 3 ∧ ({ r with state := 7 } : PriReq).state = 7 ∧
    (∀ x ∈ s.pri, x.fn = (0 : Fin 129).val → x.page = 1 → x.asking = false) ∧ ({ r with state := 7 } : PriReq).asking = true := by
  decide +kernel

def peerRec (f : Peer → Peer) (s : State) : State := s.setPeer 1 (f (s.peer 1))

def flit0 (seq npay : Nat) (crit : Bool) (c : Cargo) : Flit := mkFlit seq crit true npay (List.replicate 64 0) c

/-- A peer's access of this device's memory that is mapped, and of memory that is not. -/
theorem test_witness_peer_accesses :
    (let s := waiting [] []
     let a : PeerAccess := { sender := 1, asid := 0, super := false, va := 0x100, tag := 7, op := .load 8 }
     s.PeerPlace a .read 8 0x100 ∧ s.PeerPlace a .write 8 0x100 ∧ s.PeerPlace a .amo 8 0x100) ∧
    (match State.reset.virtPlace { core := 0, super := false, asid := 0, acc := .read, scalar := true, size := 8 } 0x100 with
      | .error (.trap k) => k.code = 8
      | _                => False) := by
  refine ⟨⟨?_, ?_, ?_⟩, ?_⟩
  all_goals first | (unfold State.PeerPlace; decide +kernel) | rfl

/-- An answer to a load of a core, to the store of another, and a fault of a load that the core waits for. -/
theorem test_witness_peer_answers :
    let x : Access := { acc0 5 (.load 3 8 false) (0x81 * 2 ^ 56 + 0x100) 8 with sent := [(0, 7)] }
    let s := on .A fun c => { c with pend := [x], peerWait := some { id := 5, fault := none, units := [(0, 0x8100000000000100)] } }
    (s.outstanding 1).find? (fun q => q.2.2.2 == 7) = some (0, x, 0, 7) ∧ (s.core 0).pend = [x] ∧ x.spans = [(0x81 * 2 ^ 56 + 0x100, 8)] ∧
    x.ans = [none] ∧ (s.outstanding 1).find? (fun q => q.2.2.2 == 8) = none := by
  decide +kernel

/-- Silence of 16 µs with a lit channel and before it; a probe and a handshake that are late. -/
theorem test_witness_silence :
    (let s := { peerRec (fun p => { p with outSince := some 0 }) State.reset with gts := 16000 }
     (s.peer 1).outSince = some 0 ∧ (s.peer 1).probeAt = none ∧ s.fabMode < 2 ∧ s.litTo 1 ≠ []) ∧
    (let s := { peerRec (fun p => { p with probeAt := some 0, shake := some 0 }) State.reset with gts := 20000 }
     (s.peer 1).probeAt = some 0 ∧ (s.peer 1).shake = some 0 ∧ s.gts.toNat = 0 + 20000) := by
  decide +kernel

/-- A peer whose queues are empty, and handshakes whose number it has answered or not. -/
theorem test_witness_handshakes : ∀ p ∈ [State.reset.peer 1, { State.reset.peer 1 with shookNo := some 3 }],
    p.packetsOf true = [] ∧ p.packetsOf false = [] ∧ p.shookNo ≠ some 4 ∧ (p.shookNo = some 3 ∨ p.shookNo = none) ∧ p.shake = none := by
  decide +kernel

/-- Flits to send: of both classes, the second copy of a critical one, acknowledgements alone, a flit that is sent again, a window and a
buffer that are full, and a port that is dark. -/
theorem test_witness_flits_sent :
    (let s := peerRec (fun p => { p with egress := [flit0 0 0 false .probe], egressC := [flit0 0 0 true .probe] }) State.reset
     let u := (s.pack 1).wakeFor 1
     u.fabMode = 0 ∧ u.litTo 1 ≠ [] ∧ (u.peer 1).egressC = [flit0 0 0 true .probe] ∧ (u.peer 1).egress = [flit0 0 0 false .probe] ∧
     (u.peer 1).copy = none ∧ (u.peer 1).shake = none ∧ (u.peer 1).again = [] ∧ ((u.peer 1).waiting false).length < 4096 ∧
     (u.peer 1).allow < 512 ∧ (1 : Fin 64).val ≠ s.dev ∧ unordered (flit0 0 0 true .probe) = false ∧
     flit0 0 0 true .probe ∉ (u.peer 1).window ∧ ({ u.peer 1 with copy := some 0 }).copy.isSome = true) ∧
    (let s := peerRec (fun p => { p with acks := [(false, 7)], again := [flit0 7 0 false .probe] }) State.reset
     let u := (s.pack 1).wakeFor 1
     (u.peer 1).egressC = [] ∧ (u.peer 1).acks ≠ [] ∧ (u.peer 1).again ≠ []) ∧
    (let s := peerRec (fun p => { p with window := List.replicate 4096 (flit0 0 0 false .probe), allow := 512 }) State.reset
     let u := (s.pack 1).wakeFor 1
     4096 ≤ ((u.peer 1).waiting false).length ∧ 512 ≤ (u.peer 1).allow) ∧
    (((State.reset.ctlSet 0x82000 2).pack 1).wakeFor 1).fabMode = 2 := by
  decide +kernel

/-- Flits received: good, with a reserved bit set and with a wrong CRC; the next of a class, one ahead, at the greatest distance, and one
behind; a header that finds the buffer full, and a payload flit of a packet that was trimmed. -/
theorem test_witness_flits_taken :
    (flitGood (flit0 0 0 true .probe) = true ∧ flitGood { flit0 0 0 true .probe with rsv := 1 } = false ∧
      flitGood { flit0 0 0 true .probe with bytes := 1 :: List.replicate 63 0 } = false ∧ unordered (flit0 0 0 true .probe) = false) ∧
    (let h := (State.reset.peer 1).heard State.reset.gts (State.reset.timed 1)
     (flit0 0 0 true .probe).seq = (State.reset.peer 1).expC ∧ (State.reset.peer 1).heldC = [] ∧ (State.reset.peer 1).shake = none ∧
     0 < h.ahead true 1 ∧ h.ahead true (2 ^ 15 - 1) < 2 ^ 15 ∧ 2 ^ 15 ≤ h.ahead true (2 ^ 15) ∧ 2 ^ 15 ≤ h.ahead false (2 ^ 16 - 1) ∧
     (State.reset.peer 1).ingress = [] ∧ (State.reset.peer 1).trimmed = [] ∧ (flit0 0 0 false .probe).seq = (State.reset.peer 1).expD) ∧
    (let s := peerRec (fun p => { p with ingress := List.replicate 448 (flit0 9 0 false .filler) }) State.reset
     s.trimAt ≤ (s.peer 1).ingress.length ∧ (s.peer 1).trimmed = [] ∧ ∀ g ∈ (s.peer 1).ingress, g.seq ≠ 1 ∧
       0 < ((s.peer 1).heard s.gts (s.timed 1)).ahead false g.seq ∧ inPacket [(1, 1)] g.seq = false) ∧
    inPacket [(65535, 1)] 0 = true ∧ inPacket [(65535, 1)] 1 = false := by
  decide +kernel

/-- RESEND_REQUEST: a trimmed packet with room below TRIM, one that fits although there is none, a flit that is held behind a gap in each
class, and nothing to ask for. -/
theorem test_witness_resends :
    (let s := peerRec (fun p => { p with trimmed := [(3, 1)] }) State.reset
     (s.peer 1).occupied < s.trimAt) ∧
    (let s := peerRec (fun p => { p with trimmed := [(3, 1)], ingress := List.replicate 448 (flit0 9 0 false .filler) }) State.reset
     s.trimAt ≤ (s.peer 1).occupied ∧ (s.peer 1).occupied + 1 ≤ 512) ∧
    (∀ crit ∈ [true, false],
      let p := { State.reset.peer 1 with
        ingress := if crit then [] else [flit0 2 0 false .probe], heldC := if crit then [flit0 2 0 true .probe] else [] }
      p.trimmed = [] ∧ p.heldOf crit = [flit0 2 0 crit .probe] ∧ p.heldOf (!crit) = [] ∧ 0 < p.ahead crit 2) ∧
    (State.reset.peer 1).ingress = [] ∧ (State.reset.peer 1).heldC = [] := by
  decide +kernel

/-- A store that is to be packed for device 1. -/
theorem test_witness_packed :
    let x : Access := acc0 5 (.writes [[1, 2]]) (0x81 * 2 ^ 56 + 0x100) 2
    let co : Core := { Core.reset with pend := [x] }
    let s := { State.reset with cores := [(0, co)] }
    s.cores = [(0, co)] ∧ co.pend = [x] ∧ x.spans = [(0x81 * 2 ^ 56 + 0x100, 2)] ∧ x.ans = [none] ∧ x.sent = [] ∧ x.list = none ∧
    (0x81 * 2 ^ 56 + 0x100) / 2 ^ 56 = 0x80 + 1 := by
  decide +kernel

/-- Two elements of a queue load from device 1, at a gap, of an index vector or not. -/
def farFill (list : Option Word) (gap : Nat) : Access :=
  { acc0 5 (.fill 1 4 .plain) (0x81 * 2 ^ 56 + 0x100) 8 with
    spans := [(0x81 * 2 ^ 56 + 0x100, 8), (0x81 * 2 ^ 56 + 0x100 + gap, 8)], ans := [none, none], list := list }

theorem test_witness_packed_elements : ∀ x ∈ [farFill (some 0x8100000000000100) 8, farFill none 8], x.kind = .fill 1 4 .plain ∧ x.sent = [] ∧
    2 = x.spans.length ∧ x.ans = List.replicate 2 none ∧ (∀ p ∈ x.spans, 2 ^ 63 ≤ p.1 ∧ p.1 / 2 ^ 56 = 0x80 + 1 ∧ p.2 = 8) ∧
    ∀ p ∈ x.spans, ∀ r ∈ x.spans, p.1 / 1024 = r.1 / 1024 := by
  decide +kernel

/-- Elements in two blocks of 1 KiB leave in two packets (R348, R351); an index list has a payload flit. -/
theorem test_packets : (farFill none 0x1000).packets [0, 1] = [[0], [1]] ∧ (farFill none 8).packets [0, 1] = [[0, 1]] ∧
    ([farFill none 8, farFill (some 0x8100000000000100) 8].map fun x =>
      ((({ State.reset with cores := [(0, { Core.reset with pend := [x] })] } : State).pack 1).peer 1).egress.length) = [1, 2] := by
  decide +kernel

/-- The index of an element of an index list, from the least to the greatest (R351). -/
theorem test_witness_index_lists : ∀ va ∈ [(2 ^ 40 - 8 * 2 ^ 31 : Nat), 2 ^ 40, 2 ^ 40 + 8 * (2 ^ 31 - 1)],
    let l : IndexList := { sender := 1, asid := 0, super := false, base := 2 ^ 40, size := 8, tag := 0, elems := [(indexOf (2 ^ 40) va 8, .load 8)] }
    (listAccesses l).map (fun a => a.va) = [va] := by
  decide +kernel

def ch0 : Channel := { fibre := 0, lam := 7 }

/-- A wake that is over; AUTO_WAKE on and off; a ring that is free and none that is. -/
theorem test_witness_channels :
    (let w : Wake := { ch := ch0, since := 0 }
     let s := { State.reset with wakes := [w], gts := 3200 }
     s.wakes.find? (fun x => x.ch == ch0) = some w ∧ w.since.toNat + 3200 ≤ s.gts.toNat) ∧
    (State.reset.depth 1 = (State.reset.peer 1).depthWas ∧ State.reset.depth 1 ≠ { State.reset.peer 1 with depthWas := 5 }.depthWas ∧
     bit (State.reset.ctlGet 0x82008).toNat 63 = true ∧ ({ State.reset with reach := 2 } : State).reaches 1 = true ∧
     bits ((State.reset.ctlSet 0x82008 0x8000000000000000).ctlGet 0x82008).toNat 15 0 ≤ (State.reset.ctlSet 0x82008 0x8000000000000000).depth 1) ∧
    (let w := (State.reset.ctlGet (0x80800 + 8 * ch0.fibre.val)).toNat
     bits w (4 * 7 + 3) (4 * 7) = 7 ∧ (∀ l, l < 8 → bits w (4 * l + 3) (4 * l) ≠ 8) ∧ bit w (32 + 8) = false ∧ bit w (42 + 8) = false ∧
     ∀ q, q < 8 → (∃ l ∈ List.range 8, bits w (4 * l + 3) (4 * l) = q) ∨ bit w (32 + q) = true ∨ bit w (42 + q) = true) ∧
    (let w : Nat := 0x30076543210
     ∀ q, q < 10 → (∃ l ∈ List.range 8, bits w (4 * l + 3) (4 * l) = q) ∨ bit w (32 + q) = true ∨ bit w (42 + q) = true) := by
  refine ⟨?_, ?_, ?_, ?_⟩ <;> decide +kernel

/-- FABCTL: a mode that is there already, one that may follow and one that may not; a relock that is done. -/
theorem test_witness_modes : State.reset.fabMode = 0 ∧ ModeStep 0 1 State.reset.fabDone ∧ ¬ ModeStep 0 2 State.reset.fabDone ∧
    ModeStep 3 0 true ∧ ({ State.reset.ctlSet 0x82000 1 with markers := [ch0] } : State).fabDone = false := by
  refine ⟨?_, .inl ⟨rfl, rfl⟩, ?_, .inr (.inr (.inr (.inr ⟨rfl, rfl, rfl⟩))), ?_⟩
  all_goals first | decide +kernel | (unfold ModeStep; decide +kernel)

/-- Contracts 0 to k − 1 of pane 0, of 16 cores each for whole periods of 100 µs; the last one is not admitted yet. -/
def contracted (k : Nat) (budget : Word) : State :=
  let s := (List.range k).foldl (fun (s : State) j =>
    ((s.ctlSet (0x4000 + 0x20 * j) 0xC000011000000000).ctlSet (0x4008 + 0x20 * j) 100).ctlSet (0x4010 + 0x20 * j) 1600) State.reset
  ((s.ctlSet (0x4000 + 0x20 * k) 0x8000011000000000).ctlSet (0x4008 + 0x20 * k) 100).ctlSet (0x4010 + 0x20 * k) budget

theorem contractGood (k : Nat) (b : Word) (h : (contracted k b).cPanes k ≠ 0 ∧ (1 ≤ (contracted k b).cGsize k ∧ (contracted k b).cGsize k ≤ 16) ∧
    (contracted k b).cVf k < 128 ∧ (100 ≤ (contracted k b).cPeriod k ∧ (contracted k b).cPeriod k ≤ 1000000) ∧
    (1 ≤ (contracted k b).cBudget k ∧ (contracted k b).cBudget k ≤ (contracted k b).cPeriod k * (contracted k b).cGsize k)) :
    (contracted k b).ContractGood k :=
  ⟨h.1, h.2.1, h.2.2.1, h.2.2.2.1, h.2.2.2.2⟩

/-- CONTRACT_ADMIT: a contract that fits, one that does not beside eleven others, and one with a bad field. -/
theorem test_witness_admit :
    (let s := contracted 0 1600
     s.cEn 0 = true ∧ s.cAdm 0 = false ∧ s.ContractGood 0 ∧ (∀ j, j < 64 → s.cAdm j = true → 0 < s.cPeriod j) ∧
     ∀ p, p < 8 → bit (s.cPanes 0) p = true → 10 * ((0 :: s.besides 0 p).map s.demandQ).sum ≤ 9 * (s.usableCores p : Rat)) ∧
    (let s := contracted 11 1600
     s.ContractGood 11 ∧ bit (s.cPanes 11) 0 = true ∧ 9 * (s.usableCores 0 : Rat) < 10 * ((11 :: s.besides 11 0).map s.demandQ).sum) ∧
    ¬ (contracted 0 1601).ContractGood 0 := by
  refine ⟨⟨?_, ?_, contractGood 0 1600 ?_, ?_, ?_⟩, ⟨contractGood 11 1600 ?_, ?_, ?_⟩, ?_⟩
  case refine_9 => exact fun h => absurd h.budget.2 (by decide +kernel)
  all_goals decide +kernel

/-- Periods and overruns: a period that is over, a budget that is used up by the one task of the contract. -/
theorem test_witness_charged :
    (let s := { contracted 1 1600 with contracts := [(0, { start := 0, charged := 0, used := 0, released := false, owed := 0 })], gts := 100000 }
     s.cAdm 0 = true ∧ (s.contract 0).start.toNat + 1000 * s.cPeriod 0 ≤ s.gts.toNat ∧ s.cBudget 0 < 2 ^ 32 ∧ s.cqueue 0 = []) ∧
    (let s := { contracted 1 1600 with tasks := [{ task0 with cont := { rec0 with contract := 0 } }] }
     let u := s.chargeContract 0
     u.cAdm 0 = true ∧ u.cRemain 0 = 0 ∧ u.contractTasks 0 = [{ task0 with cont := { rec0 with contract := 0 } }] ∧
     u.task 3 = some { task0 with cont := { rec0 with contract := 0 } } ∧ (contracted 1 1600).cEn 1 = true ∧ State.reset.cEn 0 = false) := by
  decide +kernel

/-- A release that owes a record which finds nobody to stop (R169). -/
theorem test_witness_late :
    (let s := busy .running
     let u := s.setContract 0 { s.contract 0 with owed := 1 }
     u.nextCand = some candC ∧ u.queueHeads = [candC] ∧ u.planFor candC = .wait ∧ u.misfits candC = [] ∧ u.preloads = [] ∧ candC.contract < 64 ∧ (u.contract candC.contract).owed ≠ 0) := by
  decide +kernel

/-- The one task of core 0, in a phase. -/
def lone (ph : TaskPhase) (f : State → State) : State :=
  f { on .A id with tasks := [{ task0 with phase := ph }] }

theorem loneTask (ph : TaskPhase) : (lone ph id).LoneTask { task0 with phase := ph } 0 :=
  ⟨rfl, ⟨rfl, rfl⟩, rfl, rfl, rfl, rfl, by simp [lone, on, Core.reset]⟩

/-- A stop request; a context that has not stopped, one without a place in its area, one with it, and one stopped for an overrun. -/
theorem test_witness_stops :
    ((lone .running id).task 3 = some task0 ∧ (lone (.stopping false) id).stopped 0 = true ∧ (lone (.stopping false) id).sampled 3 = false ∧
     (lone (.stopping true) id).areaPlace 0 ((lone (.stopping true) id).imageTotal { task0 with phase := .stopping true }) = none) ∧
    (let s := lone (.stopping false) fun s => s.ctlSet 0x6008 0x1000000
     s.areaPlace 0 (s.imageTotal { task0 with phase := .stopping false }) = some 0 ∧ savedCore 3 0 ≠ 0 ∧ s.queueOf 0 0 0xFF = [] ∧ Memory.wf s.mem = true) ∧
    (lone (.stopping false) fun s => s.setCore 0 { s.core 0 with cbld := some { cb := 0, keys := [], got := [], core := 0, off := 0, len := 4 } }).stopped 0 = false ∧
    ((lone .running id).core 0).tvec ≠ 0 := by
  decide +kernel

/-- A sample of a task that is still to be compared: the image says so (R317). -/
theorem test_witness_sampled :
    let x : Sample := { sample1 with task := some 3, chk := { sample1.chk with acopy := 0x0100000000000000 } }
    ((lone (.stopping false) id).setPane 0 { (lone (.stopping false) id).pane 0 with samples := [x] }).sampled 3 = true := by
  decide +kernel

/-- A saved context: resident on a core, or written out. -/
def saved0 (stay : Bool) (o : Nat) : SavedCtx :=
  { task := 3, old := [(o, 0)], cards := [], spad := if stay then [] else [[]], stay := stay, base := 0, size := 0x10000, total := 0x10000, vlmax := 512,
    overrun := false }

/-- A saved context that is placed again. -/
def resting (stay : Bool) (o : Nat) : State :=
  { State.reset with
    boot := { BootSt.reset with phase := .running }
    tasks := [{ task0 with phase := .saved, cores := [savedCore 3 0] }], nextTask := 4, saved := [saved0 stay o]
    cores := [(savedCore 3 0, { Core.reset with task := some 3 })]
    fns := [(0, { Fn.reset with queues := [[.saved 3]] })] }

def candS : Cand :=
  { slot := none, fn := 0, prio := 0, contract := 0xFF, pos := 0, item := .saved 3, cont := rec0, launch := none, interval := 0, prefixLog := [] }

/-- CONTEXT_RESTORE: back where its reservation stayed, onto another core, and of one that was written out. -/
theorem test_witness_restore : (∀ p ∈ [(true, 0), (true, 7), (false, 0)],
      (resting p.1 p.2).saved[0]? = some (saved0 p.1 p.2) ∧ (resting p.1 p.2).nextCand = some candS ∧
      (resting p.1 p.2).planFor candS = .place [core0.no] ∧ (resting p.1 p.2).windowRoom core0.pane.val (saved0 p.1 p.2) = true) ∧
    (resting true 7).task 3 = some { task0 with phase := .saved, cores := [savedCore 3 0] } ∧ 2 ^ 16 ≤ savedCore 3 0 ∧
    ((resting true 7).core (savedCore 3 0)).roles = Vector.replicate 4 none ∧ ((resting true 7).core (savedCore 3 0)).pend = [] ∧
    ((resting true 7).core (savedCore 3 0)).mops = [] ∧ risesFrom 0 (resting true 7).cores = true ∧ Memory.wf (resting true 7).mem = true ∧
    ((resting true 7).core (savedCore 3 0)).spResv ≤ 32 ∧ (saved0 false 0).spad = [[]] ∧ (∀ y ∈ (resting false 0).saved, y.stay = false) := by
  refine ⟨?_, ?_, ?_, ?_, ?_, ?_, ?_, ?_, ?_, ?_, ?_⟩ <;> decide +kernel

/-- Removal: a lone task that runs, one that is in its exit routine and late, a watchdog that is due and one that is not. -/
theorem test_witness_removal : (lone .running id).LoneTask task0 0 ∧ (lone (.exiting 8 0) id).LoneTask { task0 with phase := .exiting 8 0 } 0 ∧
    ({ lone .running id with gts := 447392427 } : State).gts.toNat = task0.idle.toNat + 447392427 ∧
    (lone .running id).gts.toNat < task0.idle.toNat + 447392427 ∧ (0 : Word).toNat + 1747627 ≤ ({ lone .running id with gts := 1747627 } : State).gts.toNat ∧
    task0.live = true ∧ ({ task0 with phase := .discarded 8 } : Task).live = false ∧ (lone .running id).portOn = true ∧
    task0.launch = none :=
  ⟨loneTask .running, loneTask (.exiting 8 0), by decide +kernel, by decide +kernel, by decide +kernel, by decide +kernel, by decide +kernel,
    by decide +kernel, rfl⟩

/-- Errors: a core without a task, a lane group that is there, a first parity error and a second in time. -/
theorem test_witness_errors : (State.reset.core core0.no).task = none ∧ bit (State.reset.core core0.no).laneok.toNat 7 = true ∧
    nget (State.reset.core core0.no).parity 7 = none ∧
    (let s := State.reset.setCore 0 { Core.reset with parity := [(7, 0)] }
     nget (s.core core0.no).parity 7 = some 0 ∧ s.gts.toNat ≤ (0 : Word).toNat + 2 ^ 30 ∧ (s.core core0.no).task = none) := by
  decide +kernel

/-- Boot: empty flash holds no image that the ROM accepts; of an image of 128 bytes it depends on the signature alone, which no proof can
see (log entry 15). -/
theorem test_witness_boot : (∀ l v, ¬ FirmwareGood State.reset.boot.rollback [] l v) ∧
    (let slot : List Byte := leBytes 4 0x42E7F1A0 ++ leBytes 4 1 ++ leBytes 8 128 ++ List.replicate 112 0
     FirmwareGood 0 slot 128 1 ↔
       Config.ecdsaVerify ((slot.drop 0x40).take 64) (sha256 (slot.take 0x40 ++ (slot.take 128).drop 0x80)) = true) ∧
    State.reset.boot.phase = .off ∧ (on .A id).portOn = true ∧ (on .A id).boot.slot = 0 :=
  ⟨fun _ _ h => absurd h.mark (by decide), ⟨fun h => h.sig, fun h => ⟨by decide +kernel, by decide +kernel, h, by decide +kernel⟩⟩, rfl, rfl, rfl⟩

/-- The shutdown with the one task placed, and saved, in a launch. -/
theorem test_witness_shutdown : ∀ ph ∈ [TaskPhase.placed, .saved],
    let k : Task := { task0 with phase := ph, launch := some 2 }
    let s := { lone ph id with tasks := [k], launches := [det0] }
    s.contracts = [] ∧ s.launchOf (some det0.id) = some det0 ∧ (∀ q ∈ s.cores, q.2.leaving = []) ∧ s.saved = [] ∧
      ∀ n ∈ k.cores, (s.core n).roles = Vector.replicate 4 none := by
  decide +kernel

/-- Heat: a pane that is limited and one that is not; one task, or none, at the shutdown. -/
theorem test_witness_heat : ((on .A id).pane 0).limit ≠ 4 * 32 ∧ (((on .A id).setPane 0 { (on .A id).pane 0 with limit := 4 * 32 }).pane 0).limit = 4 * 32 ∧
    (lone .running id).tasks = [task0] ∧ ((lone .running id).core 0).tvec ≠ 0 ∧ State.reset.tasks = [] ∧ (∀ q ∈ State.reset.cores, q.2.leaving = []) := by
  decide +kernel

end Tests
end Sys2Proof
end

