-- ==== Sys2Proof/Tests/Steps.lean ====
section
/-!
SUPPORT. Single steps with the results that the spec's own examples give, and the witnesses of the statements about a step.
-/

set_option Elab.async false

namespace Sys2Proof
namespace Tests

open Sys2Proof.Machine

/-- R232: with d = 0xB200000000000000 and a = 0x8000000000000000, fsh by 3 gives 0x9000000000000004. -/
theorem test_fsh : out (.fsh { d := 5, a := 6, fa := false, src := .imm 3 })
    (on .A fun c => setA 5 0xB200000000000000 (setA 6 0x8000000000000000 c)) 5 = some 0x9000000000000004 := by
  decide +kernel

/-- R229: div of the most negative number by −1 gives it back, rem gives 0; a zero divisor gives all ones and the dividend. -/
theorem test_division :
    (let s := on .X fun c => setX 5 0x8000000000000000 (setX 6 0xFFFFFFFFFFFFFFFF c)
     let f : AluF := { d := 7, a := 5, fa := false, src := .reg 6 false }
     let z : AluF := { d := 7, a := 5, fa := false, src := .reg 0 false }
     [out (.div f) s 7, out (.rem f) s 7, out (.divn z) s 7, out (.rem z) s 7]) =
      [some 0x8000000000000000, some 0, some (2 ^ 64 - 1), some 0x8000000000000000] := by
  decide +kernel

/-- R212: a write to a0 is discarded, and the position moves on. -/
theorem test_zero_register : aft (.addi { d := 0, a := 0, imm := .short 5 }) (atA 0x40 id) (fun t => (t.val 0, t.mySide.pc)) = some (0, 0x44) := by
  decide +kernel

/-- R230: a short immediate of addi is signed, and R233: br counts words from its first word. -/
theorem test_signs : out (.addi { d := 5, a := 0, imm := .short 0x8000 }) (atA 0x40 id) 5 = some 0xFFFFFFFFFFFF8000 ∧
    aft (.br (.short 0x3FFFFD)) (atX 0x40 id) (fun t => t.mySide.pc) = some 0x34 := by
  decide +kernel

/-- R234, R137: a loop of count 2 that lies at 0x40 and whose END is 0x4C. -/
theorem test_loop : aft (.loop { r := 3, fe := false } 3) (atA 0x40 (setA 3 2)) (fun t => (t.mySide.loops, t.mySide.pc)) =
    some ([{ start := 0x4C, fin := 0x4C, count := 2, index := 0 }], 0x4C) := by
  decide +kernel

/-- R177, R337, R338: trap 9 on X at 0x40 goes to the handler with EPC 0x40, and eret goes back to it. -/
theorem test_trap_and_return : aft (.trap (.short 9)) (atX 0x40 fun c => c) (fun t => (t.mySide.epc, t.mySide.einfo, t.mySide.super)) =
      some (0x40, 0x00000009FFFFFFFF, true) ∧
    aft .eret (atX 0x8040 fun c => { c with xv := { c.xv with epc := 0x40, cause := 2 ^ 60 } }) (fun t => (t.mySide.pc, t.mySide.super)) =
      some (0x40, false) := by
  decide +kernel

/-- Elements of a vector register after an instruction of X. -/
def elems (i : Instr) (s : State) (r : RegNo) (n : Nat) : Option (Nat × List Nat) :=
  aft i s fun t => ((t.me.vregs[r.val]).tag.val, (List.range n).map fun e => ((t.me.vregs[r.val]).elems.getD e 0).toNat)

/-- R268, R36: i32 sums wrap. -/
theorem test_vadd_wraps : elems (.vadd v2) (pair 0x7FFFFFFF 0xFFFFFFFF 1 2) 3 2 = some (4, [0x80000000, 1]) := by
  decide +kernel

/-- R43: 300 and −300 in i8 are clamped, and the offender mask says so. -/
theorem test_vcvt_clamps :
    let i : Instr := .vcvt { d := .reg 3, a := .reg 1, p := Pred.none, tg := 2, ms := 5, rnd := 0, vr := none }
    elems i (pair 300 0xFFFFFED4 0 0) 3 2 = some (2, [127, 128]) ∧ aft i (pair 300 7 0 0) (fun t => t.me.masks[5]) = some 1 := by
  decide +kernel

/-- R294: anchors 1000.0 and 1008.0, step 0, B = 4: the differences at a shift of 2. -/
theorem test_vddiff : elems (.vddiff { d := .reg 4, a := .reg 1, k := .imm 2, p := Pred.none })
    (lanes 8 { vreg 0x11 [0xFD, 0xFF, 2, 5, 0xFC, 0, 3, 7] with bind := .anchor 0 4 } (vreg 4 []) fun c => { c with
      anchors := c.anchors.set 0 { count := 2, slots := [hdr 0x408F400000000000 0, hdr 0x408F800000000000 0] } }) 4 6 =
      some (4, [5, 6, 2, 3, 7, 7]) := by
  decide +kernel

/-- R297: the block 1.5, 3.5, 3.5, 4 at k = −1 is anchored at 3.0 with the deviations −3, 1, 1 and 2. -/
theorem test_reanc :
    let s := lanes 4 (vreg 0x0D [0x3FF8000000000000, 0x400C000000000000, 0x400C000000000000, 0x4010000000000000]) (vreg 4 []) fun c => { c with
      vregs := c.vregs.set 3 { vreg 0x12 [] with bind := .anchor 2 4 } }
    let i : Instr := .reanc { d := 3, a := .reg 1, k := .imm 0xFFFFFFFF { tg := 0, ms := 0, sat := false } false, p := Pred.none }
    elems i s 3 4 = some (0x12, [0xFFFD, 1, 1, 2]) ∧
    aft i s (fun t => ((t.me.anchors[2]).slot 0).anchor) = some 0x4008000000000000 ∧
    aft i s (fun t => ((t.me.anchors[2]).slot 0).stepInt) = some (-1) := by
  decide +kernel

/-- R274: the lowest set bit of no mask bit is all ones; R289: kput's slot. -/
theorem test_mfirst_kput : out (.mfirst 5 1) (pair 1 2 3 4) 5 = some (2 ^ 64 - 1) ∧
    aft (.kput { d := 0, a := 5, b := 6, slot := none }) (lanes 2 (vreg 4 []) (vreg 4 []) fun c => setX 5 0x3FF0000000000000 (setX 6 0xFFFF01FF c))
      (fun t => (t.me.anchors[0]).slot 0) = some { anchor := 0x3FF0000000000000, step := 0xFF, flags := 1, gen := 0, rsv := 0 } := by
  decide +kernel

/-- R214, R30: 8 bytes of a scratchpad are stored little-endian, and read back. -/
theorem test_store_then_performed :
    let s := on .A fun c => { c with pend := [acc0 5 (.writes [leBytes 8 0x0102030405060708]) (spadKey 0 0x100) 8] }
    aft (.storePerformed core0 0) s (fun t => (Memory.read t.mem (spadKey 0 0x100), Memory.read t.mem (spadKey 0 0x107))) = some (8, 1) := by
  decide +kernel

/-- An instruction that withFetchWord places runs at the next step: addi a5, a0, 100 on the A-side. -/
theorem test_placed_word_runs : (match step (State.reset.withFetchWord 32 0x08A00064) with
    | .next t    => some ((t.core 0).a[5], (t.core 0).av.pc == BitVec.ofNat 64 (placedCode + 4))
    | .fault _   => none
    | .refused _ => none) = some (100, true) := by
  decide +kernel

/-- The state with a sequencer's turn on the agenda: its side is ready, and a word and no instruction stand at its position. -/
theorem test_witness_step :
    (let s := State.reset.withFetchWord 32 0x08A00064
     let s0 : State := { s with agenda := [] }
     let s1 : State := { s0 with cur := { core := 0, side := .A } }
     s.agenda = .seq 0 .A :: [] ∧ s0.Ready 0 .A ∧
     s1.fetchAt s1.mySide.pc = .ok (bytesOfWord 0x08A00064) ∧ decode (bytesOfWord 0x08A00064) = .ok (.addi { d := 5, a := 0, imm := .short 100 }, 4)) ∧
    (let s : State := { State.reset.withFetchWord 32 0xC0000000 with agenda := [], cur := { core := 0, side := .A } }
     s.fetchAt s.mySide.pc = .ok (bytesOfWord 0xC0000000) ∧ decode (bytesOfWord 0xC0000000) = .error .major) ∧
    State.reset.canIssue 0 .A = false ∧ State.reset.agenda = [] := by
  refine ⟨⟨rfl, ⟨rfl, ⟨_, rfl, .inl rfl⟩, rfl, ⟨rfl, rfl, rfl⟩, fun _ => ⟨rfl, ?_⟩, fun h => (by cases h), rfl⟩, ?_, ?_⟩, ⟨?_, ?_⟩, ?_, rfl⟩ <;>
    decide +kernel

/-- The code line that a fetch of no instruction keeps leaves a state that can trap; X with a read of an empty register that has trapped. -/
theorem test_witness_step_traps :
    (let s : State := atA 0 fun c => { c with av := { c.av with pc := 0x40 } }
     let k := s.keepCode 0x40 [0, 0, 0, 0xC0]
     k.CanTrap ∧ ∀ q ∈ k.cores, q.2.leaving = []) ∧
    (let s0 : State := { atX 0x40 fun c => { c with emptyRead := some 1 } with agenda := [] }
     let s1 : State := { s0 with cur := { core := 0, side := .X } }
     s0.canIssue 0 .X = true ∧ s1.me.emptyRead = some 1 ∧ s1.CanTrap ∧ (∀ q ∈ s1.cores, q.2.leaving = []) ∧ s0.saved = []) := by
  refine ⟨⟨⟨?_, ?_, ?_, ?_⟩, ?_⟩, ?_, rfl, ⟨rfl, ?_, rfl, rfl⟩, ?_, rfl⟩ <;> decide +kernel

/-- A well-formed instruction that has words. -/
theorem test_witness_round_trip : (Instr.nop).wf = true ∧ encode .nop = some [0x44000000] := by
  decide +kernel

/-- The memory of reset is in its canonical form, and a step from reset answers a next state. -/
theorem test_witness_canonical : State.reset.MemOk ∧ (match step State.reset with
    | .next _    => true
    | .fault _   => false
    | .refused _ => false) = true := by
  refine ⟨?_, ?_⟩
  · show Memory.wf [] = true
    rfl
  · decide +kernel

end Tests
end Sys2Proof
end

