-- ==== Sys2Proof/Tests/WitnessAccess.lean ====
section
/-!
SUPPORT. Witnesses for the statements about accesses, atomics, arrival words, fences and the queues.
-/

set_option Elab.async false

namespace Sys2Proof
namespace Tests

open Sys2Proof.Machine

def ld0 (sz : Fin 4) : LdF := { d := 4, a := { r := 3, fe := false }, addr := .base, sz := sz, sx := false }
def st0 (sz : Fin 4) : StF := { d := 4, a := { r := 3, fe := false }, addr := .base, sz := sz }

/-- The A-side in the U view with an address in a3. -/
def useA (ea : Word) : State := on .A (setA 3 ea)

/-- The same in the S view. -/
def supA (ea : Word) : State := atA 0x1000 (setA 3 ea)

theorem atAccess (s : State) (ea : Word) (h : s.cur.side = .A) (h1 : s.me.peerWait = none) (h2 : s.ea { r := 3, fe := false } .base = .ok ea) :
    s.AtAccess (ld0 3).a (ld0 3).addr ea ∧ s.AtAccess (st0 3).a (st0 3).addr ea := ⟨⟨h, h1, h2⟩, h, h1, h2⟩

/-- An address to check, of ld and of st, each with its registers. -/
theorem test_witness_atAccess : ((useA 0x0100000000000008).AtAccess (ld0 3).a (ld0 3).addr 0x0100000000000008 ∧
    (useA 0x0100000000000008).AtAccess (st0 3).a (st0 3).addr 0x0100000000000008) ∧ szBytes (ld0 3).sz = 2 ^ 3 ∧
    (useA 0x0100000000000008).Has 4 ∧ (useA 0x0100000000000008).CanTrap :=
  ⟨atAccess _ _ rfl rfl rfl, rfl, rfl, rfl, by decide, rfl, rfl⟩

/-- The first GiB, read only. -/
def leaf0 : Leaf := { va := 0, size := 2 ^ 30, pa := 0, w := false, x := false, sv := false }

/-- One address for each check: canonical form, alignment, control space in the U view and by less than a dword, a scratchpad byte
at the end of the reservation, no translation, no permission, and a device outside REACH. -/
theorem test_witness_checks :
    canonical (0x0010000000000000 : Word).toNat = false ∧
    (canonical (0x0000000000000001 : Word).toNat = true ∧ (0x0000000000000001 : Word).toNat % 2 ^ (1 : Fin 4).val ≠ 0) ∧
    (let ea : Word := 0x0300000000000000
     canonical ea.toNat = true ∧ ea.toNat % 2 ^ (3 : Fin 4).val = 0 ∧ ea.toNat / 2 ^ 56 = 3 ∧ (useA ea).mySide.super = false ∧
     (supA ea).mySide.super = true ∧ (2 : Fin 4) ≠ 3) ∧
    (let ea : Word := 0x0100000000040000
     canonical ea.toNat = true ∧ ea.toNat / 2 ^ 56 = 1 ∧ (useA ea).me.spResv * 2 ^ 16 ≤ ea.toNat % 2 ^ 21) ∧
    (let ea : Word := 0x1000
     ea.toNat / 2 ^ 56 = 0 ∧ (useA ea).leaf 0 (useA ea).me.asid.toNat (ea.toNat % 2 ^ 56) = none) ∧
    (let s := mapped 3 (useA 0x1000)
     s.leaf 0 s.me.asid.toNat 0x1000 = some leaf0 ∧ leaf0.pa + (0x1000 - leaf0.va) < 2 ^ 38 ∧ leaf0.w = false) ∧
    (let s := mapped 19 (useA 0x1000)
     s.leaf 0 s.me.asid.toNat 0x1000 = some { leaf0 with sv := true } ∧ s.mySide.super = false) ∧
    (let ea : Word := 0xBF00000000000000
     ea.toNat / 2 ^ 56 = 0x80 + 63 ∧ (useA ea).reach.getLsbD 63 = false) := by
  decide +kernel

/-- A page of an aperture over an empty buffer at DRAM 0. -/
def aper : State :=
  let s := mapped (2 ^ 40 + 3) (useA 0x1000)
  { ((s.ctlSet 0x2000 (BitVec.ofNat 64 (2 ^ 40))).ctlSet 0x2008 (BitVec.ofNat 64 (2 ^ 40 + 0xFFFF))).ctlSet 0x2010 (BitVec.ofNat 64 (2 ^ 63)) with
    mem := Memory.writeN s.mem 0 [0xE8, 0xB2] }

/-- Where an access may go: the scratchpad, control space, an aperture, a peer. -/
theorem test_witness_places :
    (useA 0x0100000000000008).place ((useA 0x0100000000000008).how .read true 8) 0x0100000000000008 = .ok (.mem (spadKey 0 8)) ∧
    (useA 0x0100000000000008).place ((useA 0x0100000000000008).how .write true 8) 0x0100000000000008 = .ok (.mem (spadKey 0 8)) ∧
    (useA 0x0100000000000008).logRoom 0 [(spadKey 0 8, 8)] = .ok () ∧
    (supA 0x0300000000082000).place ((supA 0x0300000000082000).how .read true 8) 0x0300000000082000 = .ok (.ctl 0x82000) ∧
    (supA 0x0300000000082000).place ((supA 0x0300000000082000).how .write true 8) 0x0300000000082000 = .ok (.ctl 0x82000) ∧
    (supA 0x0300000000082000).quiet [(2 ^ 54 + 0x82000, 8)] = .ok () ∧
    (aper.place (aper.how .read true 8) 0x1000 = .ok (.aper 0 0x1000) ∧ aper.quiet [(aper.apBase 0 + 0x1000, 8)] = .ok () ∧
      (aper.viewAs aper.cur.core).aperRead 0 0x1000 8 = .ok (List.replicate 8 0)) ∧
    (let s := { useA 0x8100000000000010 with reach := 2 }
     s.place (s.how .read true 8) 0x8100000000000010 = .ok (.peer 1 16) ∧ s.place (s.how .write true 8) 0x8100000000000010 = .ok (.peer 1 16)) :=
  by decide +kernel

/-- An access of core 0 alone in its list can be performed. -/
theorem performable (ok : Access → Nat × Nat → Bool) (kind : AccKind) (k size : Nat)
    (h : findOpen ok [] [acc0 5 kind k size] 0 = some ([], acc0 5 kind k size, 0)) (h2 : mayPerform [] (acc0 5 kind k size) 0 = true)
    (h3 : (acc0 5 kind k size).abandoned = false := by rfl) :
    Performable (pending [acc0 5 kind k size]) 0 ok 0 [] (acc0 5 kind k size) k size :=
  ⟨rfl, rfl, h, h2, List.nodup_singleton 5, by rintro y hy; rw [List.mem_singleton.1 hy]; exact h3⟩

/-- A deterministic task whose core has a pending store. -/
def detStore : State :=
  let s := pending [acc0 5 (.writes [[1, 2]]) 0x100 2]
  { s with
    tasks := [{ task0 with launch := some 0 }]
    launches := [{ id := 0, fn := 0, det := true, rerun := false, count := 1, next := 1, cont := rec0, fstride := 0, vlfix := 6, status := 0,
                   out := 1, stateNo := 1, fails := [], interval := 0, held := [], base := [], logs := [], merging := none }] }

/-- Stores: into the core's own pane, of a deterministic task, and into another pane. -/
theorem test_witness_stores : (pending [acc0 5 (.writes [[1, 2]]) 0x100 2]).MemOk ∧
    Performable (pending [acc0 5 (.writes [[1, 2]]) 0x100 2]) 0 (writeEvent 0) 0 [] (acc0 5 (.writes [[1, 2]]) 0x100 2) 0x100 2 ∧
    (pending [acc0 5 (.writes [[1, 2]]) 0x100 2]).detTask 0 = none ∧
    (Performable detStore 0 (writeEvent 0) 0 [] (acc0 5 (.writes [[1, 2]]) 0x100 2) 0x100 2 ∧
      detStore.detTask 0 = some { task0 with launch := some 0 } ∧ keyIsDram 0x100 = true) ∧
    Performable (pending [acc0 5 (.writes [[1, 2]]) (2 ^ 35) 2]) 0 (crossEvent 0) 0 [] (acc0 5 (.writes [[1, 2]]) (2 ^ 35) 2) (2 ^ 35) 2 ∧
    (∀ q, q < 8 → q ≠ (0 : Fin 8).val → clockLe (((pending []).pane 0).clock.getD q 0) ((pending []).pane q).sentNo = true) :=
  ⟨rfl, performable _ _ _ _ rfl rfl, rfl, ⟨⟨rfl, rfl, rfl, rfl, List.nodup_singleton 5, by decide⟩, rfl, rfl⟩, performable _ _ _ _ rfl rfl, by decide⟩

/-- Loads of 1 and of 8 bytes, and a value that has arrived. -/
theorem test_witness_loads : (1 : RegNo) ≠ 0 ∧
    Performable (pending [acc0 5 (.load 1 1 true) 0x100 1]) 0 readEvent 0 [] (acc0 5 (.load 1 1 true) 0x100 1) 0x100 1 ∧
    Performable (pending [acc0 5 (.load 31 8 false) 0x100 8]) 0 readEvent 0 [] (acc0 5 (.load 31 8 false) 0x100 8) 0x100 8 ∧
    (pending [acc0 5 (.load 1 1 true) 0x100 1]).detTask 0 = none ∧
    Performable (pending [acc0 5 (.value 1 9) (2 ^ 54) 8]) 0 readEvent 0 [] (acc0 5 (.value 1 9) (2 ^ 54) 8) (2 ^ 54) 8 :=
  ⟨by decide, performable _ _ _ _ rfl rfl, performable _ _ _ _ rfl rfl, rfl, performable _ _ _ _ rfl rfl⟩

def amo0 (op : AmoOp) (det : Bool) : AmoF :=
  { d := 4, a := { r := 3, fe := false }, b := { r := 5, fe := false }, scope := .dev, off := 0, c := 6, tg := 0, op := op, acq := false,
    rel := false, det := det }

/-- amo that issues; one whose operation does not fit its tag; one that is not allowed in a deterministic task. -/
theorem test_witness_amo :
    (let s := useA 0x0100000000000008
     s.cur.side = .A ∧ s.me.peerWait = none ∧ s.eaOff (amo0 .add false).a (some 0) = .ok 0x0100000000000008 ∧ s.Has 5 ∧ s.Has 6 ∧ s.Has 4 ∧
     amoTagOk (amoTag 0) .add = true ∧ ¬ ((amo0 .add false).det = true ∧ ((amo0 .add false).op = .swap ∨ (amo0 .add false).op = .cas)) ∧
     s.place (s.how .amo true (tagW (amoTag 0).val / 8)) 0x0100000000000008 = .ok (.mem (spadKey 0 8)) ∧ s.logRoom 0 [(spadKey 0 8, 8)] true = .ok () ∧ s.CanTrap) ∧
    amoTagOk (amoTag 0x0A) .and = false ∧ (amo0 .cas true).det = true ∧ (amo0 .swap true).op = .swap :=
  ⟨⟨rfl, rfl, rfl, rfl, rfl, rfl, rfl, by decide, rfl, rfl, rfl, by decide, rfl, rfl⟩, rfl, rfl, rfl⟩

/-- Atomics performed, with and without a destination, of both widths. -/
theorem test_witness_amo_performed :
    Performable (pending [acc0 5 (.amo 0 .add 4 [1] 0 false false false) 0x100 4]) 0 (writeEvent 0) 0 [] (acc0 5 (.amo 0 .add 4 [1] 0 false false false) 0x100 4) 0x100 (32 / 8) ∧
    Performable (pending [acc0 5 (.amo 3 .cas 5 [1] 0 false false false) 0x100 8]) 0 readEvent 0 [] (acc0 5 (.amo 3 .cas 5 [1] 0 false false false) 0x100 8) 0x100 (64 / 8) ∧
    Performable (pending [acc0 5 (.amo 3 .cas 5 [1] 0 false false false) (2 ^ 35) 8]) 0 readEvent 0 [] (acc0 5 (.amo 3 .cas 5 [1] 0 false false false) (2 ^ 35) 8) (2 ^ 35) (64 / 8) ∧
    Performable (pending [acc0 5 (.amo 0 .add 5 [1] 0 false false false) (2 ^ 35) 8]) 0 (crossEvent 0) 0 [] (acc0 5 (.amo 0 .add 5 [1] 0 false false false) (2 ^ 35) 8) (2 ^ 35) (64 / 8) ∧
    crossesPane 0 (2 ^ 35, 64 / 8) = true ∧ (pending []).clockReady 0 = true ∧
    isInt 4 = true ∧ tagW 4 = 32 ∧ isInt 5 = true ∧ tagW 5 = 64 ∧ (pending []).detTask 0 = none :=
  ⟨performable _ _ _ _ rfl rfl, performable _ _ _ _ rfl rfl, performable _ _ _ _ rfl rfl, performable _ _ _ _ rfl rfl, rfl, by decide, rfl,
   rfl, rfl, rfl, rfl⟩

/-- A det atomic of a deterministic task. -/
def detAmo : State :=
  let s := detStore
  { s with cores := [(0, { s.core 0 with pend := [acc0 5 (.amo 3 .add 5 [1] 0 false false true) 0x100 8] })] }

/-- Atomics of floats, with and without a destination; a det atomic, which is logged. -/
theorem test_witness_amo_floats : (∀ t ∈ [(0x0C : Fin 32), 0x0D], t.val = tF32 ∨ t.val = tF64) ∧ tagW tF32 = 32 ∧ tagW tF64 = 64 ∧
    Performable (pending [acc0 5 (.amo 3 .add 0x0D [1] 0 false false false) 0x100 8]) 0 readEvent 0 [] (acc0 5 (.amo 3 .add 0x0D [1] 0 false false false) 0x100 8) 0x100 (64 / 8) ∧
    Performable (pending [acc0 5 (.amo 0 .add 0x0C [1] 0 false false false) 0x100 4]) 0 (writeEvent 0) 0 [] (acc0 5 (.amo 0 .add 0x0C [1] 0 false false false) 0x100 4) 0x100 (32 / 8) ∧
    (detAmo.detTask 0 = some { task0 with launch := some 0 } ∧
     Performable detAmo 0 readEvent 0 [] (acc0 5 (.amo 3 .add 5 [1] 0 false false true) 0x100 8) 0x100 (64 / 8)) ∧ crossesPane 0 (0x100, 8) = false :=
  ⟨by decide, rfl, rfl, performable _ _ _ _ rfl rfl, performable _ _ _ _ rfl rfl, ⟨rfl, rfl, rfl, rfl, rfl, List.nodup_singleton 5, by decide⟩, rfl⟩

/-- A core whose access is to an arrival word of these contents. -/
def arriving (kind : AccKind) (target count : Nat) : State :=
  let s := pending [acc0 5 kind 0x100 16]
  { s with mem := Memory.writeN s.mem 0x100 (leBytes 5 target ++ leBytes 5 count) }

/-- arrive that saturates, with TARGET 0 and not; arm with the count at its target, one below it, and with target 0. -/
theorem test_witness_arrival_corners :
    (∀ tg ∈ [0, 3], (arriving (.arrive 1) tg (2 ^ 40 - 1)).MemOk ∧ ((arriving (.arrive 1) tg (2 ^ 40 - 1)).arrRead 0x100).target = tg ∧
      2 ^ 40 ≤ ((arriving (.arrive 1) tg (2 ^ 40 - 1)).arrRead 0x100).count + 1 % 2 ^ 40) ∧
    ((arriving (.arm 2) 0 2).arrRead 0x100).count = 2 ∧ ((arriving (.arm 2) 0 1).arrRead 0x100).count < 2 ∧
    findOpen (writeEvent 0) [] [acc0 5 (.arm 2) 0x100 16] 0 = some ([], acc0 5 (.arm 2) 0x100 16, 0) := by
  unfold State.MemOk
  decide +kernel

def sync0 : State := on .A fun c => setA 3 0x0100000000000010 (setA 5 1 c)

/-- Arrival words: arm, arrive and await issued, performed, and an await whose generation has and has not passed. -/
theorem test_witness_arrival :
    (sync0.cur.side = .A ∧ sync0.Has 3 ∧ sync0.Has 5 ∧ sync0.syncPlace .write (sync0.val 3) 16 = .ok (spadKey 0 16)) ∧
    (sync0.Has 4 ∧ sync0.syncPlace .read (sync0.val 3) 16 = .ok (spadKey 0 16) ∧ sync0.failRecs 0 = [] ∧
      (sync0.me.pend.filter fun e => e.kind.isAwait).length < 4) ∧
    (Performable (pending [acc0 5 (.arrive 1) 0x100 16]) 0 (writeEvent 0) 0 [] (acc0 5 (.arrive 1) 0x100 16) 0x100 16 ∧
      ((pending []).arrRead 0x100).count + 1 % 2 ^ 40 < 2 ^ 40) ∧
    Performable (pending [acc0 5 (.arm 0) 0x100 16]) 0 (writeEvent 0) 0 [] (acc0 5 (.arm 0) 0x100 16) 0x100 16 ∧
    (Performable (pending [acc0 5 (.await 4 0xFFFFFFFF 0) 0x100 16]) 0 (fun x _ => x.kind.isAwait) 0 [] (acc0 5 (.await 4 0xFFFFFFFF 0) 0x100 16) 0x100 16 ∧
      (1 ≤ (((pending []).arrRead 0x100).gen + 2 ^ 32 - (0xFFFFFFFF : BitVec 32).toNat) % 2 ^ 32 ∧
        (((pending []).arrRead 0x100).gen + 2 ^ 32 - (0xFFFFFFFF : BitVec 32).toNat) % 2 ^ 32 < 2 ^ 31)) ∧
    ¬ (1 ≤ (((pending []).arrRead 0x100).gen + 2 ^ 32 - (0 : BitVec 32).toNat) % 2 ^ 32 ∧
        (((pending []).arrRead 0x100).gen + 2 ^ 32 - (0 : BitVec 32).toNat) % 2 ^ 32 < 2 ^ 31) :=
  ⟨⟨rfl, rfl, rfl, rfl⟩, ⟨rfl, rfl, rfl, by decide⟩, ⟨performable _ _ _ _ rfl rfl, by decide⟩, performable _ _ _ _ rfl rfl,
   ⟨performable _ _ _ _ rfl rfl, by decide⟩, by decide⟩

/-- A core at a fence. -/
def fenced (scope : Scope) (t : Bool) (loss : Word) (xs : List Access) : State :=
  on .A fun c => { c with pend := xs, lossSet := loss, av := { c.av with fence := some { scope := scope, dst := 4, trapT := t } } }

/-- Fences: none held; covered and not; of this device; of the system without a loss, with a loss under .t, and with a fault. -/
theorem test_witness_fences : (on .A id).mySide.fence = none ∧ (on .A id).Has 4 ∧
    ((fenced .pane false 0 []).core 0).av.fence = some { scope := .pane, dst := 4, trapT := false } ∧
    (fenced .pane false 0 []).covered .pane = true ∧ (fenced .pane false 0 [acc0 5 (.writes [[1]]) 0x100 1]).covered .pane = false ∧
    (let s := fenced .sys true 0 []
     s.covered .sys = true ∧ 0 ∈ s.gang 0 ∧ s.faultsOf = [] ∧ fencest s.dev s.lossOf = 0) ∧
    (let s := fenced .sys true 2 []
     s.covered .sys = true ∧ causeInh (s.core 0).av.cause = false ∧ (s.core 0).tvec ≠ 0 ∧ s.holdsTrap = false ∧ s.exiting 0 = false ∧ s.faultsOf = [] ∧
     fencest s.dev s.lossOf ≠ 0) ∧
    (let p : PeerFault := { id := 0, peer := 1, elem := 0, addr := 8, prot := true }
     let s := on .A fun c => { c with peerFaults := [p], av := { c.av with fence := some { scope := .sys, dst := 4, trapT := false } } }
     s.covered .sys = true ∧ causeInh (s.core 0).av.cause = false ∧ (s.core 0).tvec ≠ 0 ∧ s.holdsTrap = false ∧
     firstFault s.faultsOf = some p) := by
  refine ⟨rfl, rfl, rfl, rfl, rfl, ?_⟩
  decide +kernel

end Tests
end Sys2Proof
end

