-- ==== Sys2Proof/Tests/WitnessQueues.lean ====
section
/-!
SUPPORT. Witnesses for the statements about queue loads, store-queue stores, anchored blocks and strip-mining.
-/

set_option Elab.async false

namespace Sys2Proof
namespace Tests

open Sys2Proof.Machine

/-- The A-side with an address in a3, an operand in a5 and a length. -/
def strip (ea b : Word) (vl : Nat) : State :=
  on .A fun c => setA 3 ea (setA 5 b { c with av := { c.av with vl := BitVec.ofNat 32 vl } })

def ra : SrcR := { r := 3, fe := false }
def rb : SrcR := { r := 5, fe := false }

def spad8 : Word := 0x0100000000000008

/-- A place past the U view's own program, so that no progress stands for it. -/
def stripAt (ea b : Word) (vl : Nat) : State :=
  on .A fun c => setA 3 ea (setA 5 b { c with av := { c.av with vl := BitVec.ofNat 32 vl, pc := 0x40 } })

theorem strip_fresh (ea b : Word) (vl : Nat) :
    ∀ x ∈ (stripAt ea b vl).me.pend, x.id < (stripAt ea b vl).me.nextId := by
  have h : (stripAt ea b vl).me.pend = [] := rfl
  rw [h]
  intro x hx
  cases hx

theorem ready (ea b : Word) (vl : Nat) (q : Fin 4) : (stripAt ea b vl).ReadyToFill q := by
  refine ⟨rfl, rfl, rfl, rfl, rfl, ⟨strip_fresh ea b vl, ?_⟩, ?_⟩ <;> revert q
  · show ∀ q : Fin 4, ∀ e ∈ (Core.reset.lq[q.val]).ents, e.id < Core.reset.nextId
    decide +kernel
  · show ∀ q : Fin 4, (Core.reset.lq[q.val]).ents.length < 8
    decide

theorem readyToClaim (ea b : Word) (vl : Nat) : (stripAt ea b vl).ReadyToClaim := ⟨rfl, rfl, rfl, rfl, strip_fresh ea b vl⟩

def ldq0 (tc : Fin 8) (x : Option LdqX) : LdqF := { q := 1, a := ra, tc := tc, ext := x }

/-- ldq: the short form; the extended form with a plain tag, and i4 rows with the scale forms 0, 1 and 2. -/
theorem test_witness_ldq :
    (let s := stripAt spad8 0 2
     s.ReadyToFill 1 ∧ s.eaOff ra none = .ok spad8 ∧ loadTag 0 0 = 5 ∧ tagOk 5 = true ∧ s.mySide.vl.toNat ≤ s.me.vlmax * 64 / tagW 5 ∧
     isRowTag 5 = false ∧ s.pieces .read (unitPieces spad8 2 64) = ([.mem (spadKey 0 8), .mem (spadKey 0 16)], none)) ∧
    (let s := stripAt spad8 0 32
     s.ReadyToFill 1 ∧ s.eaOff ra (some 8) = .ok (spad8 + 8) ∧ (∃ tg : Fin 32, isRowTag tg.val = true ∧ tagOk tg.val = true ∧
       s.mySide.vl.toNat ≤ s.me.vlmax * 64 / tagW tg.val) ∧ s.mySide.vl.toNat % 32 = 0 ∧ (spad8 + 8).toNat % 8 = 0 ∧
     s.mySide.vl.toNat ≤ s.me.vlmax) ∧
    (let s := stripAt spad8 0 513
     s.cur.side = .A ∧ s.Has 3 ∧ s.CanTrap ∧ s.me.vlmax * 64 / tagW (loadTag 0 0).val < s.mySide.vl.toNat) := by
  refine ⟨⟨ready _ _ _ _, ?_⟩, ⟨ready _ _ _ _, ?_, ⟨1, ?_⟩, ?_⟩, rfl, rfl, ⟨rfl, by decide, rfl, rfl⟩, ?_⟩ <;> decide +kernel

/-- ldqs and ldqx: a stride of 8 bytes, and two indices in the scratchpad. -/
theorem test_witness_ldqs :
    (let s := stripAt spad8 8 2
     s.ReadyToFill 0 ∧ s.Has 3 ∧ s.Has 5 ∧ loadTag 0 ((none : Option (Fin 32)).getD 0) = 5 ∧ tagW 5 ≠ 4) ∧
    (let s := stripAt spad8 0x0100000000000100 2
     s.indices (s.val 5) s.mySide.vl.toNat = .ok [0, 0] ∧
     s.pieces .read (indexPieces (s.val 3) [0, 0] 64) = ([.mem (spadKey 0 8), .mem (spadKey 0 8)], none)) := by
  refine ⟨⟨ready _ _ _ _, rfl, rfl, ?_⟩, ?_⟩ <;> decide +kernel

/-- stq, stqs, stqx, stqp, stab and amoqx: they can claim, and each has its pieces. -/
theorem test_witness_claims :
    (let s := stripAt spad8 8 2
     s.ReadyToClaim ∧ s.eaOff ra none = .ok spad8 ∧ s.Has 3 ∧ s.Has 5 ∧ stqTag ((none : Option (Fin 32)).getD 0) = 5 ∧ tagOk 5 = true ∧
     tagW 5 ≠ 4 ∧ isRowTag 5 = false ∧ s.mySide.vl.toNat ≤ s.me.vlmax * 64 / tagW 5 ∧
     s.pieces .write (unitPieces spad8 2 64) = ([.mem (spadKey 0 8), .mem (spadKey 0 16)], none) ∧
     s.logRoom 0 [(spadKey 0 8, 8), (spadKey 0 16, 8)] = .ok ()) ∧
    (let s := stripAt 0x0100000000000100 16 1024
     1 ≤ (s.val 5).toNat ∧ (s.val 5).toNat ≤ 16 ∧ s.mySide.vl.toNat % 1024 = 0 ∧ (s.val 3).toNat % 128 = 0) ∧
    (let s := stripAt 0x0100000000000100 4 4
     s.ReadyToClaim ∧ s.blockChecks .write (s.val 3) (s.val 5) false = .ok (1,
       [{ idx := 0, addr := 0x0100000000000100, size := 16 }, { idx := 1, addr := 0x0100000000000110, size := 16 }])) ∧
    (let s := stripAt spad8 0x0100000000000100 2
     s.ReadyToClaim ∧ amoTagOk (amoTag 0) .add = true ∧ s.mySide.vl.toNat ≤ s.me.vlmax * 64 / tagW (amoTag 0).val ∧
     s.indices (s.val 5) s.mySide.vl.toNat = .ok [0, 0] ∧ AmoOp.add ≠ .cas) := by
  refine ⟨⟨readyToClaim _ _ _, ?_, rfl, rfl, ?_⟩, ?_, ⟨readyToClaim _ _ _, ?_⟩, readyToClaim _ _ _, ?_⟩ <;> decide +kernel

def ent (id n : Nat) (tag : Fin 32) (elems : List Word) : Entry :=
  { id := id, n := n, tag := tag, base := 0, vers := 0, kind := .data, elems := elems, valid := elems.map fun _ => true, ready := true,
    delivered := false, held := none }

/-- A core with a claim in queue 0, held by a fault or not, and entries there. -/
def claimed (form : StqForm) (cut : Bool) (es : List Entry) : State :=
  on .A fun c => { c with pend := [acc0 5 (.stq 0 5 form cut) 0x100 8], sq := c.sq.set 0 { ents := es, ctr := 0 } }

theorem oldestClaim (form : StqForm) (cut : Bool) (es : List Entry) :
    (claimed form cut es).OldestClaim core0.no [] (acc0 5 (.stq 0 5 form cut) 0x100 8) [] 0 5 form cut :=
  { list := rfl, older := by { intro y h; cases h }, kind := rfl, ids := List.nodup_singleton 5
    stays := by
      have h : ((claimed form cut es).core core0.no).pend = [acc0 5 (.stq 0 5 form cut) 0x100 8] := rfl
      unfold State.mayRetract
      simp [h, acc0, AccKind.isAwait] }

theorem noClaim {c : Core} (h : c.pend = []) : c.NoClaim := by
  intro x hx
  rw [h] at hx
  cases hx

/-- Data for a store of elements, for one of blocks and for one that a fault holds; an empty queue, another queue, a receive that may yet
unwind the entry, and no claim. -/
theorem test_witness_data_arrives :
    (let s := claimed .plain false [ent 1 1 5 [7]]
     (∀ w b, StqForm.plain ≠ .blocks w b) ∧ ((s.core core0.no).sq[0]).ents = ent 1 1 5 [7] :: [] ∧ (s.core core0.no).pushStands 0 1 = true) ∧
    (let s := claimed (.blocks false 4) false [ent 1 1 5 [7], ent 2 4 0x11 [1, 2, 3, 4]]
     ((s.core core0.no).sq[0]).ents = ent 1 1 5 [7] :: ent 2 4 0x11 [1, 2, 3, 4] :: [] ∧ (s.core core0.no).pushStands 0 2 = true) ∧
    (acc0 5 (.stq 0 5 .plain true) 0x100 8).open_ ≠ [] ∧ ((claimed .plain true [ent 1 1 5 [7]]).core core0.no).pushStands 0 1 = true ∧
    ((claimed .plain false []).core core0.no).sq[0].ents = [] ∧ (1 : Fin 2) ≠ 0 ∧
    (let r : CrecvSt := { cv := 0, dst := .reg 1, b := 1, snap := Core.reset.snapshot, young := 0, sent := true, gone := false }
     ({ (claimed .plain false [ent 1 1 5 [7]]).core core0.no with crecvs := [r] } : Core).pushStands 0 1 = false) ∧
    (State.reset.core core0.no).NoClaim := by
  refine ⟨⟨nofun, ?_⟩, ?_, ?_, ?_, ?_, ?_, ?_, noClaim ?_⟩ <;> decide +kernel

/-- A ring of elements in the scratchpad, with its descriptor at offset 0x20 and an entry at hand. -/
def ring (base cap : Nat) (e : Entry) : State :=
  let s := on .A fun c => setA 3 0x0100000000000020 { c with sq := c.sq.set 0 { ents := [e], ctr := 0 } }
  { s with mem := Memory.writeN s.mem (spadKey 0 0x20) (leBytes 8 base ++ leBytes 4 cap) }

theorem atAppend (base cap : Nat) (e : Entry) (h : (ring base cap e).syncPlace .write ((ring base cap e).val 3) 32 = .ok (spadKey 0 0x20))
    (h2 : (ring base cap e).quiet [(spadKey 0 0x20, 16)] = .ok ())
    (h3 : BitVec.ofNat 64 base = BitVec.ofNat 64 (leNat (Memory.readN (ring base cap e).mem (spadKey 0 0x20) 8)))
    (h4 : cap = leNat (Memory.readN (ring base cap e).mem (spadKey 0 0x20 + 8) 4)) :
    (ring base cap e).AtAppend ra (spadKey 0 0x20) (BitVec.ofNat 64 base) cap := ⟨rfl, rfl, h, h2, h3, h4⟩

/-- stq.app: a ring of 64 dwords, and one with no room for a power of two. -/
theorem test_witness_append :
    ((ring 0x0100000000001000 64 (ent 1 1 5 [7])).AtAppend ra (spadKey 0 0x20) 0x0100000000001000 64 ∧ goodRing 0x0100000000001000 64) ∧
    ((ring 0x0100000000001000 63 (ent 1 1 5 [7])).AtAppend ra (spadKey 0 0x20) 0x0100000000001000 63 ∧ ¬ goodRing 0x0100000000001000 63 ∧
      (ring 0x0100000000001000 63 (ent 1 1 5 [7])).CanTrap) := by
  refine ⟨⟨atAppend _ _ _ ?_ ?_ ?_ ?_, ⟨6, ?_, ?_, ?_⟩, ?_⟩, atAppend _ _ _ ?_ ?_ ?_ ?_, ?_, rfl, ?_, rfl, rfl⟩
  all_goals first | decide +kernel | skip
  rintro ⟨⟨k, h6, h21, hk⟩, -⟩
  have h1 : 2 ^ 6 ≤ 2 ^ k := Nat.pow_le_pow_right (by decide) h6
  omega

/-- The A-side as it was before an append at 0x40. -/
def before0 : ASnap := (atA 0x40 id).aSnap

/-- A pending append of 64 elements to the scratchpad, whose ring may take so many bytes, behind other accesses. -/
def append0 (room : Nat) : Access :=
  { acc0 5 (.stq 0 0 (.app 64 room) false) (spadKey 0 0x2C) 4 with
    range := [(spadKey 0 0x1000, room), (spadKey 0 0x30, 16)], addr := 0x0100000000001000, snap := some before0 }

/-- A core that has this append pending behind others, with an entry of a tag. -/
def appending (room : Nat) (tag : Fin 32) (es : List Access) : State :=
  let s := on .A fun c => { c with pend := es ++ [append0 room], sq := c.sq.set 0 { ents := [ent 1 1 tag [7]], ctr := 0 } }
  { s with mem := Memory.writeN s.mem (spadKey 0 0x2C) (leBytes 4 0xFFFFFFFF) }

theorem atClaim (room : Nat) (tag : Fin 32) (es : List Access) (h : ∀ y ∈ es, ∀ q t f b, y.kind ≠ .stq q t f b)
    (h2 : ((es ++ [append0 room]).map fun x => x.id).Nodup) (h3 : (appending room tag es).mayRetract core0.no 5 = false) :
    (appending room tag es).OldestClaim core0.no es (append0 room) [] 0 0 (.app 64 room) false := ⟨rfl, h, rfl, h2, h3⟩

/-- An append in its turn, with its tail at the last element before it wraps; of 4-bit elements; to a ring that leaves its scratchpad for its
last dword; and one that a store to its tail holds back. -/
theorem test_witness_append_data :
    ((appending 512 5 []).MemOk ∧ (appending 512 5 []).OldestClaim core0.no [] (append0 512) [] 0 0 (.app 64 512) false ∧
      (appending 512 5 []).AppendReady core0.no [] (append0 512) [] (spadKey 0 0x2C) (spadKey 0 0x1000) 512 64 512 (ent 1 1 5 [7]) ∧
      ((appending 512 5 []).core core0.no).pushStands 0 1 = true ∧ leNat (Memory.readN (appending 512 5 []).mem (spadKey 0 0x2C) 4) = 2 ^ 32 - 1) ∧
    ((appending 511 5 []).OldestClaim core0.no [] (append0 511) [] 0 0 (.app 64 511) false ∧
      ((appending 511 5 []).core core0.no).retractable = true ∧ 511 < 64 * (tagW (5 : Fin 32).val / 8) ∧ tagW (1 : Fin 32).val < 8 ∧
      (append0 511).snap = some before0 ∧ causeInh before0.side.cause = false ∧ ((appending 511 5 []).core core0.no).tvec ≠ 0 ∧
      (appending 511 5 []).exiting core0.no = false) ∧
    (let x := acc0 4 (.writes [leBytes 4 0]) (spadKey 0 0x2C) 4
     (appending 512 5 [x]).OldestClaim core0.no [x] (append0 512) [] 0 0 (.app 64 512) false ∧
       mayPerform ((append0 512).earlier 0 [x] []) (append0 512) 0 = false) := by
  refine ⟨⟨?_, atClaim _ _ _ ?_ ?_ ?_, ⟨?_, ⟨[(spadKey 0 0x30, 16)], ?_⟩, ?_, ?_, ?_⟩, ?_, ?_⟩,
    ⟨atClaim _ _ _ ?_ ?_ ?_, ?_, ?_, ?_, ?_, ?_, ?_, ?_⟩, atClaim _ _ _ ?_ ?_ ?_, ?_⟩
  all_goals first | decide +kernel | (intro y h; cases h; done) | (intro y h; rw [List.mem_singleton.1 h]; nofun) | skip
  · show Memory.wf (appending 512 5 []).mem = true
    decide +kernel

/-- A block that waits after an odd GEN, and the GEN even and odd. -/
def retrying (gen : Byte) : State :=
  let s := on .A fun c => { c with pend := [{ acc0 5 (.stab false 4 [(0, 0)] [] 0 4) 0x100 16 with spans := [(0x100, 16), (0x110, 16)], ans := [none, none] }] }
  { s with mem := Memory.writeN s.mem 0x10A [gen] }

theorem test_witness_gen_retry : Memory.wf (retrying 2).mem = true ∧ (retrying 2).detTask core0.no = none ∧
    ((((retrying 2).core core0.no).pend.filter Access.genWaits)[0]?).map (fun x => (x.kind, x.spans.getD (0 * blockUnits false 4) (0, 0))) =
      some (.stab false 4 [(0, 0)] [] 0 4, (0x100, 16)) ∧ [((0 : Word), (0 : Word))][0]? = some (0, 0) ∧
    leNat ((retrying 2).viewRead core0.no (0x100 + 10) 2) % 2 = 0 ∧ leNat ((retrying 3).viewRead core0.no (0x100 + 10) 2) % 2 = 1 ∧
    (((retrying 2).core core0.no).pend.filter Access.genWaits)[1]? = none := by
  decide +kernel

/-- One block of four elements whose GEN is even, and odd. -/
def block (gen : Byte) (try_ : Option LdabSt) : State :=
  let s := on .A fun c => setA 3 0x0100000000000100 (setA 5 4 { c with av := { c.av with vl := 4 }, ldabTry := try_ })
  { s with mem := Memory.writeN s.mem (spadKey 0 0x10A) [gen] }

def blockPieces : List Piece :=
  [{ idx := 0, addr := 0x0100000000000100, size := 16 }, { idx := 1, addr := 0x0100000000000110, size := 16 }]

def ldab0 : LdabF := { q := 0, a := ra, b := rb, wide := false }

def ldabSt (blk attempt : Nat) (bytes : List Byte) (waiting : Bool) : LdabSt :=
  { blk := blk, attempt := attempt, bytes := bytes, got := [], waiting := waiting }

theorem atBlocks (gen : Byte) (try_ : Option LdabSt) (h : (block gen try_).blockChecks .read ((block gen try_).val 3) ((block gen try_).val 5) false = .ok (1, blockPieces))
    (h2 : (block gen try_).quiet ((block gen try_).spansAt ((block gen try_).pieces .read blockPieces).1 blockPieces) = .ok ()) :
    (block gen try_).AtBlocks ldab0 1 blockPieces (try_.getD { blk := 0, attempt := 0, bytes := [], got := [], waiting := false }) :=
  ⟨rfl, rfl, rfl, h, by show (Core.reset.lq[(0 : Fin 4).val]).ents.length + 2 ≤ 8; decide, h2, rfl⟩

/-- ldab at the first dword of its block, past its last block, at the fifth failure, and while it waits; and what a dword makes of an
attempt: an odd header, one of more to come, a header that has changed and one that has not. -/
theorem test_witness_ldab :
    ((block 0 none).AtBlocks ldab0 1 blockPieces (ldabSt 0 0 [] false) ∧ (ldabSt 0 0 [] false).blk ≠ 1 ∧
      (attemptPlaces false 4 (((block 0 none).pieces .read blockPieces).1.drop 0))[0 / 8 / 2]? = some (.mem (spadKey 0 0x100)) ∧
      (block 0 none).blockWord (.mem (spadKey 0 0x100)) 0 = .ok (List.replicate 8 0)) ∧
    ((block 0 (some (ldabSt 1 0 [] false))).AtBlocks ldab0 1 blockPieces (ldabSt 1 0 [] false) ∧ (ldabSt 1 0 [] false).attempt ≠ 5) ∧
    ((block 1 (some (ldabSt 0 5 [] false))).AtBlocks ldab0 1 blockPieces (ldabSt 0 5 [] false) ∧ (block 1 (some (ldabSt 0 5 [] false))).CanTrap) ∧
    (block 1 (some (ldabSt 0 1 [] true))).AtBlocks ldab0 1 blockPieces (ldabSt 0 1 [] true) ∧
    (let bs : List Byte := List.replicate 10 0 ++ 1 :: List.replicate 5 0
     bs.length = 16 ∧ leNat ((bs.drop 10).take 2) % 2 = 1) ∧
    (List.replicate 8 (0 : Byte)).length < 16 * (blockUnits false 4 + 1) ∧ 1 ≤ blockUnits false 4 ∧
    (let bs : List Byte := List.replicate 32 0 ++ 1 :: List.replicate 15 0
     bs.length = 16 * (blockUnits false 4 + 1) ∧ bs.drop (16 * blockUnits false 4) ≠ bs.take 16) ∧
    (let bs : List Byte := List.replicate 48 0
     bs.length = 16 * (blockUnits false 4 + 1) ∧ bs.drop (16 * blockUnits false 4) = bs.take 16) ∧
    ((block 1 (some (ldabSt 0 1 [] true))).core core0.no).ldabTry = some (ldabSt 0 1 [] true) := by
  refine ⟨⟨atBlocks _ _ ?_ ?_, ?_, ?_, ?_⟩, ⟨atBlocks _ _ ?_ ?_, ?_⟩, ⟨atBlocks _ _ ?_ ?_, rfl, ?_, rfl, rfl⟩, atBlocks _ _ ?_ ?_, ?_⟩ <;> decide +kernel

/-- Deliveries: the oldest undelivered entry, read and not yet read. -/
theorem test_witness_delivery :
    (let s := on .A fun c => { c with lq := c.lq.set 0 { ents := [{ ent 1 1 5 [7] with delivered := true }, ent 2 1 5 [7]], ctr := 0 } }
     ((s.core core0.no).lq[0]).ents = [{ ent 1 1 5 [7] with delivered := true }] ++ ent 2 1 5 [7] :: [] ∧ (ent 2 1 5 [7]).ready = true ∧
     (ent 2 1 5 [7]).held = none ∧ ∀ x ∈ [{ ent 1 1 5 [7] with delivered := true }] ++ [], x.id ≠ (ent 2 1 5 [7]).id) ∧
    ({ ent 2 1 5 [] with ready := false } : Entry).ready = false :=
  ⟨⟨rfl, rfl, rfl, by decide⟩, rfl⟩

/-- vsetl with strip pointers 0 and 3, whose size codes are the least and the greatest, in a register that is one of them; a width of
64 bits and one named; a full control queue. -/
theorem test_witness_vsetl :
    (let s := on .A fun c => setA 3 0xFFFFFFFFFFFFFFFF { c with spsz := 6 * 2 ^ 9 + 1 }
     s.cur.side = .A ∧ s.Has 3 ∧ s.Has 4 ∧ s.Has (stripReg 0) ∧ s.Has (stripReg 3) ∧ s.me.cq.length < 16 ∧ s.isLong s.cur.core = false ∧
     sizeCode s.me.spsz 0 = 1 ∧ sizeCode s.me.spsz 3 = 6) ∧
    (StripWidth 1 0 64 ∧ StripWidth 1 1 8) ∧
    (let e : Token := { id := 0, vl := 0, w := 64, base := 0 }
     16 ≤ (on .A fun c => { c with cq := List.replicate 16 e }).me.cq.length) := by
  refine ⟨⟨rfl, rfl, rfl, rfl, rfl, ?_⟩, ⟨⟨0, ?_, .inl rfl, rfl⟩, 8, ?_, .inr ⟨0, ?_⟩, rfl⟩, ?_⟩ <;> decide +kernel

/-- spcfg: every code that is allowed, a bit above 11, and the code 7. -/
theorem test_witness_spcfg : (on .A (setA 3 0xDB6)).Has 3 ∧ (0xDB6 : Word).toNat < 2 ^ 12 ∧
    (∀ i, i < 4 → bits (0xDB6 : Word).toNat (3 * i + 2) (3 * i) ≠ 7) ∧ 2 ^ 12 ≤ (0x1000 : Word).toNat ∧
    bits (0xE00 : Word).toNat (3 * 3 + 2) (3 * 3) = 7 ∧ (on .A id).CanTrap := by
  refine ⟨rfl, ?_, ?_, ?_, ?_, rfl, by decide, rfl, rfl⟩ <;> decide

end Tests
end Sys2Proof
end

