-- ==== Sys2Proof/Tests/WitnessScalar.lean ====
section
/-!
SUPPORT. Witnesses for the statements about scalar instructions, transfers, system registers and traps: states and operands that
meet the hypotheses of each clause.
-/

set_option Elab.async false

namespace Sys2Proof
namespace Tests

open Sys2Proof.Machine

def alu0 : AluF := { d := 5, a := 6, fa := false, src := .reg 7 false }

theorem test_witness_alu : (on .A id).Has alu0.a ∧ (on .A id).Has2 alu0.src ∧ (on .A id).Has alu0.d := ⟨rfl, rfl, rfl⟩

theorem test_witness_alu_d0 : (on .X id).Has 6 ∧ (on .X id).Has2 (.imm 0xFFFFFFFF) ∧ (on .X id).Has 0 := ⟨rfl, trivial, rfl⟩

theorem test_witness_canTrap : (on .A id).CanTrap ∧ (on .X id).CanTrap := ⟨⟨rfl, by decide, rfl, rfl⟩, ⟨rfl, by decide, rfl, rfl⟩⟩

/-- Division: a divisor that is not zero, a zero one without FCTL.DZT, and with it. -/
theorem test_witness_div : (on .A (setA 7 1)).val2 alu0.src ≠ 0 ∧ ((on .A id).val2 alu0.src = 0 ∧ bit (on .A id).me.fctl 2 = false) ∧
    (let s := on .A fun c => { c with fctl := 4 }
     s.Has 6 ∧ s.Has2 alu0.src ∧ s.Has 5 ∧ s.val2 alu0.src = 0 ∧ bit s.me.fctl 2 = true ∧ s.CanTrap) :=
  ⟨by decide, ⟨rfl, rfl⟩, rfl, rfl, rfl, rfl, rfl, rfl, by decide, rfl, rfl⟩

theorem test_witness_immediate : (on .A id).Has ({ d := 1, a := 2, imm := .short 0xFFFF } : ImmF).a ∧
    (on .A id).Has ({ d := 1, a := 2, imm := .short 0xFFFF } : ImmF).d ∧ (on .X id).Has ({ d := 0, a := 0, n := 63 } : ShImmF).a ∧
    (on .X id).Has ({ d := 0, a := 0, n := 63 } : ShImmF).d := ⟨rfl, rfl, rfl, rfl⟩

/-- Words: a nonzero imm16 behind a prefix, a nonzero reserved field, kind 3, and reserved bits at their lowest. -/
theorem test_witness_immediate_words : (1 : BitVec 16) ≠ 0 ∧ (1 : RegNo) ≠ 0 ∧ (0xC000 : BitVec 16).toNat / 2 ^ 14 = 3 ∧
    (0x40 : BitVec 16).toNat / 2 ^ 6 % 2 ^ 8 ≠ 0 ∧ (0x403F : BitVec 16).toNat = 2 ^ 14 + (63 : Fin 64).val ∧
    (0x8000 : BitVec 16).toNat = 2 ^ 15 + (0 : Fin 64).val := by decide

/-- Transfers: aligned and misaligned targets, taken and not taken. -/
theorem test_witness_transfers :
    (let s := atA 0x1000 (setA 27 0x2000)
     s.Has 27 ∧ (s.val 27).toNat % 4 = 0 ∧ (s.mySide.pc + (Disp.short 1).bytes).toNat % 4 = 0 ∧ s.Has 3 ∧ s.val 3 = 0) ∧
    (let s := atA 0x1002 (setA 27 0x2002)
     s.Has 27 ∧ (s.val 27).toNat % 4 ≠ 0 ∧ (s.mySide.pc + (Disp.short 1).bytes).toNat % 4 ≠ 0 ∧ s.CanTrap ∧ s.Has 27 ∧ s.val 27 ≠ 0) :=
  ⟨⟨rfl, by decide, by decide, rfl, rfl⟩, rfl, by decide, by decide, ⟨rfl, by decide, rfl, rfl⟩, rfl, by decide⟩

theorem test_witness_branch_waits : (on .A fun c => { c with aFull := c.aFull.set 3 false }).me.full .A 3 = false := rfl

def loop0 : LoopEnt := { start := 0x100, fin := 0x10C, count := 2, index := 0 }

/-- Loops: a count of 0, of 1, and of 2^32 - 1; a displacement of 3 and of 2; counts that are too large; full and empty stacks. -/
theorem test_witness_loop :
    (let s := atA 0x1000 id
     s.Has 4 ∧ 3 ≤ (3 : BitVec 32).toInt ∧ (s.val 4).toNat < 2 ^ 32 ∧ s.mySide.loops.length < 6 ∧ s.val 4 = 0 ∧
     (s.CanTrap ∧ (2 : BitVec 32).toInt < 3) ∧ s.mySide.loops.length ≤ (0 : Fin 32).val ∧ s.mySide.loops = []) ∧
    (let s := atA 0x1000 (setA 4 0xFFFFFFFF)
     s.Has 4 ∧ (s.val 4).toNat < 2 ^ 32 ∧ s.val 4 ≠ 0) ∧
    (let s := atA 0x1000 (setA 4 0x100000000)
     s.Has 4 ∧ s.CanTrap ∧ 2 ^ 32 ≤ (s.val 4).toNat) ∧
    (let s := atA 0x1000 fun c => { c with av := { c.av with loops := List.replicate 6 loop0 } }
     s.Has 4 ∧ s.CanTrap ∧ 3 ≤ (3 : BitVec 32).toInt ∧ (s.val 4).toNat < 2 ^ 32 ∧ 6 ≤ s.mySide.loops.length ∧
     s.mySide.loops[(5 : Fin 32).val]? = some loop0 ∧ s.Has 2 ∧ s.mySide.loops = loop0 :: List.replicate 5 loop0) :=
  ⟨⟨rfl, by decide, by decide, by decide, rfl, ⟨⟨rfl, by decide, rfl, rfl⟩, by decide⟩, by decide, rfl⟩, ⟨rfl, by decide, by decide⟩,
   ⟨rfl, ⟨rfl, by decide, rfl, rfl⟩, by decide⟩, rfl, ⟨rfl, by decide, rfl, rfl⟩, by decide, by decide, by decide, rfl, rfl, rfl⟩

/-- nop before, at and behind END, with COUNT above 1 and at 1. -/
theorem test_witness_fall_through :
    (let s := atA 0x10C fun c => { c with av := { c.av with loops := [loop0] } }
     s.mySide.loops = [loop0] ∧ loop0.fin = s.mySide.pc ∧ 1 < loop0.count.toNat) ∧
    (let s := atA 0x108 fun c => { c with av := { c.av with loops := [loop0] } }
     s.mySide.loops = [loop0] ∧ loop0.fin ≠ s.mySide.pc) ∧
    (let e := { loop0 with count := 1 }
     let s := atA 0x10C fun c => { c with av := { c.av with loops := [e] } }
     s.mySide.loops = [e] ∧ e.fin = s.mySide.pc ∧ e.count.toNat ≤ 1) :=
  ⟨⟨rfl, rfl, by decide⟩, ⟨rfl, by decide⟩, rfl, rfl, by decide⟩

/-- An empty source with FE = 0 and with FE = 1, and an empty destination. -/
theorem test_witness_empty :
    (let s := on .A fun c => { c with aFull := c.aFull.set 6 false }
     s.me.full s.cur.side alu0.a = false ∧ alu0.fa = false ∧ ({ alu0 with fa := true }).fa = true ∧ s.CanTrap) ∧
    (let s := on .A fun c => { c with aFull := c.aFull.set 5 false }
     s.Has alu0.a ∧ s.Has2 alu0.src ∧ s.me.full s.cur.side alu0.d = false) :=
  ⟨⟨rfl, rfl, rfl, rfl, by decide, rfl, rfl⟩, rfl, rfl, rfl⟩

theorem test_witness_other_side : ownSide (.vmv { d := .reg 1, a := .reg 2, p := Pred.none }) = some .X ∧ (on .A id).cur.side ≠ .X ∧
    (on .A id).CanTrap := ⟨rfl, by decide, rfl, by decide, rfl, rfl⟩

/-- The U view on both sides; an unassigned number, one of the other side, and ones that U may not read or write. -/
theorem test_witness_user_view :
    ((on .A id).mySide.super = false ∧ (on .A id).CanTrap) ∧ ((on .X id).mySide.super = false ∧ (on .X id).cur.side = .X ∧ (on .X id).CanTrap) ∧
    sysReg (4095 : Fin 4096).val = none ∧
    (∃ r, sysReg (0x043 : Fin 4096).val = some r ∧ r.onSide .A ∧ r.uRead = false ∧ r.uWrite = false) ∧
    ∃ n : Fin 4096, ∃ r, sysReg n.val = some r ∧ ¬ r.onSide .A := by
  refine ⟨⟨rfl, rfl, by decide, rfl, rfl⟩, ⟨rfl, rfl, rfl, by decide, rfl, rfl⟩, rfl, ⟨_, rfl, .inl rfl, rfl, rfl⟩, 0x020, _, rfl, by rintro (h | h) <;> cases h⟩

theorem test_witness_sget : (∃ r, sysReg (0x034 : Fin 4096).val = some r ∧ r.onSide .A ∧ ((on .A id).mySide.super = true ∨ r.uRead = true)) ∧
    (∃ r, sysReg (0x042 : Fin 4096).val = some r ∧ r.onSide .X ∧ (atX 0 id).mySide.super = true) ∧ (on .A id).Has 9 ∧
    (on .A id).me.gpos < 16 ∧ (on .A id).me.gsize < 32 :=
  ⟨⟨_, rfl, .inl rfl, .inr rfl⟩, ⟨_, rfl, .inl rfl, rfl⟩, rfl, by decide, by decide⟩

/-- sput of registers that take their bits, and of a read-only one. -/
theorem test_witness_sput : (∃ r, sysReg (0x041 : Fin 4096).val = some r ∧ r.onSide .A ∧ r.sWrite = true) ∧ plainMask 0x041 = some (2 ^ 64 - 1) ∧
    (∃ r, sysReg (0x034 : Fin 4096).val = some r ∧ r.onSide .A ∧ r.sWrite = false) ∧ (atA 0 id).mySide.super = true ∧ (atA 0 id).Has 9 ∧
    (atA 0 id).MaySput ∧ (atX 0 id).MaySput ∧ (0x7F8 : BitVec 32).toNat < 0x800 ∧ (0x7F8 : BitVec 32).toNat % 8 = 0 :=
  ⟨⟨_, rfl, .inl rfl, rfl⟩, rfl, ⟨_, rfl, .inl rfl, rfl⟩, rfl, rfl, rfl, rfl, by decide, by decide⟩

/-- MSTEP while a macro-operation runs and while none does; LANEOK with every bit and without one. -/
theorem test_witness_own_effects : bit ((on .A id).core core0.no).mstepWord.toNat 63 = false ∧
    bit ((on .A fun c => { c with mops := [mop0] }).core core0.no).mstepWord.toNat 63 = true ∧ (0xFF : Word).toNat % 256 = 255 ∧
    (0xFE : Word).toNat % 256 = 255 - 2 ^ (0 : Fin 8).val ∧ (State.reset.core core0.no).laneok = 0xFF ∧
    (∃ t, exec (.laneRetired core0 0) State.reset = .next t) ∧ (State.reset.core core0.no).task = none ∧
    bit (State.reset.core core0.no).laneok.toNat (7 : Fin 8).val = true ∧ (State.reset.core core0.no).laneok = 0xFF ∧
    (State.reset.core core0.no).laneok ≠ BitVec.ofNat 8 (2 ^ (7 : Fin 8).val) :=
  ⟨by decide, by decide, by decide, by decide, rfl, ⟨_, rfl⟩, rfl, by decide, rfl, by decide⟩

/-- trap and eret: a code at its largest, on X, on A with a held entry for EPC and for another place, and with an EPC that is
misaligned. -/
theorem test_witness_trap : (on .A id).CanTrap ∧ (TrapCode.long 0x0FFFFFFF).value < 2 ^ 28 ∧ (atX 0 id).mySide.super = true ∧
    (let s := atA 0x40 fun c => { c with heldEpc := some 0 }
     s.mySide.super = true ∧ s.me.heldEpc = some s.mySide.epc) ∧
    (let s := atA 0x40 fun c => { c with heldEpc := some 8 }
     s.mySide.super = true ∧ s.mySide.epc.toNat % 4 = 0 ∧ s.cur.side = .A ∧ s.me.heldEpc = some 8 ∧ (8 : Word) ≠ s.mySide.epc) ∧
    (let s := atA 0x40 fun c => { c with av := { c.av with epc := 3 } }
     s.mySide.super = true ∧ s.mySide.epc.toNat % 4 ≠ 0 ∧ s.CanTrap) :=
  ⟨⟨rfl, by decide, rfl, rfl⟩, by decide, rfl, ⟨rfl, rfl⟩, ⟨rfl, by decide, rfl, rfl, by decide⟩, rfl, by decide, rfl, by decide, rfl, rfl⟩

/-- A trap in the handler, and one without a handler. -/
theorem test_witness_double_trap :
    (let s := on .A fun c => { c with av := { c.av with cause := 0x1000000000000000 } }
     s.holdsTrap = false ∧ s.me.task = some 3 ∧ s.task 3 = some task0 ∧ task0.cores = [s.cur.core] ∧ task0.phase = .running ∧
     causeInh s.mySide.cause = true ∧ s.me.tvec ≠ 0) ∧
    (let s := on .A fun c => { c with tvec := 0 }
     s.me.task = some 3 ∧ s.task 3 = some task0 ∧ s.me.tvec = 0) :=
  ⟨⟨rfl, rfl, rfl, rfl, rfl, by decide, by decide⟩, rfl, rfl, rfl⟩

/-- A queue load of two elements and a store of two that a fault holds, of which the first v are done. -/
def givingUp (kind : AccKind) (v : Nat) : State :=
  on .A fun c => { c with
    pend := [{ acc0 5 kind 0x100 8 with spans := [(0x100, 8), (0x108, 8)], ans := [some [1, 2, 3, 4, 5, 6, 7, 8], none] }]
    lq := c.lq.set 0 { ents := [{ id := 4, n := 2, tag := 5, base := 0, vers := 0, kind := .data, elems := [], valid := [], ready := false
                                  delivered := false, held := some v }], ctr := 0 }
    heldEpc := some 8, av := { c.av with vstart := BitVec.ofNat 32 v } }

/-- eret where a held access is given up: none at all, one at its first element, at a later one whose reads are done or not, a store; a trap
in the exit routine. -/
theorem test_witness_give_up : (on .A id).me.pend.find? (on .A id).me.isHeld = none ∧
    (∀ v ∈ [0, 1, 2], (givingUp (.fill 0 4 .plain) v).me.pend.find? (givingUp (.fill 0 4 .plain) v).me.isHeld =
      (givingUp (.fill 0 4 .plain) v).me.pend.head? ∧ ((givingUp (.fill 0 4 .plain) v).me.lq[0].ents.find? fun y => y.id == 4).isSome = true ∧
      ((givingUp (.fill 0 4 .plain) v).me.pend.map fun x => x.id).Nodup) ∧
    ((givingUp (.stq 0 5 .plain true) 1).me.pend.find? (givingUp (.stq 0 5 .plain true) 1).me.isHeld =
      (givingUp (.stq 0 5 .plain true) 1).me.pend.head?) ∧
    (let k : Task := { task0 with phase := .exiting 8 0 }
     let s := { on .A id with tasks := [k] }
     s.holdsTrap = false ∧ s.me.task = some 3 ∧ s.task 3 = some k ∧ k.cores = [s.cur.core]) := by
  decide +kernel

/-- VLCAP below 64, at it, between two powers of two and above the greatest. -/
theorem test_witness_vlcap : ∀ p ∈ [(0, 6), (63, 6), (64, 6), (127, 6), (128, 7), (4095, 11), (4096, 12), (8191, 12)],
    aft (.vlcapWrite core0 (BitVec.ofNat 64 p.1)) (on .A id) (fun t => (t.core 0).vlcap) = some (2 ^ p.2) := by
  decide +kernel

def wreq (n : Nat) : WktReq := { n := n, who := .ahead 0, contract := false }

/-- A pane whose wicket holds requests. -/
def wicket (rs : List WktReq) : State :=
  (on .A fun c => { c with wktPend := some (false, 0) }).setPane 0 { Pane.reset with reqs := rs }

/-- wait for a time that has come and for a later one; requests to the wicket that are made, pending, granted and too large. -/
theorem test_witness_waits :
    (let s := on .A id
     s.Has 3 ∧ s.mySide.waitTo = none ∧ (s.val 3).toNat ≤ s.gts.toNat ∧ s.me.wktPend = none ∧ s.me.wktHeld = none ∧ s.cur.core < 2048 ∧ s.Steady) ∧
    (let s := on .A (setA 3 1)
     s.Has 3 ∧ s.mySide.waitTo = none ∧ s.gts.toNat < (s.val 3).toNat) ∧
    (let s := on .A fun c => { c with av := { c.av with waitTo := some 0 }, xv := { c.xv with waitTo := some 1 } }
     (s.core core0.no).av.waitTo = some 0 ∧ (0 : Word).toNat ≤ s.gts.toNat ∧ (s.core core0.no).xv.waitTo = some 1 ∧ s.gts.toNat < (1 : Word).toNat) ∧
    (wicket []).me.wktPend.isSome = true ∧ (wicket []).mopAhead 0 = none ∧ (wicket []).cardAhead 0 = none ∧
    (let m := { mop0 with id := 1, granted := false, run := false }
     let s := (wicket [wreq 1]).setCore 0 { Core.reset with wktPend := some (false, 0), mops := [m] }
     (s.pane 0).next = some (wreq 1) ∧ s.louvresUsed 0 + 1 ≤ (s.pane 0).limit ∧ s.mopAhead 0 = some m) ∧
    (((wicket [wreq 1]).pane 0).next = some (wreq 1) ∧ (wicket [wreq 1]).louvresUsed 0 + 1 ≤ ((wicket [wreq 1]).pane 0).limit) ∧
    (((wicket [wreq 257]).pane 0).next = some (wreq 257) ∧ ((wicket [wreq 257]).pane 0).limit < (wicket [wreq 257]).louvresUsed 0 + 257) :=
  ⟨⟨rfl, rfl, by decide, rfl, rfl, by decide, rfl⟩, ⟨rfl, rfl, by decide⟩, ⟨rfl, by decide, rfl, by decide⟩, rfl, rfl, rfl, ⟨rfl, by decide, rfl⟩, ⟨rfl, by decide⟩, rfl, by decide⟩

end Tests
end Sys2Proof
end

section
/-!
SUPPORT. The words of the I, B and R formats: the fields of each word and the checks of its row (R210 to R215).
-/

namespace Sys2Proof
namespace Machine

/-! ## The checks of a row -/

theorem chk_of_all {cs : List (Bool × Reject)} (i : Instr) (h : ∀ c ∈ cs, c.1 = true) : chk cs i = .ok i := by
  induction cs with
  | nil => rfl
  | cons c cs ih =>
    obtain ⟨hc, hcs⟩ := List.forall_mem_cons.mp h
    rw [chk, if_pos hc, ih hcs]

theorem chk_error_of_mem {cs : List (Bool × Reject)} (i : Instr) (h : ∃ c ∈ cs, c.1 = false) : ∃ e, chk cs i = .error e := by
  induction cs with
  | nil => simp at h
  | cons c cs ih =>
    obtain hc | hc := c.1.eq_false_or_eq_true
    · rw [chk, if_pos hc]
      exact ih (by simpa [hc] using h)
    · exact ⟨c.2, by simp [chk, hc]⟩

theorem notDecoded_of_chk {x : Option Ext} {w : Nat} {cs : List (Bool × Reject)} {i : Instr} (hw : decodeWord x w = chk cs i)
    (h : ∃ c ∈ cs, c.1 = false) : NotDecoded x w := by
  rw [NotDecoded, hw]
  exact chk_error_of_mem i h

theorem decoded_of_chk {x : Option Ext} {w : Nat} {cs : List (Bool × Reject)} {i : Instr} (hw : decodeWord x w = chk cs i)
    (h : ∀ c ∈ cs, c.1 = true) : decodeWord x w = .ok i := hw.trans (chk_of_all i h)

@[simp] theorem plain_none : (plain none).1 = true := rfl
@[simp] theorem plain_prefixed (n : BitVec 32) : (plain (prefixed n)).1 = false := rfl
@[simp] theorem rsv_fst (c : Bool) : (rsv c).1 = c := rfl
@[simp] theorem onExt_none (p : Ext → Bool) : (onExt none p).1 = true := rfl
@[simp] theorem onExt_prefixed (n : BitVec 32) (p : Ext → Bool) : (onExt (prefixed n) p).1 = p { xf := XF.zero, imm := n } := rfl
@[simp] theorem immOk_none (r : RF) : (immOk none r).1 = true := rfl
@[simp] theorem immOk_prefixed (n : BitVec 32) (r : RF) : (immOk (prefixed n) r).1 = (r.imm16 == 0) := by simp [immOk]
@[simp] theorem immOf_none (r : RF) : immOf none r = .short r.imm16 := rfl
@[simp] theorem immOf_prefixed (n : BitVec 32) (r : RF) : immOf (prefixed n) r = .long n := rfl
@[simp] theorem dispOf_none (r : RF) : dispOf none r = .short r.disp22 := rfl
@[simp] theorem dispOf_prefixed (n : BitVec 32) (r : RF) : dispOf (prefixed n) r = .long n := rfl

/-! ## The fields of a word (R211) -/

/-- A word whose major is from 1 to below 0x3E, that of an EXT word, is read by its row (R215, R218). -/
theorem decodeWord_of_major (x : Option Ext) {w op : Nat} (hw : w / 2 ^ 26 = op) (h0 : 0 < op) (h1 : op < 0x3E) :
    decodeWord x w = decodeFields x (RF.ofWord w) := by
  have hz : w ≠ 0 := by omega
  have ho : w ≠ 0xFFFFFFFF := by omega
  have hp : w / 2 ^ 26 ≠ 0x3E := by omega
  rw [decodeWord, if_neg (by simp [hz, ho]), if_neg (by simp only [beq_iff_eq]; exact hp)]

theorem ofWord_op {w op : Nat} (hw : w / 2 ^ 26 = op) (h : op < 0x3E) : (RF.ofWord w).op.val = op := by
  subst hw
  exact Nat.mod_eq_of_lt (by omega)

/-- What a row of the opcode map says of a word with its major. -/
theorem decodeWord_of_row {x : Option Ext} {w op : Nat} {f : RF → Except Reject Instr} (hw : w / 2 ^ 26 = op) (h0 : 0 < op)
    (h1 : op < 0x3E) (row : ∀ r : RF, r.op.val = op → decodeFields x r = f r) : decodeWord x w = f (RF.ofWord w) := by
  rw [decodeWord_of_major x hw h0 h1, row _ (ofWord_op hw h1)]

theorem wordI_major (op : Nat) (d a : RegNo) (v : BitVec 16) : wordI op d a v / 2 ^ 26 = op := by
  simp only [wordI]; omega

@[simp] theorem ofWord_wordI_d (op : Nat) (d a : RegNo) (v : BitVec 16) : (RF.ofWord (wordI op d a v)).d = d := by
  simp only [RF.ofWord, wordI, Fin.ext_iff, Fin.ofNat_eq_cast, Fin.val_natCast]; omega

@[simp] theorem ofWord_wordI_a (op : Nat) (d a : RegNo) (v : BitVec 16) : (RF.ofWord (wordI op d a v)).a = a := by
  simp only [RF.ofWord, wordI, Fin.ext_iff, Fin.ofNat_eq_cast, Fin.val_natCast]; omega

@[simp] theorem ofWord_wordI_imm16 (op : Nat) (d a : RegNo) (v : BitVec 16) : (RF.ofWord (wordI op d a v)).imm16 = v := by
  apply BitVec.eq_of_toNat_eq
  simp only [RF.imm16, RF.ofWord, wordI, Fin.ofNat_eq_cast, Fin.val_natCast, BitVec.toNat_ofNat]; omega

theorem wordB_major (op : Nat) (v : BitVec 22) : wordB op v / 2 ^ 26 = op := by
  simp only [wordB]; omega

/-- Bits 25:22 of a B-format word are zero. -/
@[simp] theorem ofWord_wordB_high (op : Nat) (v : BitVec 22) : (RF.ofWord (wordB op v)).d.val / 2 = 0 := by
  simp only [RF.ofWord, wordB, Fin.ofNat_eq_cast, Fin.val_natCast]; omega

@[simp] theorem ofWord_wordB_disp22 (op : Nat) (v : BitVec 22) : (RF.ofWord (wordB op v)).disp22 = v := by
  apply BitVec.eq_of_toNat_eq
  simp only [RF.disp22, RF.ofWord, wordB, Fin.ofNat_eq_cast, Fin.val_natCast, BitVec.toNat_ofNat]; omega

/-- The bits fa and fb of an R-format word as a number. -/
theorem wordR_flags (fa fb : Bool) :
    (if fa then 2 ^ 10 else 0) + (if fb then 2 ^ 9 else 0) = (2 * fa.toNat + fb.toNat) * 2 ^ 9 := by
  cases fa <;> cases fb <;> rfl

theorem wordR_eq (op : Nat) (d a b : RegNo) (fa fb : Bool) (m : Fin 16) (fn : Nat) : wordR op d a b fa fb m fn =
    op * 2 ^ 26 + d.val * 2 ^ 21 + a.val * 2 ^ 16 + b.val * 2 ^ 11 + (2 * fa.toNat + fb.toNat) * 2 ^ 9 + m.val * 2 ^ 5 + fn := by
  rw [← wordR_flags, ← Nat.add_assoc]; rfl

/-- The fields of an R-format word whose function is one of 32. -/
theorem ofWord_wordR {op : Nat} (hop : op < 64) (d a b : RegNo) (fa fb : Bool) (m : Fin 16) (fn : Fin 32) :
    RF.ofWord (wordR op d a b fa fb m fn.val) =
      { op := ⟨op, hop⟩, d := d, a := a, b := b, q := Fin.ofNat 4 (2 * fa.toNat + fb.toNat), m := m, fn := fn } := by
  have ha := fa.toNat_lt
  have hb := fb.toNat_lt
  rw [wordR_eq]
  simp only [RF.ofWord, RF.mk.injEq, Fin.ext_iff, Fin.ofNat_eq_cast, Fin.val_natCast]
  omega

theorem wordR_major (op : Nat) (d a b : RegNo) (fa fb : Bool) (m : Fin 16) (fn : Fin 32) :
    wordR op d a b fa fb m fn.val / 2 ^ 26 = op := by
  have ha := fa.toNat_lt
  have hb := fb.toNat_lt
  rw [wordR_eq]
  omega

/-- The queue select holds fa and fb (R211). -/
theorem flags_zero (fa fb : Bool) : (Fin.ofNat 4 (2 * fa.toNat + fb.toNat) == 0) = (!fa && !fb) := by
  cases fa <;> cases fb <;> rfl

theorem flags_fa (fa fb : Bool) : ((Fin.ofNat 4 (2 * fa.toNat + fb.toNat)).val / 2 == 1) = fa := by
  cases fa <;> cases fb <;> rfl

theorem flags_fb (fa fb : Bool) : ((Fin.ofNat 4 (2 * fa.toNat + fb.toNat)).val % 2 == 1) = fb := by
  cases fa <;> cases fb <;> rfl

end Machine
end Sys2Proof
end

section
/-!
SUPPORT. The immediate forms (R230, R231): their words and what each writes.
-/

namespace Sys2Proof
namespace Machine

/-! ## The words of the immediate forms -/

/-- A major that is one immediate form alone has the words of one. -/
theorem immEncoded_of_row {op : Nat} {mk : ImmF → Instr} (h0 : 0 < op) (h1 : op < 0x3E)
    (row : ∀ x (r : RF), r.op.val = op → decodeFields x r = chk [immOk x r] (mk (immF x r))) : ImmEncoded op mk := by
  intro d a v n
  have hw (x : Option Ext) (u : BitVec 16) := decodeWord_of_row (wordI_major op d a u) h0 h1 (row x)
  refine ⟨?_, ?_, fun hv => ?_⟩
  · simpa [immF] using decoded_of_chk (hw none v) (by simp)
  · simpa [immF] using decoded_of_chk (hw (prefixed n) 0) (by simp)
  · exact notDecoded_of_chk (hw (prefixed n) v) (by simpa using hv)

theorem immEncoded_addi : ImmEncoded 0x02 .addi :=
  immEncoded_of_row (by decide) (by decide) fun x r h => by simp only [decodeFields, h]
theorem immEncoded_andi : ImmEncoded 0x03 .andi :=
  immEncoded_of_row (by decide) (by decide) fun x r h => by simp only [decodeFields, h]
theorem immEncoded_ori : ImmEncoded 0x04 .ori :=
  immEncoded_of_row (by decide) (by decide) fun x r h => by simp only [decodeFields, h]
theorem immEncoded_xori : ImmEncoded 0x05 .xori :=
  immEncoded_of_row (by decide) (by decide) fun x r h => by simp only [decodeFields, h]
theorem immEncoded_slti : ImmEncoded 0x07 .slti :=
  immEncoded_of_row (by decide) (by decide) fun x r h => by simp only [decodeFields, h]

theorem decodeFields_li (x : Option Ext) (r : RF) (h : r.op.val = 0x08) :
    decodeFields x r = chk [rsv (r.a == 0), immOk x r] (.li r.d (immOf x r)) := by simp only [decodeFields, h]
theorem decodeFields_lih (x : Option Ext) (r : RF) (h : r.op.val = 0x09) :
    decodeFields x r = chk [plain x, rsv (r.a == 0)] (.lih r.d r.imm16) := by simp only [decodeFields, h]
theorem decodeFields_shift (x : Option Ext) (r : RF) (h : r.op.val = 0x06) : decodeFields x r = dec06 x r := by
  simp only [decodeFields, h]

theorem decodeWord_li (x : Option Ext) (d a : RegNo) (v : BitVec 16) :
    decodeWord x (wordI 0x08 d a v) =
      chk [rsv (a == 0), immOk x (.ofWord (wordI 0x08 d a v))] (.li d (immOf x (.ofWord (wordI 0x08 d a v)))) := by
  rw [decodeWord_of_row (wordI_major _ d a v) (by decide) (by decide) (decodeFields_li x)]
  simp

theorem decodeWord_lih (x : Option Ext) (d a : RegNo) (v : BitVec 16) :
    decodeWord x (wordI 0x09 d a v) = chk [plain x, rsv (a == 0)] (.lih d v) := by
  rw [decodeWord_of_row (wordI_major _ d a v) (by decide) (by decide) (decodeFields_lih x)]
  simp

/-- The words of li and lih, whose field a is reserved. -/
theorem liWords (d a : RegNo) (v : BitVec 16) (n : BitVec 32) : decodeWord none (wordI 0x08 d 0 v) = .ok (.li d (.short v)) ∧
    decodeWord (prefixed n) (wordI 0x08 d 0 0) = .ok (.li d (.long n)) ∧
    decodeWord none (wordI 0x09 d 0 v) = .ok (.lih d v) ∧ NotDecoded (prefixed n) (wordI 0x09 d 0 v) ∧
    (a ≠ 0 → NotDecoded none (wordI 0x08 d a v) ∧ NotDecoded (prefixed n) (wordI 0x08 d a v) ∧
      NotDecoded none (wordI 0x09 d a v)) := by
  refine ⟨?_, ?_, ?_, ?_, fun ha => ⟨?_, ?_, ?_⟩⟩
  · simpa using decoded_of_chk (decodeWord_li none d 0 v) (by simp)
  · simpa using decoded_of_chk (decodeWord_li (prefixed n) d 0 0) (by simp)
  · exact decoded_of_chk (decodeWord_lih none d 0 v) (by simp)
  · exact notDecoded_of_chk (decodeWord_lih (prefixed n) d 0 v) (by simp)
  · exact notDecoded_of_chk (decodeWord_li none d a v) (by simp [ha])
  · exact notDecoded_of_chk (decodeWord_li (prefixed n) d a v) (by simp [ha])
  · exact notDecoded_of_chk (decodeWord_lih none d a v) (by simp [ha])

theorem decodeWord_shift (d a : RegNo) (v : BitVec 16) :
    decodeWord none (wordI 0x06 d a v) = dec06 none (.ofWord (wordI 0x06 d a v)) :=
  decodeWord_of_row (wordI_major _ d a v) (by decide) (by decide) (decodeFields_shift none)

/-- The word of a shift whose imm16 holds the number j of its kind and the count k (R231). -/
theorem decodeWord_shift_of_kind {mk : ShImmF → Instr} {j : Nat} (d a : RegNo) {v : BitVec 16} {k : Fin 64}
    (kind : ∀ r : RF, r.imm16.toNat / 2 ^ 14 = j → dec06 none r =
      chk [plain none, rsv (r.imm16.toNat / 64 % 256 == 0)] (mk { d := r.d, a := r.a, n := Fin.ofNat 64 r.imm16.toNat }))
    (hv : v.toNat = j * 2 ^ 14 + k.val) : decodeWord none (wordI 0x06 d a v) = .ok (mk { d := d, a := a, n := k }) := by
  have hj : v.toNat / 2 ^ 14 = j := by omega
  have hr : v.toNat / 64 % 256 = 0 := by omega
  have hk : Fin.ofNat 64 v.toNat = k := Fin.ext ((congrArg (· % 64) hv).trans (by omega))
  have hw := (decodeWord_shift d a v).trans (kind _ (by simpa using hj))
  simp only [ofWord_wordI_d, ofWord_wordI_a, ofWord_wordI_imm16, hk] at hw
  exact decoded_of_chk hw (by simp [hr])

/-- Kind 3 and a nonzero reserved bit are no shift (R231). -/
theorem dec06_error {r : RF} (h : r.imm16.toNat / 2 ^ 14 = 3 ∨ r.imm16.toNat / 2 ^ 6 % 2 ^ 8 ≠ 0) : ∃ e, dec06 none r = .error e := by
  rw [dec06]
  split
  case h_4 => exact ⟨_, rfl⟩
  all_goals
    next hkind =>
      have hr : r.imm16.toNat / 2 ^ 6 % 2 ^ 8 ≠ 0 := h.resolve_left (by omega)
      exact chk_error_of_mem _ ⟨_, List.mem_cons_of_mem _ (List.mem_singleton.mpr rfl), by simpa using hr⟩

theorem shiftWords (d a : RegNo) (v : BitVec 16) :
    (∀ k : Fin 64, v.toNat = k.val → decodeWord none (wordI 0x06 d a v) = .ok (.shli { d := d, a := a, n := k })) ∧
    (∀ k : Fin 64, v.toNat = 2 ^ 14 + k.val → decodeWord none (wordI 0x06 d a v) = .ok (.shri { d := d, a := a, n := k })) ∧
    (∀ k : Fin 64, v.toNat = 2 ^ 15 + k.val → decodeWord none (wordI 0x06 d a v) = .ok (.sari { d := d, a := a, n := k })) ∧
    (v.toNat / 2 ^ 14 = 3 ∨ v.toNat / 2 ^ 6 % 2 ^ 8 ≠ 0 → NotDecoded none (wordI 0x06 d a v)) := by
  refine ⟨fun k hv => ?_, fun k hv => ?_, fun k hv => ?_, fun h => ?_⟩
  · exact decodeWord_shift_of_kind (j := 0) d a (fun r h => by simp only [dec06, h]) (by omega)
  · exact decodeWord_shift_of_kind (j := 1) d a (fun r h => by simp only [dec06, h]) (by omega)
  · exact decodeWord_shift_of_kind (j := 2) d a (fun r h => by simp only [dec06, h]) (by omega)
  · rw [NotDecoded, decodeWord_shift]
    exact dec06_error (by simpa using h)

theorem immediateWords : ImmediateWords :=
  ⟨immEncoded_addi, immEncoded_andi, immEncoded_ori, immEncoded_xori, immEncoded_slti, liWords, shiftWords⟩

/-! ## What an immediate form does -/

/-- An I-format instruction with its registers full writes op of its source and retires. -/
theorem aluI_effect {s : State} {d a : RegNo} (len : Nat) (op : Word → Word) (ha : s.Has a) (hd : s.Has d) :
    ∃ t, s.aluI d a len op = .next t ∧ ScalarEffect s t d (op (s.val a)) (s.mySide.advance len) := by
  refine ⟨(s.put d (op (s.val a))).retire len, ?_, ?_⟩
  · rw [State.aluI, src_ok s a false ha, dst_ok s d hd]
    rfl
  · rw [put_retire]
    exact scalarEffect_put s d _ _

theorem immDoes_of_aluI {mk : ImmF → Instr} {op : Word → Imm → Word → Prop} (g : Word → Imm → Word)
    (hmk : ∀ f s, exec (mk f) s = s.aluI f.d f.a f.imm.len fun a => g a f.imm) (hop : ∀ a n, op a n (g a n)) : ImmDoes mk op := by
  intro s f ha hd
  obtain ⟨t, ht, he⟩ := aluI_effect f.imm.len (fun a => g a f.imm) ha hd
  exact ⟨t, _, (hmk f s).trans ht, hop _ _, he⟩

theorem shiftImmDoes_of_aluI {mk : ShImmF → Instr} {op : Word → Nat → Word → Prop} (g : Word → Nat → Word)
    (hmk : ∀ f s, exec (mk f) s = s.aluI f.d f.a 4 fun a => g a f.n.val) (hop : ∀ a n, op a n (g a n)) : ShiftImmDoes mk op := by
  intro s f ha hd
  obtain ⟨t, ht, he⟩ := aluI_effect 4 (fun a => g a f.n.val) ha hd
  exact ⟨t, _, (hmk f s).trans ht, hop _ _, he⟩

theorem has_zero (s : State) : s.Has 0 := rfl

theorem b2w_slt (a b : Word) : b2w (a.slt b) = if a.toInt < b.toInt then 1 else 0 := by
  simp only [b2w, BitVec.slt_iff_toInt_lt]

/-- lih moves d up by 16 bits and puts imm16 below (R230). -/
theorem toNat_shiftLeft_or_imm16 (x : Word) (n : BitVec 16) :
    ((x <<< 16) ||| n.zeroExtend 64).toNat = (x.toNat * 2 ^ 16 + n.toNat) % 2 ^ 64 := by
  have hn : n.toNat < 2 ^ 16 := n.isLt
  have hx : x.toNat <<< 16 % 2 ^ 64 = (x.toNat % 2 ^ 48) <<< 16 := by
    rw [Nat.shiftLeft_eq, Nat.shiftLeft_eq]; omega
  rw [BitVec.toNat_or, BitVec.toNat_shiftLeft, hx, BitVec.toNat_setWidth, Nat.mod_eq_of_lt (by omega : n.toNat < 2 ^ 64),
    ← Nat.shiftLeft_add_eq_or_of_lt hn, Nat.shiftLeft_eq]
  omega

end Machine

open Machine

/-- Settles O4: the words by the checks of their rows, the results by what an I-format instruction does. -/
theorem immediateFormsWriteTheirResult : Obligations.ImmediateFormsWriteTheirResult := by
  unfold Obligations.ImmediateFormsWriteTheirResult
  refine ⟨immediateWords, ?addi, ?andi, ?ori, ?xori, ?slti, ?li, ?lih, ?shli, ?shri, ?sari⟩
  case addi => exact immDoes_of_aluI (fun a n => a + n.sx) (fun _ _ => rfl) fun _ _ => rfl
  case andi => exact immDoes_of_aluI (fun a n => a &&& n.zx) (fun _ _ => rfl) fun _ _ => rfl
  case ori => exact immDoes_of_aluI (fun a n => a ||| n.zx) (fun _ _ => rfl) fun _ _ => rfl
  case xori => exact immDoes_of_aluI (fun a n => a ^^^ n.zx) (fun _ _ => rfl) fun _ _ => rfl
  case slti => exact immDoes_of_aluI (fun a n => b2w (a.slt n.sx)) (fun _ _ => rfl) fun a n => b2w_slt a n.sx
  case li => exact fun s d n hd => aluI_effect n.len (fun _ => n.sx) (has_zero s) hd
  case lih =>
    intro s d n hd
    obtain ⟨t, ht, he⟩ := aluI_effect 4 (fun x => (x <<< 16) ||| n.zeroExtend 64) hd hd
    exact ⟨t, _, ht, toNat_shiftLeft_or_imm16 _ n, he⟩
  case shli =>
    exact shiftImmDoes_of_aluI (fun a n => a <<< n) (fun _ _ => rfl) fun a n => by rw [BitVec.toNat_shiftLeft, Nat.shiftLeft_eq]
  case shri =>
    exact shiftImmDoes_of_aluI (fun a n => a >>> n) (fun _ _ => rfl) fun a n => by
      rw [BitVec.toNat_ushiftRight, Nat.shiftRight_eq_div_pow]
  case sari =>
    exact shiftImmDoes_of_aluI (fun a n => a.sshiftRight n) (fun _ _ => rfl) fun a n => by
      rw [BitVec.toInt_sshiftRight, Int.shiftRight_eq_div_pow]; norm_cast

end Sys2Proof
end

section
/-!
SUPPORT. The transfers (R210, R233): their words, the bytes that a displacement spans, and where each goes.
-/

namespace Sys2Proof
namespace Machine

/-! ## The words of the transfers (R211, R233) -/

/-- The words of a transfer with a displacement of 22 bits: disp22, or the extended form's IMM32 with disp22 zero. -/
def DispEncoded (op : Nat) (mk : Disp → Instr) : Prop :=
  ∀ (v : BitVec 22) (n : BitVec 32),
    decodeWord none (wordB op v) = .ok (mk (.short v)) ∧
    decodeWord (prefixed n) (wordB op 0) = .ok (mk (.long n)) ∧
    (v ≠ 0 → NotDecoded (prefixed n) (wordB op v))

theorem dispEncoded_of_row {op : Nat} {mk : Disp → Instr} (h0 : 0 < op) (h1 : op < 0x3E)
    (row : ∀ x (r : RF), r.op.val = op → decodeFields x r = chk (dispOk x r) (mk (dispOf x r))) : DispEncoded op mk := by
  intro v n
  have hw (x : Option Ext) (u : BitVec 22) := decodeWord_of_row (wordB_major op u) h0 h1 (row x)
  refine ⟨?_, ?_, fun hv => ?_⟩
  · simpa using decoded_of_chk (hw none v) (by simp [dispOk])
  · simpa using decoded_of_chk (hw (prefixed n) 0) (by simp [dispOk])
  · exact notDecoded_of_chk (hw (prefixed n) v) (by simpa [dispOk] using hv)

/-- The words of a branch on a register: imm16, or the extended form's IMM32 with imm16 zero; field d is reserved. -/
def BranchEncoded (op : Nat) (mk : RegNo → Imm → Instr) : Prop :=
  ∀ (a d : RegNo) (v : BitVec 16) (n : BitVec 32),
    decodeWord none (wordI op 0 a v) = .ok (mk a (.short v)) ∧
    decodeWord (prefixed n) (wordI op 0 a 0) = .ok (mk a (.long n)) ∧
    (v ≠ 0 → NotDecoded (prefixed n) (wordI op 0 a v)) ∧
    (d ≠ 0 → NotDecoded none (wordI op d a v))

theorem branchEncoded_of_row {op : Nat} {mk : RegNo → Imm → Instr} (h0 : 0 < op) (h1 : op < 0x3E)
    (row : ∀ x (r : RF), r.op.val = op → decodeFields x r = chk [rsv (r.d == 0), immOk x r] (mk r.a (immOf x r))) :
    BranchEncoded op mk := by
  intro a d v n
  have hw (x : Option Ext) (e : RegNo) (u : BitVec 16) := decodeWord_of_row (wordI_major op e a u) h0 h1 (row x)
  refine ⟨?_, ?_, fun hv => ?_, fun hd => ?_⟩
  · simpa using decoded_of_chk (hw none 0 v) (by simp)
  · simpa using decoded_of_chk (hw (prefixed n) 0 0) (by simp)
  · exact notDecoded_of_chk (hw (prefixed n) 0 v) (by simpa using hv)
  · exact notDecoded_of_chk (hw none d v) (by simp [hd])

theorem dispEncoded_br : DispEncoded 0x0B .br :=
  dispEncoded_of_row (by decide) (by decide) fun x r h => by simp only [decodeFields, h]
theorem dispEncoded_call : DispEncoded 0x0E .call :=
  dispEncoded_of_row (by decide) (by decide) fun x r h => by simp only [decodeFields, h]
theorem branchEncoded_bz : BranchEncoded 0x0C .bz :=
  branchEncoded_of_row (by decide) (by decide) fun x r h => by simp only [decodeFields, h]
theorem branchEncoded_bnz : BranchEncoded 0x0D .bnz :=
  branchEncoded_of_row (by decide) (by decide) fun x r h => by simp only [decodeFields, h]

theorem decodeFields_returns (x : Option Ext) (r : RF) (h : r.op.val = 0x0F) : decodeFields x r = dec0F x r := by
  simp only [decodeFields, h]

theorem decodeWord_returns (x : Option Ext) (d a b : RegNo) (fa fb : Bool) (m : Fin 16) (fn : Fin 32) :
    decodeWord x (wordR 0x0F d a b fa fb m fn.val) = dec0F x
      { op := 0x0F, d := d, a := a, b := b, q := Fin.ofNat 4 (2 * fa.toNat + fb.toNat), m := m, fn := fn } := by
  rw [decodeWord_of_row (wordR_major _ d a b fa fb m fn) (by decide) (by decide) (decodeFields_returns x),
    ofWord_wordR (by decide)]
  rfl

theorem decodeWord_ret (x : Option Ext) (d a b : RegNo) (fa fb : Bool) (m : Fin 16) :
    decodeWord x (wordR 0x0F d a b fa fb m 0) =
      chk [plain x, rsv (d == 0 && a == 0 && b == 0 && (!fa && !fb) && m == 0)] .ret := by
  rw [← flags_zero]
  exact decodeWord_returns x d a b fa fb m 0

theorem decodeWord_jr (x : Option Ext) (d a b : RegNo) (fa fb : Bool) (m : Fin 16) :
    decodeWord x (wordR 0x0F d a b fa fb m 1) =
      chk [plain x, rsv (d == 0 && b == 0 && !fb && m == 0)] (.jr { r := a, fe := fa }) := by
  refine (decodeWord_returns x d a b fa fb m 1).trans ?_
  simp only [dec0F, RF.srcA, RF.fa, RF.fb, flags_fa, flags_fb]
  rfl

/-- The words of ret and jr: every field they do not name is reserved, and neither has an extended form. -/
theorem returnWords (d a b : RegNo) (fa fb : Bool) (m : Fin 16) (n : BitVec 32) :
    decodeWord none (wordR 0x0F 0 0 0 false false 0 0) = .ok .ret ∧
    (¬ (d = 0 ∧ a = 0 ∧ b = 0 ∧ fa = false ∧ fb = false ∧ m = 0) → NotDecoded none (wordR 0x0F d a b fa fb m 0)) ∧
    decodeWord none (wordR 0x0F 0 a 0 fa false 0 1) = .ok (.jr { r := a, fe := fa }) ∧
    (¬ (d = 0 ∧ b = 0 ∧ fb = false ∧ m = 0) → NotDecoded none (wordR 0x0F d a b fa fb m 1)) ∧
    NotDecoded (prefixed n) (wordR 0x0F d a b fa fb m 0) ∧ NotDecoded (prefixed n) (wordR 0x0F d a b fa fb m 1) := by
  refine ⟨?_, fun h => ?_, ?_, fun h => ?_, ?_, ?_⟩
  · exact decoded_of_chk (decodeWord_ret none 0 0 0 false false 0) (by simp)
  · exact notDecoded_of_chk (decodeWord_ret none d a b fa fb m) (by simpa [and_assoc] using h)
  · exact decoded_of_chk (decodeWord_jr none 0 a 0 fa false 0) (by simp)
  · exact notDecoded_of_chk (decodeWord_jr none d a b fa fb m) (by simpa [and_assoc] using h)
  · exact notDecoded_of_chk (decodeWord_ret (prefixed n) d a b fa fb m) (by simp)
  · exact notDecoded_of_chk (decodeWord_jr (prefixed n) d a b fa fb m) (by simp)

/-- Four times a displacement that is short of 64 bits by two loses no bit (R211). -/
theorem toInt_four_mul_signExtend {w : Nat} (v : BitVec w) (hw : w ≤ 62) : (4 * v.signExtend 64 : Word).toInt = 4 * v.toInt := by
  have hlt : 2 * v.toInt < 2 ^ 62 := lt_of_lt_of_le BitVec.two_mul_toInt_lt (pow_le_pow_right₀ (by decide) hw)
  have hle : -2 ^ 62 ≤ 2 * v.toInt := le_trans (neg_le_neg (pow_le_pow_right₀ (by decide) hw)) BitVec.le_two_mul_toInt
  rw [BitVec.toInt_mul, BitVec.toInt_signExtend_of_le (by omega)]
  exact Int.bmod_eq_of_le (by push_cast; omega) (by push_cast; omega)

/-! ## Where a transfer goes -/

/-- A target that is no multiple of 4 ends the course with ALIGN (R210). -/
theorem target_misaligned {pc : Word} (h : pc.toNat % 4 ≠ 0) : target pc = raise { code := 0x0A, info := infoA pc 0 } := by
  simp [target, orTrap, h, raise, trapA, cALIGN]

theorem jump_aligned (s : State) {pc : Word} (h : pc.toNat % 4 = 0) : s.jump pc = .ok (s.goto pc) := by
  rw [State.jump, target_ok pc h]; rfl

theorem jump_misaligned (s : State) {pc : Word} (h : pc.toNat % 4 ≠ 0) :
    s.jump pc = raise { code := 0x0A, info := infoA pc 0 } := by
  rw [State.jump, target_misaligned h]; rfl

/-- A course that ends with ALIGN for its target enters the handler. -/
theorem finish_align {s : State} (hs : s.CanTrap) (pc : Word) :
    ∃ t, s.finish (raise { code := 0x0A, info := infoA pc 0 }) = .next t ∧ TrapTaken s t 0x0A (infoA pc 0) :=
  ⟨_, rfl, trapTaken_enter s hs 0x0A (infoA pc 0) (by decide)⟩

theorem transfersTo_of_jump {i : Instr} {s : State} {pc : Word} (h : exec i s = s.finish (s.jump pc)) : TransfersTo i s pc := by
  rw [TransfersTo, h]
  refine ⟨fun hpc => ?_, fun hpc hs => ?_⟩
  · rw [jump_aligned s hpc]
    exact ⟨s.goto pc, rfl, sideEffect_goto s pc⟩
  · rw [jump_misaligned s hpc]
    exact finish_align hs pc

theorem branchIf_taken {s : State} {a : RegNo} {c : Word → Bool} (n : Imm) (ha : s.Has a) (hc : c (s.val a) = true) :
    s.branchIf a n c = s.finish (s.jump (s.mySide.pc + n.bytes)) := by
  rw [State.branchIf, src_ok s a false ha]
  exact congrArg s.finish (if_pos hc)

theorem branchIf_not_taken {s : State} {a : RegNo} {c : Word → Bool} (n : Imm) (ha : s.Has a) (hc : c (s.val a) = false) :
    s.branchIf a n c = .next (s.retire n.len) := by
  rw [State.branchIf, src_ok s a false ha]
  exact congrArg s.finish (if_neg (by simp [hc]))

/-- A branch on an empty register waits (R81). -/
theorem branchIf_empty {s : State} {a : RegNo} {c : Word → Bool} (n : Imm) (ha : s.me.full s.cur.side a = false) :
    s.branchIf a n c = .next s := by
  have hsrc : s.src a false = waits := by simp [State.src, ha]
  rw [State.branchIf, hsrc]
  rfl

theorem transferWords : TransferWords := by
  refine ⟨fun v n => ?_, fun a d v n => ?_, fun d a b fa fb m n => returnWords d a b fa fb m n, fun s n a ha => ?_⟩
  · obtain ⟨hbr, hbrx, hbr0⟩ := dispEncoded_br v n
    obtain ⟨hcall, hcallx, hcall0⟩ := dispEncoded_call v n
    exact ⟨hbr, hbrx, hcall, hcallx, fun hv => ⟨hbr0 hv, hcall0 hv⟩, toInt_four_mul_signExtend v (by decide),
      toInt_four_mul_signExtend n (by decide)⟩
  · obtain ⟨hbz, hbzx, hbz0, hbzd⟩ := branchEncoded_bz a d v n
    obtain ⟨hbnz, hbnzx, hbnz0, hbnzd⟩ := branchEncoded_bnz a d v n
    exact ⟨hbz, hbzx, hbnz, hbnzx, fun hv => ⟨hbz0 hv, hbnz0 hv⟩, fun hd => ⟨hbzd hd, hbnzd hd⟩,
      toInt_four_mul_signExtend v (by decide), toInt_four_mul_signExtend n (by decide)⟩
  · exact ⟨branchIf_empty n ha, branchIf_empty n ha⟩

/-- A branch whose instruction is branchIf with condition c: it goes to its target where c holds, else it retires (R233). -/
theorem branch_transfers {mk : RegNo → Imm → Instr} {c : Word → Bool} (hmk : ∀ a n s, exec (mk a n) s = s.branchIf a n c)
    (s : State) (a : RegNo) (n : Imm) (ha : s.Has a) :
    (c (s.val a) = true → TransfersTo (mk a n) s (s.mySide.pc + n.bytes)) ∧
    (c (s.val a) = false → ∃ t, exec (mk a n) s = .next t ∧ SideEffect s t (s.mySide.advance n.len)) :=
  ⟨fun hc => transfersTo_of_jump ((hmk a n s).trans (branchIf_taken n ha hc)),
   fun hc => ⟨_, (hmk a n s).trans (branchIf_not_taken n ha hc), sideEffect_retire s n.len⟩⟩

/-- call with its link register full writes the address after it there and goes to an aligned target (R233). -/
theorem call_aligned {s : State} {n : Disp} (hd : s.Has 27) (hpc : (s.mySide.pc + n.bytes).toNat % 4 = 0) :
    ∃ t, exec (.call n) s = .next t ∧
      ScalarEffect s t 27 (s.mySide.pc + BitVec.ofNat 64 n.len) { s.mySide with pc := s.mySide.pc + n.bytes } := by
  have hside (v : Word) : (s.put 27 v).mySide = s.mySide := by simp [State.put, State.mySide]
  refine ⟨(s.put 27 (s.mySide.pc + BitVec.ofNat 64 n.len)).goto (s.mySide.pc + n.bytes), ?_, ?_⟩
  · change execCall n s = _
    rw [execCall, target_ok _ hpc, linkReg, dst_ok s 27 hd]
    rfl
  · rw [State.goto, put_setMySide, hside]
    exact scalarEffect_put s 27 _ _

theorem call_misaligned {s : State} {n : Disp} (hs : s.CanTrap) (hpc : (s.mySide.pc + n.bytes).toNat % 4 ≠ 0) :
    ∃ t, exec (.call n) s = .next t ∧ TrapTaken s t 0x0A (infoA (s.mySide.pc + n.bytes) 0) := by
  change ∃ t, execCall n s = _ ∧ _
  rw [execCall, target_misaligned hpc]
  exact finish_align hs _

/-- ret and jr go to the register they read. -/
theorem jump_src {s : State} {r : SrcR} (h : s.Has r.r) :
    (s.finish do
      let x ← s.srcR r
      s.jump x) = s.finish (s.jump (s.val r.r)) := by
  rw [srcR_ok s r h]; rfl

end Machine

open Machine

/-- Settles O5: the words by the checks of their rows, the transfers by what a jump to an aligned or a misaligned target does. -/
theorem transfersGoToTheirTarget : Obligations.TransfersGoToTheirTarget := by
  unfold Obligations.TransfersGoToTheirTarget
  refine ⟨transferWords, ?br, ?bz, ?bnz, ?call, ?ret, ?jr⟩
  case br => exact fun s n => transfersTo_of_jump rfl
  case bz => simpa using branch_transfers (mk := .bz) (c := fun x => x == 0) fun _ _ _ => rfl
  case bnz => simpa using branch_transfers (mk := .bnz) (c := fun x => x != 0) fun _ _ _ => rfl
  case call => exact fun s n hd => ⟨call_aligned hd, fun hpc hs => call_misaligned hs hpc⟩
  case ret => exact fun s hd => transfersTo_of_jump (jump_src (r := { r := 27, fe := false }) hd)
  case jr => exact fun s a ha => transfersTo_of_jump (jump_src ha)

end Sys2Proof
end
